-- ==== Sys2Proof/Word.lean ====
section
/-! DEFINITION. The word types of the Dortica 2240: the widths the manual gives its fields and data paths
(00_scope.md "Scope": 32-bit addresses; lines of 32 bytes; granules of 64 bytes). -/

namespace Sys2Proof

abbrev Byte := BitVec 8
abbrev Half := BitVec 16
/-- A 32-bit address, operand, sequence or checkpoint number. -/
abbrev Word := BitVec 32
/-- The data of one line access: byte `k` of the line is bits `8k+7 … 8k`. -/
abbrev Line := BitVec 256
/-- The contents of one 64-byte granule: byte `k` is bits `8k+7 … 8k`. -/
abbrev Image := BitVec 512
/-- One of the six lanes (R144). -/
abbrev Lane := Fin 6

end Sys2Proof
end

