-- ==== Sys2Proof/Syntax.lean ====
section
/-! DEFINITION. The commands of the block: one constructor of `Instr` per row of spec/opcode_table.json, and the operands
that reach the part from outside with them (an access of the bus master, an answer of memory, the PAGE straps) or that name
which of several waiting pieces of work is taken (a lane). -/

namespace Sys2Proof

/-- The two shapes of an access (R120). -/
inductive Shape where
  | single
  | line
  deriving DecidableEq, Repr

/-- One access on either port (R120, R121). `addr` is the address of the first byte it moves. `mask` and `data` are laid out
over the access's aligned unit (the aligned 8-byte word of a single, the line of a line access): bit `k` of `mask` names the
byte at the unit's base + `k`, and byte `k` of `data` is that byte's value. -/
structure Access where
  write : Bool
  shape : Shape
  addr  : Word
  mask  : BitVec 32
  data  : Line
  deriving DecidableEq, Repr

/-- Memory's answer to an access that is passed upstream as it is (R127, R129): DONE (with data for a read), FAULT or RETRY. -/
inductive Answer where
  | done (data : Line)
  | fault
  | retry
  deriving DecidableEq, Repr

/-- Memory's final answer to an own access (R133; 00_scope.md "Conventions"): DONE (with data for a read) or FAULT. -/
inductive FinalAnswer where
  | done (data : Line)
  | fault
  deriving DecidableEq, Repr

/-- The commands: the events and operations of spec/opcode_table.json, in the table's order. -/
inductive Instr where
  /-- PIN_RESET (R142), with the straps PAGE[15:0] sampled by it (R139). -/
  | pinReset (page : Half)
  /-- RESET_PART (R161). -/
  | resetPart
  /-- SOFT_RESET_PORT_IDLE (R143). -/
  | softResetPortIdle
  /-- START_UP (R140), with memory's final answer to the start-up status word write. -/
  | startUp (answer : FinalAnswer)
  /-- STATUS_WORD_WRITE (R141). -/
  | statusWordWrite
  /-- HOST_ACCESS_ARRIVAL (R123), with the access. -/
  | hostAccessArrival (access : Access)
  /-- HOLD_LIMIT_EXPIRY (R132). -/
  | holdLimitExpiry
  /-- FORWARD_READ (R127). -/
  | forwardRead
  /-- FORWARD_WRITE (R128). -/
  | forwardWrite
  /-- ORDERED_READ_ANSWER (R127), with memory's answer. -/
  | orderedReadAnswer (answer : Answer)
  /-- FORWARDED_WRITE_ANSWER (R129), with memory's answer. -/
  | forwardedWriteAnswer (answer : Answer)
  /-- SUBMIT (R147). -/
  | submit
  /-- FLUSH (R159). -/
  | flush
  /-- NO_REQUEST (R146). -/
  | noRequest
  /-- CONSUME_WORD (R172). -/
  | consumeWord
  /-- MEMORY_PORT_GRANT (R135). -/
  | memoryPortGrant
  /-- RETRY_REISSUE (R133). -/
  | retryReissue
  /-- RETRY_LIMIT_EXHAUSTED (R133). -/
  | retryLimitExhausted
  /-- CONFIGURE_PATH (R138), dispatched by a lane. -/
  | configurePath (lane : Lane)
  /-- DEFINE_REGION (R7), dispatched by a lane. -/
  | defineRegion (lane : Lane)
  /-- START_CAPTURE (R8), dispatched by a lane. -/
  | startCapture (lane : Lane)
  /-- STOP_CAPTURE (R9), dispatched by a lane. -/
  | stopCapture (lane : Lane)
  /-- CLEAR_FAULT (R10), dispatched by a lane. -/
  | clearFault (lane : Lane)
  /-- DELETE_REGION (R11), dispatched by a lane. -/
  | deleteRegion (lane : Lane)
  /-- CAPTURE_REQUEST (R24). -/
  | captureRequest
  /-- CAPTURE_TRANSFER_ANSWER (R25), with memory's final answer. -/
  | captureTransferAnswer (answer : FinalAnswer)
  /-- STALL_TIMER_EXPIRY (R31). -/
  | stallTimerExpiry
  /-- ATTACH_LOG (R37). -/
  | attachLog
  /-- VOIDING_START (R38). -/
  | voidingStart
  /-- VOID_WRITE_ANSWER (R38), with memory's final answer. -/
  | voidWriteAnswer (answer : FinalAnswer)
  /-- DETACH_LOG (R39). -/
  | detachLog
  /-- MARK (R46). -/
  | mark
  /-- MARK_APPEND (R49). -/
  | markAppend
  /-- RELEASE (R50). -/
  | release
  /-- REPORT_LOG (R53). -/
  | reportLog
  /-- REPORT_WRITE_ANSWER (R55), with memory's final answer. -/
  | reportWriteAnswer (answer : FinalAnswer)
  /-- ROLLBACK (R57). -/
  | rollback
  /-- ROLLBACK_DRAIN_END (R61). -/
  | rollbackDrainEnd
  /-- RESTORE_ACCESS_ANSWER (R62), with memory's final answer. -/
  | restoreAccessAnswer (answer : FinalAnswer)
  /-- MARKER_WRITE_ANSWER (R67), with memory's final answer. -/
  | markerWriteAnswer (answer : FinalAnswer)
  /-- ADOPT_LOG (R79). -/
  | adoptLog
  /-- SELECT_PASS_START (R81). -/
  | selectPassStart
  /-- SCAN_READ_ANSWER (R84), with memory's final answer. -/
  | scanReadAnswer (answer : FinalAnswer)
  /-- COPY (R98). -/
  | copy
  /-- FRONTIER_TRANSFER_ANSWER (R101), with memory's final answer. -/
  | frontierTransferAnswer (answer : FinalAnswer)
  /-- PACING_WINDOW_EXPIRY (R104). -/
  | pacingWindowExpiry
  /-- COPY_AHEAD_REQUEST (R110). -/
  | copyAheadRequest
  /-- COPY_AHEAD_TRANSFER_ANSWER (R107), with memory's final answer. -/
  | copyAheadTransferAnswer (answer : FinalAnswer)
  /-- CANCEL_COPY (R117), dispatched by a lane. -/
  | cancelCopy (lane : Lane)
  /-- DESCRIPTOR_FETCH_ANSWER (R149), with memory's final answer. -/
  | descriptorFetchAnswer (answer : FinalAnswer)
  /-- NULL (R152), dispatched by a lane. -/
  | null (lane : Lane)
  /-- OUTCOME_WRITE_ANSWER (R155), with memory's final answer. -/
  | outcomeWriteAnswer (answer : FinalAnswer)
  /-- DIRECT_OUTCOME_WRITE_ANSWER (R148), with memory's final answer. -/
  | directOutcomeWriteAnswer (answer : FinalAnswer)
  /-- CONFIGURE_ATTENTION (R167), dispatched by a lane. -/
  | configureAttention (lane : Lane)
  /-- ATTENTION_POSTING (R170). -/
  | attentionPosting
  /-- ATTENTION_WRITE_ANSWER (R170), with memory's final answer. -/
  | attentionWriteAnswer (answer : FinalAnswer)
  /-- STATUS_WORD_WRITE_ANSWER (R141), with memory's final answer. -/
  | statusWordWriteAnswer (answer : FinalAnswer)
  deriving DecidableEq, Repr

end Sys2Proof
end

