-- ==== Sys2Proof/Decode.lean ====
section
/-! DEFINITION. The reading of a command from a word. No row of spec/opcode_table.json gives a command any bits (its commands are
events and operations, not encoded words), so no word spells one. -/

namespace Sys2Proof

/-- The command that a word spells by the table's bits: none, since every row's field list is empty. -/
def decodeTableWord (_nbits _w : Nat) : Option Instr := none

end Sys2Proof
end

