-- ==== Sys2Proof/WellFormed.lean ====
section
/-! DEFINITION. Which operands a command may carry. Only an access has a form to check: the bus master presents singles and
lines, and nothing else (R120). -/

namespace Sys2Proof

/-- The mask of `n` contiguous bytes from byte `off` of a unit. -/
def spanMask (off n : Nat) : BitVec 32 := BitVec.ofNat 32 ((2 ^ n - 1) * 2 ^ off)

/-- R120: a single moves 1 to 8 contiguous bytes inside one aligned 8-byte word, and its address is its first byte's. -/
def Access.singleWf (a : Access) : Bool :=
  (List.range 8).any fun n =>
    decide (a.addr.toNat % 8 + (n + 1) ≤ 8) && a.mask == spanMask (a.addr.toNat % 8) (n + 1)

/-- R120: a line moves 32 bytes at a 32-aligned address. -/
def Access.lineWf (a : Access) : Bool :=
  a.addr.toNat % 32 == 0 && a.mask == spanMask 0 32

/-- An access of one of the two shapes of R120. -/
def Access.wf (a : Access) : Bool :=
  match a.shape with
  | .single => a.singleWf
  | .line => a.lineWf

/-- A command whose operands have the form the spec gives them. -/
def Instr.wf : Instr → Bool
  | .pinReset _ => true
  | .resetPart => true
  | .softResetPortIdle => true
  | .startUp _ => true
  | .statusWordWrite => true
  | .hostAccessArrival a => a.wf
  | .holdLimitExpiry => true
  | .forwardRead => true
  | .forwardWrite => true
  | .orderedReadAnswer _ => true
  | .forwardedWriteAnswer _ => true
  | .submit => true
  | .flush => true
  | .noRequest => true
  | .consumeWord => true
  | .memoryPortGrant => true
  | .retryReissue => true
  | .retryLimitExhausted => true
  | .configurePath _ => true
  | .defineRegion _ => true
  | .startCapture _ => true
  | .stopCapture _ => true
  | .clearFault _ => true
  | .deleteRegion _ => true
  | .captureRequest => true
  | .captureTransferAnswer _ => true
  | .stallTimerExpiry => true
  | .attachLog => true
  | .voidingStart => true
  | .voidWriteAnswer _ => true
  | .detachLog => true
  | .mark => true
  | .markAppend => true
  | .release => true
  | .reportLog => true
  | .reportWriteAnswer _ => true
  | .rollback => true
  | .rollbackDrainEnd => true
  | .restoreAccessAnswer _ => true
  | .markerWriteAnswer _ => true
  | .adoptLog => true
  | .selectPassStart => true
  | .scanReadAnswer _ => true
  | .copy => true
  | .frontierTransferAnswer _ => true
  | .pacingWindowExpiry => true
  | .copyAheadRequest => true
  | .copyAheadTransferAnswer _ => true
  | .cancelCopy _ => true
  | .descriptorFetchAnswer _ => true
  | .null _ => true
  | .outcomeWriteAnswer _ => true
  | .directOutcomeWriteAnswer _ => true
  | .configureAttention _ => true
  | .attentionPosting => true
  | .attentionWriteAnswer _ => true
  | .statusWordWriteAnswer _ => true

end Sys2Proof
end

