-- ==== Sys2Proof/Machine/Bits.lean ====
section
/-! DEFINITION. Addresses, ranges, byte fields and the check value: the arithmetic the blocks share. -/

namespace Sys2Proof.Machine

/-- The granule that holds an address: 64 bytes, 64-aligned (00_scope.md "Granule"). -/
def granuleOf (a : Word) : Word := a &&& 0xFFFFFFC0#32

/-- The 32-aligned line that holds an address. -/
def lineOf (a : Word) : Word := a &&& 0xFFFFFFE0#32

/-- Two ranges, each a base and a length, share at least one byte (00_scope.md "Conventions"). -/
def overlaps (base₁ len₁ base₂ len₂ : Nat) : Bool :=
  decide (0 < len₁ ∧ 0 < len₂ ∧ base₁ < base₂ + len₂ ∧ base₂ < base₁ + len₁)

/-- A range of `len` bytes, `len` above 0, passes 4 GiB: its last byte lies above 0xFFFFFFFF. -/
def passes4GiB (base len : Nat) : Bool := decide (0x100000000 < base + len)

/-- The base of the aligned unit an access's mask and data are laid out over. -/
def unitBase (s : Shape) (a : Word) : Word :=
  match s with
  | .single => a &&& 0xFFFFFFF8#32
  | .line => lineOf a

/-- The bytes in a unit of this shape. -/
def unitSize : Shape → Nat
  | .single => 8
  | .line => 32

/-- The `w` bits at byte offset `off` of a little-endian structure. -/
def field {n : Nat} (x : BitVec n) (off w : Nat) : BitVec w := x.extractLsb' (8 * off) w

/-- A value placed at byte offset `off` of a structure of `n` bits that is zero elsewhere. -/
def place (n : Nat) {w : Nat} (v : BitVec w) (off : Nat) : BitVec n := v.setWidth n <<< (8 * off)

/-- The first `k` bytes of a structure, in ascending address order. -/
def bytesOf {n : Nat} (x : BitVec n) (k : Nat) : List Byte := (List.range k).map fun i => field x i 8

/-- One bit of the cyclic redundancy check of R177: generator 0x1021, most significant bit first. -/
def crcBit (crc : Half) : Half := if crc.msb then crc <<< 1 ^^^ 0x1021#16 else crc <<< 1

/-- One byte of the check of R177. -/
def crcByte (crc : Half) (b : Byte) : Half :=
  crcBit (crcBit (crcBit (crcBit (crcBit (crcBit (crcBit (crcBit (crc ^^^ b.setWidth 16 <<< 8))))))))

/-- The check of R177 over bytes in ascending address order, from the initial value 0xFFFF, with no final inversion. -/
def crc16 (bytes : List Byte) : Half := bytes.foldl crcByte 0xFFFF#16

/-- One line read at an address (R121). -/
def readLine (a : Word) : Access :=
  { write := false, shape := .line, addr := lineOf a, mask := spanMask 0 32, data := 0#256 }

/-- One line write at a 32-aligned address (R121). -/
def writeLine (a : Word) (data : Line) : Access :=
  { write := true, shape := .line, addr := a, mask := spanMask 0 32, data := data }

/-- One single write of the `len` bytes from `a`, within one aligned 8-byte word; `data` is laid out over that word (R121). -/
def writeSingle (a : Word) (len : Nat) (data : Line) : Access :=
  { write := true, shape := .single, addr := a, mask := spanMask (a.toNat % 8) len, data := data }

end Sys2Proof.Machine
end

