-- ==== Sys2Proof/Config.lean ====
section
/-! DEFINITION. What the part fixes (capacities and limits of the manual) and the one value the manual leaves open. -/

namespace Sys2Proof.Config

/-- The retry limit of R133: a transaction issues its access at most 17 times. -/
def retryLimit : Nat := 16

/-- The post queue is a queue of 4 entries (R126). -/
def postDepth : Nat := 4

/-- Each lane's queue holds at most 6 entries (R144). -/
def laneDepth : Nat := 6

/-- The checkpoint list holds 0 to 24 entries (R43). -/
def listMax : Nat := 24

/-- The logged-granule table holds up to 1,024 granule addresses (R27). -/
def tableMax : Nat := 1024

/-- A SEQUENCE that a record may not take (R20). -/
def seqMax : Word := 0xFFFFFFFF#32

/-- FREE VALUE (log entry 1). What next sequence becomes when an adopt scan ends on a MARKER whose SEQUENCE is
0xFFFFFFFF: R83 gives "its SEQUENCE + 1", which lies outside the 32-bit field, and states no result. The machine goes on;
nothing constrains the value. -/
opaque sequencePastMax : Nat → Word

end Sys2Proof.Config
end

