-- ==== Sys2Proof/Machine/Blocks.lean ====
section
/-! DEFINITION. The state of the Dortica 2240, block by block (Table 0-1), as plain data: the types that Machine/State.lean
puts together. Fields that are the model's own and not the manual's say so. Reset values are in Machine/ResetValues.lean. -/

namespace Sys2Proof.Machine

/-! ## Region Table (01_tracked_regions.md) -/

/-- STATE of a region entry (R1, Table 1-1). -/
inductive RegionState where
  | free | idle | capturing | restoring | faulted
  deriving DecidableEq, Repr

/-- RESUME of a region entry (R1). -/
inductive Resume where
  | idle | capturing
  deriving DecidableEq, Repr

/-- A region entry (R1). LENGTH is in granules. -/
structure Region where
  state  : RegionState
  base   : Word
  length : Nat
  resume : Resume
  deriving DecidableEq, Repr

/-! ## Path Controller (07_the_memory_path.md, Table 7-1) -/

/-- Part status (R122). -/
inductive PartStatus where
  | starting | ready | attentionFault | resetting
  deriving DecidableEq, Repr

/-- Reset cause (R122). -/
inductive ResetCause where
  | pin | soft
  deriving DecidableEq, Repr

/-- RESTORE RESPONSE (R122). -/
inductive RestoreResponse where
  | hold | retry
  deriving DecidableEq, Repr

/-- The wait states of the upstream access (Table 7-2). -/
inductive WaitState where
  | starting | held | queueFull | orderedRead | orderedWrite | issued
  deriving DecidableEq, Repr

/-- The one access of the bus master with its wait state (R122). `toPost` marks a write that has entered QUEUE FULL and so
stays a write to be posted (R125). `accepted` is its place in acceptance order once it is accepted (R126). -/
structure Upstream where
  access   : Access
  wait     : WaitState
  toPost   : Bool
  accepted : Nat
  deriving DecidableEq, Repr

/-- A post queue entry (R126). -/
structure PostEntry where
  addr     : Word
  shape    : Shape
  mask     : BitVec 32
  data     : Line
  accepted : Nat
  deriving DecidableEq, Repr

/-- The write a post queue entry stands for. -/
def PostEntry.access (e : PostEntry) : Access :=
  { write := true, shape := e.shape, addr := e.addr, mask := e.mask, data := e.data }

/-- For each of MARK, ROLLBACK, ATTACH LOG and ADOPT LOG in progress: its drain point, by its place in acceptance order, or
none (R122, R131). -/
structure DrainWatches where
  mark     : Option Nat
  rollback : Option Nat
  attach   : Option Nat
  adopt    : Option Nat
  deriving DecidableEq, Repr

/-- Which unit a recognised word of the control page goes to (R130). -/
inductive WordTarget where
  | submit (lane : Lane)
  | consume
  deriving DecidableEq, Repr

/-- A recognised word that a control-page write touches: whether the write's mask covers it in full, and its value (R130). -/
structure PageWord where
  target : WordTarget
  value  : Word
  full   : Bool
  deriving DecidableEq, Repr

/-- What the access at the forward point has reached (R127, R128, R130): waiting for the answer to its capture request; at the
write check, waiting for the port or issued; handing its recognised words on; waiting to hand an attention record. -/
inductive ForwardStage where
  | capture | port | recognise | handing
  deriving DecidableEq, Repr

/-- What the copy-ahead of the host write at the forward point has of the read that the write's capture makes (R108): nothing;
nothing, and the read now at work is not to be kept, because a copy was accepted in its middle (log entry 30); the image; or a
FAULT on the read. -/
inductive SharedImage where
  | absent
  | unshared
  | held (image : Image)
  | failed
  deriving DecidableEq, Repr

/-- The access at the forward point (R126, R128). `words` are the recognised words not yet examined (R130). -/
structure ForwardPoint where
  access   : Access
  accepted : Nat
  posted   : Bool
  stage    : ForwardStage
  image    : SharedImage
  words    : List PageWord
  deriving DecidableEq, Repr

/-- A response on the Processor Port (R120). -/
inductive Response where
  | done
  | data (line : Line)
  | fault
  | retry
  deriving DecidableEq, Repr

/-- The Path Controller's state (R122, Table 7-1, and the forward point of R126). `acceptCount` numbers acceptances and
`response` is the last response given on the Processor Port: both are the model's own (log entries 2 and 3). `statusOwed` are
the status words the Attention Unit's reports still owe, oldest first, and `statusBusy` says that one is being written
(R141). A running timer holds its programmed time. -/
structure PathState where
  pageBase        : Word
  status          : PartStatus
  cause           : ResetCause
  post            : Bool
  restoreResponse : RestoreResponse
  holdLimit       : Half
  upstream        : Option Upstream
  postQueue       : List PostEntry
  holdTimer       : Option Half
  barrier         : Option Nat
  watches         : DrainWatches
  forward         : Option ForwardPoint
  statusOwed      : List PartStatus
  statusBusy      : Bool
  acceptCount     : Nat
  response        : Option Response
  deriving DecidableEq, Repr

/-! ## Memory Port Arbiter -/

/-- The five arbiter classes (Table 7-3). -/
inductive PortClass where
  | path | lane | attention | log | frontier
  deriving DecidableEq, Repr

/-- Which piece of work an access on the Memory Port belongs to (R121). -/
inductive Owner where
  | startUp
  | status
  | forwardRead
  | forwardWrite (posted : Bool)
  | capture
  | copyAhead
  | laneFetch (lane : Lane)
  | laneOutcome (lane : Lane)
  | laneDirect (lane : Lane)
  | attention
  | void
  | scan
  | restore
  | marker
  | report
  | frontier
  deriving DecidableEq, Repr

/-- A request for the Memory Port, or the transaction that a grant made of it. `stale` marks one whose owner no longer acts on
its answer (R117, R137, R143); on an attention write that waits for its copy-ahead it marks one that has been withdrawn, so that
its copy-ahead runs and the write is not issued (R168; log entry 28). -/
structure PortRequest where
  owner  : Owner
  cls    : PortClass
  access : Access
  stale  : Bool
  deriving DecidableEq, Repr

/-- The arbiter's state (Table 0-1, R133, R135): waiting requests in the order made, the transaction that holds the grant, and
its retry count. -/
structure ArbiterState where
  requests   : List PortRequest
  inFlight   : Option PortRequest
  retryCount : Nat
  deriving DecidableEq, Repr

/-! ## Job outcomes -/

/-- The outcome codes that the controller writes (Table 10-4). -/
inductive JobOutcome where
  | done | badCode | badOperand | alignment | overlap | regionState | logState | listFull | noSuchCheckpoint | recordsHeld
  | queueFull | cancelled | sourceFault | destFault | restoreFault | scanFault | scanEmpty | numberExhausted | reportFault
  | voidFault
  deriving DecidableEq, Repr

/-! ## Log Unit (02 to 05) -/

/-- Log state (R16, R17). -/
inductive LogStatus where
  | unset | preparing | attached | rolling | scanning | broken
  deriving DecidableEq, Repr

/-- Overflow policy (R16). -/
inductive Policy where
  | break | stall
  deriving DecidableEq, Repr

/-- Broken reason (R16). -/
inductive Reason where
  | none | overflow | captureFault | restoreFault
  deriving DecidableEq, Repr

/-- An entry of the checkpoint list (R43). -/
structure Checkpoint where
  number        : Word
  firstSlot     : Nat
  firstSequence : Word
  records       : Nat
  deriving DecidableEq, Repr

/-- Who made a capture request (R23): the forward point, the copy frontier, or a copy-ahead; `left` is a write of the frontier,
with its access, that a copy-ahead has covered and that the copy's end has left to be issued (R109; log entry 19). -/
inductive Requester where
  | host | frontier | copyAhead | left (access : Access)
  deriving DecidableEq, Repr

/-- A capture request that waits in the Log Unit (R23, R26). `stalled` says that it has been taken and waits for space (R30). -/
structure CaptureRequest where
  requester : Requester
  granule   : Word
  region    : Nat
  cls       : PortClass
  stalled   : Bool
  deriving DecidableEq, Repr

/-- The access a capture in progress has reached (R25). -/
inductive CaptureStep where
  | readFirst | readSecond | writeFirst | writeSecond | writeHeader
  deriving DecidableEq, Repr

/-- A capture in progress (R25): the header fields fixed when it was taken (R21), the slot, and the image as read. `answer` is
false once the Copy Engine has withdrawn the request (R26). -/
structure Capture where
  request    : CaptureRequest
  slot       : Nat
  sequence   : Word
  previous   : Word
  checkpoint : Word
  first      : Line
  second     : Line
  step       : CaptureStep
  answer     : Bool
  deriving DecidableEq, Repr

/-- PHASE of a rollback (R58). -/
inductive Phase where
  | drain | restore | finish
  deriving DecidableEq, Repr

/-- The access a rollback's walk has reached (R62, R64). -/
inductive WalkStep where
  | readHeader | readFirst | readSecond | writeFirst | writeSecond
  deriving DecidableEq, Repr

/-- The rollback context (R58). Its DRAIN POINT is the Path Controller's watch. `drainFrontier` and `drainAhead` stand for the
destination write of the frontier and of the copy-ahead at work that DRAIN waits for, and `late` are writes left by an ended copy
that it does not wait for, since they were looked up after the restore entry (R60; log entry 29). `lastPrevious` is the PREVIOUS of
the record last applied (R67), and the three lines are the slot as read (R62). -/
structure Rollback where
  target        : Word
  phase         : Phase
  span          : Nat
  walkSlot      : Nat
  expected      : Word
  applied       : Nat
  drainFrontier : Bool
  drainAhead    : Bool
  late          : List PortRequest
  step          : WalkStep
  header        : Line
  first         : Line
  second        : Line
  lastPrevious  : Word
  deriving DecidableEq, Repr

/-- PASS of an adopt scan (R80). -/
inductive Pass where
  | select | walk
  deriving DecidableEq, Repr

/-- The newest valid item of the select pass (R80). -/
structure Newest where
  slot       : Nat
  isMarker   : Bool
  sequence   : Word
  previous   : Word
  checkpoint : Word
  deriving DecidableEq, Repr

/-- A run under construction (R80). -/
structure Run where
  number   : Word
  oldest   : Nat
  sequence : Word
  records  : Nat
  deriving DecidableEq, Repr

/-- The line of a slot that a scan is reading (R81). -/
inductive ScanStep where
  | readHeader | readFirst | readSecond
  deriving DecidableEq, Repr

/-- The scan context (R80). `runs` stand oldest first. `started` says that the select pass has begun (R81), `floor` is operand
D (R79), `tail` is the tail that the newest item fixed (R83), and the two lines are those of the slot already read. -/
structure Scan where
  pass     : Pass
  started  : Bool
  slot     : Nat
  newest   : Option Newest
  expected : Word
  bound    : Option Word
  included : Nat
  runs     : List Run
  floor    : Word
  tail     : Nat
  step     : ScanStep
  header   : Line
  first    : Line
  deriving DecidableEq, Repr

/-- A report being written (R54, R55): the buffer address, the 256-byte snapshot, and the bytes memory has answered DONE. -/
structure Report where
  addr     : Word
  snapshot : BitVec 2048
  written  : Nat
  deriving DecidableEq, Repr

/-- What the running log job has reached (R40, R41). `granted` is a job whose step waits for a capture in progress (R26). -/
inductive LogStage where
  | granted
  | markDrain
  | attachDrain (first : Word)
  | voiding (first : Word) (slot : Nat)
  | adopting (scan : Scan)
  | rolling (context : Rollback)
  | reporting (report : Report)
  deriving DecidableEq, Repr

/-- The running log job of the log-job arbiter (R40). -/
structure LogJob where
  lane  : Lane
  stage : LogStage
  deriving DecidableEq, Repr

/-- The Log Unit's state (Table 2-1), the capture requests that wait in it (R26), the capture in progress (R25), and the
RELEASE granted beside a MARK whose step waits for a capture (R40). -/
structure LogState where
  state       : LogStatus
  base        : Word
  capacity    : Nat
  policy      : Policy
  stallLimit  : Half
  head        : Nat
  tail        : Nat
  count       : Nat
  nextSeq     : Word
  lastSeq     : Word
  highest     : Word
  reason      : Reason
  checkpoints : List Checkpoint
  table       : List Word
  stallTimer  : Option Half
  waiting     : List Lane
  running     : Option LogJob
  beside      : Option Lane
  requests    : List CaptureRequest
  capture     : Option Capture
  deriving DecidableEq, Repr

/-! ## Copy Engine (06_the_copy_engine.md) -/

/-- STATE of the copy context (R95). -/
inductive CopyStatus where
  | idle | copying | pausedBudget | pausedRegion
  deriving DecidableEq, Repr

/-- MODE of a copy (R95). -/
inductive CopyMode where
  | plain | consistent
  deriving DecidableEq, Repr

/-- One destination write of a span (R101): its shape, the address of its first byte and how many bytes it moves. -/
structure Piece where
  shape  : Shape
  addr   : Word
  length : Nat
  deriving DecidableEq, Repr

/-- What the frontier's current transfer waits for (R101, R102): a read's answer, its region to leave RESTORING, the answer to
its capture request, or the write's port grant and answer. -/
inductive FrontPhase where
  | read | paused | capture | port
  deriving DecidableEq, Repr

/-- The span the frontier works on (R100, R101): its first byte as an offset from SOURCE, its length, the source lines not yet
read and the destination writes not yet answered, heads first. `went` says that the current write's capture request was
answered go; `covered` that a copy-ahead has completed the span (R109). -/
structure Front where
  start   : Nat
  length  : Nat
  reads   : List Word
  writes  : List Piece
  phase   : FrontPhase
  went    : Bool
  covered : Bool
  deriving DecidableEq, Repr

/-- The copy-ahead in progress (R107): its copy-map entry, its arbiter class (R136), the write that triggered it, the source
lines not yet read, the destination writes not yet answered, whether its current write waits for a capture, and in `went` whether
that write's capture request was answered go. -/
structure Ahead where
  entry    : Nat
  cls      : PortClass
  trigger  : Option PortRequest
  reads    : List Word
  writes   : List Piece
  waitsCap : Bool
  went     : Bool
  deriving DecidableEq, Repr

/-- What has already fixed a copy's outcome while a copy-ahead runs to its end (R103): a frontier fault (R116) or a cancel (R117). -/
inductive CopyFix where
  | frontier (outcome : JobOutcome)
  | cancel
  deriving DecidableEq, Repr

/-- The Copy Engine's state (R95): the copy context, the copy map (bit `k` is set when entry `k` is COPIED), the two buffers
(byte `k` of a buffer is the byte at offset `k` of its source granule), the window timer, the copy-job arbiter (R97), the
copy-ahead requests that wait, oldest first (R110), and the CANCEL COPY jobs that wait for the copy's end (R117). -/
structure CopyState where
  state       : CopyStatus
  source      : Word
  dest        : Word
  length      : Nat
  mode        : CopyMode
  budget      : BitVec 8
  budgetLeft  : BitVec 8
  frontier    : Nat
  lane        : Lane
  cancelPend  : Bool
  map         : BitVec 4096
  spanBuffer  : Image
  aheadBuffer : Image
  windowTimer : Bool
  waiting     : List Lane
  front       : Option Front
  ahead       : Option Ahead
  queue       : List PortRequest
  fix         : Option CopyFix
  cancels     : List Lane
  deriving DecidableEq, Repr

/-! ## Lane Unit (08_lanes_and_jobs.md) -/

/-- STATE of a lane (R144). -/
inductive LaneStatus where
  | idle | fetch | wait | run | finish
  deriving DecidableEq, Repr

/-- What a fetch keeps of a descriptor (R144, R149; Table 10-2). -/
structure Descriptor where
  code  : Byte
  flags : Byte
  next  : Word
  tag   : Word
  a     : Word
  b     : Word
  c     : Word
  d     : Word
  deriving DecidableEq, Repr

/-- CURRENT of a lane (R144): the address, once fetched the descriptor, once ended the outcome and result. -/
structure CurrentJob where
  addr    : Word
  desc    : Option Descriptor
  outcome : Option JobOutcome
  result  : Word
  deriving DecidableEq, Repr

/-- A lane (R144). -/
structure LaneRec where
  state      : LaneStatus
  queue      : List Word
  current    : Option CurrentJob
  cutPending : Bool
  deriving DecidableEq, Repr

/-- The take of a submit word in progress (R146, R148, R159): the direct outcome writes still owed, the one in hand first, their
outcome, and whether the lane then enters FINISH with CANCELLED (step 5 of R159). -/
structure Take where
  lane        : Lane
  outcome     : JobOutcome
  owed        : List Word
  finishAfter : Bool
  deriving DecidableEq, Repr

/-- The Lane Unit's state: the lanes, the lanes' accesses not yet presented in the order made, those that a lane makes `later`,
once the access it has in hand has its final answer (R157), whether one is presented and not yet granted, a write that the log
ring keeps from being issued and that counts as answered FAULT (R148, R154), and the take in progress. -/
structure LaneUnit where
  lanes     : Vector LaneRec 6
  accesses  : List PortRequest
  later     : List PortRequest
  presented : Bool
  refused   : Option PortRequest
  take      : Option Take
  deriving DecidableEq, Repr

/-! ## Attention Unit (09_attention_ring_and_interrupt_line.md) -/

/-- The attention kinds (Table 10-9). -/
inductive AttnKind where
  | jobDone | jobFailed | chainCut | descriptorFault | descriptorStale | outcomeFault | writeLost | logStalled | logBroken
  | mailboxFault | overrun
  deriving DecidableEq, Repr

/-- An attention record before it is written (R166): it takes its SEQUENCE when it is written. -/
structure AttnRecord where
  kind    : AttnKind
  lane    : Byte
  outcome : Half
  tag     : Word
  subject : Word
  deriving DecidableEq, Repr

/-- The sources that have room in the post list (Table 9-1). -/
inductive Source where
  | lane (lane : Lane)
  | path
  | attention
  | logStalled
  | logBroken
  deriving DecidableEq, Repr

/-- What a source does once its handing is complete (R169). -/
inductive AfterHand where
  | laneDecide (lane : Lane)
  | laneEnd (lane : Lane)
  | take
  | pathWord
  | pathFree
  deriving DecidableEq, Repr

/-- A record listed, with its source. -/
structure Listed where
  source : Source
  record : AttnRecord
  deriving DecidableEq, Repr

/-- A handing that waits for its source's room (R169). -/
structure Handing where
  listed : Listed
  after  : AfterHand
  deriving DecidableEq, Repr

/-- What a posting writes (R168, R170, R171): a listed record, a new OVERRUN record, a rewrite of one with its dropped count, or
the produce word of a configure. -/
inductive PostingKind where
  | record (listed : Listed)
  | overrun
  | rewrite (dropped : Word)
  | configure
  deriving DecidableEq, Repr

/-- The write a posting has reached (R170). -/
inductive PostingStep where
  | low | high | produce
  deriving DecidableEq, Repr

/-- The posting in progress (Table 9-1): its record, the SEQUENCE it took, its slot and the write it has reached. -/
structure Posting where
  kind     : PostingKind
  sequence : Word
  slot     : Nat
  step     : PostingStep
  deriving DecidableEq, Repr

/-- Overrun in force, with its slot, its dropped count and the SEQUENCE its record keeps (R165, R171). -/
structure Overrun where
  slot     : Nat
  dropped  : Word
  sequence : Word
  deriving DecidableEq, Repr

/-- An accepted CONFIGURE ATTENTION that waits for the write it must settle (R168). Base 0 unconfigures. -/
structure PendingConfigure where
  lane       : Lane
  base       : Word
  capacity   : Nat
  lineEnable : Bool
  deriving DecidableEq, Repr

/-- The Attention Unit's state (Table 9-1), the handings that wait for room (R169) and the configure that waits to settle a
posting (R168). -/
structure AttentionState where
  configured : Bool
  base       : Word
  capacity   : Nat
  lineEnable : Bool
  produce    : Half
  consume    : Half
  sequence   : Word
  overrun    : Option Overrun
  posts      : List Listed
  posting    : Option Posting
  handings   : List Handing
  configure  : Option PendingConfigure
  deriving DecidableEq, Repr

/-! ## The part -/

/-- All the state of the part, block by block. `freeIndex` counts the free values used; it is the model's own (log entry 1). -/
structure Chip where
  regions   : Vector Region 16
  path      : PathState
  arbiter   : ArbiterState
  log       : LogState
  copy      : CopyState
  lanes     : LaneUnit
  attention : AttentionState
  freeIndex : Nat
  deriving DecidableEq, Repr

end Sys2Proof.Machine
end

