-- ==== Sys2Proof/Machine/Formats.lean ====
section
/-! DEFINITION. The memory formats of 10_formats_and_codes.md: codes, layouts, and the check value of a log slot. -/

namespace Sys2Proof.Machine

/-- The status word's access (R141): one single write of 4 bytes at page + 0x20. -/
def statusAccess (pageBase : Word) (word : Word) : Access :=
  { write := true, shape := .single, addr := pageBase + 0x20#32, mask := 0xF#32, data := word.setWidth 256 }

/-- STATE of the status word (Table 10-10). The two part statuses that are never written into the word have code 0. -/
def PartStatus.code : PartStatus → Byte
  | .ready => 1#8
  | .attentionFault => 2#8
  | .starting => 0#8
  | .resetting => 0#8

/-- CAUSE of the status word (Table 10-10). -/
def ResetCause.code : ResetCause → Byte
  | .pin => 1#8
  | .soft => 2#8

/-- The status word (Table 10-10): STATE, CAUSE, LANES 6, REVISION 1. -/
def statusWord (status : PartStatus) (cause : ResetCause) : Word :=
  1#8 ++ 6#8 ++ cause.code ++ status.code

/-- The outcome codes (Table 10-4). -/
def JobOutcome.code : JobOutcome → Half
  | .done => 1#16
  | .badCode => 2#16
  | .badOperand => 3#16
  | .alignment => 4#16
  | .overlap => 5#16
  | .regionState => 6#16
  | .logState => 7#16
  | .listFull => 8#16
  | .noSuchCheckpoint => 9#16
  | .recordsHeld => 10#16
  | .queueFull => 11#16
  | .cancelled => 12#16
  | .sourceFault => 13#16
  | .destFault => 14#16
  | .restoreFault => 15#16
  | .scanFault => 16#16
  | .scanEmpty => 17#16
  | .numberExhausted => 18#16
  | .reportFault => 19#16
  | .voidFault => 20#16

/-- The job kinds (Table 8-1). -/
inductive JobKind where
  | null | configurePath | configureAttention | defineRegion | startCapture | stopCapture | clearFault | deleteRegion
  | attachLog | adoptLog | detachLog | mark | rollback | release | reportLog | copy | cancelCopy
  deriving DecidableEq, Repr

/-- The job a CODE names, if any (Table 10-3): codes 17 to 255 are unknown. -/
def jobKind (code : Byte) : Option JobKind :=
  match code.toNat with
  | 0 => some .null
  | 1 => some .configurePath
  | 2 => some .configureAttention
  | 3 => some .defineRegion
  | 4 => some .startCapture
  | 5 => some .stopCapture
  | 6 => some .clearFault
  | 7 => some .deleteRegion
  | 8 => some .attachLog
  | 9 => some .adoptLog
  | 10 => some .detachLog
  | 11 => some .mark
  | 12 => some .rollback
  | 13 => some .release
  | 14 => some .reportLog
  | 15 => some .copy
  | 16 => some .cancelCopy
  | _ => none

/-- The three groups of jobs (Table 8-1). -/
inductive JobGroup where
  | instant | log | copy
  deriving DecidableEq, Repr

/-- The group of a job (Table 8-1). -/
def JobKind.group : JobKind → JobGroup
  | .null | .configurePath | .configureAttention | .defineRegion | .startCapture | .stopCapture | .clearFault | .deleteRegion
  | .cancelCopy => .instant
  | .attachLog | .adoptLog | .detachLog | .mark | .rollback | .release | .reportLog => .log
  | .copy => .copy

/-- The descriptor of a fetched line (Table 10-2); OUTCOME is `fetchedOutcome`, and RESULT is read and ignored (R149). -/
def descriptorOf (l : Line) : Descriptor :=
  { code := field l 0 8, flags := field l 1 8, next := field l 8 32, tag := field l 12 32,
    a := field l 16 32, b := field l 20 32, c := field l 24 32, d := field l 28 32 }

/-- OUTCOME of a fetched line (Table 10-2). -/
def fetchedOutcome (l : Line) : Half := field l 2 16

/-- The 8 bytes of an outcome write (R154): CODE, FLAGS, OUTCOME and RESULT. -/
def outcomeData (code flags : Byte) (o : JobOutcome) (result : Word) : Line :=
  place 256 code 0 ||| place 256 flags 1 ||| place 256 o.code 2 ||| place 256 result 4

/-- A lane's outcome write (R154): one single write of 8 bytes at the descriptor address. -/
def outcomeAccess (addr : Word) (d : Descriptor) (o : JobOutcome) (result : Word) : Access :=
  writeSingle addr 8 (outcomeData d.code d.flags o result)

/-- A direct outcome write (R148): OUTCOME and RESULT 0 alone, descriptor + 2 to descriptor + 7. -/
def directAccess (addr : Word) (o : JobOutcome) : Access :=
  writeSingle (addr + 2#32) 6 (outcomeData 0#8 0#8 o 0#32)

/-- KIND codes of a slot header (Table 10-6). -/
def kindRecord : Byte := 0xC1#8

/-- KIND of a MARKER (Table 10-6). -/
def kindMarker : Byte := 0xC2#8

/-- A slot's header line with CHECK as given (Table 10-6); reserved bytes are zero (R178). -/
def headerLine (kind region : Byte) (check : Half) (sequence previous checkpoint granule : Word) : Line :=
  place 256 kind 0 ||| place 256 region 1 ||| place 256 check 2 ||| place 256 sequence 4 ||| place 256 previous 8 |||
    place 256 checkpoint 12 ||| place 256 granule 16

/-- A header line with CHECK taken as zero (R177). -/
def withoutCheck (h : Line) : Line := h &&& ~~~(place 256 0xFFFF#16 2)

/-- CHECK of a RECORD (R177): over the header with CHECK taken as zero, then the two image lines. -/
def recordCheck (header first second : Line) : Half :=
  crc16 (bytesOf (withoutCheck header) 32 ++ bytesOf first 32 ++ bytesOf second 32)

/-- CHECK of a MARKER (R177): over the header alone, with CHECK taken as zero. -/
def markerCheck (header : Line) : Half := crc16 (bytesOf (withoutCheck header) 32)

/-- The header line of a RECORD (R21), with its CHECK. -/
def recordHeader (region : Nat) (sequence previous checkpoint granule : Word) (first second : Line) : Line :=
  let h := headerLine kindRecord (BitVec.ofNat 8 region) 0#16 sequence previous checkpoint granule
  h ||| place 256 (recordCheck h first second) 2

/-- The header line of a MARKER (R22), with its CHECK. -/
def markerHeader (sequence previous checkpoint : Word) : Line :=
  let h := headerLine kindMarker 0#8 0#16 sequence previous checkpoint 0#32
  h ||| place 256 (markerCheck h) 2

/-- Fields of a header line as read (Table 10-6). -/
def headerKind (h : Line) : Byte := field h 0 8
/-- CHECK as stored. -/
def headerCheck (h : Line) : Half := field h 2 16
/-- SEQUENCE. -/
def headerSequence (h : Line) : Word := field h 4 32
/-- PREVIOUS. -/
def headerPrevious (h : Line) : Word := field h 8 32
/-- CHECKPOINT. -/
def headerCheckpoint (h : Line) : Word := field h 12 32
/-- GRANULE. -/
def headerGranule (h : Line) : Word := field h 16 32

/-- KIND codes of an attention record (Table 10-9). -/
def AttnKind.code : AttnKind → Byte
  | .jobDone => 1#8
  | .jobFailed => 2#8
  | .chainCut => 3#8
  | .descriptorFault => 4#8
  | .descriptorStale => 5#8
  | .outcomeFault => 6#8
  | .writeLost => 7#8
  | .logStalled => 8#8
  | .logBroken => 9#8
  | .mailboxFault => 10#8
  | .overrun => 11#8

/-- The first half of an attention record (Table 10-8): KIND, LANE, OUTCOME, TAG. -/
def attentionLow (r : AttnRecord) : Line :=
  place 256 r.kind.code 0 ||| place 256 r.lane 1 ||| place 256 r.outcome 2 ||| place 256 r.tag 4

/-- The second half of an attention record (Table 10-8): SUBJECT, SEQUENCE. -/
def attentionHigh (r : AttnRecord) (sequence : Word) : Line :=
  place 256 r.subject 0 ||| place 256 sequence 4

/-- The lane number as a LANE field (R166). -/
def laneByte (l : Lane) : Byte := BitVec.ofNat 8 l.val

/-- STATE codes of a log report (Table 10-7). -/
def LogStatus.code : LogStatus → Byte
  | .unset => 0#8
  | .preparing => 1#8
  | .attached => 2#8
  | .rolling => 3#8
  | .scanning => 4#8
  | .broken => 5#8

/-- REASON codes, also the SUBJECT of LOG BROKEN (Table 10-7). -/
def Reason.code : Reason → Byte
  | .none => 0#8
  | .overflow => 1#8
  | .captureFault => 2#8
  | .restoreFault => 3#8

/-- POLICY codes (Table 10-7). -/
def Policy.code : Policy → Byte
  | .break => 0#8
  | .stall => 1#8

/-- The entry array of a log report from entry `i` on (Table 10-7): NUMBER and RECORDS of each entry, oldest first. -/
def reportEntries : Nat → List Checkpoint → BitVec 2048
  | _, [] => 0#2048
  | i, c :: cs =>
    place 2048 c.number (64 + 8 * i) ||| place 2048 (BitVec.ofNat 32 c.records) (68 + 8 * i) ||| reportEntries (i + 1) cs

/-- The 256-byte snapshot of a log report (R54, Table 10-7). -/
def reportSnapshot (l : LogState) : BitVec 2048 :=
  place 2048 l.state.code 0 ||| place 2048 l.reason.code 1 ||| place 2048 l.policy.code 2 ||| place 2048 l.base 4 |||
    place 2048 (BitVec.ofNat 16 l.capacity) 8 ||| place 2048 l.stallLimit 10 ||| place 2048 (BitVec.ofNat 16 l.head) 12 |||
    place 2048 (BitVec.ofNat 16 l.tail) 14 ||| place 2048 (BitVec.ofNat 16 l.count) 16 |||
    place 2048 (BitVec.ofNat 16 l.table.length) 18 ||| place 2048 l.nextSeq 20 ||| place 2048 l.lastSeq 24 |||
    place 2048 l.highest 28 ||| place 2048 (BitVec.ofNat 8 l.checkpoints.length) 32 ||| reportEntries 0 l.checkpoints

end Sys2Proof.Machine
end

