-- ==== Sys2Proof/Machine/Operands.lean ====
section
/-! DEFINITION. The encoded operands of Table 10-5 (R176) and the request words of the control page (R146, R179), decoded
field by field. -/

namespace Sys2Proof.Machine

/-- A submit word's request (R146): codes 0, 1 and 2, and the codes that are no request. -/
inductive Request where
  | submit | flush | resetPart | none
  deriving DecidableEq, Repr

/-- The request code of a submit word: its low five bits (R146). -/
def requestOf (w : Word) : Request :=
  match (w &&& 31#32).toNat with
  | 0 => .submit
  | 1 => .flush
  | 2 => .resetPart
  | _ => .none

/-- The descriptor address of a submit word: the word with bits 4 to 0 taken as zero (R179). -/
def submitAddress (w : Word) : Word := w &&& 0xFFFFFFE0#32

/-- The new consume index of a consume word: its low 16 bits (R172). -/
def consumeIndex (w : Word) : Half := w.setWidth 16

/-- CONFIGURE PATH A: POST and RESTORE RESPONSE, or none when a bit that must be 0 is set (R176, Table 10-5). -/
def pathSettings (a : Word) : Option (Bool × RestoreResponse) :=
  if a &&& 0xFFFFFFFC#32 = 0#32 then
    some (a.getLsbD 0, if a.getLsbD 1 then .retry else .hold)
  else Option.none

/-- CONFIGURE PATH B: the hold limit, or none above 65,535 (R138). -/
def holdLimitOf (b : Word) : Option Half :=
  if b.toNat ≤ 65535 then some (b.setWidth 16) else Option.none

/-- CONFIGURE ATTENTION C: line enable, or none when it is neither off nor on (R167, R176). -/
def lineEnableOf (c : Word) : Option Bool :=
  if c = 0#32 then some false else if c = 1#32 then some true else Option.none

/-- ATTACH LOG and ADOPT LOG C: the policy, or none when the field names neither BREAK nor STALL (R176, Table 10-5). -/
def policyOf (c : Word) : Option Policy :=
  match (field c 2 8 : Byte).toNat with
  | 0 => some .break
  | 1 => some .stall
  | _ => Option.none

/-- ATTACH LOG and ADOPT LOG C: the stall limit (Table 10-5). -/
def stallLimitOf (c : Word) : Half := field c 0 16

/-- COPY D: the mode, or none when the field names neither PLAIN nor CONSISTENT (R176, Table 10-5). -/
def copyModeOf (d : Word) : Option CopyMode :=
  match (field d 1 8 : Byte).toNat with
  | 0 => some .plain
  | 1 => some .consistent
  | _ => Option.none

/-- COPY D: the budget (Table 10-5). -/
def budgetOf (d : Word) : BitVec 8 := field d 0 8

/-- The low five bits of a NEXT are zero (R156, R179). -/
def nextAligned (next : Word) : Bool := next &&& 31#32 == 0#32

end Sys2Proof.Machine
end

