-- ==== Sys2Proof/Machine/ResetValues.lean ====
section
/-! DEFINITION. The reset values, block by block, and the part right after a pin reset. -/

namespace Sys2Proof.Machine

/-- The value of every entry after either reset (R1, R15). -/
def Region.atReset : Region := { state := .free, base := 0#32, length := 0, resume := .idle }

/-- Table 2-1, last column, with no capture and no request. -/
def LogState.atReset : LogState :=
  { state := .unset, base := 0#32, capacity := 0, policy := .break, stallLimit := 0#16, head := 0, tail := 0, count := 0,
    nextSeq := 0#32, lastSeq := 0#32, highest := 0#32, reason := .none, checkpoints := [], table := [], stallTimer := none,
    waiting := [], running := none, beside := none, requests := [], capture := none }

/-- The reset values of R95, with both buffers empty (log entry 4). -/
def CopyState.atReset : CopyState :=
  { state := .idle, source := 0#32, dest := 0#32, length := 0, mode := .plain, budget := 0#8, budgetLeft := 0#8, frontier := 0,
    lane := 0, cancelPend := false, map := 0#4096, spanBuffer := 0#512, aheadBuffer := 0#512, windowTimer := false,
    waiting := [], front := none, ahead := none, queue := [], fix := none, cancels := [] }

/-- A lane after either reset (R144). -/
def LaneRec.atReset : LaneRec := { state := .idle, queue := [], current := none, cutPending := false }

/-- The Lane Unit after either reset (R144). -/
def LaneUnit.atReset : LaneUnit :=
  { lanes := Vector.replicate 6 LaneRec.atReset, accesses := [], later := [], presented := false, refused := none, take := none }

/-- Table 9-1, last column. -/
def AttentionState.atReset : AttentionState :=
  { configured := false, base := 0#32, capacity := 0, lineEnable := false, produce := 0#16, consume := 0#16, sequence := 0#32,
    overrun := none, posts := [], posting := none, handings := [], configure := none }

/-- No drain watch. -/
def DrainWatches.none : DrainWatches := { mark := .none, rollback := .none, attach := .none, adopt := .none }

/-- The Path Controller after a pin reset (Table 7-1), with the page base sampled from PAGE (R139). -/
def PathState.atPinReset (page : Half) : PathState :=
  { pageBase := page.setWidth 32 <<< 16, status := .starting, cause := .pin, post := false, restoreResponse := .hold,
    holdLimit := 0#16, upstream := none, postQueue := [], holdTimer := none, barrier := none, watches := .none,
    forward := none, statusOwed := [], statusBusy := false, acceptCount := 0, response := none }

/-- The request of start-up's status word write (R140): class 1, STATE READY, CAUSE the kind of the reset. -/
def startUpRequest (pageBase : Word) (cause : ResetCause) : PortRequest :=
  { owner := .startUp, cls := .path, access := statusAccess pageBase (statusWord .ready cause), stale := false }

/-- The part right after a pin reset with these straps: every block at its reset value, and start-up begun, so that its status
word write requests the Memory Port (R140, R142). -/
def Chip.atPinReset (page : Half) : Chip :=
  { regions := Vector.replicate 16 Region.atReset
    path := PathState.atPinReset page
    arbiter := { requests := [startUpRequest (page.setWidth 32 <<< 16) .pin], inFlight := none, retryCount := 0 }
    log := LogState.atReset
    copy := CopyState.atReset
    lanes := LaneUnit.atReset
    attention := AttentionState.atReset
    freeIndex := 0 }

end Sys2Proof.Machine
end

