-- ==== Sys2Proof/Machine/Flags.lean ====
section
/-! DEFINITION. The conditions the blocks compute from their state: descriptor flags, occupancy, the ATTN line, the DRAIN phase,
where capture and hold apply. -/

namespace Sys2Proof.Machine

/-- NOTIFY (Table 10-2). -/
def Descriptor.notify (d : Descriptor) : Bool := d.flags.getLsbD 0

/-- CONTINUE (Table 10-2). -/
def Descriptor.continues (d : Descriptor) : Bool := d.flags.getLsbD 1

/-- Occupancy (R165): produce − consume, modulo 65,536. -/
def AttentionState.occupancy (a : AttentionState) : Nat := (a.produce - a.consume).toNat

/-- The ATTN line is asserted exactly when the ring is configured, line enable is on and occupancy is above 0 (R173). -/
def AttentionState.attn (a : AttentionState) : Bool := a.configured && a.lineEnable && decide (0 < a.occupancy)

/-- The ATTN output of the part (R173). -/
def Chip.attnLine (s : Chip) : Bool := s.attention.attn

/-- The context of the rollback that runs, if one does (R58). -/
def LogState.rollback (l : LogState) : Option Rollback :=
  match l.running with
  | some { stage := .rolling c, .. } => some c
  | _ => none

/-- The log is ROLLING in its DRAIN phase (R24, R60). -/
def LogState.draining (l : LogState) : Bool :=
  l.state == .rolling && (match l.rollback with
    | some c => c.phase == .drain
    | none => false)

/-- At least one capture request waits for space under STALL (R30). -/
def LogState.stalled (l : LogState) : Bool := l.requests.any (·.stalled)

/-- Capture applies to a granule of this region (R5). -/
def Chip.captureApplies (s : Chip) (r : Region) : Bool :=
  r.state == .capturing || (r.state == .restoring && r.resume == .capturing && s.log.draining)

/-- The region that a lookup of an address's granule finds, with its number, or none when it is untracked (R2). -/
def lookupIn (regions : List Region) (g : Word) : Option (Nat × Region) :=
  (regions.zipIdx.find? fun p =>
      p.1.state != .free && decide (p.1.base.toNat ≤ g.toNat ∧ g.toNat < p.1.base.toNat + 64 * p.1.length)).map
    fun p => (p.2, p.1)

/-- The lookup of R2, for the granule that holds an access's address. -/
def Chip.lookup (s : Chip) (a : Word) : Option (Nat × Region) := lookupIn s.regions.toList (granuleOf a)

/-- Hold applies to an address's granule: its region is RESTORING (R5). -/
def Chip.holdApplies (s : Chip) (a : Word) : Bool :=
  match s.lookup a with
  | some (_, r) => r.state == .restoring
  | none => false

/-- The range query of R3: some non-FREE region overlaps the range. -/
def Chip.regionOverlaps (s : Chip) (base len : Nat) : Bool :=
  s.regions.toList.any fun r => r.state != .free && overlaps r.base.toNat (64 * r.length) base len

/-- The range overlaps the control page (R4, R139). -/
def Chip.pageOverlaps (s : Chip) (base len : Nat) : Bool := overlaps s.path.pageBase.toNat 256 base len

/-- The range overlaps the log ring while the log is not UNSET (R4). -/
def Chip.logRingOverlaps (s : Chip) (base len : Nat) : Bool :=
  s.log.state != .unset && overlaps s.log.base.toNat (96 * s.log.capacity) base len

/-- The range overlaps the attention ring while it is configured (R4, R53). -/
def AttentionState.ringMeets (a : AttentionState) (base len : Nat) : Bool :=
  a.configured && overlaps a.base.toNat (16 * a.capacity) base len

/-- The range overlaps the attention ring while it is configured (R4), or the ring of an accepted CONFIGURE ATTENTION that is
settling a posting: R3 counts a ring from its acceptance (log entry 6). -/
def Chip.attnRingOverlaps (s : Chip) (base len : Nat) : Bool :=
  s.attention.ringMeets base len ||
    (match s.attention.configure with
      | some c => c.base != 0#32 && overlaps c.base.toNat (16 * c.capacity) base len
      | none => false)

/-- The ring guard claims an address: the log is not UNSET and the address's granule overlaps the ring (R36). -/
def Chip.ringGuard (s : Chip) (a : Word) : Bool := s.logRingOverlaps (granuleOf a).toNat 64

/-- The address lies in page base through page base + 0xFF (R123). -/
def Chip.onPage (s : Chip) (a : Word) : Bool :=
  decide (s.path.pageBase.toNat ≤ a.toNat ∧ a.toNat < s.path.pageBase.toNat + 256)

/-- A copy is active (R95). -/
def CopyState.active (c : CopyState) : Bool := c.state != .idle

/-- The number of granules, and so of spans, that `len` bytes from `base` touch (R98, R100). -/
def granulesTouched (base len : Nat) : Nat := (base + len - 1) / 64 - base / 64 + 1

/-- The copy's number of spans (R100). -/
def CopyState.spans (c : CopyState) : Nat := granulesTouched c.source.toNat c.length

/-- The offset from SOURCE at which span `k` begins, or LENGTH when there is no such span (R100). -/
def CopyState.spanStart (c : CopyState) (k : Nat) : Nat :=
  if k = 0 then 0 else min c.length (64 * k - c.source.toNat % 64)

/-- The bytes of span `k` (R100). -/
def CopyState.spanLength (c : CopyState) (k : Nat) : Nat := c.spanStart (k + 1) - c.spanStart k

/-- The span that the byte at an offset from SOURCE lies in (R100). -/
def CopyState.spanAt (c : CopyState) (offset : Nat) : Nat := (c.source.toNat + offset) / 64 - c.source.toNat / 64

/-- Copy-map entry `k` is COPIED (R105). -/
def CopyState.copied (c : CopyState) (k : Nat) : Bool := c.map.getLsbD k

/-- The write check of R106: the copy-map entry of a NOT COPIED source granule of an active CONSISTENT copy that the address
lies in, or none. -/
def CopyState.notCopied (c : CopyState) (a : Word) : Option Nat :=
  if c.active && c.mode == .consistent then
    let g := a.toNat / 64
    let g₀ := c.source.toNat / 64
    if g₀ ≤ g && g < g₀ + c.spans && !c.copied (g - g₀) then some (g - g₀) else none
  else none

end Sys2Proof.Machine
end

