-- ==== Sys2Proof/Machine/Ops.lean ====
section
/-! DEFINITION. The operations several blocks share: requesting the Memory Port, handing attention records, presenting a lane's
accesses, ending a job, and ending the access at the forward point. -/

namespace Sys2Proof.Machine

/-! ## The Memory Port -/

/-- A request joins the arbiter's waiting requests (R135). -/
def Chip.request (s : Chip) (r : PortRequest) : Chip :=
  { s with arbiter := { s.arbiter with requests := s.arbiter.requests ++ [r] } }

/-- A write passes the write check of R106: it requests the port at once, or waits in the copy-ahead queue (R110). -/
def Chip.issueWrite (s : Chip) (r : PortRequest) : Chip :=
  match s.copy.notCopied r.access.addr with
  | some _ => { s with copy := { s.copy with queue := s.copy.queue ++ [r] } }
  | none => s.request r

/-- Waiting requests of these owners are withdrawn before their grant (R137). -/
def Chip.withdraw (s : Chip) (p : Owner → Bool) : Chip :=
  { s with arbiter := { s.arbiter with requests := s.arbiter.requests.filter fun r => !p r.owner } }

/-- The transaction on the Memory Port ends (R121). -/
def Chip.endTransaction (s : Chip) : Chip :=
  { s with arbiter := { s.arbiter with inFlight := none, retryCount := 0 } }

/-- Memory's final answer to the transaction of such an owner: the transaction ends and the owner acts on the answer. An answer
whose owner no longer acts on it is discarded (R117, R161). With no such transaction nothing is due. -/
def Chip.answered (s : Chip) (p : Owner → Bool) (act : PortRequest → Chip → Chip) : Chip :=
  match s.arbiter.inFlight with
  | some r => if p r.owner then (if r.stale then s.endTransaction else act r s.endTransaction) else s
  | none => s

/-- A transaction of such an owner has been issued and its answer is awaited. -/
def Chip.issued (s : Chip) (p : Owner → Bool) : Bool :=
  match s.arbiter.inFlight with
  | some r => p r.owner && !r.stale
  | none => false

/-! ## The post list of the Attention Unit (R169) -/

/-- The source's earlier record is still in the post list (R169). -/
def AttentionState.roomTaken (a : AttentionState) (src : Source) : Bool := a.posts.any (·.source == src)

/-- A record is appended to the post list. -/
def Chip.listRecord (s : Chip) (src : Source) (r : AttnRecord) : Chip :=
  { s with attention := { s.attention with posts := s.attention.posts ++ [{ source := src, record := r }] } }

/-- A source hands a record (R169). With the ring unconfigured the record is dropped; with room free it is appended; in both
cases the source goes on with `act`. With its room taken the source waits, and goes on as `after` says once room frees. -/
def Chip.hand (s : Chip) (src : Source) (r : AttnRecord) (after : AfterHand) (act : Chip → Chip) : Chip :=
  if !s.attention.configured then act s
  else if s.attention.roomTaken src then
    { s with attention := { s.attention with
      handings := s.attention.handings ++ [{ listed := { source := src, record := r }, after := after }] } }
  else act (s.listRecord src r)

/-- The Log Unit hands a record and does not wait: with its room taken the record is not appended (R169). -/
def Chip.handLog (s : Chip) (src : Source) (r : AttnRecord) : Chip :=
  if s.attention.configured && !s.attention.roomTaken src then s.listRecord src r else s

/-- A record that names no lane, no outcome and no descriptor (Table 9-2). -/
def plainRecord (k : AttnKind) (subject : Word) : AttnRecord :=
  { kind := k, lane := 0xFF#8, outcome := 0#16, tag := 0#32, subject := subject }

/-- A record that a lane posts (Table 9-2). -/
def laneRecord (k : AttnKind) (l : Lane) (outcome : Half) (tag subject : Word) : AttnRecord :=
  { kind := k, lane := laneByte l, outcome := outcome, tag := tag, subject := subject }

/-! ## Lanes -/

/-- Lane `l` (R144). -/
def Chip.lane (s : Chip) (l : Lane) : LaneRec := s.lanes.lanes[l]

/-- Lane `l` takes a new value. -/
def Chip.setLane (s : Chip) (l : Lane) (r : LaneRec) : Chip :=
  { s with lanes := { s.lanes with lanes := s.lanes.lanes.set l r } }

/-- The Lane Unit presents its oldest access, one at a time (R157). A write whose granule overlaps the log ring while the log is
not UNSET is not issued; its final answer counts as FAULT (R148, R154; log entry 18). -/
def Chip.presentLane (s : Chip) : Chip :=
  if s.lanes.presented || s.lanes.refused.isSome then s
  else match s.lanes.accesses with
    | [] => s
    | r :: rest =>
      if r.access.write && s.ringGuard r.access.addr then
        { s with lanes := { s.lanes with accesses := rest, refused := some r } }
      else
        let s' := { s with lanes := { s.lanes with accesses := rest, presented := true } }
        if r.access.write then s'.issueWrite r else s'.request r

/-- The lane whose access an owner is: its fetch, its outcome write, or a direct outcome write of a take (R157). -/
def Owner.lane : Owner → Option Lane
  | .laneFetch l | .laneOutcome l | .laneDirect l => some l
  | .startUp | .status | .forwardRead | .forwardWrite _ | .capture | .copyAhead | .attention | .void | .scan | .restore | .marker
  | .report | .frontier => none

/-- Two owners are accesses of one lane. -/
def Owner.sameLane (o p : Owner) : Bool := o.lane.isSome && o.lane == p.lane

/-- The writes that wait for a copy-ahead: their requests wait behind the one in progress, or they have triggered it (R107, R110). -/
def CopyState.heldWrites (c : CopyState) : List PortRequest := c.queue ++ (c.ahead.bind (·.trigger)).toList

/-- The accesses that the part has in hand: made and without a final answer, wherever they wait or are in flight. -/
def Chip.accessesInHand (s : Chip) : List PortRequest :=
  s.lanes.accesses ++ s.lanes.refused.toList ++ s.arbiter.requests ++ s.arbiter.inFlight.toList ++ s.copy.heldWrites

/-- The lane of an access has one in hand already (R157). -/
def Chip.laneBusy (s : Chip) (o : Owner) : Bool := s.accessesInHand.any fun r => o.sameLane r.owner && !r.stale

/-- A lane makes an access; it is presented after those made before it. With one in hand the lane makes it once that one has its
final answer (R157; log entry 39). -/
def Chip.makeLaneAccess (s : Chip) (owner : Owner) (a : Access) : Chip :=
  let r : PortRequest := { owner := owner, cls := .lane, access := a, stale := false }
  if s.laneBusy owner then { s with lanes := { s.lanes with later := s.lanes.later ++ [r] } }
  else Chip.presentLane { s with lanes := { s.lanes with accesses := s.lanes.accesses ++ [r] } }

/-- The access of a lane has its final answer: the lane makes the next one that has waited for that (R157). -/
def Chip.accessOver (s : Chip) (o : Owner) : Chip :=
  match s.lanes.later.find? fun r => o.sameLane r.owner with
  | none => s
  | some r =>
    if s.laneBusy o then s
    else Chip.presentLane { s with lanes := { s.lanes with
      accesses := s.lanes.accesses ++ [r], later := s.lanes.later.erase r } }

/-- A lane enters FETCH with a descriptor (R149): one line read of 32 bytes at its address. -/
def Chip.enterFetch (s : Chip) (l : Lane) (addr : Word) : Chip :=
  (s.setLane l { s.lane l with
      state := .fetch
      current := some { addr := addr, desc := none, outcome := none, result := 0#32 } }).makeLaneAccess
    (.laneFetch l) (readLine addr)

/-- The end of chain (R145, R156): CUT PENDING is cleared, the lane drops its current job and takes its oldest entry or enters
IDLE. -/
def Chip.endChain (s : Chip) (l : Lane) : Chip :=
  match (s.lane l).queue with
  | [] => s.setLane l { state := .idle, queue := [], current := none, cutPending := false }
  | a :: rest =>
    (s.setLane l { state := .idle, queue := rest, current := none, cutPending := false }).enterFetch l a

/-- The owning block hands back outcome and result: the lane enters FINISH and makes its outcome write (R153, R154). -/
def Chip.finishJob (s : Chip) (l : Lane) (o : JobOutcome) (result : Word) : Chip :=
  match (s.lane l).current with
  | some { addr, desc := some d, .. } =>
    (s.setLane l { s.lane l with
        state := .finish
        current := some { addr := addr, desc := some d, outcome := some o, result := result } }).makeLaneAccess
      (.laneOutcome l) (outcomeAccess addr d o result)
  | _ => s

/-- The lane enters RUN: its job is granted or handed to its block (R151, R153). -/
def Chip.laneRuns (s : Chip) (l : Lane) : Chip := s.setLane l { s.lane l with state := .run }

/-- The descriptor of the lane's job when the lane is in the given state with a job of the given kind (R151). -/
def Chip.jobIn (s : Chip) (l : Lane) (st : LaneStatus) (k : JobKind) : Option Descriptor :=
  match (s.lane l).current with
  | some { desc := some d, .. } => if (s.lane l).state = st ∧ jobKind d.code = some k then some d else none
  | _ => none

/-- NEXT is followed (R156): its low five bits are checked, and the named descriptor becomes the current job. -/
def Chip.followNext (s : Chip) (l : Lane) (next : Word) : Chip :=
  if nextAligned next then s.enterFetch l next
  else s.hand (.lane l) (laneRecord .descriptorFault l 0#16 0#32 next) (.laneEnd l) (·.endChain l)

/-- The chain is cut (R156): CHAIN CUT is posted with the finished job's outcome and TAG and the NEXT value. -/
def Chip.cutChain (s : Chip) (l : Lane) (o : JobOutcome) (d : Descriptor) : Chip :=
  s.hand (.lane l) (laneRecord .chainCut l o.code d.tag d.next) (.laneEnd l) (·.endChain l)

/-- The chain decision of R156, cases 2 to 5, after the attention record of R155. -/
def Chip.decideChain (s : Chip) (l : Lane) : Chip :=
  match (s.lane l).current with
  | some { desc := some d, outcome := some o, .. } =>
    if d.next = 0#32 then s.endChain l
    else if (s.lane l).cutPending then s.cutChain l o d
    else if o = .done ∨ d.continues = true then s.followNext l d.next
    else s.cutChain l o d
  | _ => s.endChain l

/-! ## The Processor Port and the forward point -/

/-- The upstream access is answered and leaves its slot; the hold-limit timer stops (R120, R132). -/
def Chip.answerUpstream (s : Chip) (r : Response) : Chip :=
  { s with path := { s.path with upstream := none, holdTimer := none, response := some r } }

/-- The forward point becomes free (R126). -/
def Chip.freeForward (s : Chip) : Chip := { s with path := { s.path with forward := none } }

/-- A watch that waits for this place in acceptance order is answered (R131). -/
def clearWatch (w : Option Nat) (accepted : Nat) : Option Nat := if w = some accepted then none else w

/-- A watched write has been issued: it is reported to the job that waits for it (R131). -/
def Chip.reportIssued (s : Chip) (accepted : Nat) : Chip :=
  { s with path := { s.path with watches :=
    { mark := clearWatch s.path.watches.mark accepted
      rollback := clearWatch s.path.watches.rollback accepted
      attach := clearWatch s.path.watches.attach accepted
      adopt := clearWatch s.path.watches.adopt accepted } } }

/-- An ORDERED WRITE at the forward point is over: it is answered upstream, and from here it counts as issued for a watch that
waits for it (R129, R130, R131). -/
def Chip.endOrderedWrite (s : Chip) (r : Response) : Chip :=
  match s.path.forward with
  | some f => (s.freeForward.answerUpstream r).reportIssued f.accepted
  | none => s

/-- The record of a recognised word that the write's mask covers only in part (R130). -/
def Chip.refuseWord (addr : Word) : AttnRecord := plainRecord .mailboxFault addr

/-- The recognised words of a control-page write are examined in ascending order (R130): a word covered in full waits to be
taken by its unit; a word covered in part posts MAILBOX FAULT; when none is left the write is answered DONE. -/
def Chip.examineWords (s : Chip) (f : ForwardPoint) : List PageWord → Chip
  | [] => s.endOrderedWrite .done
  | w :: ws =>
    if w.full then
      { s with path := { s.path with forward := some { f with stage := .recognise, words := w :: ws } } }
    else if !s.attention.configured then s.examineWords f ws
    else if s.attention.roomTaken .path then
      { s with
        path := { s.path with forward := some { f with stage := .handing, words := ws } }
        attention := { s.attention with handings := s.attention.handings ++
          [{ listed := { source := .path, record := Chip.refuseWord f.access.addr }, after := .pathWord }] } }
    else (s.listRecord .path (Chip.refuseWord f.access.addr)).examineWords f ws

/-- The Path Controller goes on with the words not yet examined. -/
def Chip.nextWords (s : Chip) : Chip :=
  match s.path.forward with
  | some f => s.examineWords f f.words
  | none => s

/-- The take goes on (R148, R159): its next direct outcome write, or its end, the FINISH of a withdrawn job, and the words that
follow. -/
def Chip.continueTake (s : Chip) : Chip :=
  match s.lanes.take with
  | none => s
  | some t =>
    match t.owed with
    | a :: _ => s.makeLaneAccess (.laneDirect t.lane) (directAccess a t.outcome)
    | [] =>
      let s₁ := { s with lanes := { s.lanes with take := none } }
      let s₂ := if t.finishAfter then s₁.finishJob t.lane .cancelled 0#32 else s₁
      s₂.nextWords

/-- The record of a direct outcome write has been handed: the next owed write follows (R148). -/
def Chip.nextDirect (s : Chip) : Chip :=
  match s.lanes.take with
  | none => s
  | some t => Chip.continueTake { s with lanes := { s.lanes with take := some { t with owed := t.owed.tail } } }

/-- What a source does once its handing is complete (R169). -/
def AfterHand.run (k : AfterHand) (s : Chip) : Chip :=
  match k with
  | .laneDecide l => s.decideChain l
  | .laneEnd l => s.endChain l
  | .take => s.nextDirect
  | .pathWord => s.nextWords
  | .pathFree => s.freeForward

/-- A source's earlier record has left the post list: with the room free, the first handing that waits for it is appended, and
its source goes on (R169). The room is still taken when a record that a configure returned to the list stands behind a later
one of its source (R168). -/
def Chip.serveHanding (s : Chip) (src : Source) : Chip :=
  if s.attention.roomTaken src then s
  else match s.attention.handings.find? (·.listed.source == src) with
  | none => s
  | some h =>
    let s₁ := { s with attention := { s.attention with handings := s.attention.handings.erase h } }
    h.after.run (s₁.listRecord src h.listed.record)

/-- With the ring unconfigured every waiting source finishes its handing, in the order of the handings, and its record is dropped
(R174, R169; log entry 44). -/
def Chip.dropHandings (s : Chip) : Chip :=
  s.attention.handings.foldl (fun t h => h.after.run t) { s with attention := { s.attention with handings := [] } }

/-! ## Status word reports -/

/-- The Attention Unit reports to the Path Controller that it has deconfigured its ring (R174, R141). -/
def Chip.reportDeconfigured (s : Chip) : Chip :=
  { s with path := { s.path with status := .attentionFault, statusOwed := s.path.statusOwed ++ [.attentionFault] } }

/-- The Attention Unit reports a configure; a status word is owed when part status is ATTENTION FAULT (R168, R141). -/
def Chip.reportConfigured (s : Chip) : Chip :=
  if s.path.status = .attentionFault then
    { s with path := { s.path with status := .ready, statusOwed := s.path.statusOwed ++ [.ready] } }
  else s

end Sys2Proof.Machine
end

