-- ==== Sys2Proof/Machine/CopyOps.lean ====
section
/-! DEFINITION. The Copy Engine's shared operations: the frontier's transfers, copy-ahead, and the end of a copy
(06_the_copy_engine.md). -/

namespace Sys2Proof.Machine

/-! ## Shapes of a span's transfers (R101) -/

/-- The 32-byte source lines that hold at least one byte of a range, in ascending order: one or two within a granule. -/
def sourceLines (addr len : Nat) : List Word :=
  let l₀ := addr / 32
  let l₁ := (addr + len - 1) / 32
  if l₀ = l₁ then [BitVec.ofNat 32 (32 * l₀)] else [BitVec.ofNat 32 (32 * l₀), BitVec.ofNat 32 (32 * l₁)]

/-- The destination writes of the bytes `lo` to `hi − 1`, ascending: a line write for each 32-aligned line filled completely,
one single for the bytes within each other aligned 8-byte word. -/
def destPieces : Nat → Nat → Nat → List Piece
  | 0, _, _ => []
  | n + 1, lo, hi =>
    if hi ≤ lo then []
    else if lo % 32 = 0 ∧ lo + 32 ≤ hi then
      { shape := .line, addr := BitVec.ofNat 32 lo, length := 32 } :: destPieces n (lo + 32) hi
    else
      let e := min hi (8 * (lo / 8) + 8)
      { shape := .single, addr := BitVec.ofNat 32 lo, length := e - lo } :: destPieces n e hi

/-- The destination writes of the `len` bytes at an offset of the range; a span has at most 64 bytes. -/
def CopyState.pieces (c : CopyState) (offset len : Nat) : List Piece :=
  destPieces 16 (c.dest.toNat + offset) (c.dest.toNat + offset + len)

/-- A line as read, put at its place in the buffer of its granule. -/
def depositLine (buffer : Image) (addr : Word) (l : Line) : Image :=
  let off := addr.toNat % 64
  (buffer &&& ~~~(place 512 (~~~(0#256)) off)) ||| place 512 l off

/-- The data of a destination write: each byte is the buffer's byte at the offset of its source byte (R100). -/
def CopyState.pieceData (c : CopyState) (buffer : Image) (p : Piece) : Line :=
  let u := (unitBase p.shape p.addr).toNat
  (List.range p.length).foldl (fun acc i =>
    let d := p.addr.toNat + i
    acc ||| place 256 (field buffer ((c.source.toNat + (d - c.dest.toNat)) % 64) 8) (d - u)) 0#256

/-- A destination write as an access. -/
def CopyState.pieceAccess (c : CopyState) (buffer : Image) (p : Piece) : Access :=
  match p.shape with
  | .line => writeLine p.addr (c.pieceData buffer p)
  | .single => writeSingle p.addr p.length (c.pieceData buffer p)

/-! ## Withdrawals -/

/-- Copy Engine capture requests that satisfy `p` are withdrawn: a waiting one leaves the waiting requests; one whose capture is
in progress is no longer answered; when no request then waits for space the stall ends (R26, R31, R118). -/
def LogState.withdrawCaptures (l : LogState) (p : Requester → Bool) : LogState :=
  let requests := l.requests.filter fun r => !p r.requester
  { l with
    requests := requests
    capture := l.capture.map fun c => if p c.request.requester then { c with answer := false } else c
    stallTimer := if requests.any (·.stalled) then l.stallTimer else none }

/-- The requester is a write that an ended copy has left to be issued (R109). -/
def Requester.isLeft : Requester → Bool
  | .left _ => true
  | .host | .frontier | .copyAhead => false

/-- A frontier's write that an ended copy has left waits for the answer to its capture request (R109). -/
def LogState.leftWaits (l : LogState) : Bool :=
  l.requests.any (·.requester.isLeft) || (match l.capture with
    | some c => c.answer && c.request.requester.isLeft
    | none => false)

/-- The frontier's capture request goes on for the access it was made for, whatever becomes of the copy (R109). -/
def CaptureRequest.leave (a : Access) (q : CaptureRequest) : CaptureRequest :=
  if q.requester = .frontier then { q with requester := .left a } else q

/-- A copy that ends leaves copy-ahead writes to be issued. Those that a rollback's DRAIN did not wait for were looked up after its
restore entry, and it does not wait for them now (R60; log entry 29). -/
def LogState.leaveLate (l : LogState) (left : List PortRequest) : LogState :=
  match l.running with
  | some { lane, stage := .rolling c } =>
    { l with running := some { lane := lane, stage := .rolling { c with
      late := if c.drainAhead then c.late else c.late ++ left } } }
  | _ => l

/-- The rollback's DRAIN no longer waits for these Copy Engine writes (R60). -/
def LogState.clearDrainCopies (l : LogState) (frontier ahead : Bool) : LogState :=
  match l.running with
  | some { lane, stage := .rolling c } =>
    { l with running := some { lane := lane, stage := .rolling { c with
      drainFrontier := c.drainFrontier && !frontier
      drainAhead := c.drainAhead && !ahead } } }
  | _ => l

/-- The frontier's current write has been answered go and waits for the port: it is still issued (R26, R118). -/
def CopyState.wentWaits (c : CopyState) : Bool :=
  match c.front with
  | some f => f.went && f.phase == .port
  | none => false

/-- The frontier has a destination write in hand that it has looked up (R60). -/
def CopyState.writeInHand (c : CopyState) : Bool :=
  match c.front with
  | some f => f.phase == .capture || f.phase == .port
  | none => false

/-- The copy-ahead's current write has been answered go: if it waits for the port, it is still issued (R26). -/
def CopyState.aheadWent (c : CopyState) : Bool := c.ahead.any (·.went)

/-- The frontier, or the copy-ahead, gives up its current transfer on the Memory Port: a waiting request is withdrawn, but for a
write answered go, which stays and is issued, and the answer of an issued transfer is discarded (R26, R137, R118). -/
def ArbiterState.giveUp (a : ArbiterState) (o : Owner) (went : Bool) : ArbiterState :=
  { a with
    requests := a.requests.filterMap fun r =>
      if r.owner = o ∧ r.stale = false then (if went then some { r with stale := true } else none) else some r
    inFlight := a.inFlight.map fun r => if r.owner = o then { r with stale := true } else r }

/-- The waiting requests that an owner leaves to be issued when it gives up its write answered go. -/
def ArbiterState.leaves (a : ArbiterState) (o : Owner) (went : Bool) : List PortRequest :=
  if went then (a.requests.filter fun r => r.owner == o && !r.stale).map fun r => { r with stale := true } else []

/-- The frontier gives up its current transfer, and its capture request is withdrawn. A write that stays counts for a rollback's
drain as one that a copy has left (R60). -/
def Chip.dropFront (s : Chip) : Chip :=
  { s with
    arbiter := s.arbiter.giveUp .frontier s.copy.wentWaits
    log := (s.log.withdrawCaptures (· == .frontier)).clearDrainCopies true false
    copy := { s.copy with front := none } }

/-- The copy-ahead in progress gives up its current transfer in the same way (R26, R112; log entry 20). -/
def Chip.dropAhead (s : Chip) : Chip :=
  { s with
    arbiter := s.arbiter.giveUp .copyAhead s.copy.aheadWent
    log := ((s.log.leaveLate (s.arbiter.leaves .copyAhead s.copy.aheadWent)).withdrawCaptures (· == .copyAhead)).clearDrainCopies
      false true
    copy := { s.copy with ahead := none } }

/-! ## The end of a copy (R115) -/

/-- The bytes of every span beyond FRONTIER whose entry is COPIED. -/
def CopyState.beyond (c : CopyState) : Nat :=
  (List.range c.spans).foldl (fun acc k =>
    if c.copied k && decide (c.frontier ≤ c.spanStart k) then acc + c.spanLength k else acc) 0

/-- The result of a copy that ends now (R115). -/
def CopyState.result (c : CopyState) : Nat :=
  match c.mode with
  | .plain => c.frontier
  | .consistent => c.frontier + c.beyond

/-- The CANCEL COPY jobs that wait end DONE with the copy's result, in the order in which they were taken (R117, R118; log
entry 44). -/
def Chip.endCancels (s : Chip) (result : Word) : List Lane → Chip
  | [] => s
  | l :: ls => (s.finishJob l .done result).endCancels result ls

/-- A write that waits for its copy-ahead has been withdrawn: its copy-ahead runs on its own, and it is not issued (R168). -/
def PortRequest.withdrawn (r : PortRequest) : Bool := r.owner == .attention && r.stale

/-- The copy ends (R115): the timer stops, every write that waits for a copy-ahead is released, STATE becomes IDLE, and the
COPY's lane, and then those of the CANCEL COPY jobs that wait, are handed outcome and result (log entry 44). The released writes
request the port in the order of log entry 46. -/
def Chip.endCopy (s : Chip) (o : JobOutcome) : Chip :=
  let result := BitVec.ofNat 32 s.copy.result
  let released := (match s.copy.ahead with
    | some { trigger := some r, .. } => [r]
    | _ => []) ++ s.copy.queue.filter fun r => !r.withdrawn
  let cancels := s.copy.cancels
  let s₁ := s.dropFront.dropAhead
  let s₂ := { s₁ with
    arbiter := { s₁.arbiter with requests := s₁.arbiter.requests ++ released }
    copy := { s₁.copy with
      state := .idle, windowTimer := false, cancelPend := false, queue := [], fix := none, cancels := [] } }
  (s₂.finishJob s.copy.lane o result).endCancels result cancels

/-- A failed copy-ahead, or R111, ends the copy; an outcome that a frontier fault has fixed stands (R112, R116, R117). -/
def Chip.failAhead (s : Chip) (o : JobOutcome) : Chip :=
  match s.copy.fix with
  | some (.frontier o') => s.endCopy o'
  | _ => s.endCopy o

/-- A frontier fault ends the copy, at once or when the copy-ahead in progress has run to its end (R116). -/
def Chip.failFront (s : Chip) (o : JobOutcome) : Chip :=
  if s.copy.ahead.isSome then
    let s₁ := s.dropFront
    { s₁ with copy := { s₁.copy with fix := some (s₁.copy.fix.getD (.frontier o)) } }
  else s.endCopy o

/-! ## The frontier -/

/-- The frontier requests a transfer at class 5 (R101). -/
def frontierRequest (a : Access) : PortRequest := { owner := .frontier, cls := .frontier, access := a, stale := false }

/-- The frontier begins the span at FRONTIER with its pacing charge, or pauses for the budget (R100, R104). -/
def Chip.beginSpan (s : Chip) : Chip :=
  if s.copy.fix.isSome then s
  else if s.copy.budget ≠ 0#8 ∧ s.copy.budgetLeft = 0#8 then
    { s with copy := { s.copy with state := .pausedBudget, front := none } }
  else
    let start := s.copy.frontier
    let len := s.copy.spanStart (s.copy.spanAt start + 1) - start
    let lines := sourceLines (s.copy.source.toNat + start) len
    let s₁ := { s with copy := { s.copy with
      state := .copying
      budgetLeft := if s.copy.budget = 0#8 then s.copy.budgetLeft else s.copy.budgetLeft - 1#8
      front := some { start := start, length := len, reads := lines, writes := s.copy.pieces start len, phase := .read,
                      went := false, covered := false } } }
    match lines with
    | l :: _ => s₁.request (frontierRequest (readLine l))
    | [] => s₁

/-- The frontier's current write passes the write check and requests the port (step 4 of R102). -/
def Chip.issueFront (s : Chip) (f : Front) (went : Bool) : Chip :=
  match f.writes with
  | p :: _ =>
    Chip.issueWrite
      { s with copy := { s.copy with state := .copying, front := some { f with phase := .port, went := went } } }
      (frontierRequest (s.copy.pieceAccess s.copy.spanBuffer p))
  | [] => s

/-- A capture request is made (R23). -/
def Chip.requestCapture (s : Chip) (q : Requester) (granule : Word) (region : Nat) (cls : PortClass) : Chip :=
  { s with log := { s.log with requests := s.log.requests ++
    [{ requester := q, granule := granule, region := region, cls := cls, stalled := false }] } }

/-- The steps of R102 before a destination write of the frontier: ring guard, region lookup, capture, issue. A write past the
guard meets it again when it is about to be issued (`Chip.guardStops`). -/
def Chip.startFrontWrite (s : Chip) (f : Front) : Chip :=
  match f.writes with
  | [] => s
  | p :: _ =>
    if s.ringGuard p.addr then s.failFront .destFault
    else match s.lookup p.addr with
      | some (n, r) =>
        if r.state = .restoring then
          { s with copy := { s.copy with state := .pausedRegion, front := some { f with phase := .paused, went := false } } }
        else if s.captureApplies r then
          Chip.requestCapture
            { s with copy := { s.copy with state := .copying, front := some { f with phase := .capture, went := false } } }
            .frontier (granuleOf p.addr) n .frontier
        else s.issueFront f false
      | none => s.issueFront f false

/-- FRONTIER advances over every COPIED span that lies at it (R103): the first span from `k` that is NOT COPIED, or `spans`. -/
def CopyState.firstNotCopied (c : CopyState) : Nat → Nat → Nat
  | 0, k => k
  | n + 1, k => if k < c.spans ∧ c.copied k = true then c.firstNotCopied n (k + 1) else k

/-- FRONTIER after the advance of R103. -/
def CopyState.advanced (c : CopyState) : Nat :=
  if c.frontier < c.length ∧ c.copied (c.spanAt c.frontier) = true then
    let k := c.firstNotCopied c.spans (c.spanAt c.frontier)
    if k < c.spans then c.spanStart k else c.length
  else c.frontier

/-- Entry `k` becomes COPIED, and FRONTIER advances (R103, R105). -/
def CopyState.markCopied (c : CopyState) (k : Nat) : CopyState :=
  let c' := { c with map := c.map ||| 1#4096 <<< k }
  { c' with frontier := c'.advanced }

/-- The span that the frontier has worked on is over: the copy ends DONE at LENGTH, or the next span begins (R103). -/
def Chip.nextSpan (s : Chip) : Chip :=
  if s.copy.frontier = s.copy.length then s.endCopy .done
  else s.beginSpan

/-- A frontier span completes (R103). -/
def Chip.completeSpan (s : Chip) (f : Front) : Chip :=
  let c := { s.copy with front := none }
  let c' := match c.mode with
    | .plain => { c with frontier := f.start + f.length }
    | .consistent => c.markCopied (c.spanAt f.start)
  Chip.nextSpan { s with copy := c' }

/-- Memory has answered DONE to the frontier's current transfer: the next read, the first write, the next write, or the span's
completion. A span that copy-ahead has covered ends with the transfer that was in hand (R101, R103, R109). -/
def Chip.advanceFront (s : Chip) (f : Front) (data : Line) : Chip :=
  if f.covered then Chip.nextSpan { s with copy := { s.copy with front := none } }
  else match f.phase with
    | .read =>
      match f.reads with
      | l :: rest =>
        let c := { s.copy with
          spanBuffer := depositLine s.copy.spanBuffer l data
          front := some { f with reads := rest, phase := if rest = [] then .port else .read } }
        let s₁ := { s with copy := c }
        match rest with
        | l' :: _ => s₁.request (frontierRequest (readLine l'))
        | [] => s₁.startFrontWrite { f with reads := [] }
      | [] => s
    | _ =>
      match f.writes with
      | _ :: [] => s.completeSpan f
      | _ :: rest => s.startFrontWrite { f with writes := rest, went := false }
      | [] => s

/-- The region that a PAUSED-REGION wait is on has left RESTORING: STATE becomes COPYING, and the write's steps are taken again
from the lookup (R102, R114). -/
def Chip.resumeFront (s : Chip) : Chip :=
  if s.copy.state = .pausedRegion then
    let s₁ := { s with copy := { s.copy with state := .copying } }
    match s₁.copy.front with
    | some f => if f.phase = .paused then s₁.startFrontWrite f else s₁
    | none => s₁
  else s

/-! ## Copy-ahead -/

/-- A copy-ahead transfer, at the class of the write it serves (R136). -/
def aheadRequest (cls : PortClass) (a : Access) : PortRequest := { owner := .copyAhead, cls := cls, access := a, stale := false }

/-- The copy-ahead's current write passes the write check and requests the port. -/
def Chip.issueAhead (s : Chip) (a : Ahead) (went : Bool) : Chip :=
  match a.writes with
  | p :: _ =>
    Chip.issueWrite { s with copy := { s.copy with ahead := some { a with waitsCap := false, went := went } } }
      (aheadRequest a.cls (s.copy.pieceAccess s.copy.aheadBuffer p))
  | [] => s

/-- A record write of the capture in progress waits for a copy-ahead: it triggered this one, or it waits behind it (R111; log
entry 7). -/
def CopyState.recordWriteWaits (c : CopyState) (a : Ahead) : Bool :=
  (match a.trigger with
    | some r => r.owner == .capture
    | none => false) || c.queue.any (·.owner == .capture)

/-- The steps before a destination write of copy-ahead: ring guard and capture, with no pause for hold (step 3 of R107, R111). A
write past the guard meets it again when it is about to be issued, as for the frontier. -/
def Chip.startAheadWrite (s : Chip) (a : Ahead) : Chip :=
  match a.writes with
  | [] => s
  | p :: _ =>
    if s.ringGuard p.addr then s.failAhead .destFault
    else match s.lookup p.addr with
      | some (n, r) =>
        if s.captureApplies r then
          if s.copy.recordWriteWaits a then s.failAhead .destFault
          else Chip.requestCapture { s with copy := { s.copy with ahead := some { a with waitsCap := true, went := false } } }
            .copyAhead (granuleOf p.addr) n a.cls
        else s.issueAhead a false
      | none => s.issueAhead a false

/-- The span that the copy-ahead has completed is the frontier's current one (R109). A transfer already issued is answered as
usual, and a write whose capture request has been made is issued once answered go; the frontier moves on when that transfer is
over, and otherwise at once (log entry 8). -/
def Chip.coverFront (s : Chip) (f : Front) : Chip :=
  let inHand := s.issued (· == .frontier) || f.phase == .capture || (f.phase == .port && f.went)
  if inHand then { s with copy := { s.copy with front := some { f with covered := true, writes := f.writes.take 1 } } }
  else
    let s₁ := s.dropFront
    Chip.beginSpan { s₁ with copy := { s₁.copy with state := .copying } }

/-- The frontier's write that waits for the answer to its capture request is left to be issued on go, as R109 says, although the
copy ends (log entry 19). -/
def Chip.leaveFront (s : Chip) : Chip :=
  match s.copy.front with
  | some { phase := .capture, writes := p :: _, .. } =>
    let leave := CaptureRequest.leave (s.copy.pieceAccess s.copy.spanBuffer p)
    { s with log := { s.log with
      requests := s.log.requests.map leave
      capture := s.log.capture.map fun c => { c with request := leave c.request } } }
  | _ => s

/-- What follows a copy-ahead: a copy whose outcome is fixed, or whose FRONTIER has reached LENGTH, ends; and the frontier leaves a
span that the copy-ahead has completed (R103, R109, R116, R117). -/
def Chip.afterAhead (s : Chip) (onFront : Bool) : Chip :=
  match s.copy.fix with
  | some (.frontier o) => s.endCopy o
  | some .cancel => s.endCopy .cancelled
  | none =>
    if s.copy.frontier = s.copy.length then s.leaveFront.endCopy .done
    else if onFront then
      match s.copy.front with
      | some f => s.coverFront f
      | none => s
    else s

/-- A copy-ahead completes (steps 4 and 5 of R107): its entry becomes COPIED, FRONTIER advances (R103), and the triggering write is
issued. -/
def Chip.completeAhead (s : Chip) (a : Ahead) : Chip :=
  let onFront := match s.copy.front with
    | some f => s.copy.spanAt f.start == a.entry
    | none => false
  let s₁ := { s with copy := { s.copy.markCopied a.entry with ahead := none } }
  match a.trigger with
  | some r => (s₁.request r).afterAhead onFront
  | none => s₁.afterAhead onFront

/-- Memory has answered DONE to the copy-ahead's current transfer (R107). -/
def Chip.advanceAhead (s : Chip) (a : Ahead) (data : Line) : Chip :=
  match a.reads with
  | l :: rest =>
    let a' := { a with reads := rest }
    let s₁ := { s with copy := { s.copy with
      aheadBuffer := depositLine s.copy.aheadBuffer l data
      ahead := some a' } }
    match rest with
    | l' :: _ => s₁.request (aheadRequest a.cls (readLine l'))
    | [] => s₁.startAheadWrite a'
  | [] =>
    match a.writes with
    | _ :: [] => s.completeAhead a
    | _ :: rest =>
      let a' := { a with writes := rest, went := false }
      Chip.startAheadWrite { s with copy := { s.copy with ahead := some a' } } a'
    | [] => s

/-- A copy-ahead of entry `k` starts for a write (R107): from the shared capture image when one is held (R108), else with its
own reads. A FAULT on the shared read fails it, and the write is released with the copy's end (R108, R112). A write that has been
withdrawn is not issued after it (R168). -/
def Chip.startAhead (s : Chip) (k : Nat) (r : PortRequest) (image : SharedImage) : Chip :=
  let start := s.copy.spanStart k
  let len := s.copy.spanLength k
  let lines := sourceLines (s.copy.source.toNat + start) len
  let a : Ahead :=
    { entry := k, cls := r.cls, trigger := if r.withdrawn then none else some r, reads := lines
      writes := s.copy.pieces start len, waitsCap := false, went := false }
  match image with
  | .failed => Chip.failAhead { s with copy := { s.copy with ahead := some a } } .sourceFault
  | .held i =>
    let a' := { a with reads := [] }
    Chip.startAheadWrite { s with copy := { s.copy with ahead := some a', aheadBuffer := i } } a'
  | .absent | .unshared =>
    let s₁ := { s with copy := { s.copy with ahead := some a } }
    match lines with
    | l :: _ => s₁.request (aheadRequest r.cls (readLine l))
    | [] => s₁

end Sys2Proof.Machine
end

