-- ==== Sys2Proof/Machine/PathOps.lean ====
section
/-! DEFINITION. The Path Controller's shared operations: classification and acceptance of an upstream access, the release of a
held one, drain points, and the words of the control page (07_the_memory_path.md). -/

namespace Sys2Proof.Machine

/-- The upstream access takes a wait state in which it is not accepted (Table 7-2). -/
def Chip.waitUpstream (s : Chip) (a : Access) (w : WaitState) (toPost : Bool) : Chip :=
  { s with path := { s.path with upstream := some { access := a, wait := w, toPost := toPost, accepted := 0 } } }

/-- The upstream access is accepted as an ORDERED READ; its hold-limit timer runs on (R125, R132). -/
def Chip.acceptRead (s : Chip) (a : Access) : Chip :=
  { s with path := { s.path with
    upstream := some { access := a, wait := .orderedRead, toPost := false, accepted := s.path.acceptCount }
    acceptCount := s.path.acceptCount + 1 } }

/-- The upstream access is accepted as an ORDERED WRITE; its hold-limit timer stops (R125, R132). -/
def Chip.acceptOrdered (s : Chip) (a : Access) : Chip :=
  { s with path := { s.path with
    upstream := some { access := a, wait := .orderedWrite, toPost := false, accepted := s.path.acceptCount }
    acceptCount := s.path.acceptCount + 1
    holdTimer := none } }

/-- The write enters the post queue as its newest entry and is answered DONE (R125). -/
def Chip.postWrite (s : Chip) (a : Access) : Chip :=
  Chip.answerUpstream { s with path := { s.path with
    postQueue := s.path.postQueue ++
      [{ addr := a.addr, shape := a.shape, mask := a.mask, data := a.data, accepted := s.path.acceptCount }]
    acceptCount := s.path.acceptCount + 1 } } .done

/-- Acceptance (R125). `toPost` is a write that has waited in QUEUE FULL and stays a write to be posted. -/
def Chip.acceptAccess (s : Chip) (a : Access) (toPost : Bool) : Chip :=
  if !a.write then s.acceptRead a
  else if s.path.post || toPost then
    if s.path.postQueue.length < Config.postDepth then s.postWrite a else s.waitUpstream a .queueFull true
  else s.acceptOrdered a

/-- Classification from step 4 of R123: the held range, then acceptance. -/
def Chip.classifyHeld (s : Chip) (a : Access) (toPost : Bool) : Chip :=
  if s.holdApplies a.addr then
    match s.path.restoreResponse with
    | .hold => s.waitUpstream a .held toPost
    | .retry => s.answerUpstream .retry
  else s.acceptAccess a toPost

/-- Classification from step 2 of R123: the control page, the ring guard, the held range, acceptance. -/
def Chip.classify (s : Chip) (a : Access) (toPost : Bool) : Chip :=
  if s.onPage a.addr then (if a.write then s.acceptOrdered a else s.acceptAccess a toPost)
  else if a.write && s.ringGuard a.addr then s.answerUpstream .fault
  else s.classifyHeld a toPost

/-- A held access whose region has left RESTORING is classified afresh (R124). -/
def Chip.releaseHeld (s : Chip) : Chip :=
  match s.path.upstream with
  | some u => if u.wait = .held ∧ s.holdApplies u.access.addr = false then s.classify u.access u.toPost else s
  | none => s

/-- A write waiting in QUEUE FULL is classified afresh when an entry leaves the post queue (R125). -/
def Chip.serveQueueFull (s : Chip) : Chip :=
  match s.path.upstream with
  | some u => if u.wait = .queueFull then s.classify u.access true else s
  | none => s

/-- The entry at the forward point leaves the post queue (R129). -/
def Chip.leaveQueue (s : Chip) (accepted : Nat) : Chip :=
  Chip.serveQueueFull { s with path := { s.path with
    postQueue := s.path.postQueue.filter fun e => e.accepted != accepted } }

/-- The newest post queue entry that has not been issued (R131). -/
def Chip.postDrainPoint (s : Chip) : Option Nat :=
  match s.path.postQueue.getLast? with
  | none => none
  | some e =>
    match s.path.forward with
    | some f => if f.accepted = e.accepted ∧ s.issued (· == .forwardWrite true) = true then none else some e.accepted
    | none => some e.accepted

/-- The drain point: the newest accepted write not yet issued (R47, R59, R131). A control-page write counts as issued once its
recognised words have been taken or refused. -/
def Chip.drainPoint (s : Chip) : Option Nat :=
  match s.path.upstream with
  | some u =>
    if u.access.write ∧ (u.wait = .orderedWrite ∨ (u.wait = .issued ∧ s.onPage u.access.addr = true)) then some u.accepted
    else s.postDrainPoint
  | none => s.postDrainPoint

/-- The recognised words of the control page, in ascending order, by their word offset from the page base (R130). -/
def pageTargets : List (Nat × WordTarget) :=
  [(0, .submit 0), (4, .submit 1), (8, .submit 2), (12, .submit 3), (16, .submit 4), (20, .submit 5), (24, .consume)]

/-- The recognised words that a control-page write touches, each with its value and whether the mask covers it in full (R130). -/
def pageWords (pageBase : Word) (a : Access) : List PageWord :=
  let u := (unitBase a.shape a.addr).toNat
  pageTargets.filterMap fun (off, target) =>
    let w := pageBase.toNat + off
    if u ≤ w ∧ w < u + unitSize a.shape then
      let nibble := (a.mask >>> (w - u)).setWidth 4
      if nibble = 0#4 then none
      else some { target := target, value := field a.data (w - u) 32, full := nibble == 0xF#4 }
    else none

/-- The next recognised word that waits to be taken, and the words after it (R130). A take in progress comes first (R146). -/
def Chip.nextWord (s : Chip) : Option (PageWord × List PageWord) :=
  match s.path.forward, s.lanes.take with
  | some f, none =>
    match f.stage, f.words with
    | .recognise, w :: ws => if w.full then some (w, ws) else none
    | _, _ => none
  | _, _ => none

/-- The lane and value of the next recognised word when it is a submit word with this request (R146). -/
def Chip.nextSubmit (s : Chip) (r : Request) : Option (Lane × Word × List PageWord) :=
  match s.nextWord with
  | some ({ target := .submit l, value := v, .. }, ws) => if requestOf v = r then some (l, v, ws) else none
  | _ => none

/-- A recognised word has been handed on; the words after it remain (R130). -/
def Chip.popWord (s : Chip) (ws : List PageWord) : Chip :=
  match s.path.forward with
  | some f => { s with path := { s.path with forward := some { f with words := ws } } }
  | none => s

/-- The address of the submit word of a lane (R146). -/
def Chip.submitWordAddress (s : Chip) (l : Lane) : Word := s.path.pageBase + BitVec.ofNat 32 (4 * l.val)

end Sys2Proof.Machine
end

