-- ==== Sys2Proof/Machine/LogOps.lean ====
section
/-! DEFINITION. The Log Unit's shared operations: captures, the BROKEN state, the requests to the Region Table, and the ends of
log jobs (02_write_capture_and_the_undo_log.md to 05_adopting_a_log_after_reset.md). -/

namespace Sys2Proof.Machine

/-! ## The requests to the Region Table (R12 to R14), each taken for all sixteen entries at once -/

/-- One entry under the restore entry request (R12). -/
def Region.enterRestore (r : Region) : Region :=
  match r.state with
  | .idle => { r with state := .restoring, resume := .idle }
  | .capturing => { r with state := .restoring, resume := .capturing }
  | _ => r

/-- One entry under the return request (R12). -/
def Region.returnToResume (r : Region) : Region :=
  match r.state, r.resume with
  | .restoring, .idle => { r with state := .idle, resume := .idle }
  | .restoring, .capturing => { r with state := .capturing, resume := .idle }
  | _, _ => r

/-- One entry under the fault request (R13). -/
def Region.toFaulted (r : Region) : Region :=
  match r.state with
  | .restoring => { r with state := .faulted, resume := .idle }
  | _ => r

/-- One entry under the disarm request (R14). -/
def Region.disarmed (r : Region) : Region :=
  match r.state with
  | .capturing => { r with state := .idle }
  | _ => r

/-- The restore entry request (R12). -/
def Chip.restoreEntry (s : Chip) : Chip := { s with regions := s.regions.map Region.enterRestore }

/-- The disarm request (R14). -/
def Chip.disarm (s : Chip) : Chip := { s with regions := s.regions.map Region.disarmed }

/-- Hold has stopped applying: a paused copy and the held access proceed (R5, R12, R13). -/
def Chip.endHold (s : Chip) : Chip := s.resumeFront.releaseHeld

/-- The fault request (R13). -/
def Chip.faultRequest (s : Chip) : Chip := Chip.endHold { s with regions := s.regions.map Region.toFaulted }

/-! ## Answers to capture requests -/

/-- A capture request is answered go: its requester issues its write (R23). -/
def Chip.answerGo (s : Chip) (q : Requester) : Chip :=
  match q with
  | .host =>
    match s.path.forward with
    | some f =>
      Chip.issueWrite { s with path := { s.path with forward := some { f with stage := .port } } }
        { owner := .forwardWrite f.posted, cls := .path, access := f.access, stale := false }
    | none => s
  | .frontier =>
    match s.copy.front with
    | some f => s.issueFront f true
    | none => s
  | .copyAhead =>
    match s.copy.ahead with
    | some a => s.issueAhead a true
    | none => s
  | .left a => s.issueWrite { owner := .frontier, cls := .frontier, access := a, stale := true }

/-- Every waiting capture request is answered go without a record, in the order made (R31, R34, R39). -/
def Chip.answerAll (s : Chip) : Chip :=
  s.log.requests.foldl (fun t r => t.answerGo r.requester) { s with log := { s.log with requests := [] } }

/-! ## BROKEN -/

/-- Entry to BROKEN (R34). A break cause that arises while the log is already BROKEN changes nothing. -/
def Chip.breakLog (s : Chip) (reason : Reason) : Chip :=
  if s.log.state = .broken then s
  else
    let s₁ := { s with log := { s.log with state := .broken, reason := reason, stallTimer := none, table := [] } }
    (s₁.disarm.handLog .logBroken (plainRecord .logBroken (reason.code.setWidth 32))).answerAll

/-- The running log job ends: its lane is handed outcome and result, and the arbiter may grant the next (R40, R153). -/
def Chip.endLogJob (s : Chip) (o : JobOutcome) (result : Word) : Chip :=
  match s.log.running with
  | some j => Chip.finishJob { s with log := { s.log with running := none } } j.lane o result
  | none => s

/-- The log returns to UNSET: every item of Table 2-1 but the log-job arbiter takes its reset value (R16). -/
def LogState.toUnset (l : LogState) : LogState :=
  { LogState.atReset with waiting := l.waiting, running := l.running, beside := l.beside, requests := l.requests,
                          capture := l.capture }

/-- A failed rollback: the fault request, BROKEN with a reason, and the job's end with RESTORE FAULT (R33, R65). -/
def Chip.failRollback (s : Chip) (reason : Reason) (applied : Nat) : Chip :=
  let s₁ := (s.faultRequest.breakLog reason).endLogJob .restoreFault (BitVec.ofNat 32 applied)
  { s₁ with path := { s₁.path with watches := { s₁.path.watches with rollback := none } } }

/-! ## Captures -/

/-- A capture transfer at the class of the write it serves (R136). -/
def captureAccess (cls : PortClass) (a : Access) : PortRequest := { owner := .capture, cls := cls, access := a, stale := false }

/-- The number of the newest checkpoint list entry (R21). -/
def LogState.newestNumber (l : LogState) : Word :=
  match l.checkpoints.getLast? with
  | some c => c.number
  | none => 0#32

/-- Slot `i`'s first byte (R18). -/
def LogState.slotAddress (l : LogState) (i : Nat) : Word := l.base + BitVec.ofNat 32 (96 * i)

/-- A capture begins (steps 1 and 2 of R25, R21). -/
def Chip.startCaptureOf (s : Chip) (r : CaptureRequest) : Chip :=
  let c : Capture :=
    { request := r, slot := s.log.tail, sequence := s.log.nextSeq, previous := s.log.lastSeq,
      checkpoint := s.log.newestNumber, first := 0#256, second := 0#256, step := .readFirst, answer := true }
  Chip.request { s with log := { s.log with capture := some c } } (captureAccess r.cls (readLine r.granule))

/-- The request waits for space under STALL (R30): a stall begins when no request waited, with its timer and LOG STALLED. -/
def Chip.stallRequest (s : Chip) (r : CaptureRequest) : Chip :=
  let s₁ := { s with log := { s.log with
    requests := s.log.requests.filter (·.stalled) ++ [{ r with stalled := true }] ++ s.log.requests.filter (!·.stalled) } }
  if s.log.stalled then s₁
  else
    Chip.handLog
      { s₁ with log := { s₁.log with stallTimer := if s.log.stallLimit = 0#16 then none else some s.log.stallLimit } }
      .logStalled (plainRecord .logStalled (BitVec.ofNat 32 s.log.tail))

/-- A capture request, already out of the waiting requests, is taken (R24, R29, R30, R33). -/
def Chip.takeCapture (s : Chip) (r : CaptureRequest) : Chip :=
  if !(s.log.state == .attached || s.log.draining) then s.answerGo r.requester
  else if s.log.table.contains r.granule then s.answerGo r.requester
  else if s.log.nextSeq = Config.seqMax ∨ s.log.count = s.log.capacity then
    if s.log.state = .rolling then (s.failRollback .overflow 0).answerGo r.requester
    else if s.log.nextSeq = Config.seqMax ∨ s.log.policy = .break then (s.breakLog .overflow).answerGo r.requester
    else s.stallRequest r
  else s.startCaptureOf r

/-- Without a waiting stalled request no stall lasts, and its timer is stopped (R30, R31). -/
def Chip.settleStall (s : Chip) : Chip :=
  if s.log.stalled then s else { s with log := { s.log with stallTimer := none } }

/-- The requests that wait for space are taken again in order, each under R24, until one starts a capture or still finds no
space (R31, R51). With count at N the oldest is answered go when its granule has entered the table, and the rest wait behind one
that is not in it; when next sequence has run out by then, the log breaks at once (log entry 40). -/
def Chip.retakeStalled (s : Chip) : Nat → Chip
  | 0 => s
  | n + 1 =>
    if s.log.capture.isSome then s
    else match s.log.requests.find? (·.stalled) with
      | none => s
      | some r =>
        if s.log.state = .attached ∧ s.log.table.contains r.granule = false ∧ s.log.nextSeq ≠ Config.seqMax ∧
            s.log.count = s.log.capacity then s
        else
          Chip.retakeStalled
            (Chip.takeCapture { s with log := { s.log with requests := s.log.requests.erase r } } r) n

/-- The waiting requests of a stall are taken again; the timer stops when none waits any more (R31). -/
def Chip.retake (s : Chip) : Chip := (s.retakeStalled s.log.requests.length).settleStall

/-- A capture's record write passes the write check; when it needs a copy-ahead while the one in progress waits for a capture
request of its own, the copy ends with DEST FAULT and the record write is issued (R111). -/
def Chip.issueRecordWrite (s : Chip) (r : PortRequest) : Chip :=
  match s.copy.notCopied r.access.addr, s.copy.ahead with
  | some _, some { waitsCap := true, .. } => (s.failAhead .destFault).request r
  | _, _ => s.issueWrite r

/-- The newest entry's RECORDS increases by 1 (R25). -/
def countRecord : List Checkpoint → List Checkpoint
  | [] => []
  | [c] => [{ c with records := c.records + 1 }]
  | c :: cs => c :: countRecord cs

/-- A granule enters the logged-granule table if the table has room (R27, R28). -/
def LogState.enterTable (l : LogState) (g : Word) : List Word :=
  if l.table.length < Config.tableMax ∧ l.table.contains g = false then l.table ++ [g] else l.table

/-- A completed capture's effect on the log (step 4 of R25). -/
def LogState.recorded (l : LogState) (c : Capture) : LogState :=
  { l with
    tail := (l.tail + 1) % l.capacity
    count := l.count + 1
    lastSeq := c.sequence
    nextSeq := l.nextSeq + 1#32
    checkpoints := countRecord l.checkpoints
    table := l.enterTable c.request.granule }

/-- The capture in progress is over, and its request, unless it was withdrawn, is answered go (R25, R26). -/
def Chip.endCapture (s : Chip) (c : Capture) : Chip :=
  let s₁ := { s with log := { s.log with capture := none } }
  if c.answer then s₁.answerGo c.request.requester else s₁

/-- Memory has answered DONE to the header line: the capture completes (R25). A log that has broken meanwhile takes no record
(R35; log entry 9). The requests that wait for space are then taken again (R31), before the step of a log job that has waited for
the capture (log entry 43). -/
def Chip.completeCapture (s : Chip) (c : Capture) : Chip :=
  let s₁ := if s.log.state == .attached || s.log.draining then { s with log := s.log.recorded c } else s
  (s₁.endCapture c).retake

/-- A capture for a host write has read its granule's first line and not yet the second (R25). -/
def LogState.hostReadBegun (l : LogState) : Bool :=
  l.capture.any fun c => c.step == .readSecond && c.request.requester == .host

/-- The read of the capture in progress began before the COPY that is active was accepted, and is not kept (log entry 30). -/
def Chip.imageUnshared (s : Chip) : Bool := s.path.forward.any fun f => f.image == .unshared

/-- The capture in progress reads for a host write into a NOT COPIED source granule: a copy-ahead shares its read (R108), unless
the copy was accepted in the read's middle (log entry 30). -/
def Chip.sharesRead (s : Chip) (c : Capture) : Bool :=
  (c.step == .readFirst || c.step == .readSecond) && c.request.requester == .host &&
    (s.copy.notCopied c.request.granule).isSome && !s.imageUnshared

/-- What a capture's FAULT does to the log (R32, R33): it breaks, or the rollback whose DRAIN the capture served fails. -/
def Chip.captureFault (s : Chip) : Chip :=
  if s.log.draining then s.failRollback .captureFault 0
  else if s.log.state = .attached then s.breakLog .captureFault
  else s

/-- A FAULT on the read that a copy-ahead shares ends the copy with SOURCE FAULT, at once, or when its copy-ahead request is taken
(R108; log entry 10). -/
def Chip.failShared (s : Chip) : Chip :=
  if s.copy.ahead.isSome then
    match s.path.forward with
    | some f => { s with path := { s.path with forward := some { f with image := .failed } } }
    | none => s
  else s.endCopy .sourceFault

/-- A FAULT on a capture's access (R32, R33): the log's part, the copy's part, and the request answered go without a record. A
ROLLBACK that fails makes its outcome write before that of a COPY that ends by the same FAULT (log entry 44). -/
def Chip.failCapture (s : Chip) (c : Capture) : Chip :=
  let s₁ := Chip.captureFault { s with log := { s.log with capture := none } }
  let s₂ := if s₁.sharesRead c then s₁.failShared else s₁
  (if c.answer then s₂.answerGo c.request.requester else s₂).retake

/-- The image a capture has read for a host write is kept for the copy-ahead that the write may trigger (R25, R108), unless a
COPY was accepted in the read's middle (log entry 30). -/
def Chip.keepImage (s : Chip) (c : Capture) : Chip :=
  match c.request.requester, s.path.forward with
  | .host, some f =>
    let image := if f.image = .unshared then .unshared else .held (c.second ++ c.first)
    { s with path := { s.path with forward := some { f with image := image } } }
  | _, _ => s

/-- Memory has answered DONE to the capture's current access: the next of the two reads and three writes, or the completion
(R25). -/
def Chip.advanceCapture (s : Chip) (c : Capture) (data : Line) : Chip :=
  let slot := s.log.slotAddress c.slot
  match c.step with
  | .readFirst =>
    let c' := { c with first := data, step := .readSecond }
    Chip.request { s with log := { s.log with capture := some c' } }
      (captureAccess c.request.cls (readLine (c.request.granule + 0x20#32)))
  | .readSecond =>
    let c' := { c with second := data, step := .writeFirst }
    Chip.issueRecordWrite (Chip.keepImage { s with log := { s.log with capture := some c' } } c')
      (captureAccess c.request.cls (writeLine (slot + 0x20#32) c'.first))
  | .writeFirst =>
    Chip.issueRecordWrite { s with log := { s.log with capture := some { c with step := .writeSecond } } }
      (captureAccess c.request.cls (writeLine (slot + 0x40#32) c.second))
  | .writeSecond =>
    Chip.issueRecordWrite { s with log := { s.log with capture := some { c with step := .writeHeader } } }
      (captureAccess c.request.cls (writeLine slot
        (recordHeader c.request.region c.sequence c.previous c.checkpoint c.request.granule c.first c.second)))
  | .writeHeader => s.completeCapture c

/-! ## Granting log jobs (R40, R41) -/

/-- The running log job's next stage. -/
def Chip.setStage (s : Chip) (st : LogStage) : Chip :=
  { s with log := { s.log with running := s.log.running.map fun j => { j with stage := st } } }

/-- No capture is in progress, so that a step of a log job may be taken (R26). -/
def LogState.betweenCaptures (l : LogState) : Bool := l.capture.isNone

/-- A log job of this kind at the arbiter. When none runs, beside a MARK or in its turn, and the oldest waiting job is of this kind,
it is granted, its lane enters RUN, and `check` gives the outcome of the checks taken at the grant, DONE when they pass (R40, R41).
A refused job ends at once. Otherwise `act` takes the job's step: at once, or, when the step is one that is taken `between`
captures, once the capture in progress has completed (R26; log entry 24). -/
def Chip.grantLog (s : Chip) (k : JobKind) (check : Descriptor → Chip → JobOutcome) (between : Bool)
    (act : Lane → Descriptor → Chip → Chip) : Chip :=
  match s.log.running with
  | some { lane, stage := .granted } =>
    match s.jobIn lane .run k with
    | some d => if s.log.betweenCaptures || !between then act lane d s else s
    | none => s
  | some _ => s
  | none =>
    if s.log.beside.isSome then s
    else match s.log.waiting with
    | [] => s
    | l :: rest =>
      match s.jobIn l .wait k with
      | none => s
      | some d =>
        let s₁ := { s with log := { s.log with waiting := rest, running := some { lane := l, stage := .granted } } }
        let s₂ := s₁.laneRuns l
        if check d s ≠ .done then s₂.endLogJob (check d s) 0#32
        else if s.log.betweenCaptures || !between then act l d s₂ else s₂

/-- The step of a log job with its checks: a job that they refuse ends with their outcome and result 0, and one that passes them is
accepted. ROLLBACK's checks are part of its step (R57); a job whose step has waited for a capture meets them again there, since
that capture may have broken the log (log entry 24). -/
def Chip.acceptLog (check : Descriptor → Chip → JobOutcome) (accept : Descriptor → Chip → Chip) (_ : Lane) (d : Descriptor)
    (s : Chip) : Chip :=
  if check d s = .done then accept d s else s.endLogJob (check d s) 0#32

/-- The position of the checkpoint with this number in the list (R50, R57). -/
def LogState.find (l : LogState) (c : Word) : Option Checkpoint := l.checkpoints.find? (·.number == c)

/-- The entries older than the checkpoint with this number (R50). -/
def LogState.older (l : LogState) (c : Word) : List Checkpoint := l.checkpoints.takeWhile (·.number != c)

/-- The entry with this number and every newer one (R50, R61). -/
def LogState.since (l : LogState) (c : Word) : List Checkpoint := l.checkpoints.dropWhile (·.number != c)

/-- The sum of the RECORDS of some entries. -/
def recordsOf (cs : List Checkpoint) : Nat := (cs.map (·.records)).sum

end Sys2Proof.Machine
end

