-- ==== Sys2Proof/Machine/State.lean ====
section
/-! DEFINITION. The machine's state, its stops, and its value after reset. The blocks' state is in Machine/Blocks.lean. -/

namespace Sys2Proof.Machine

/-- The machine: the part, and the queue of the commands that wait, first in, first out (the model's own). -/
structure State where
  chip    : Chip
  pending : List Instr
  deriving DecidableEq, Repr

/-- The reasons a command stops with a fault. -/
inductive Fault where
  /-- Raised by `execHostAccessArrival` on an access that is neither a single nor a line of R120. The Processor Port carries no
  such access and the manual gives it no effect. Safe: the model stops where the manual says nothing. -/
  | malformedAccess
  deriving DecidableEq, Repr

/-- The reasons a command is refused. -/
inductive Refusal where
  /-- A command whose meaning has not been written: raised by `exec`'s arm only. Safe. -/
  | notModelled (mnemonic : String)
  deriving DecidableEq, Repr

/-- The machine right after a pin reset. The straps are inputs: DESIGN CHOICE (log entry 5), they read 0 here. -/
def State.reset : State := { chip := Chip.atPinReset 0#16, pending := [] }

end Sys2Proof.Machine
end

