-- ==== Sys2Proof/Machine/Meaning.lean ====
section
/-! DEFINITION. How a change of the part becomes the meaning of a command: the queue of waiting commands is left alone. -/

namespace Sys2Proof.Machine

/-- The meaning of a command that changes the part by `f`. -/
def onChip (f : Chip → Chip) (s : State) : Host.Outcome State Fault Refusal := .next { s with chip := f s.chip }

end Sys2Proof.Machine
end

