-- ==== Sys2Proof/Machine/LogJobs.lean ====
section
/-! DEFINITION. The log jobs ATTACH_LOG with its voiding, DETACH_LOG, MARK, RELEASE and REPORT_LOG (R37 to R41, R46 to R56). -/

namespace Sys2Proof.Machine

/-- The ring operands that ATTACH LOG and ADOPT LOG check alike: capacity in range, no passing of 4 GiB, a defined policy
(step 3 of R37 and of R79). -/
def ringOperandsOk (d : Descriptor) : Bool :=
  decide (16 ≤ d.b.toNat ∧ d.b.toNat ≤ 65535) && !passes4GiB d.a.toNat (96 * d.b.toNat) && (policyOf d.c).isSome

/-- The ring range overlaps a non-FREE region, the control page or the attention ring (step 4 of R37 and of R79). -/
def Chip.ringRangeOverlaps (s : Chip) (d : Descriptor) : Bool :=
  s.regionOverlaps d.a.toNat (96 * d.b.toNat) || s.pageOverlaps d.a.toNat (96 * d.b.toNat) ||
    s.attnRingOverlaps d.a.toNat (96 * d.b.toNat)

/-- An accepted ATTACH LOG or ADOPT LOG sets the ring geometry and clears the table (R37, R80). -/
def LogState.withRing (l : LogState) (d : Descriptor) (st : LogStatus) : LogState :=
  { l with
    state := st, base := d.a, capacity := d.b.toNat, policy := (policyOf d.c).getD .break
    stallLimit := stallLimitOf d.c, table := [] }

/-- The drain watch of one log job is set to the drain point (R131). -/
def Chip.watch (s : Chip) (set : DrainWatches → Option Nat → DrainWatches) : Chip :=
  { s with path := { s.path with watches := set s.path.watches s.drainPoint } }

/-- The checks of ATTACH LOG, in the order of R37. -/
def attachCheck (d : Descriptor) (s : Chip) : JobOutcome :=
  if s.log.state ≠ .unset then .logState
  else if d.a.toNat % 32 ≠ 0 then .alignment
  else if !ringOperandsOk d || d.d == 0#32 || d.d == 0xFFFFFFFF#32 then .badOperand
  else if s.ringRangeOverlaps d then .overlap
  else .done

/-- The acceptance of ATTACH LOG (R37): the ring is placed, and the log enters PREPARING and waits for its drain point. -/
def attachAccept (d : Descriptor) (s : Chip) : Chip :=
  (Chip.setStage { s with log := s.log.withRing d .preparing } (.attachDrain d.d)).watch fun w p => { w with attach := p }

/-- The step of ATTACH LOG. -/
def Chip.attachStep : Lane → Descriptor → Chip → Chip := Chip.acceptLog attachCheck attachAccept

/-- The void write of a slot (R38): one line write of 32 zero bytes at the Log Unit's background class. -/
def Chip.issueVoid (s : Chip) (slot : Nat) : Chip :=
  s.issueWrite { owner := .void, cls := .log, access := writeLine (s.log.slotAddress slot) 0#256, stale := false }

/-- VOIDING_START (R38): every host write accepted before the acceptance has been issued. -/
def Chip.voidingStart (s : Chip) : Chip :=
  match s.log.running with
  | some { stage := .attachDrain first, .. } =>
    if s.log.state = .preparing ∧ s.path.watches.attach = none then (s.setStage (.voiding first 0)).issueVoid 0 else s
  | _ => s

/-- The end of voiding (R38), items 1 to 6. -/
def LogState.voided (l : LogState) (first : Word) : LogState :=
  { l with
    head := 0, tail := 0, count := 0, nextSeq := 1#32, lastSeq := 0#32
    checkpoints := [{ number := first, firstSlot := 0, firstSequence := 1#32, records := 0 }]
    highest := first, reason := .none, state := .attached }

/-- Memory's final answer to a void write (R38): the next slot, the end of voiding, or VOID FAULT. -/
def Chip.voidAnswered (s : Chip) (a : FinalAnswer) : Chip :=
  match s.log.running with
  | some { stage := .voiding first slot, .. } =>
    if s.log.state = .preparing then
      match a with
      | .fault => Chip.endLogJob { s with log := s.log.toUnset } .voidFault (BitVec.ofNat 32 slot)
      | .done _ =>
        if slot + 1 < s.log.capacity then (s.setStage (.voiding first (slot + 1))).issueVoid (slot + 1)
        else Chip.endLogJob { s with log := s.log.voided first } .done (BitVec.ofNat 32 s.log.capacity)
    else s
  | _ => s

/-- The check of DETACH LOG (R39, R41). -/
def detachCheck (_ : Descriptor) (s : Chip) : JobOutcome :=
  if s.log.state = .attached ∨ s.log.state = .broken then .done else .logState

/-- DETACH LOG's changes, in the order of R39, and its end. -/
def detachAccept (_ : Descriptor) (s : Chip) : Chip :=
  let s₁ := (Chip.disarm { s with log := { s.log with stallTimer := none } }).answerAll
  Chip.endLogJob { s₁ with log := s₁.log.toUnset } .done 0#32

/-- The step of DETACH LOG. -/
def Chip.detachStep : Lane → Descriptor → Chip → Chip := Chip.acceptLog detachCheck detachAccept

/-- The checks of MARK, in the order of R46. -/
def markCheck (_ : Descriptor) (s : Chip) : JobOutcome :=
  if s.log.state ≠ .attached then .logState
  else if Config.listMax ≤ s.log.checkpoints.length then .listFull
  else if s.log.highest = 0xFFFFFFFF#32 then .numberExhausted
  else .done

/-- The acceptance of MARK: the drain point is asked for and the barrier set (R47, R131). -/
def markAccept (_ : Descriptor) (s : Chip) : Chip :=
  let s₁ := (s.setStage .markDrain).watch fun w p => { w with mark := p }
  { s₁ with path := { s₁.path with barrier := some s₁.path.acceptCount } }

/-- MARK's checks and acceptance. -/
def Chip.markStep : Lane → Descriptor → Chip → Chip := Chip.acceptLog markCheck markAccept

/-- The append of MARK (R49). -/
def LogState.appended (l : LogState) : LogState :=
  { l with
    checkpoints := l.checkpoints ++
      [{ number := l.highest + 1#32, firstSlot := l.tail, firstSequence := l.nextSeq, records := 0 }]
    highest := l.highest + 1#32
    table := [] }

/-- MARK_APPEND (R49): the drain is complete, no capture is in progress, and no RELEASE that was granted beside the MARK still
waits for its step, because the append uses the list as that RELEASE leaves it (R51). A log that has broken takes no append. The
barrier is lifted with the MARK's end. -/
def Chip.markAppend (s : Chip) : Chip :=
  match s.log.running with
  | some { stage := .markDrain, .. } =>
    if s.path.watches.mark = none ∧ s.log.betweenCaptures = true ∧ s.log.beside = none then
      let s₁ := { s with path := { s.path with barrier := none } }
      if s.log.state = .attached then
        Chip.endLogJob { s₁ with log := s.log.appended } .done (s.log.highest + 1#32)
      else s₁.endLogJob .logState 0#32
    else s
  | _ => s

/-- The release of every checkpoint older than `c` (R50): the entries go, head moves to c's FIRST SLOT, count falls. -/
def LogState.released (l : LogState) (c : Checkpoint) : LogState :=
  { l with
    checkpoints := l.since c.number
    head := c.firstSlot
    count := l.count - recordsOf (l.older c.number) }

/-- The checks of RELEASE, in the order of R50. -/
def releaseCheck (d : Descriptor) (s : Chip) : JobOutcome :=
  if s.log.state ≠ .attached then .logState
  else match s.log.find d.a with
    | none => .noSuchCheckpoint
    | some _ => .done

/-- RELEASE's step (R50); `finish` ends the job. A log that has broken since the grant takes no release (log entry 24). The captures
that wait for space are then taken again (R51), after the job's own outcome write has been made (log entry 46). -/
def Chip.releaseStep (finish : JobOutcome → Word → Chip → Chip) (d : Descriptor) (s : Chip) : Chip :=
  if s.log.state ≠ .attached then finish .logState 0#32 s
  else match s.log.find d.a with
    | none => finish .noSuchCheckpoint 0#32 s
    | some c =>
      Chip.retake (finish .done (BitVec.ofNat 32 (recordsOf (s.log.older d.a))) { s with log := s.log.released c })

/-- The RELEASE granted beside a MARK ends (R40). -/
def Chip.endBeside (l : Lane) (o : JobOutcome) (result : Word) (s : Chip) : Chip :=
  Chip.finishJob { s with log := { s.log with beside := none } } l o result

/-- The running job is a MARK in its drain step while a capture waits for space: the exception of R40. -/
def Chip.markStalled (s : Chip) : Bool :=
  (match s.log.running with
    | some { stage := .markDrain, .. } => true
    | _ => false) && s.path.watches.mark.isSome && s.log.stalled

/-- RELEASE (R40, R50): granted in its turn, or, while a draining MARK meets a stall, the oldest waiting RELEASE at once. Its checks
are taken at the grant, and its step between captures. -/
def Chip.release (s : Chip) : Chip :=
  match s.log.beside with
  | some l =>
    match s.jobIn l .run .release with
    | some d => if s.log.betweenCaptures then Chip.releaseStep (Chip.endBeside l) d s else s
    | none => s
  | none =>
    if s.markStalled then
      match s.log.waiting.find? fun l => (s.jobIn l .wait .release).isSome with
      | none => s
      | some l =>
        match s.jobIn l .wait .release with
        | none => s
        | some d =>
          let s₁ := { s with log := { s.log with waiting := s.log.waiting.erase l, beside := some l } }
          let s₂ := s₁.laneRuns l
          if s.log.betweenCaptures || releaseCheck d s != .done then Chip.releaseStep (Chip.endBeside l) d s₂ else s₂
    else s.grantLog .release releaseCheck true fun _ d t => Chip.releaseStep (fun o r u => u.endLogJob o r) d t

/-- The report's next write (R55): lines for a 32-aligned buffer, else singles of 8 bytes, at the background class. -/
def Chip.issueReport (s : Chip) (r : Report) : Chip :=
  let a := r.addr + BitVec.ofNat 32 r.written
  let access :=
    if r.addr.toNat % 32 = 0 then writeLine a (field r.snapshot r.written 256)
    else writeSingle a 8 ((field r.snapshot r.written 64).setWidth 256)
  Chip.issueWrite (s.setStage (.reporting r)) { owner := .report, cls := .log, access := access, stale := false }

/-- The checks of REPORT LOG, in the order of R41 and R53. -/
def reportCheck (d : Descriptor) (s : Chip) : JobOutcome :=
  if ¬(s.log.state = .unset ∨ s.log.state = .attached ∨ s.log.state = .broken) then .logState
  else if d.a.toNat % 16 ≠ 0 then .alignment
  else if passes4GiB d.a.toNat 256 then .badOperand
  else if s.pageOverlaps d.a.toNat 256 || s.logRingOverlaps d.a.toNat 256 || s.attention.ringMeets d.a.toNat 256 then .overlap
  else .done

/-- The step of REPORT LOG, which has passed its checks at the grant: the snapshot of R54, and its first write. -/
def Chip.reportStep (_ : Lane) (d : Descriptor) (s : Chip) : Chip :=
  s.issueReport { addr := d.a, snapshot := reportSnapshot s.log, written := 0 }

/-- Memory's final answer to a report write (R55). -/
def Chip.reportAnswered (s : Chip) (a : FinalAnswer) : Chip :=
  match s.log.running with
  | some { stage := .reporting r, .. } =>
    match a with
    | .fault => s.endLogJob .reportFault (BitVec.ofNat 32 r.written)
    | .done _ =>
      let n := r.written + (if r.addr.toNat % 32 = 0 then 32 else 8)
      if n < 256 then s.issueReport { r with written := n } else s.endLogJob .done 256#32
  | _ => s

/-- The meaning of ATTACH_LOG (R37). -/
def execAttachLog (s : State) : Host.Outcome State Fault Refusal := onChip (·.grantLog .attachLog attachCheck true Chip.attachStep) s

/-- The meaning of VOIDING_START (R38). -/
def execVoidingStart (s : State) : Host.Outcome State Fault Refusal := onChip (·.voidingStart) s

/-- The meaning of VOID_WRITE_ANSWER (R38). -/
def execVoidWriteAnswer (a : FinalAnswer) (s : State) : Host.Outcome State Fault Refusal :=
  onChip (·.answered (· == .void) fun _ t => t.voidAnswered a) s

/-- The meaning of DETACH_LOG (R39). -/
def execDetachLog (s : State) : Host.Outcome State Fault Refusal := onChip (·.grantLog .detachLog detachCheck true Chip.detachStep) s

/-- The meaning of MARK (R46): its checks and acceptance are not among the steps that wait for a capture (R26). -/
def execMark (s : State) : Host.Outcome State Fault Refusal := onChip (·.grantLog .mark markCheck false Chip.markStep) s

/-- The meaning of MARK_APPEND (R49). -/
def execMarkAppend (s : State) : Host.Outcome State Fault Refusal := onChip (·.markAppend) s

/-- The meaning of RELEASE (R50). -/
def execRelease (s : State) : Host.Outcome State Fault Refusal := onChip (·.release) s

/-- The meaning of REPORT_LOG (R53). -/
def execReportLog (s : State) : Host.Outcome State Fault Refusal := onChip (·.grantLog .reportLog reportCheck true Chip.reportStep) s

/-- The meaning of REPORT_WRITE_ANSWER (R55). -/
def execReportWriteAnswer (a : FinalAnswer) (s : State) : Host.Outcome State Fault Refusal :=
  onChip (·.answered (· == .report) fun _ t => t.reportAnswered a) s

end Sys2Proof.Machine
end

