-- ==== Sys2Proof/Machine/AdoptJob.lean ====
section
/-! DEFINITION. ADOPT LOG and its scan: ADOPT_LOG, SELECT_PASS_START and SCAN_READ_ANSWER (R79 to R94). -/

namespace Sys2Proof.Machine

/-- The scan context at acceptance (R80). -/
def newScan (floor : Word) : Scan :=
  { pass := .select, started := false, slot := 0, newest := none, expected := 0#32, bound := none, included := 0, runs := [],
    floor := floor, tail := 0, step := .readHeader, header := 0#256, first := 0#256 }

/-- The checks of ADOPT LOG, in the order of R79. -/
def adoptCheck (d : Descriptor) (s : Chip) : JobOutcome :=
  if s.log.state ≠ .unset then .logState
  else if d.a.toNat % 32 ≠ 0 then .alignment
  else if !ringOperandsOk d then .badOperand
  else if s.ringRangeOverlaps d then .overlap
  else .done

/-- The acceptance of ADOPT LOG (R80): the ring is placed, and the log enters SCANNING and waits for its drain point. -/
def adoptAccept (d : Descriptor) (s : Chip) : Chip :=
  (Chip.setStage { s with log := s.log.withRing d .scanning } (.adopting (newScan d.d))).watch fun w p => { w with adopt := p }

/-- The step of ADOPT LOG. -/
def Chip.adoptStep : Lane → Descriptor → Chip → Chip := Chip.acceptLog adoptCheck adoptAccept

/-- A scan read at the background class (R81). -/
def scanRequest (a : Word) : PortRequest := { owner := .scan, cls := .log, access := readLine a, stale := false }

/-- The scan reads the header line of its slot. -/
def Chip.readScanSlot (s : Chip) (c : Scan) : Chip :=
  (s.setStage (.adopting { c with step := .readHeader })).request (scanRequest (s.log.slotAddress c.slot))

/-- SELECT_PASS_START (R81): every host write accepted before the acceptance has been issued. -/
def Chip.selectPassStart (s : Chip) : Chip :=
  match s.log.running with
  | some { stage := .adopting c, .. } =>
    if s.log.state = .scanning ∧ c.started = false ∧ s.path.watches.adopt = none then
      s.readScanSlot { c with started := true, slot := 0 }
    else s
  | _ => s

/-- A valid RECORD (R82). -/
def validRecord (header first second : Line) : Bool :=
  headerKind header == kindRecord && headerCheck header == recordCheck header first second &&
    headerSequence header != 0#32 && headerSequence header != Config.seqMax &&
    decide ((headerGranule header).toNat % 64 = 0) && headerCheckpoint header != 0#32

/-- A valid MARKER (R82). -/
def validMarker (header : Line) : Bool :=
  headerKind header == kindMarker && headerCheck header == markerCheck header && headerSequence header != 0#32 &&
    headerCheckpoint header != 0#32

/-- NEWEST after a slot of the select pass (R83): replaced by a valid slot with a higher SEQUENCE, or by the first valid slot. -/
def Scan.select (c : Scan) (second : Line) : Option Newest :=
  if validRecord c.header c.first second || validMarker c.header then
    let item : Newest :=
      { slot := c.slot, isMarker := headerKind c.header == kindMarker, sequence := headerSequence c.header,
        previous := headerPrevious c.header, checkpoint := headerCheckpoint c.header }
    match c.newest with
    | none => some item
    | some n => if n.sequence.toNat < item.sequence.toNat then some item else some n
  else c.newest

/-- The distinct checkpoint numbers of the walk, the marker checkpoint among them (R87). -/
def Scan.numbers (c : Scan) : List Word :=
  let runs := c.runs.map (·.number)
  match c.newest with
  | some n => if n.isMarker && !runs.contains n.checkpoint then n.checkpoint :: runs else runs
  | none => runs

/-- The five conditions of R84 under which the walk takes the slot as a retained record. -/
def Scan.takes (c : Scan) (second : Line) : Bool :=
  validRecord c.header c.first second && headerSequence c.header == c.expected &&
    decide (c.floor.toNat ≤ (headerCheckpoint c.header).toNat) &&
    (match c.bound with
      | some b => decide ((headerCheckpoint c.header).toNat ≤ b.toNat)
      | none => true) &&
    (c.numbers.contains (headerCheckpoint c.header) || decide (c.numbers.length < Config.listMax))

/-- The runs once a record of checkpoint `k` in a slot has joined its run, or opened it (R84); oldest run first. -/
def joinRun (runs : List Run) (k : Word) (slot : Nat) (sequence : Word) : List Run :=
  match runs with
  | r :: rs =>
    if r.number = k then { r with oldest := slot, sequence := sequence, records := r.records + 1 } :: rs
    else { number := k, oldest := slot, sequence := sequence, records := 1 } :: r :: rs
  | [] => [{ number := k, oldest := slot, sequence := sequence, records := 1 }]

/-- The walk takes the slot (R84). -/
def Scan.take (c : Scan) : Scan :=
  { c with
    included := c.included + 1
    runs := joinRun c.runs (headerCheckpoint c.header) c.slot (headerSequence c.header)
    bound := some (headerCheckpoint c.header)
    expected := headerPrevious c.header }

/-- The scan ends without a log (R89, R90): UNSET, and the job's end. -/
def Chip.endScan (s : Chip) (o : JobOutcome) (result : Nat) : Chip :=
  Chip.endLogJob { s with log := s.log.toUnset } o (BitVec.ofNat 32 result)

/-- The checkpoint list built from the runs, with the marker checkpoint as one further entry when no run carries it (R86). -/
def Scan.list (c : Scan) (n : Newest) (nextSeq : Word) : List Checkpoint :=
  let runs := c.runs.map fun r =>
    ({ number := r.number, firstSlot := r.oldest, firstSequence := r.sequence, records := r.records } : Checkpoint)
  if n.isMarker && !(c.runs.map (·.number)).contains n.checkpoint then
    runs ++ [{ number := n.checkpoint, firstSlot := c.tail, firstSequence := nextSeq, records := 0 }]
  else runs

/-- The log after a successful scan (R83, R85, R86, R88). -/
def LogState.adopted (l : LogState) (c : Scan) (n : Newest) (nextSeq : Word) : LogState :=
  let list := c.list n nextSeq
  { l with
    tail := c.tail
    count := c.included
    head := match c.runs with
      | r :: _ => r.oldest
      | [] => c.tail
    nextSeq := nextSeq
    lastSeq := if n.isMarker then n.previous else n.sequence
    checkpoints := list
    highest := match list.getLast? with
      | some e => e.number
      | none => 0#32
    table := []
    stallTimer := none
    state := .attached }

/-- The walk has stopped (R85): SCAN EMPTY when no record was taken and the newest item is a RECORD, else the log is rebuilt and
the job ends DONE with count (R86, R88). After a MARKER with SEQUENCE 0xFFFFFFFF next sequence is a free value (log entry 1). -/
def Chip.finishScan (s : Chip) (c : Scan) (n : Newest) : Chip :=
  if c.included = 0 ∧ n.isMarker = false then s.endScan .scanEmpty 0
  else
    let past := n.sequence == 0xFFFFFFFF#32
    let nextSeq := if past then Config.sequencePastMax s.freeIndex else n.sequence + 1#32
    Chip.endLogJob
      { s with log := s.log.adopted c n nextSeq, freeIndex := if past then s.freeIndex + 1 else s.freeIndex }
      .done (BitVec.ofNat 32 c.included)

/-- The walk goes on unless a stop condition of R84 holds: EXPECTED is 0, or INCLUDED equals N. -/
def Chip.walkOn (s : Chip) (c : Scan) (n : Newest) : Chip :=
  if c.expected = 0#32 ∨ c.included = s.log.capacity then s.finishScan c n
  else s.readScanSlot { c with slot := (c.tail + (s.log.capacity - 1) * (c.included + 1)) % s.log.capacity }

/-- The end of the select pass (R81, R83): SCAN EMPTY, or the log's end is fixed from NEWEST and the walk pass begins. -/
def Chip.endSelect (s : Chip) (c : Scan) : Chip :=
  match c.newest with
  | none => s.endScan .scanEmpty 0
  | some n =>
    let c' := { c with
      pass := .walk
      tail := if n.isMarker then n.slot else (n.slot + 1) % s.log.capacity
      expected := if n.isMarker then n.previous else n.sequence
      bound := if n.isMarker then some n.checkpoint else none }
    s.walkOn c' n

/-- The slot's three reads are complete: it is judged (R81, R83, R84). -/
def Chip.judgeSlot (s : Chip) (c : Scan) (second : Line) : Chip :=
  match c.pass with
  | .select =>
    let c' := { c with newest := c.select second }
    if c.slot + 1 < s.log.capacity then s.readScanSlot { c' with slot := c.slot + 1 } else s.endSelect c'
  | .walk =>
    match c.newest with
    | none => s
    | some n =>
      if c.takes second then
        if (headerPrevious c.header).toNat < (headerSequence c.header).toNat then s.walkOn c.take n
        else s.finishScan c.take n
      else s.finishScan c n

/-- Memory's final answer to a scan read (R81, R84, R90); a scan reads nothing before its select pass has started. -/
def Chip.scanAnswered (s : Chip) (a : FinalAnswer) : Chip :=
  match s.log.running with
  | some { stage := .adopting c, .. } =>
    if s.log.state = .scanning ∧ c.started = true then
      match a with
      | .fault => s.endScan .scanFault c.slot
      | .done data =>
        let slot := s.log.slotAddress c.slot
        match c.step with
        | .readHeader =>
          (s.setStage (.adopting { c with header := data, step := .readFirst })).request (scanRequest (slot + 0x20#32))
        | .readFirst =>
          (s.setStage (.adopting { c with first := data, step := .readSecond })).request (scanRequest (slot + 0x40#32))
        | .readSecond => s.judgeSlot c data
    else s
  | _ => s

/-- The meaning of ADOPT_LOG (R79). -/
def execAdoptLog (s : State) : Host.Outcome State Fault Refusal := onChip (·.grantLog .adoptLog adoptCheck true Chip.adoptStep) s

/-- The meaning of SELECT_PASS_START (R81). -/
def execSelectPassStart (s : State) : Host.Outcome State Fault Refusal := onChip (·.selectPassStart) s

/-- The meaning of SCAN_READ_ANSWER (R84). -/
def execScanReadAnswer (a : FinalAnswer) (s : State) : Host.Outcome State Fault Refusal :=
  onChip (·.answered (· == .scan) fun _ t => t.scanAnswered a) s

end Sys2Proof.Machine
end

