-- ==== Sys2Proof/Machine/AttentionCommands.lean ====
section
/-! DEFINITION. The Attention Unit's commands: CONFIGURE_ATTENTION, ATTENTION_POSTING and ATTENTION_WRITE_ANSWER (R167 to R174).
CONSUME_WORD is in Machine/PageWords.lean. -/

namespace Sys2Proof.Machine

/-! ## Writes of a posting (R170) -/

/-- The record that a posting writes; the produce word of a configure writes none (R168). -/
def PostingKind.contents : PostingKind → Option AttnRecord
  | .record l => some l.record
  | .overrun => some (plainRecord .overrun 1#32)
  | .rewrite n => some (plainRecord .overrun n)
  | .configure => none

/-- The produce word's write (R170): one single write of 4 bytes at page + 0x1C; its upper 16 bits are zero (R178). -/
def produceAccess (pageBase : Word) (produce : Half) : Access :=
  writeSingle (pageBase + 0x1C#32) 4 (place 256 produce 4)

/-- The address of slot `i` (R165). -/
def AttentionState.slotAddress (a : AttentionState) (i : Nat) : Word := a.base + BitVec.ofNat 32 (16 * i)

/-- The write a posting has reached (R170): one half of its record, or the produce word. -/
def Chip.postingAccess (s : Chip) (p : Posting) : Access :=
  let slot := s.attention.slotAddress p.slot
  match p.step, p.kind.contents with
  | .low, some r => writeSingle slot 8 (attentionLow r)
  | .high, some r => writeSingle (slot + 8#32) 8 (attentionHigh r p.sequence)
  | _, _ => produceAccess s.path.pageBase s.attention.produce

/-- A posting issues the write it has reached, at class 3. -/
def Chip.issuePosting (s : Chip) (p : Posting) : Chip :=
  Chip.issueWrite { s with attention := { s.attention with posting := some p } }
    { owner := .attention, cls := .attention, access := s.postingAccess p, stale := false }

/-! ## Posting -/

/-- A record that takes the next SEQUENCE is written into the slot of the produce index (R170, R171). -/
def Chip.writeRecord (s : Chip) (k : PostingKind) : Chip :=
  let seq := s.attention.sequence + 1#32
  Chip.issuePosting { s with attention := { s.attention with sequence := seq } }
    { kind := k, sequence := seq, slot := s.attention.produce.toNat % s.attention.capacity, step := .low }

/-- A dropped count plus 1, which stops at 0xFFFFFFFF (R171). -/
def countDropped (n : Word) : Word := if n = 0xFFFFFFFF#32 then n else n + 1#32

/-- The posting of a record, decided by the occupancy (R170, R171). -/
def Chip.decidePosting (s : Chip) (x : Listed) : Chip :=
  let n := s.attention.occupancy
  if n < s.attention.capacity then
    let s₁ := { s with attention := { s.attention with overrun := none } }
    if n + 1 < s.attention.capacity then s₁.writeRecord (.record x) else s₁.writeRecord .overrun
  else match s.attention.overrun with
    | some o =>
      let dropped := countDropped o.dropped
      Chip.issuePosting
        { s with attention := { s.attention with overrun := some { o with dropped := dropped } } }
        { kind := .rewrite dropped, sequence := o.sequence, slot := o.slot, step := .low }
    | none => s

/-- ATTENTION_POSTING (R170): the oldest listed record leaves the list, its posting begins, and its source's room is free. The
posting's write comes before a write of the source that goes on (log entry 46). -/
def Chip.attentionPosting (s : Chip) : Chip :=
  if s.attention.configured && s.attention.posting.isNone then
    match s.attention.posts with
    | [] => s
    | x :: rest =>
      (Chip.decidePosting { s with attention := { s.attention with posts := rest } } x).serveHanding x.source
  else s

/-! ## Configuring (R167, R168) -/

/-- The outcome of a CONFIGURE ATTENTION's checks in the order of R167; DONE accepts. A base of 0 unconfigures, unchecked. -/
def Chip.configureCheck (s : Chip) (d : Descriptor) : JobOutcome :=
  let a := d.a.toNat
  let n := 16 * d.b.toNat
  if d.a = 0#32 then .done
  else if a % 16 ≠ 0 then .alignment
  else if ¬(8 ≤ d.b.toNat ∧ d.b.toNat ≤ 1024) ∨ passes4GiB a n = true ∨ lineEnableOf d.c = none then .badOperand
  else if s.regionOverlaps a n || s.pageOverlaps a n || s.logRingOverlaps a n then .overlap
  else .done

/-- An unconfigured ring keeps only its sources' waiting handings (R168, R174). -/
def AttentionState.unconfigured (a : AttentionState) : AttentionState :=
  { AttentionState.atReset with handings := a.handings, configure := a.configure }

/-- A configured ring, empty, with the post list kept (R168). -/
def AttentionState.configuredTo (a : AttentionState) (c : PendingConfigure) : AttentionState :=
  { a with
    configured := true, base := c.base, capacity := c.capacity, lineEnable := c.lineEnable, produce := 0#16, consume := 0#16
    sequence := 0#32, overrun := none, posting := none, configure := none }

/-- The job takes effect in one step (R168): the ring is configured, the produce word is written with 0, and the configure is
reported; or the ring is unconfigured, and its records and handings are discarded. The sources that waited go on before the job's
own outcome write is made (R157; log entry 44). The order of its writes at the write check is log entry 46. -/
def Chip.takeConfigure (s : Chip) (c : PendingConfigure) : Chip :=
  if c.base = 0#32 then
    (Chip.dropHandings { s with attention := { s.attention.unconfigured with configure := none } }).finishJob c.lane .done 0#32
  else
    let s₁ := Chip.reportConfigured { s with attention := s.attention.configuredTo c }
    (s₁.issuePosting { kind := .configure, sequence := 0#32, slot := 0, step := .produce }).finishJob c.lane .done
      (BitVec.ofNat 32 c.capacity)

/-- A posting is stopped, and its record, unless its record write has been answered DONE or it is an OVERRUN, returns to the head
of the post list (R168). `kept` says that the record write is over. -/
def AttentionState.stopPosting (a : AttentionState) (kept : Posting → Bool) : AttentionState :=
  match a.posting with
  | some p =>
    match p.kind with
    | .record x => { a with posting := none, posts := if kept p then a.posts else x :: a.posts }
    | _ => { a with posting := none }
  | none => a

/-- The Attention Unit's write, not yet issued, is withdrawn from wherever it waits. Its request for the port is taken back; a
copy-ahead that it has triggered, begun or waiting to be taken, runs to its end without it (R168, R137; log entry 28). -/
def Chip.withdrawAttention (s : Chip) : Chip :=
  let mine := fun r : PortRequest => r.owner == .attention
  let s₁ := s.withdraw (· == .attention)
  { s₁ with copy := { s₁.copy with
    queue := s₁.copy.queue.map fun r => if mine r then { r with stale := true } else r
    ahead := s₁.copy.ahead.map fun h => { h with trigger := h.trigger.filter fun r => !mine r } } }

/-- CONFIGURE ATTENTION (R167, R168): checked, and accepted; a posting in progress is settled first, at once or, with one of its
writes issued, at that write's answer. While an accepted job waits for that answer a second one is not taken (log entry 38). -/
def Chip.configureAttention (s : Chip) (l : Lane) : Chip :=
  match s.jobIn l .run .configureAttention with
  | none => s
  | some d =>
    if s.attention.configure.isSome then s
    else
      let o := s.configureCheck d
      if o = .done then
        let c : PendingConfigure :=
          { lane := l, base := d.a, capacity := d.b.toNat, lineEnable := (lineEnableOf d.c).getD false }
        if s.issued (· == .attention) then { s with attention := { s.attention with configure := some c } }
        else
          let s₁ := s.withdrawAttention
          Chip.takeConfigure { s₁ with attention := s₁.attention.stopPosting fun p => p.step == .produce } c
      else s.finishJob l o 0#32

/-! ## Answers (R170, R171, R174) -/

/-- The second write of a record is answered DONE: the record counts in occupancy (R170, R171). -/
def Chip.countPosting (s : Chip) (p : Posting) : Chip :=
  let produce := s.attention.produce + 1#16
  match p.kind with
  | .overrun =>
    Chip.issuePosting
      { s with attention := { s.attention with
        produce := produce, overrun := some { slot := p.slot, dropped := 1#32, sequence := p.sequence } } }
      { p with step := .produce }
  | .rewrite _ => { s with attention := { s.attention with posting := none } }
  | .record _ | .configure =>
    Chip.issuePosting { s with attention := { s.attention with produce := produce } } { p with step := .produce }

/-- Memory has answered DONE to a posting's write (R170): the next write, or the posting's end. -/
def Chip.advancePosting (s : Chip) (p : Posting) : Chip :=
  match p.step with
  | .low => s.issuePosting { p with step := .high }
  | .high => s.countPosting p
  | .produce => { s with attention := { s.attention with posting := none } }

/-- A FAULT on an attention write deconfigures the ring (R174). -/
def Chip.deconfigure (s : Chip) : Chip :=
  Chip.dropHandings (Chip.reportDeconfigured { s with attention := s.attention.unconfigured })

/-- Memory's final answer to an attention write (R170, R174). A configure that has waited for it then takes effect (R168). -/
def Chip.attentionAnswered (s : Chip) (a : FinalAnswer) : Chip :=
  match s.attention.posting with
  | none => s
  | some p =>
    match a, s.attention.configure with
    | .fault, none => s.deconfigure
    | .fault, some c => s.deconfigure.takeConfigure c
    | .done _, none => s.advancePosting p
    | .done _, some c =>
      Chip.takeConfigure { s with attention := s.attention.stopPosting fun q => q.step != .low } c

/-- The meaning of CONFIGURE_ATTENTION (R167). -/
def execConfigureAttention (l : Lane) (s : State) : Host.Outcome State Fault Refusal := onChip (·.configureAttention l) s

/-- The meaning of ATTENTION_POSTING (R170). -/
def execAttentionPosting (s : State) : Host.Outcome State Fault Refusal := onChip (·.attentionPosting) s

/-- The meaning of ATTENTION_WRITE_ANSWER (R170). -/
def execAttentionWriteAnswer (a : FinalAnswer) (s : State) : Host.Outcome State Fault Refusal :=
  onChip (·.answered (· == .attention) fun _ t => t.attentionAnswered a) s

end Sys2Proof.Machine
end

