-- ==== Sys2Proof/Machine/CaptureCommands.lean ====
section
/-! DEFINITION. Captures: CAPTURE_REQUEST, CAPTURE_TRANSFER_ANSWER and STALL_TIMER_EXPIRY (R24 to R34). -/

namespace Sys2Proof.Machine

/-- The oldest waiting request that has not been taken yet. -/
def LogState.untaken (l : LogState) : Option CaptureRequest := l.requests.find? (!·.stalled)

/-- CAPTURE_REQUEST (R24, R26): with no capture in progress the oldest request not yet taken is taken. While requests wait under
a stall, one whose granule is not in the table joins them, and one whose granule is in it is answered go ahead of them, also when it
was made while a capture was in progress (R30; log entry 45). -/
def Chip.captureRequest (s : Chip) : Chip :=
  if s.log.capture.isSome then s
  else match s.log.untaken with
    | none => s
    | some r =>
      let s₁ := { s with log := { s.log with requests := s.log.requests.erase r } }
      if s.log.stalled ∧ s.log.state = .attached ∧ s.log.table.contains r.granule = false then s₁.stallRequest r
      else s₁.takeCapture r

/-- Memory's final answer to the capture's current access (R25, R32, R33). -/
def Chip.captureAnswered (s : Chip) (a : FinalAnswer) : Chip :=
  match s.log.capture with
  | none => s
  | some c =>
    match a with
    | .done data => s.advanceCapture c data
    | .fault => s.failCapture c

/-- STALL_TIMER_EXPIRY (R31): the log enters BROKEN with OVERFLOW, and every waiting request is answered go. The timer runs only
while the log is ATTACHED (R30). -/
def Chip.stallTimerExpiry (s : Chip) : Chip :=
  if s.log.stallTimer.isSome ∧ s.log.state = .attached then s.breakLog .overflow else s

/-- The meaning of CAPTURE_REQUEST (R24). -/
def execCaptureRequest (s : State) : Host.Outcome State Fault Refusal := onChip (·.captureRequest) s

/-- The meaning of CAPTURE_TRANSFER_ANSWER (R25). -/
def execCaptureTransferAnswer (a : FinalAnswer) (s : State) : Host.Outcome State Fault Refusal :=
  onChip (·.answered (· == .capture) fun _ t => t.captureAnswered a) s

/-- The meaning of STALL_TIMER_EXPIRY (R31). -/
def execStallTimerExpiry (s : State) : Host.Outcome State Fault Refusal := onChip (·.stallTimerExpiry) s

end Sys2Proof.Machine
end

