-- ==== Sys2Proof/Machine/CopyJob.lean ====
section
/-! DEFINITION. COPY and its events: COPY, FRONTIER_TRANSFER_ANSWER, PACING_WINDOW_EXPIRY, COPY_AHEAD_REQUEST,
COPY_AHEAD_TRANSFER_ANSWER and CANCEL_COPY (R97 to R118). -/

namespace Sys2Proof.Machine

/-- The conditions of R98, with the mode decoded (R176): the copy is refused with BAD OPERAND. -/
def copyRefused (d : Descriptor) : Bool :=
  let a := d.a.toNat
  let b := d.b.toNat
  let c := d.c.toNat
  decide (c = 0 ∨ 16777216 < c) || passes4GiB a c || passes4GiB b c || overlaps a c b c ||
    (match copyModeOf d.d with
      | none => true
      | some .plain => false
      | some .consistent =>
        decide (4096 < granulesTouched a c) || decide (a / 64 ≤ (b + c - 1) / 64 ∧ b / 64 ≤ (a + c - 1) / 64))

/-- A write that waits for its grant withdraws its request and passes the write check again when a CONSISTENT copy is accepted
(R121, R137): it goes back to wait for its copy-ahead. Several pass it in the order in which the arbiter holds them (log
entry 41). -/
def Chip.recheckWrites (s : Chip) : Chip :=
  let due := fun r : PortRequest => r.access.write && (s.copy.notCopied r.access.addr).isSome
  { s with
    arbiter := { s.arbiter with requests := s.arbiter.requests.filter fun r => !due r }
    copy := { s.copy with queue := s.copy.queue ++ s.arbiter.requests.filter due } }

/-- An accepted COPY takes no image whose read began before it (R105, R108; log entry 30): a write issued since then may have
changed the granule. The read of a capture for a host write that has its first line is not kept either. -/
def Chip.forgetImage (s : Chip) : Chip :=
  let image := if s.log.hostReadBegun then .unshared else .absent
  { s with path := { s.path with forward := s.path.forward.map fun f => { f with image := image } } }

/-- The context that an accepted COPY sets (R99). -/
def CopyState.accepted (c : CopyState) (l : Lane) (d : Descriptor) : CopyState :=
  { c with
    state := .copying, source := d.a, dest := d.b, length := d.c.toNat, mode := (copyModeOf d.d).getD .plain
    budget := budgetOf d.d, budgetLeft := budgetOf d.d, frontier := 0, lane := l, cancelPend := false, map := 0#4096
    windowTimer := budgetOf d.d != 0#8, front := none, ahead := none, queue := [], fix := none, cancels := [] }

/-- COPY once granted: refused with BAD OPERAND (R98), or accepted, and the frontier begins its first span (R99). An image read
before serves no copy-ahead of this copy (R108). -/
def Chip.runCopy (s : Chip) (l : Lane) (d : Descriptor) : Chip :=
  if copyRefused d then s.finishJob l .badOperand 0#32
  else
    Chip.beginSpan (Chip.recheckWrites (Chip.forgetImage { s with copy := s.copy.accepted l d }))

/-- COPY (R97): with the context IDLE the arbiter grants its oldest job, whose lane enters RUN. -/
def Chip.copyJob (s : Chip) : Chip :=
  if s.copy.active then s
  else match s.copy.waiting with
    | [] => s
    | l :: rest =>
      match s.jobIn l .wait .copy with
      | none => s
      | some d => Chip.runCopy (Chip.laneRuns { s with copy := { s.copy with waiting := rest } } l) l d

/-- Memory's final answer to a frontier transfer (R101, R102, R116): a FAULT ends the copy with SOURCE FAULT for a read and with
DEST FAULT for a write. -/
def Chip.frontAnswered (s : Chip) (a : FinalAnswer) : Chip :=
  match s.copy.front with
  | none => s
  | some f =>
    match a with
    | .done data => s.advanceFront f data
    | .fault => s.failFront (if f.phase = .read then .sourceFault else .destFault)

/-- PACING_WINDOW_EXPIRY (R104): BUDGET LEFT is refilled, and a PAUSED-BUDGET copy goes on. -/
def Chip.windowExpiry (s : Chip) : Chip :=
  if s.copy.windowTimer then
    let s₁ := { s with copy := { s.copy with budgetLeft := s.copy.budget } }
    if s.copy.state = .pausedBudget then Chip.beginSpan { s₁ with copy := { s₁.copy with state := .copying } } else s₁
  else s

/-- The image that serves a copy-ahead for this write in place of its own reads (R108). -/
def Chip.sharedImage (s : Chip) (r : PortRequest) : SharedImage :=
  match r.owner, s.path.forward with
  | .forwardWrite _, some f => f.image
  | _, _ => .absent

/-- COPY_AHEAD_REQUEST (R110): with no copy-ahead in progress the oldest request is taken and its entry looked at again: COPIED
releases the write, NOT COPIED starts the copy-ahead. A withdrawn write is not released (R168). -/
def Chip.copyAheadRequest (s : Chip) : Chip :=
  if s.copy.ahead.isSome then s
  else match s.copy.queue with
    | [] => s
    | r :: rest =>
      let s₁ := { s with copy := { s.copy with queue := rest } }
      match s.copy.notCopied r.access.addr with
      | none => if r.withdrawn then s₁ else s₁.request r
      | some k => s₁.startAhead k r (s.sharedImage r)

/-- Memory's final answer to a copy-ahead transfer (R107, R112). -/
def Chip.aheadAnswered (s : Chip) (a : FinalAnswer) : Chip :=
  match s.copy.ahead with
  | none => s
  | some h =>
    match a with
    | .done data => s.advanceAhead h data
    | .fault => s.failAhead (if h.reads = [] then .destFault else .sourceFault)

/-- CANCEL COPY on an active copy (R117, R118): it ends CANCELLED at once, or, with a copy-ahead in progress, the frontier stops
and the copy ends with the copy-ahead. The cancelling lane is handed its outcome when the copy ends. In PAUSED-BUDGET and
PAUSED-REGION too a copy-ahead in progress runs to its end first, as R117 says (log entry 37). The outcome of a frontier fault that
waits for the copy-ahead stands (R116; log entry 42). -/
def Chip.cancelActive (s : Chip) (l : Lane) : Chip :=
  let s₁ := { s with copy := { s.copy with cancels := s.copy.cancels ++ [l] } }
  if s.copy.ahead.isSome then
    let s₂ := s₁.dropFront
    { s₂ with copy := { s₂.copy with cancelPend := true, fix := some (s₂.copy.fix.getD .cancel) } }
  else s₁.endCopy .cancelled

/-- The copy-ahead requests that an active copy holds are taken, oldest first, until a copy-ahead is in progress: a write that was
taken at the check before a cancel has its copy-ahead run (R118; log entry 27). A copy that ends here makes its outcome write
before the cancelling lane does (log entry 44). -/
def Chip.takeAheads : Nat → Chip → Chip
  | 0, s => s
  | n + 1, s => if s.copy.active && s.copy.ahead.isNone then s.copyAheadRequest.takeAheads n else s

/-- CANCEL COPY, taken in the context as it stands (R117). -/
def Chip.cancelNow (s : Chip) (l : Lane) : Chip :=
  match s.jobIn l .run .cancelCopy with
  | none => s
  | some _ =>
    if s.copy.cancels.contains l then s
    else if s.copy.active then s.cancelActive l
    else s.finishJob l .done 0#32

/-- CANCEL COPY (R117, R118): it follows the copy-ahead requests that were made before it. -/
def Chip.cancelCopy (s : Chip) (l : Lane) : Chip :=
  match s.jobIn l .run .cancelCopy with
  | none => s
  | some _ => if s.copy.cancels.contains l then s else (s.takeAheads s.copy.queue.length).cancelNow l

/-- The meaning of COPY (R98). -/
def execCopy (s : State) : Host.Outcome State Fault Refusal := onChip (·.copyJob) s

/-- The meaning of FRONTIER_TRANSFER_ANSWER (R101). -/
def execFrontierTransferAnswer (a : FinalAnswer) (s : State) : Host.Outcome State Fault Refusal :=
  onChip (·.answered (· == .frontier) fun _ t => t.frontAnswered a) s

/-- The meaning of PACING_WINDOW_EXPIRY (R104). -/
def execPacingWindowExpiry (s : State) : Host.Outcome State Fault Refusal := onChip (·.windowExpiry) s

/-- The meaning of COPY_AHEAD_REQUEST (R110). -/
def execCopyAheadRequest (s : State) : Host.Outcome State Fault Refusal := onChip (·.copyAheadRequest) s

/-- The meaning of COPY_AHEAD_TRANSFER_ANSWER (R107). -/
def execCopyAheadTransferAnswer (a : FinalAnswer) (s : State) : Host.Outcome State Fault Refusal :=
  onChip (·.answered (· == .copyAhead) fun _ t => t.aheadAnswered a) s

/-- The meaning of CANCEL_COPY (R117). -/
def execCancelCopy (l : Lane) (s : State) : Host.Outcome State Fault Refusal := onChip (·.cancelCopy l) s

end Sys2Proof.Machine
end

