-- ==== Sys2Proof/Machine/HostPath.lean ====
section
/-! DEFINITION. The upstream accesses and the forward point: HOST_ACCESS_ARRIVAL, HOLD_LIMIT_EXPIRY, FORWARD_READ,
FORWARD_WRITE, ORDERED_READ_ANSWER, FORWARDED_WRITE_ANSWER and CONFIGURE_PATH (R120 to R132, R138). -/

namespace Sys2Proof.Machine

/-- HOST_ACCESS_ARRIVAL (R123, R132): the hold-limit timer starts, and the access is classified. The bus master issues no access
before the one before is answered (R120), so with one outstanding none is due (log entry 11). -/
def Chip.hostAccess (s : Chip) (a : Access) : Chip :=
  if s.path.upstream.isSome then s
  else
    let s₁ := { s with path := { s.path with
      holdTimer := if s.path.holdLimit = 0#16 then none else some s.path.holdLimit
      response := none } }
    match s.path.status with
    | .starting => s₁.waitUpstream a .starting false
    | .resetting => s₁.answerUpstream .retry
    | .ready | .attentionFault => s₁.classify a false

/-- An access waits where the hold limit applies to it: HELD, QUEUE FULL, or an ORDERED READ not yet issued (Table 7-2). -/
def WaitState.limited : WaitState → Bool
  | .held | .queueFull | .orderedRead => true
  | .starting | .orderedWrite | .issued => false

/-- HOLD_LIMIT_EXPIRY (R132): the access is answered RETRY and dropped; an ORDERED READ leaves the order and the forward point. -/
def Chip.holdLimitExpiry (s : Chip) : Chip :=
  match s.path.holdTimer, s.path.upstream with
  | some _, some u =>
    if u.wait.limited then
      if u.wait = .orderedRead then
        match s.path.forward with
        | some f =>
          if f.access.write then s.answerUpstream .retry
          else ((s.withdraw (· == .forwardRead)).freeForward).answerUpstream .retry
        | none => s.answerUpstream .retry
      else s.answerUpstream .retry
    else s
  | _, _ => s

/-- FORWARD_READ (R127): the ORDERED READ reaches the forward point once every write accepted before it has been issued. Its
granule is looked up: a RESTORING region sends it back to classification; otherwise it requests the port at class 1. -/
def Chip.forwardRead (s : Chip) : Chip :=
  match s.path.forward, s.path.postQueue, s.path.upstream with
  | none, [], some u =>
    if u.wait = .orderedRead then
      if s.holdApplies u.access.addr then s.classifyHeld u.access false
      else
        let f : ForwardPoint :=
          { access := u.access, accepted := u.accepted, posted := false, stage := .port, image := .absent, words := [] }
        Chip.request { s with path := { s.path with forward := some f } }
          { owner := .forwardRead, cls := .path, access := u.access, stale := false }
    else s
  | _, _, _ => s

/-- A MARK's barrier stops the write with this place in acceptance order (R47). -/
def Chip.barred (s : Chip) (accepted : Nat) : Bool :=
  match s.path.barrier with
  | some b => decide (b ≤ accepted)
  | none => false

/-- The treatments of R128 begin for a write: the barrier, the lookup, and then the capture request or the write check. -/
def Chip.treatWrite (s : Chip) (a : Access) (accepted : Nat) (posted : Bool) : Chip :=
  if s.barred accepted then s
  else
    let at' (st : ForwardStage) : Chip :=
      let f : ForwardPoint :=
        { access := a, accepted := accepted, posted := posted, stage := st, image := .absent, words := [] }
      { s with path := { s.path with forward := some f } }
    let issue := Chip.issueWrite (at' .port)
      { owner := .forwardWrite posted, cls := .path, access := a, stale := false }
    match s.lookup a.addr with
    | some (n, r) =>
      if s.captureApplies r then (at' .capture).requestCapture .host (granuleOf a.addr) n .path else issue
    | none => issue

/-- FORWARD_WRITE (R126, R128): the forward point, when free, takes the oldest write of the order. -/
def Chip.forwardWrite (s : Chip) : Chip :=
  match s.path.forward, s.path.postQueue, s.path.upstream with
  | none, e :: _, _ => s.treatWrite e.access e.accepted true
  | none, [], some u => if u.wait = .orderedWrite then s.treatWrite u.access u.accepted false else s
  | _, _, _ => s

/-- Memory's answer as it is passed upstream for a read (R127). -/
def readResponse : Answer → Response
  | .done d => .data d
  | .fault => .fault
  | .retry => .retry

/-- Memory's answer as it is passed upstream for a write (R129). -/
def writeResponse : Answer → Response
  | .done _ => .done
  | .fault => .fault
  | .retry => .retry

/-- ORDERED_READ_ANSWER (R127): the answer is passed upstream as memory gave it. -/
def Chip.orderedReadAnswer (s : Chip) (a : Answer) : Chip :=
  s.answered (· == .forwardRead) fun _ t => t.freeForward.answerUpstream (readResponse a)

/-- A posted write's final answer is FAULT (R129): its entry leaves the queue and WRITE LOST is posted, which holds the forward
point while the Path Controller's room is taken (R169). -/
def Chip.loseWrite (s : Chip) (f : ForwardPoint) : Chip :=
  Chip.hand
    (Chip.leaveQueue { s with path := { s.path with forward := some { f with stage := .handing } } } f.accepted)
    .path (plainRecord .writeLost f.access.addr) .pathFree Chip.freeForward

/-- An ORDERED WRITE has been answered (R129, R130): a control-page write answered DONE has its recognised words examined; every
other is answered upstream with memory's answer. -/
def Chip.endOrdered (s : Chip) (f : ForwardPoint) (a : Answer) : Chip :=
  match a with
  | .done _ =>
    if s.onPage f.access.addr then s.examineWords f (pageWords s.path.pageBase f.access)
    else s.endOrderedWrite .done
  | .fault => s.endOrderedWrite .fault
  | .retry => s.endOrderedWrite .retry

/-- FORWARDED_WRITE_ANSWER (R129). The final answer to a posted write is DONE or FAULT; a RETRY is the arbiter's (R133). -/
def Chip.forwardedWriteAnswer (s : Chip) (a : Answer) : Chip :=
  match s.path.forward with
  | none => s.answered (fun o => o == .forwardWrite true || o == .forwardWrite false) fun _ t => t
  | some f =>
    if f.posted then
      match a with
      | .done _ => s.answered (· == .forwardWrite true) fun _ t => t.freeForward.leaveQueue f.accepted
      | .fault => s.answered (· == .forwardWrite true) fun _ t => t.loseWrite f
      | .retry => s
    else s.answered (· == .forwardWrite false) fun _ t => t.endOrdered f a

/-- CONFIGURE PATH taken whole by the Path Controller (R138, R176). -/
def Chip.configurePath (s : Chip) (l : Lane) : Chip :=
  match s.jobIn l .run .configurePath with
  | none => s
  | some d =>
    match pathSettings d.a, holdLimitOf d.b with
    | some (post, response), some limit =>
      Chip.finishJob { s with path := { s.path with post := post, restoreResponse := response, holdLimit := limit } }
        l .done 0#32
    | _, _ => s.finishJob l .badOperand 0#32

/-- The meaning of HOST_ACCESS_ARRIVAL (R123): an access of neither shape of R120 is no access of the port. -/
def execHostAccessArrival (a : Access) (s : State) : Host.Outcome State Fault Refusal :=
  if a.wf then onChip (·.hostAccess a) s else .fault .malformedAccess

/-- The meaning of HOLD_LIMIT_EXPIRY (R132). -/
def execHoldLimitExpiry (s : State) : Host.Outcome State Fault Refusal := onChip (·.holdLimitExpiry) s

/-- The meaning of FORWARD_READ (R127). -/
def execForwardRead (s : State) : Host.Outcome State Fault Refusal := onChip (·.forwardRead) s

/-- The meaning of FORWARD_WRITE (R128). -/
def execForwardWrite (s : State) : Host.Outcome State Fault Refusal := onChip (·.forwardWrite) s

/-- The meaning of ORDERED_READ_ANSWER (R127). -/
def execOrderedReadAnswer (a : Answer) (s : State) : Host.Outcome State Fault Refusal := onChip (·.orderedReadAnswer a) s

/-- The meaning of FORWARDED_WRITE_ANSWER (R129). -/
def execForwardedWriteAnswer (a : Answer) (s : State) : Host.Outcome State Fault Refusal :=
  onChip (·.forwardedWriteAnswer a) s

/-- The meaning of CONFIGURE_PATH (R138). -/
def execConfigurePath (l : Lane) (s : State) : Host.Outcome State Fault Refusal := onChip (·.configurePath l) s

end Sys2Proof.Machine
end

