-- ==== Sys2Proof/Machine/LaneCommands.lean ====
section
/-! DEFINITION. The lanes' own events: DESCRIPTOR_FETCH_ANSWER, NULL, OUTCOME_WRITE_ANSWER and DIRECT_OUTCOME_WRITE_ANSWER
(R148 to R156). -/

namespace Sys2Proof.Machine

/-- An owner is a lane's fetch. -/
def Owner.isFetch : Owner → Bool
  | .laneFetch _ => true
  | _ => false

/-- An owner is a lane's outcome write. -/
def Owner.isOutcome : Owner → Bool
  | .laneOutcome _ => true
  | _ => false

/-- An owner is a direct outcome write of a take. -/
def Owner.isDirect : Owner → Bool
  | .laneDirect _ => true
  | _ => false

/-- Dispatch by CODE (R151): BAD CODE, RUN for an instant job, WAIT at the log-job or the copy-job arbiter. -/
def Chip.dispatch (s : Chip) (l : Lane) (d : Descriptor) : Chip :=
  match jobKind d.code with
  | none => s.finishJob l .badCode 0#32
  | some k =>
    match k.group with
    | .instant => s.laneRuns l
    | .log =>
      let s₁ := s.setLane l { s.lane l with state := .wait }
      { s₁ with log := { s₁.log with waiting := s₁.log.waiting ++ [l] } }
    | .copy =>
      let s₁ := s.setLane l { s.lane l with state := .wait }
      { s₁ with copy := { s₁.copy with waiting := s₁.copy.waiting ++ [l] } }

/-- Memory's final answer to a lane's fetch (R149, R150): DESCRIPTOR FAULT, or the descriptor is kept, and then it is found stale
or its job is dispatched. -/
def Chip.fetchAnswered (s : Chip) (l : Lane) (a : FinalAnswer) : Chip :=
  match (s.lane l).current with
  | none => s
  | some c =>
    match a with
    | .fault => s.hand (.lane l) (laneRecord .descriptorFault l 0#16 0#32 c.addr) (.laneEnd l) (·.endChain l)
    | .done data =>
      let d := descriptorOf data
      let s₁ := s.setLane l { s.lane l with current := some { c with desc := some d } }
      if fetchedOutcome data = 0#16 then s₁.dispatch l d
      else
        s₁.hand (.lane l) (laneRecord .descriptorStale l (fetchedOutcome data) d.tag c.addr) (.laneEnd l) (·.endChain l)

/-- The fetch of the lane that owns a transaction is answered. -/
def Chip.fetchOwnerAnswered (s : Chip) (o : Owner) (a : FinalAnswer) : Chip :=
  match o with
  | .laneFetch l => s.fetchAnswered l a
  | _ => s

/-- NULL (R152): it ends at once with DONE and result 0. -/
def Chip.nullJob (s : Chip) (l : Lane) : Chip :=
  match s.jobIn l .run .null with
  | some _ => s.finishJob l .done 0#32
  | none => s

/-- The final answer to a lane's outcome write (R155, R156): its attention record, and then the chain decision. -/
def Chip.outcomeAnswered (s : Chip) (l : Lane) (a : FinalAnswer) : Chip :=
  match (s.lane l).current with
  | some { addr, desc := some d, outcome := some o, .. } =>
    match a with
    | .fault => s.hand (.lane l) (laneRecord .outcomeFault l o.code d.tag addr) (.laneEnd l) (·.endChain l)
    | .done _ =>
      if o = .done then
        if d.notify then
          s.hand (.lane l) (laneRecord .jobDone l o.code d.tag addr) (.laneDecide l) (·.decideChain l)
        else s.decideChain l
      else s.hand (.lane l) (laneRecord .jobFailed l o.code d.tag addr) (.laneDecide l) (·.decideChain l)
  | _ => s

/-- The outcome write of the lane that owns a transaction is answered. -/
def Chip.outcomeOwnerAnswered (s : Chip) (o : Owner) (a : FinalAnswer) : Chip :=
  match o with
  | .laneOutcome l => s.outcomeAnswered l a
  | _ => s

/-- The final answer to a direct outcome write (R148): JOB FAILED or OUTCOME FAULT, and then the next owed write. -/
def Chip.directAnswered (s : Chip) (a : FinalAnswer) : Chip :=
  match s.lanes.take with
  | some { lane := l, outcome, owed := addr :: _, .. } =>
    let k := match a with
      | .done _ => AttnKind.jobFailed
      | .fault => AttnKind.outcomeFault
    s.hand (.lane l) (laneRecord k l outcome.code 0#32 addr) .take Chip.nextDirect
  | _ => s

/-- A write that the log ring keeps from being issued is over: it counts as answered FAULT, and the Lane Unit presents its next
access (R148, R154). -/
def Chip.refusedOver (s : Chip) : Chip := Chip.presentLane { s with lanes := { s.lanes with refused := none } }

/-- OUTCOME_WRITE_ANSWER (R155): memory's answer to the outcome write in flight, or the FAULT that the ring guard gives one that
is not issued. -/
def Chip.outcomeWriteAnswer (s : Chip) (a : FinalAnswer) : Chip :=
  if s.issued Owner.isOutcome then s.answered Owner.isOutcome fun r t => (t.accessOver r.owner).outcomeOwnerAnswered r.owner a
  else match s.lanes.refused with
    | some r => if r.owner.isOutcome then (s.refusedOver.accessOver r.owner).outcomeOwnerAnswered r.owner .fault else s
    | none => s.answered Owner.isOutcome fun _ t => t

/-- DIRECT_OUTCOME_WRITE_ANSWER (R148), in the same two ways. -/
def Chip.directWriteAnswer (s : Chip) (a : FinalAnswer) : Chip :=
  if s.issued Owner.isDirect then s.answered Owner.isDirect fun r t => (t.accessOver r.owner).directAnswered a
  else match s.lanes.refused with
    | some r => if r.owner.isDirect then (s.refusedOver.accessOver r.owner).directAnswered .fault else s
    | none => s.answered Owner.isDirect fun _ t => t

/-- The meaning of DESCRIPTOR_FETCH_ANSWER (R149). -/
def execDescriptorFetchAnswer (a : FinalAnswer) (s : State) : Host.Outcome State Fault Refusal :=
  onChip (·.answered Owner.isFetch fun r t => (t.accessOver r.owner).fetchOwnerAnswered r.owner a) s

/-- The meaning of NULL (R152). -/
def execNull (l : Lane) (s : State) : Host.Outcome State Fault Refusal := onChip (·.nullJob l) s

/-- The meaning of OUTCOME_WRITE_ANSWER (R155). -/
def execOutcomeWriteAnswer (a : FinalAnswer) (s : State) : Host.Outcome State Fault Refusal :=
  onChip (·.outcomeWriteAnswer a) s

/-- The meaning of DIRECT_OUTCOME_WRITE_ANSWER (R148). -/
def execDirectOutcomeWriteAnswer (a : FinalAnswer) (s : State) : Host.Outcome State Fault Refusal :=
  onChip (·.directWriteAnswer a) s

end Sys2Proof.Machine
end

