-- ==== Sys2Proof/Machine/PageWords.lean ====
section
/-! DEFINITION. The recognised words of the control page: SUBMIT, FLUSH, NO_REQUEST and CONSUME_WORD (R146 to R148, R158 to
R160, R172). RESET_PART is in Machine/ResetCommands.lean. -/

namespace Sys2Proof.Machine

/-- A take begins (R146, R148). -/
def Chip.beginTake (s : Chip) (l : Lane) (o : JobOutcome) (owed : List Word) (finishAfter : Bool) : Chip :=
  let t : Take := { lane := l, outcome := o, owed := owed, finishAfter := finishAfter }
  { s with lanes := { s.lanes with take := some t } }

/-- The take of a word that posts MAILBOX FAULT from its lane (R146, R147). -/
def Chip.mailboxFault (s : Chip) (l : Lane) : Chip :=
  (s.beginTake l .queueFull [] false).hand (.lane l)
    (laneRecord .mailboxFault l 0#16 0#32 (s.submitWordAddress l)) .take Chip.nextDirect

/-- A descriptor address joins the lane's queue, and an IDLE lane takes it at once (R147). -/
def Chip.queueDescriptor (s : Chip) (l : Lane) (a : Word) : Chip :=
  let s₁ := s.setLane l { s.lane l with queue := (s.lane l).queue ++ [a] }
  if (s.lane l).state = .idle then s₁.endChain l else s₁

/-- SUBMIT (R147): MAILBOX FAULT for address 0, QUEUE FULL by a direct outcome write, or a new queue entry. -/
def Chip.submit (s : Chip) : Chip :=
  match s.nextSubmit .submit with
  | none => s
  | some (l, v, ws) =>
    let s₁ := s.popWord ws
    let a := submitAddress v
    if a = 0#32 then s₁.mailboxFault l
    else if Config.laneDepth ≤ (s.lane l).queue.length then (s₁.beginTake l .queueFull [a] false).continueTake
    else (s₁.queueDescriptor l a).nextWords

/-- A lane's job leaves its arbiter's list (R159). -/
def Chip.withdrawJob (s : Chip) (l : Lane) : Chip :=
  { s with
    log := { s.log with waiting := s.log.waiting.filter (· != l) }
    copy := { s.copy with waiting := s.copy.waiting.filter (· != l) } }

/-- FLUSH (R159): the queue is emptied, CUT PENDING is set for a lane with a current job, a waiting job is withdrawn, and each
removed entry, oldest first, is answered CANCELLED by a direct outcome write. -/
def Chip.flush (s : Chip) : Chip :=
  match s.nextSubmit .flush with
  | none => s
  | some (l, _, ws) =>
    let r := s.lane l
    let s₁ := (s.popWord ws).setLane l { r with queue := [], cutPending := r.cutPending || r.state != .idle }
    let waits := r.state == .wait
    let s₂ := if waits then s₁.withdrawJob l else s₁
    (s₂.beginTake l .cancelled r.queue waits).continueTake

/-- NO_REQUEST (R146): request codes 3 to 31 post MAILBOX FAULT and leave the lane unchanged. -/
def Chip.noRequest (s : Chip) : Chip :=
  match s.nextSubmit .none with
  | none => s
  | some (l, _, ws) => (s.popWord ws).mailboxFault l

/-- A valid consume index is taken (R172): overrun is cleared by an advance of at least 1. -/
def AttentionState.consumeTo (a : AttentionState) (c : Half) : AttentionState :=
  { a with consume := c, overrun := if c = a.consume then a.overrun else none }

/-- A consume index is valid when (produce − c) modulo 65,536 is no greater than the occupancy (R172). -/
def AttentionState.validConsume (a : AttentionState) (c : Half) : Bool := decide ((a.produce - c).toNat ≤ a.occupancy)

/-- CONSUME_WORD (R172): ignored with the ring unconfigured, taken when valid, else MAILBOX FAULT from the Attention Unit, which
holds the control-page write while its room is taken (R169). -/
def Chip.consumeWord (s : Chip) : Chip :=
  match s.nextWord with
  | some ({ target := .consume, value := v, .. }, ws) =>
    let s₁ := s.popWord ws
    if !s.attention.configured then s₁.nextWords
    else if s.attention.validConsume (consumeIndex v) then
      Chip.nextWords { s₁ with attention := s₁.attention.consumeTo (consumeIndex v) }
    else
      match s₁.path.forward with
      | some f =>
        Chip.hand { s₁ with path := { s₁.path with forward := some { f with stage := .handing } } } .attention
          (plainRecord .mailboxFault (s.path.pageBase + 0x18#32)) .pathWord Chip.nextWords
      | none => s
  | _ => s

/-- The meaning of SUBMIT (R147). -/
def execSubmit (s : State) : Host.Outcome State Fault Refusal := onChip (·.submit) s

/-- The meaning of FLUSH (R159). -/
def execFlush (s : State) : Host.Outcome State Fault Refusal := onChip (·.flush) s

/-- The meaning of NO_REQUEST (R146). -/
def execNoRequest (s : State) : Host.Outcome State Fault Refusal := onChip (·.noRequest) s

/-- The meaning of CONSUME_WORD (R172). -/
def execConsumeWord (s : State) : Host.Outcome State Fault Refusal := onChip (·.consumeWord) s

end Sys2Proof.Machine
end

