-- ==== Sys2Proof/Machine/ResetCommands.lean ====
section
/-! DEFINITION. Resets, start-up and the status word: PIN_RESET, RESET_PART, SOFT_RESET_PORT_IDLE, START_UP,
STATUS_WORD_WRITE and STATUS_WORD_WRITE_ANSWER (R139 to R143, R15, R42, R119, R161, R175). -/

namespace Sys2Proof.Machine

/-- PIN_RESET (R142): every activity is abandoned, every block takes its pin-reset values, the straps are sampled, and start-up
begins with CAUSE PIN. -/
def Chip.pinReset (s : Chip) (page : Half) : Chip := { Chip.atPinReset page with freeIndex := s.freeIndex }

/-- Steps 1 and 2 of R143: the requesting write is answered DONE, part status becomes RESETTING, every other block takes its
reset values, and no request waits; the transaction in flight, if any, is left to receive its answer (R134, R161). -/
def Chip.beginSoftReset (s : Chip) : Chip :=
  { regions := Vector.replicate 16 Region.atReset
    path := { s.path with
      status := .resetting, upstream := none, holdTimer := none, response := some .done, barrier := none,
      watches := DrainWatches.none, forward := none, statusOwed := [], statusBusy := false }
    arbiter := { requests := [], inFlight := s.arbiter.inFlight.map fun r => { r with stale := true },
                 retryCount := s.arbiter.retryCount }
    log := LogState.atReset
    copy := CopyState.atReset
    lanes := LaneUnit.atReset
    attention := AttentionState.atReset
    freeIndex := s.freeIndex }

/-- RESET_PART (R161): the next recognised word is a submit word with request code 2. -/
def Chip.resetPart (s : Chip) : Chip :=
  match s.nextSubmit .resetPart with
  | some _ => s.beginSoftReset
  | none => s

/-- SOFT_RESET_PORT_IDLE (step 5 of R143): with the Memory Port idle the Path Controller takes its soft-reset values, the page
base kept, and start-up begins with CAUSE SOFT: its status word write passes the write check and requests the port (R140). -/
def Chip.softResetPortIdle (s : Chip) : Chip :=
  if s.path.status = .resetting ∧ s.arbiter.inFlight = none then
    Chip.issueWrite
      { s with
        path := { PathState.atPinReset 0#16 with
          pageBase := s.path.pageBase, cause := .soft, response := s.path.response }
        arbiter := { requests := [], inFlight := none, retryCount := 0 } }
      (startUpRequest s.path.pageBase .soft)
  else s

/-- Start-up ends, whatever the answer was: part status becomes READY, and an access waiting in STARTING is classified (R140). -/
def Chip.endStartUp (s : Chip) : Chip :=
  let s₁ := { s with path := { s.path with status := .ready } }
  match s.path.upstream with
  | some u => if u.wait = .starting then s₁.classify u.access u.toPost else s₁
  | none => s₁

/-- START_UP (R140): memory's final answer to the start-up status word write. -/
def Chip.startUp (s : Chip) : Chip := s.answered (· == .startUp) fun _ t => t.endStartUp

/-- STATUS_WORD_WRITE (R141): the word owed by the oldest report is written, once the write before it has had its final answer. -/
def Chip.statusWordWrite (s : Chip) : Chip :=
  match s.path.statusOwed with
  | [] => s
  | st :: rest =>
    if s.path.statusBusy then s
    else
      Chip.issueWrite { s with path := { s.path with statusOwed := rest, statusBusy := true } }
        { owner := .status, cls := .path, access := statusAccess s.path.pageBase (statusWord st s.path.cause), stale := false }

/-- The status word write has ended; a FAULT is ignored (R141). -/
def Chip.endStatusWrite (s : Chip) : Chip := { s with path := { s.path with statusBusy := false } }

/-- STATUS_WORD_WRITE_ANSWER (R141). -/
def Chip.statusWordWriteAnswer (s : Chip) : Chip := s.answered (· == .status) fun _ t => t.endStatusWrite

/-- The meaning of PIN_RESET (R142). -/
def execPinReset (page : Half) (s : State) : Host.Outcome State Fault Refusal := onChip (·.pinReset page) s

/-- The meaning of RESET_PART (R161). -/
def execResetPart (s : State) : Host.Outcome State Fault Refusal := onChip (·.resetPart) s

/-- The meaning of SOFT_RESET_PORT_IDLE (R143). -/
def execSoftResetPortIdle (s : State) : Host.Outcome State Fault Refusal := onChip (·.softResetPortIdle) s

/-- The meaning of START_UP (R140): DONE and FAULT end start-up alike. -/
def execStartUp (_answer : FinalAnswer) (s : State) : Host.Outcome State Fault Refusal := onChip (·.startUp) s

/-- The meaning of STATUS_WORD_WRITE (R141). -/
def execStatusWordWrite (s : State) : Host.Outcome State Fault Refusal := onChip (·.statusWordWrite) s

/-- The meaning of STATUS_WORD_WRITE_ANSWER (R141): a final FAULT is ignored. -/
def execStatusWordWriteAnswer (_answer : FinalAnswer) (s : State) : Host.Outcome State Fault Refusal :=
  onChip (·.statusWordWriteAnswer) s

end Sys2Proof.Machine
end

