-- ==== Sys2Proof/Machine/RollbackJob.lean ====
section
/-! DEFINITION. ROLLBACK and its phases: ROLLBACK, ROLLBACK_DRAIN_END, RESTORE_ACCESS_ANSWER and MARKER_WRITE_ANSWER (R57 to
R78). -/

namespace Sys2Proof.Machine

/-- The destination writes that an ended copy has left to be issued (R26, R109, R118) and that wait for their grant, or for a
copy-ahead of a later copy. -/
def Chip.leftWrites (s : Chip) : List PortRequest :=
  (s.arbiter.requests ++ s.copy.heldWrites).filter fun r =>
    (r.owner == .frontier || r.owner == .copyAhead) && r.access.write && r.stale

/-- The left writes that a rollback's DRAIN does not wait for (R60; log entry 29). -/
def LogState.lateWrites (l : LogState) : List PortRequest :=
  match l.rollback with
  | some c => c.late
  | none => []

/-- A destination write that an ended copy has left, and that DRAIN waits for, is not yet issued: it waits for its grant, for a
copy-ahead of a later copy, or for its capture (R60). -/
def Chip.leftCopyWrite (s : Chip) : Bool := s.log.leftWaits || !(s.leftWrites.diff s.log.lateWrites).isEmpty

/-- The frontier at work has a destination write that it has looked up and not yet issued (R60). -/
def Chip.frontWriteDue (s : Chip) : Bool := s.copy.writeInHand && !s.issued (· == .frontier)

/-- The copy-ahead in progress has a destination write that it has looked up and not yet issued (R60). -/
def Chip.aheadWriteDue (s : Chip) : Bool :=
  (match s.copy.ahead with
    | some a => a.reads.isEmpty
    | none => false) && !s.issued (· == .copyAhead)

/-- The rollback context at acceptance (R58). -/
def Chip.newRollback (s : Chip) (target : Word) : Rollback :=
  { target := target, phase := .drain, span := 0, walkSlot := 0, expected := 0#32, applied := 0,
    drainFrontier := s.frontWriteDue, drainAhead := s.aheadWriteDue, late := [], step := .readHeader,
    header := 0#256, first := 0#256, second := 0#256, lastPrevious := 0#32 }

/-- The checks of ROLLBACK, in the order of R57. -/
def rollbackCheck (d : Descriptor) (s : Chip) : JobOutcome :=
  if s.log.state ≠ .attached then .logState
  else if s.log.stalled then .logState
  else if (s.log.find d.a).isNone then .noSuchCheckpoint
  else .done

/-- The acceptance of ROLLBACK (R58). -/
def rollbackAccept (d : Descriptor) (s : Chip) : Chip :=
  let s₁ := Chip.setStage { s with log := { s.log with state := .rolling } } (.rolling (s.newRollback d.a))
  s₁.restoreEntry.watch fun w p => { w with rollback := p }

/-- ROLLBACK's checks and its acceptance, one step (R57). -/
def Chip.rollbackStep : Lane → Descriptor → Chip → Chip := Chip.acceptLog rollbackCheck rollbackAccept

/-- A walk access of the Log Unit at its background class (R62). -/
def restoreRequest (a : Access) : PortRequest := { owner := .restore, cls := .log, access := a, stale := false }

/-- The rollback context takes a new value. -/
def Chip.setRollback (s : Chip) (c : Rollback) : Chip := s.setStage (.rolling c)

/-- The walk reads the header line of its slot (step 1 of R62). -/
def Chip.readWalkSlot (s : Chip) (c : Rollback) : Chip :=
  (s.setRollback { c with step := .readHeader }).request (restoreRequest (readLine (s.log.slotAddress c.walkSlot)))

/-- The trim of R67 on the log: sequences, tail and count, the list, the table, ATTACHED. -/
def LogState.trimmed (l : LogState) (c : Rollback) (markerIssued : Bool) : LogState :=
  let next := if markerIssued then l.nextSeq + 1#32 else l.nextSeq
  match l.find c.target with
  | none => { l with state := .attached, table := [] }
  | some e =>
    { l with
      lastSeq := if c.applied = 0 then l.lastSeq else c.lastPrevious
      nextSeq := next
      tail := e.firstSlot
      count := l.count - c.applied
      checkpoints := l.older c.target ++ [{ e with records := 0, firstSequence := next }]
      table := []
      state := .attached }

/-- The trim and return of R67, and the job's end with DONE and result APPLIED. -/
def Chip.trimAndReturn (s : Chip) (c : Rollback) (markerIssued : Bool) : Chip :=
  let s₁ := { s with
    log := s.log.trimmed c markerIssued
    regions := s.regions.map Region.returnToResume }
  s₁.endHold.endLogJob .done (BitVec.ofNat 32 c.applied)

/-- FINISH (R66): the MARKER write into c's FIRST SLOT, or, in the two cases where none is written, R67 at once. -/
def Chip.finishRollback (s : Chip) (c : Rollback) : Chip :=
  let c' := { c with phase := .finish }
  let s₁ := s.setRollback c'
  if (c.span = 0 ∧ s.log.count = s.log.capacity) ∨ s.log.nextSeq = Config.seqMax then s₁.trimAndReturn c' false
  else match s.log.find c.target with
    | none => s₁.trimAndReturn c' false
    | some e =>
      let previous := if c.applied = 0 then s.log.lastSeq else c.lastPrevious
      s₁.issueWrite
        { owner := .marker, cls := .log
          access := writeLine (s.log.slotAddress e.firstSlot) (markerHeader s.log.nextSeq previous c.target)
          stale := false }

/-- The slot before slot `i` in ring order. -/
def LogState.slotBefore (l : LogState) (i : Nat) : Nat := (i + l.capacity - 1) % l.capacity

/-- ROLLBACK_DRAIN_END (R60, R61): the drain point has been issued, and the Copy Engine's write, of the copy at work or left by one
that has ended, and no capture is in progress. Of the frontier's writes none looked up after the restore entry is left by a copy,
since none of them has a capture (R102); of the copy-ahead's, such a write is not waited for (log entry 29). -/
def Chip.rollbackDrainEnd (s : Chip) : Chip :=
  match s.log.rollback with
  | none => s
  | some c =>
    if c.phase = .drain ∧ s.log.state = .rolling ∧ s.path.watches.rollback = none ∧ c.drainFrontier = false ∧
        c.drainAhead = false ∧ s.leftCopyWrite = false ∧ s.log.betweenCaptures = true then
      let c' := { c with
        phase := .restore
        span := recordsOf (s.log.since c.target)
        walkSlot := s.log.slotBefore s.log.tail
        expected := s.log.lastSeq }
      if c'.span = 0 then s.finishRollback c' else s.readWalkSlot c'
    else s

/-- Validation of the slot read (R63). -/
def LogState.validSlot (l : LogState) (c : Rollback) : Bool :=
  headerKind c.header == kindRecord && headerCheck c.header == recordCheck c.header c.first c.second &&
    headerSequence c.header == c.expected && (headerGranule c.header).toNat % 64 == 0 &&
    (match l.find c.target with
      | some e =>
        if c.walkSlot = e.firstSlot ∧ 0 < e.records then headerSequence c.header == e.firstSequence else true
      | none => true)

/-- Memory has answered DONE to the walk's current access: the next of the three reads, validation, the two image writes, and
the next slot or FINISH (R62 to R65). -/
def Chip.advanceWalk (s : Chip) (c : Rollback) (data : Line) : Chip :=
  let slot := s.log.slotAddress c.walkSlot
  match c.step with
  | .readHeader =>
    (s.setRollback { c with header := data, step := .readFirst }).request (restoreRequest (readLine (slot + 0x20#32)))
  | .readFirst =>
    (s.setRollback { c with first := data, step := .readSecond }).request (restoreRequest (readLine (slot + 0x40#32)))
  | .readSecond =>
    let c' := { c with second := data }
    if s.log.validSlot c' then
      (s.setRollback { c' with step := .writeFirst }).issueWrite
        (restoreRequest (writeLine (headerGranule c.header) c.first))
    else s.failRollback .restoreFault c.applied
  | .writeFirst =>
    (s.setRollback { c with step := .writeSecond }).issueWrite
      (restoreRequest (writeLine (headerGranule c.header + 0x20#32) c.second))
  | .writeSecond =>
    let c' := { c with applied := c.applied + 1, lastPrevious := headerPrevious c.header }
    if c'.applied = c.span then s.finishRollback c'
    else s.readWalkSlot { c' with expected := headerPrevious c.header, walkSlot := s.log.slotBefore c.walkSlot }

/-- Memory's final answer to a walk read or a restore write (R62, R65). -/
def Chip.restoreAnswered (s : Chip) (a : FinalAnswer) : Chip :=
  match s.log.rollback with
  | none => s
  | some c =>
    if c.phase = .restore ∧ s.log.state = .rolling then
      match a with
      | .done data => s.advanceWalk c data
      | .fault => s.failRollback .restoreFault c.applied
    else s

/-- Memory's final answer to the MARKER write (R67, R68). -/
def Chip.markerAnswered (s : Chip) (a : FinalAnswer) : Chip :=
  match s.log.rollback with
  | none => s
  | some c =>
    if c.phase = .finish ∧ s.log.state = .rolling then
      match a with
      | .done _ => s.trimAndReturn c true
      | .fault => (s.trimAndReturn c true).breakLog .restoreFault
    else s

/-- The meaning of ROLLBACK (R57). -/
def execRollback (s : State) : Host.Outcome State Fault Refusal := onChip (·.grantLog .rollback (fun _ _ => .done) true Chip.rollbackStep) s

/-- The meaning of ROLLBACK_DRAIN_END (R61). -/
def execRollbackDrainEnd (s : State) : Host.Outcome State Fault Refusal := onChip (·.rollbackDrainEnd) s

/-- The meaning of RESTORE_ACCESS_ANSWER (R62). -/
def execRestoreAccessAnswer (a : FinalAnswer) (s : State) : Host.Outcome State Fault Refusal :=
  onChip (·.answered (· == .restore) fun _ t => t.restoreAnswered a) s

/-- The meaning of MARKER_WRITE_ANSWER (R67). -/
def execMarkerWriteAnswer (a : FinalAnswer) (s : State) : Host.Outcome State Fault Refusal :=
  onChip (·.answered (· == .marker) fun _ t => t.markerAnswered a) s

end Sys2Proof.Machine
end

