-- ==== Sys2Proof/Machine/PortArbiter.lean ====
section
/-! DEFINITION. The Memory Port Arbiter: MEMORY_PORT_GRANT, RETRY_REISSUE and RETRY_LIMIT_EXHAUSTED (R133 to R135). -/

namespace Sys2Proof.Machine

/-- The arbiter's choice (R135): the status word write before the other requests of class 1, then the first request of the
highest class that has one. -/
def ArbiterState.choice (a : ArbiterState) : Option PortRequest :=
  (a.requests.find? fun r => r.owner == .status || r.owner == .startUp) <|>
  (a.requests.find? fun r => r.cls == .path) <|>
  (a.requests.find? fun r => r.cls == .lane) <|>
  (a.requests.find? fun r => r.cls == .attention) <|>
  (a.requests.find? fun r => r.cls == .log) <|>
  (a.requests.find? fun r => r.cls == .frontier)

/-- The upstream access is issued on the Memory Port; a read's hold-limit timer stops (Table 7-2, R132). -/
def Chip.issueUpstream (s : Chip) : Chip :=
  { s with path := { s.path with
    upstream := s.path.upstream.map fun u => { u with wait := .issued }
    holdTimer := none } }

/-- A forwarded write is issued: a watch on it is answered, unless it is a control-page write, whose words are still to be taken
(R131). -/
def Chip.reportForwarded (s : Chip) : Chip :=
  match s.path.forward with
  | some f => if s.onPage f.access.addr then s else s.reportIssued f.accepted
  | none => s

/-- The Lane Unit's access is granted: it presents its next one (R157). -/
def Chip.grantLane (s : Chip) : Chip := Chip.presentLane { s with lanes := { s.lanes with presented := false } }

/-- What the grant of a request means to its owner (R127, R131, R157, R60). -/
def Chip.grantTo (s : Chip) (r : PortRequest) : Chip :=
  match r.owner with
  | .forwardRead => s.issueUpstream
  | .forwardWrite posted => if posted then s.reportForwarded else s.issueUpstream.reportForwarded
  | .laneFetch _ | .laneOutcome _ | .laneDirect _ => s.grantLane
  | .frontier =>
    if r.access.write then { s with log := s.log.clearDrainCopies (!r.stale) false } else s
  | .copyAhead =>
    if r.access.write then { s with log := s.log.clearDrainCopies false (!r.stale) } else s
  | .startUp | .status | .capture | .attention | .void | .scan | .restore | .marker | .report => s

/-- The owners whose writes the ring guard stops: the Copy Engine's destination writes (R36) and the Lane Unit's writes (R148,
R154). -/
def Owner.guarded : Owner → Bool
  | .frontier | .copyAhead | .laneOutcome _ | .laneDirect _ => true
  | .startUp | .status | .forwardRead | .forwardWrite _ | .capture | .laneFetch _ | .attention | .void | .scan | .restore | .marker
  | .report => false

/-- The ring guard stops a write that is about to be issued (R36, R91): ADOPT LOG or ATTACH LOG has been accepted over its granule
while it waited. -/
def Chip.guardStops (s : Chip) (r : PortRequest) : Bool := r.owner.guarded && r.access.write && s.ringGuard r.access.addr

/-- What a write that the ring guard stops at its grant means to its owner: a copy ends DEST FAULT (R36, R91, R112, R116), a lane's
write counts as answered FAULT (R148, R154), and a write that an ended copy has left is dropped (log entry 36). -/
def Chip.stopWrite (s : Chip) (r : PortRequest) : Chip :=
  match r.owner with
  | .frontier => if r.stale then s else s.failFront .destFault
  | .copyAhead => if r.stale then s else s.failAhead .destFault
  | .laneOutcome _ | .laneDirect _ => { s with lanes := { s.lanes with presented := false, refused := some r } }
  | .startUp | .status | .forwardRead | .forwardWrite _ | .capture | .laneFetch _ | .attention | .void | .scan | .restore | .marker
  | .report => s

/-- MEMORY_PORT_GRANT (R135): with the port free the chosen request becomes the transaction, with a retry count of 0; a write that
the ring guard stops is not issued (R36). During a soft reset no request is granted (R143). -/
def Chip.grantPort (s : Chip) : Chip :=
  if s.arbiter.inFlight.isSome ∨ s.path.status = .resetting then s
  else match s.arbiter.choice with
    | none => s
    | some r =>
      let requests := s.arbiter.requests.erase r
      if s.guardStops r then Chip.stopWrite { s with arbiter := { s.arbiter with requests := requests } } r
      else Chip.grantTo { s with arbiter := { requests := requests, inFlight := some r, retryCount := 0 } } r

/-- The arbiter itself re-issues an access answered RETRY when it is an own access or a posted write (R133). -/
def Owner.retried : Owner → Bool
  | .forwardRead => false
  | .forwardWrite posted => posted
  | .startUp | .status | .capture | .copyAhead | .laneFetch _ | .laneOutcome _ | .laneDirect _ | .attention | .void | .scan
  | .restore | .marker | .report | .frontier => true

/-- RETRY_REISSUE (R133): the re-issue is counted. During a soft reset the access is not re-issued, and the transaction ends
(R134). -/
def Chip.retryReissue (s : Chip) : Chip :=
  match s.arbiter.inFlight with
  | none => s
  | some r =>
    if !r.owner.retried then s
    else if s.path.status = .resetting then s.endTransaction
    else if s.arbiter.retryCount < Config.retryLimit then
      { s with arbiter := { s.arbiter with retryCount := s.arbiter.retryCount + 1 } }
    else s

/-- An access that counts as answered FAULT, handled by its owner (R133): each case is what the owner's own answer command does
with FAULT. -/
def Chip.ownerFault (s : Chip) (r : PortRequest) : Chip :=
  match r.owner with
  | .startUp => s.endStartUp
  | .status => s.endStatusWrite
  | .forwardRead => s
  | .forwardWrite _ =>
    match s.path.forward with
    | some f => s.loseWrite f
    | none => s
  | .capture => s.captureAnswered .fault
  | .copyAhead => s.aheadAnswered .fault
  | .laneFetch l => (s.accessOver r.owner).fetchAnswered l .fault
  | .laneOutcome l => (s.accessOver r.owner).outcomeAnswered l .fault
  | .laneDirect _ => (s.accessOver r.owner).directAnswered .fault
  | .attention => s.attentionAnswered .fault
  | .void => s.voidAnswered .fault
  | .scan => s.scanAnswered .fault
  | .restore => s.restoreAnswered .fault
  | .marker => s.markerAnswered .fault
  | .report => s.reportAnswered .fault
  | .frontier => s.frontAnswered .fault

/-- RETRY_LIMIT_EXHAUSTED (R133): a RETRY at a retry count of 16 ends the transaction as answered FAULT. -/
def Chip.retryExhausted (s : Chip) : Chip :=
  if s.arbiter.retryCount = Config.retryLimit then s.answered Owner.retried fun r t => t.ownerFault r else s

/-- The meaning of MEMORY_PORT_GRANT (R135). -/
def execMemoryPortGrant (s : State) : Host.Outcome State Fault Refusal := onChip (·.grantPort) s

/-- The meaning of RETRY_REISSUE (R133). -/
def execRetryReissue (s : State) : Host.Outcome State Fault Refusal := onChip (·.retryReissue) s

/-- The meaning of RETRY_LIMIT_EXHAUSTED (R133). -/
def execRetryLimitExhausted (s : State) : Host.Outcome State Fault Refusal := onChip (·.retryExhausted) s

end Sys2Proof.Machine
end

