-- ==== Sys2Proof/Machine/RegionJobs.lean ====
section
/-! DEFINITION. The region jobs: DEFINE_REGION, START_CAPTURE, STOP_CAPTURE, CLEAR_FAULT and DELETE_REGION (R6 to R11). -/

namespace Sys2Proof.Machine

/-- A region job in two steps (R6): operand A is checked, then the job decides its outcome and the entry's new value from the
entry as it stands. The result is 0. -/
def Chip.regionJob (s : Chip) (l : Lane) (k : JobKind) (job : Descriptor → Region → JobOutcome × Region) : Chip :=
  match s.jobIn l .run k with
  | none => s
  | some d =>
    if h : d.a.toNat < 16 then
      let p := job d s.regions[d.a.toNat]
      Chip.finishJob { s with regions := s.regions.set d.a.toNat p.2 } l p.1 0#32
    else s.finishJob l .badOperand 0#32

/-- DEFINE REGION's checks in the order of R7, and its transition. -/
def Chip.defineRegionJob (s : Chip) (d : Descriptor) (r : Region) : JobOutcome × Region :=
  if r.state ≠ .free then (.regionState, r)
  else if d.b.toNat % 64 ≠ 0 then (.alignment, r)
  else if d.c.toNat = 0 ∨ 262144 < d.c.toNat ∨ passes4GiB d.b.toNat (64 * d.c.toNat) = true then (.badOperand, r)
  else if s.regionOverlaps d.b.toNat (64 * d.c.toNat) || s.pageOverlaps d.b.toNat (64 * d.c.toNat) ||
      s.logRingOverlaps d.b.toNat (64 * d.c.toNat) || s.attnRingOverlaps d.b.toNat (64 * d.c.toNat) then (.overlap, r)
  else (.done, { r with state := .idle, base := d.b, length := d.c.toNat })

/-- START CAPTURE (R8). -/
def Chip.startCaptureJob (s : Chip) (r : Region) : JobOutcome × Region :=
  match r.state with
  | .free | .restoring | .faulted => (.regionState, r)
  | .capturing => (.done, r)
  | .idle => if s.log.state = .attached then (.done, { r with state := .capturing }) else (.logState, r)

/-- STOP CAPTURE (R9). -/
def stopCaptureJob (r : Region) : JobOutcome × Region :=
  match r.state with
  | .capturing => (.done, { r with state := .idle })
  | .idle => (.done, r)
  | .free | .restoring | .faulted => (.regionState, r)

/-- CLEAR FAULT (R10). -/
def clearFaultJob (r : Region) : JobOutcome × Region :=
  match r.state with
  | .faulted => (.done, { r with state := .idle })
  | .free | .idle | .capturing | .restoring => (.regionState, r)

/-- DELETE REGION (R11). -/
def Chip.deleteRegionJob (s : Chip) (r : Region) : JobOutcome × Region :=
  match r.state with
  | .free | .capturing | .restoring => (.regionState, r)
  | .idle | .faulted =>
    if s.log.state = .attached ∧ 0 < s.log.count then (.recordsHeld, r) else (.done, { r with state := .free })

/-- The meaning of DEFINE_REGION (R7). -/
def execDefineRegion (l : Lane) (s : State) : Host.Outcome State Fault Refusal :=
  onChip (fun c => c.regionJob l .defineRegion c.defineRegionJob) s

/-- The meaning of START_CAPTURE (R8). -/
def execStartCapture (l : Lane) (s : State) : Host.Outcome State Fault Refusal :=
  onChip (fun c => c.regionJob l .startCapture fun _ r => c.startCaptureJob r) s

/-- The meaning of STOP_CAPTURE (R9). -/
def execStopCapture (l : Lane) (s : State) : Host.Outcome State Fault Refusal :=
  onChip (fun c => c.regionJob l .stopCapture fun _ r => stopCaptureJob r) s

/-- The meaning of CLEAR_FAULT (R10). -/
def execClearFault (l : Lane) (s : State) : Host.Outcome State Fault Refusal :=
  onChip (fun c => c.regionJob l .clearFault fun _ r => clearFaultJob r) s

/-- The meaning of DELETE_REGION (R11). -/
def execDeleteRegion (l : Lane) (s : State) : Host.Outcome State Fault Refusal :=
  onChip (fun c => c.regionJob l .deleteRegion fun _ r => c.deleteRegionJob r) s

end Sys2Proof.Machine
end

