-- ==== Sys2Proof/Machine/Dispatch.lean ====
section
/-! DEFINITION. The meaning of every command: one arm per row of spec/opcode_table.json. -/

namespace Sys2Proof.Machine

def exec (i : Instr) (s : State) : Host.Outcome State Fault Refusal :=
  match i with
  | .pinReset page => Sys2Proof.Machine.execPinReset page s
  | .resetPart => Sys2Proof.Machine.execResetPart s
  | .softResetPortIdle => Sys2Proof.Machine.execSoftResetPortIdle s
  | .startUp answer => Sys2Proof.Machine.execStartUp answer s
  | .statusWordWrite => Sys2Proof.Machine.execStatusWordWrite s
  | .hostAccessArrival access => Sys2Proof.Machine.execHostAccessArrival access s
  | .holdLimitExpiry => Sys2Proof.Machine.execHoldLimitExpiry s
  | .forwardRead => Sys2Proof.Machine.execForwardRead s
  | .forwardWrite => Sys2Proof.Machine.execForwardWrite s
  | .orderedReadAnswer answer => Sys2Proof.Machine.execOrderedReadAnswer answer s
  | .forwardedWriteAnswer answer => Sys2Proof.Machine.execForwardedWriteAnswer answer s
  | .submit => Sys2Proof.Machine.execSubmit s
  | .flush => Sys2Proof.Machine.execFlush s
  | .noRequest => Sys2Proof.Machine.execNoRequest s
  | .consumeWord => Sys2Proof.Machine.execConsumeWord s
  | .memoryPortGrant => Sys2Proof.Machine.execMemoryPortGrant s
  | .retryReissue => Sys2Proof.Machine.execRetryReissue s
  | .retryLimitExhausted => Sys2Proof.Machine.execRetryLimitExhausted s
  | .configurePath lane => Sys2Proof.Machine.execConfigurePath lane s
  | .defineRegion lane => Sys2Proof.Machine.execDefineRegion lane s
  | .startCapture lane => Sys2Proof.Machine.execStartCapture lane s
  | .stopCapture lane => Sys2Proof.Machine.execStopCapture lane s
  | .clearFault lane => Sys2Proof.Machine.execClearFault lane s
  | .deleteRegion lane => Sys2Proof.Machine.execDeleteRegion lane s
  | .captureRequest => Sys2Proof.Machine.execCaptureRequest s
  | .captureTransferAnswer answer => Sys2Proof.Machine.execCaptureTransferAnswer answer s
  | .stallTimerExpiry => Sys2Proof.Machine.execStallTimerExpiry s
  | .attachLog => Sys2Proof.Machine.execAttachLog s
  | .voidingStart => Sys2Proof.Machine.execVoidingStart s
  | .voidWriteAnswer answer => Sys2Proof.Machine.execVoidWriteAnswer answer s
  | .detachLog => Sys2Proof.Machine.execDetachLog s
  | .mark => Sys2Proof.Machine.execMark s
  | .markAppend => Sys2Proof.Machine.execMarkAppend s
  | .release => Sys2Proof.Machine.execRelease s
  | .reportLog => Sys2Proof.Machine.execReportLog s
  | .reportWriteAnswer answer => Sys2Proof.Machine.execReportWriteAnswer answer s
  | .rollback => Sys2Proof.Machine.execRollback s
  | .rollbackDrainEnd => Sys2Proof.Machine.execRollbackDrainEnd s
  | .restoreAccessAnswer answer => Sys2Proof.Machine.execRestoreAccessAnswer answer s
  | .markerWriteAnswer answer => Sys2Proof.Machine.execMarkerWriteAnswer answer s
  | .adoptLog => Sys2Proof.Machine.execAdoptLog s
  | .selectPassStart => Sys2Proof.Machine.execSelectPassStart s
  | .scanReadAnswer answer => Sys2Proof.Machine.execScanReadAnswer answer s
  | .copy => Sys2Proof.Machine.execCopy s
  | .frontierTransferAnswer answer => Sys2Proof.Machine.execFrontierTransferAnswer answer s
  | .pacingWindowExpiry => Sys2Proof.Machine.execPacingWindowExpiry s
  | .copyAheadRequest => Sys2Proof.Machine.execCopyAheadRequest s
  | .copyAheadTransferAnswer answer => Sys2Proof.Machine.execCopyAheadTransferAnswer answer s
  | .cancelCopy lane => Sys2Proof.Machine.execCancelCopy lane s
  | .descriptorFetchAnswer answer => Sys2Proof.Machine.execDescriptorFetchAnswer answer s
  | .null lane => Sys2Proof.Machine.execNull lane s
  | .outcomeWriteAnswer answer => Sys2Proof.Machine.execOutcomeWriteAnswer answer s
  | .directOutcomeWriteAnswer answer => Sys2Proof.Machine.execDirectOutcomeWriteAnswer answer s
  | .configureAttention lane => Sys2Proof.Machine.execConfigureAttention lane s
  | .attentionPosting => Sys2Proof.Machine.execAttentionPosting s
  | .attentionWriteAnswer answer => Sys2Proof.Machine.execAttentionWriteAnswer answer s
  | .statusWordWriteAnswer answer => Sys2Proof.Machine.execStatusWordWriteAnswer answer s

end Sys2Proof.Machine
end

