-- ==== Sys2Proof/Safety.lean ====
section
/-! DEFINITION. The terms claims use: what waits for the Memory Port, what handing a job's outcome back means, the values a reset
leaves, and the laws of the manual that hold between the blocks. -/

namespace Sys2Proof.Machine

/-- Every access that the part has still to issue: the lanes' own lists, a write the ring guard keeps back, the waiting requests of
the Memory Port, and the writes that wait for copy-ahead. -/
def Chip.waitingAccesses (s : Chip) : List PortRequest :=
  s.lanes.later ++ s.lanes.accesses ++ s.lanes.refused.toList ++ s.arbiter.requests ++ s.copy.queue

/-- A transaction of this owner holds the Memory Port, and its owner awaits the answer. -/
def Chip.InFlight (s : Chip) (o : Owner) : Prop := ∃ r, s.arbiter.inFlight = some r ∧ r.owner = o ∧ r.stale = false

/-- The Memory Port once its transaction has ended (R121, R133). -/
def Chip.portFree (s : Chip) : ArbiterState := { s.arbiter with inFlight := none, retryCount := 0 }

/-- Lane `l` is in state `st` with descriptor `d`, at address `addr`, as its current job. -/
def Chip.HasJob (s : Chip) (l : Lane) (st : LaneStatus) (addr : Word) (d : Descriptor) : Prop :=
  (s.lane l).state = st ∧ ∃ o r, (s.lane l).current = some { addr := addr, desc := some d, outcome := o, result := r }

/-- From `s` to `t` one access, `q`, joined those that wait to be issued, and none left them. -/
def AccessMade (s t : Chip) (q : PortRequest) : Prop := ∀ p, p ∈ t.waitingAccesses ↔ p ∈ s.waitingAccesses ∨ p = q

/-- From `s` to `t` lane `l` took the value `r`, and no other lane changed. -/
def LaneSet (s t : Chip) (l : Lane) (r : LaneRec) : Prop := t.lane l = r ∧ ∀ m, m ≠ l → t.lane m = s.lane m

/-- From `s` to `t` the job of lane `l` ended with an outcome and a result (R153, R154): the lane is in FINISH with them, its
outcome write of 8 bytes at the descriptor joins the accesses that wait, and no other lane changes. -/
def HandsBack (s t : Chip) (l : Lane) (addr : Word) (d : Descriptor) (o : JobOutcome) (result : Word) : Prop :=
  LaneSet s t l { s.lane l with
    state := .finish, current := some { addr := addr, desc := some d, outcome := some o, result := result } } ∧
  AccessMade s t { owner := .laneOutcome l, cls := .lane, access := outcomeAccess addr d o result, stale := false }

/-- Nothing but the lanes, the waiting requests and the writes that wait for copy-ahead differs between the blocks of `s` and `t`
other than the Region Table and the Log Unit. -/
def SameBesideHandBack (s t : Chip) : Prop :=
  t.path = s.path ∧ t.attention = s.attention ∧ t.freeIndex = s.freeIndex ∧ t.lanes.take = s.lanes.take ∧
  t.arbiter.inFlight = s.arbiter.inFlight ∧ t.arbiter.retryCount = s.arbiter.retryCount ∧
  t.copy = { s.copy with queue := t.copy.queue }

/-- Nothing differs between `s` and `t` but the lanes, what waits for the port or for copy-ahead, the Attention Unit's records, and
the access at the forward point with its answer upstream. -/
def SameBeyondLanes (s t : Chip) : Prop :=
  t.regions = s.regions ∧ t.log = s.log ∧ t.freeIndex = s.freeIndex ∧
  t.arbiter.inFlight = s.arbiter.inFlight ∧ t.arbiter.retryCount = s.arbiter.retryCount ∧
  t.copy = { s.copy with queue := t.copy.queue } ∧
  t.path = { s.path with
    forward := t.path.forward, upstream := t.path.upstream, holdTimer := t.path.holdTimer, response := t.path.response
    watches := t.path.watches } ∧
  t.attention = { s.attention with posts := t.attention.posts, handings := t.attention.handings }

/-- From `s` to `t` lane `l`, whose access has its final answer, made the next access that has waited for that (R157); with none
nothing happened. -/
def NextAccessMade (s t : Chip) (l : Lane) : Prop :=
  SameBesideHandBack s t ∧ t.regions = s.regions ∧ t.log = s.log ∧ (∀ m, t.lane m = s.lane m) ∧
  t.waitingAccesses.Perm s.waitingAccesses ∧
  ((∀ r ∈ s.lanes.later, r.owner.lane ≠ some l) → t = s) ∧
  (∀ older r newer, s.lanes.later = older ++ r :: newer → (∀ q ∈ older, q.owner.lane ≠ some l) → r.owner.lane = some l →
    (∀ q ∈ s.accessesInHand, q.owner.lane ≠ some l) → t.lanes.later = older ++ newer)

/-- From `s` to `t` a write was issued through the write check (R106): in a NOT COPIED source granule it waits for its copy-ahead,
and otherwise it requests the Memory Port. -/
def WriteIssued (s t : Chip) (r : PortRequest) : Prop :=
  (s.copy.notCopied r.access.addr = none →
    t.arbiter = { s.arbiter with requests := s.arbiter.requests ++ [r] } ∧ t.copy = s.copy) ∧
  (∀ k, s.copy.notCopied r.access.addr = some k →
    t.arbiter = s.arbiter ∧ t.copy = { s.copy with queue := s.copy.queue ++ [r] })

/-- What a rollback's drain holds of the Copy Engine's writes, its two bits and the late writes (log entry 29), takes these values; a
job of another kind stays as it is. -/
def LogJob.withDrainBits (frontier ahead : Bool) (late : List PortRequest) (j : LogJob) : LogJob :=
  match j.stage with
  | .rolling c => { j with stage := .rolling { c with drainFrontier := frontier, drainAhead := ahead, late := late } }
  | _ => j

/-- From `l` to `m` the Log Unit has changed only as the Copy Engine's requests make it: the requests that wait with the timer of their
stall, the request that the capture in progress serves and whether its answer is still wanted, and what a rollback's drain holds of
the Copy Engine's writes. -/
def LogBesideCopy (l m : LogState) : Prop :=
  m = { l with requests := m.requests, capture := m.capture, stallTimer := m.stallTimer, running := m.running } ∧
  (∃ a b late, m.running = l.running.map (LogJob.withDrainBits a b late)) ∧
  ∃ q b, m.capture = l.capture.map fun c => { c with request := q, answer := b }

/-- Nothing differs between `s` and `t` but the Copy Engine, what waits for the port, the lanes, and what the Log Unit
holds for the Copy Engine. -/
def SameBeyondCopy (s t : Chip) : Prop :=
  t.regions = s.regions ∧ t.path = s.path ∧ t.attention = s.attention ∧ t.freeIndex = s.freeIndex ∧
  LogBesideCopy s.log t.log

/-! ## The Processor Port -/

/-- The upstream access is answered, and its timer stops (R120, R132). -/
def Chip.answeredWith (s : Chip) (r : Response) : Chip :=
  { s with path := { s.path with upstream := none, holdTimer := none, response := some r } }

/-- The upstream access waits unaccepted in a wait state (Table 7-2). -/
def Chip.waitsIn (s : Chip) (a : Access) (w : WaitState) (toPost : Bool) : Chip :=
  { s with path := { s.path with upstream := some { access := a, wait := w, toPost := toPost, accepted := 0 } } }

/-- The upstream write is accepted as an ORDERED WRITE, next in acceptance order (R125). -/
def Chip.orderedWriteIn (s : Chip) (a : Access) : Chip :=
  { s with path := { s.path with
    upstream := some { access := a, wait := .orderedWrite, toPost := false, accepted := s.path.acceptCount }
    acceptCount := s.path.acceptCount + 1, holdTimer := none } }

/-- Hold meets the access at step 4 of R123. -/
def Chip.meetsHold (s : Chip) (a : Access) : Prop := s.onPage a.addr = false ∧ s.holdApplies a.addr = true

/-- From `s` to `t` the access was classified and, where R123 says so, accepted under R125. -/
def Classified (s t : Chip) (a : Access) (toPost : Bool) : Prop :=
  (s.onPage a.addr = true → a.write = true → t = s.orderedWriteIn a) ∧
  (s.onPage a.addr = false → a.write = true → s.ringGuard a.addr = true → t = s.answeredWith .fault) ∧
  ((a.write = false ∨ s.ringGuard a.addr = false) → s.meetsHold a →
    (s.path.restoreResponse = .hold → t = s.waitsIn a .held toPost) ∧
    (s.path.restoreResponse = .retry → t = s.answeredWith .retry)) ∧
  (a.write = false → ¬s.meetsHold a → t = { s with path := { s.path with
    upstream := some { access := a, wait := .orderedRead, toPost := false, accepted := s.path.acceptCount }
    acceptCount := s.path.acceptCount + 1 } }) ∧
  (s.onPage a.addr = false → a.write = true → s.ringGuard a.addr = false → s.holdApplies a.addr = false →
    (s.path.post = false → toPost = false → t = s.orderedWriteIn a) ∧
    ((s.path.post = true ∨ toPost = true) →
      (4 ≤ s.path.postQueue.length → t = s.waitsIn a .queueFull true) ∧
      (s.path.postQueue.length < 4 → t = { s with path := { s.path with
        upstream := none, holdTimer := none, response := some .done, acceptCount := s.path.acceptCount + 1
        postQueue := s.path.postQueue ++ [{ addr := a.addr, shape := a.shape, mask := a.mask, data := a.data,
                                            accepted := s.path.acceptCount }] } })))

/-- From `s` to `t` a write that waits in QUEUE FULL was classified afresh; with no such write nothing happened (R125). -/
def QueueFullServed (s t : Chip) : Prop :=
  (∀ u, s.path.upstream = some u → u.wait = .queueFull → Classified s t u.access true) ∧
  ((∀ u, s.path.upstream = some u → u.wait ≠ .queueFull) → t = s)

/-- The oldest write of the order, with its place in it, and whether it is posted (R126). -/
def Chip.OldestWrite (s : Chip) (a : Access) (n : Nat) (posted : Bool) : Prop :=
  (posted = true ∧ ∃ e es, s.path.postQueue = e :: es ∧ e.access = a ∧ e.accepted = n) ∨
  (posted = false ∧ s.path.postQueue = [] ∧
    ∃ u, s.path.upstream = some u ∧ u.wait = .orderedWrite ∧ u.access = a ∧ u.accepted = n)

/-! ## The control page -/

/-- The next recognised word of the control-page write `f` at the forward point has this target and value, and is covered in full;
`ws` are the words after it, and no take is in progress (R130, R146). -/
def Chip.WordNext (s : Chip) (f : ForwardPoint) (target : WordTarget) (v : Word) (ws : List PageWord) : Prop :=
  s.lanes.take = none ∧ s.path.forward = some f ∧ f.stage = .recognise ∧
    f.words = [{ target := target, value := v, full := true }] ++ ws

/-- The forward point with the words that are still to be examined. -/
def Chip.withWords (s : Chip) (f : ForwardPoint) (ws : List PageWord) : Chip :=
  { s with path := { s.path with forward := some { f with words := ws } } }

/-- A record joins the post list (R169). -/
def Chip.withPost (s : Chip) (src : Source) (r : AttnRecord) : Chip :=
  { s with attention := { s.attention with posts := s.attention.posts ++ [{ source := src, record := r }] } }

/-- A record waits for its source's room (R169). -/
def Chip.withHanding (s : Chip) (src : Source) (r : AttnRecord) (k : AfterHand) : Chip :=
  { s with attention := { s.attention with
    handings := s.attention.handings ++ [{ listed := { source := src, record := r }, after := k }] } }

/-- A MAILBOX FAULT record (Table 9-2) with its LANE and SUBJECT. -/
def mailboxRecord (lane : Byte) (subject : Word) : AttnRecord :=
  { kind := .mailboxFault, lane := lane, outcome := 0#16, tag := 0#32, subject := subject }

/-- With no word left the control-page write `f` is answered DONE and leaves the forward point, and a drain that waits for it goes
on; with a word left that is covered in full, that word waits to be taken (R130, R131). -/
def Chip.wordsLeft (s : Chip) (f : ForwardPoint) : List PageWord → Chip
  | [] =>
    let clear := fun w : Option Nat => if w = some f.accepted then none else w
    { s with path := { s.path with
      forward := none, upstream := none, holdTimer := none, response := some .done
      watches := { mark := clear s.path.watches.mark, rollback := clear s.path.watches.rollback
                   attach := clear s.path.watches.attach, adopt := clear s.path.watches.adopt } } }
  | ws => { s with path := { s.path with forward := some { f with stage := .recognise, words := ws } } }

/-- From `s` to `t` the words of the control-page write `f` were examined up to the first one covered in full (R130): each one before
it, covered in part, posts MAILBOX FAULT from the Path Controller with the write's address, and the write waits while that
room is taken (R169). -/
def WordsExamined (s t : Chip) (f : ForwardPoint) (ws : List PageWord) : Prop :=
  let fault := mailboxRecord 0xFF#8 f.access.addr
  let waits := fun (u : Chip) (rest : List PageWord) => Chip.withHanding
    { u with path := { u.path with forward := some { f with stage := .handing, words := rest } } } .path fault .pathWord
  ((s.attention.configured = false ∨ ∀ w ∈ ws.head?, w.full = true) → t = s.wordsLeft f (ws.dropWhile fun w => !w.full)) ∧
  (s.attention.configured = true → ∀ w rest, ws = w :: rest → w.full = false →
    (s.attention.roomTaken .path = true → t = waits s rest) ∧
    (s.attention.roomTaken .path = false →
      (∀ w' rest', rest = w' :: rest' → w'.full = false → t = waits (s.withPost .path fault) rest') ∧
      ((∀ w' ∈ rest.head?, w'.full = true) → t = (s.withPost .path fault).wordsLeft f rest)))

/-- From `s` to `t` a word's take ended with a MAILBOX FAULT from its lane (R146, R147): the record is dropped, listed, or waits for the
lane's room while the take lasts (R169). -/
def MailboxFaulted (s t : Chip) (l : Lane) (f : ForwardPoint) (ws : List PageWord) : Prop :=
  let record := mailboxRecord (laneByte l) (s.path.pageBase + BitVec.ofNat 32 (4 * l.val))
  (s.attention.configured = false → WordsExamined (s.withWords f ws) t f ws) ∧
  (s.attention.configured = true → s.attention.roomTaken (.lane l) = false →
    WordsExamined ((s.withWords f ws).withPost (.lane l) record) t f ws) ∧
  (s.attention.configured = true → s.attention.roomTaken (.lane l) = true →
    t = Chip.withHanding { s.withWords f ws with lanes := { s.lanes with
      take := some { lane := l, outcome := .queueFull, owed := [], finishAfter := false } } } (.lane l) record .take)

/-! ## The Memory Port -/

/-- The number of an arbiter class (Table 7-3): 1 is the highest. -/
def PortClass.number : PortClass → Nat
  | .path => 1
  | .lane => 2
  | .attention => 3
  | .log => 4
  | .frontier => 5

/-- The status word write, at start-up or for a report, which goes first of class 1 (R135). -/
def PortRequest.isStatusWord (r : PortRequest) : Prop := r.owner = .startUp ∨ r.owner = .status

/-- The command that brings memory's final answer to the owner of an own access or of a posted write (R133); none for the ORDERED
accesses, whose answers are passed upstream. -/
def Owner.finalAnswer (a : FinalAnswer) : Owner → Option Instr
  | .forwardRead => none
  | .forwardWrite posted =>
    if posted then some (.forwardedWriteAnswer (match a with
      | .done data => .done data
      | .fault => .fault)) else none
  | .startUp => some (.startUp a)
  | .status => some (.statusWordWriteAnswer a)
  | .capture => some (.captureTransferAnswer a)
  | .copyAhead => some (.copyAheadTransferAnswer a)
  | .laneFetch _ => some (.descriptorFetchAnswer a)
  | .laneOutcome _ => some (.outcomeWriteAnswer a)
  | .laneDirect _ => some (.directOutcomeWriteAnswer a)
  | .attention => some (.attentionWriteAnswer a)
  | .void => some (.voidWriteAnswer a)
  | .scan => some (.scanReadAnswer a)
  | .restore => some (.restoreAccessAnswer a)
  | .marker => some (.markerWriteAnswer a)
  | .report => some (.reportWriteAnswer a)
  | .frontier => some (.frontierTransferAnswer a)

/-! ## Captures -/

/-- From `s` to `t` a capture request was answered go and its requester issued its write (R23): the write at the forward point, the
frontier's current write, the copy-ahead's, or one that an ended copy has left (R109). A requester without a write does nothing. -/
def GoAnswered (s t : Chip) : Requester → Prop
  | .host =>
    (∀ f, s.path.forward = some f →
      t = { s with path := { s.path with forward := some { f with stage := .port } }, arbiter := t.arbiter, copy := t.copy } ∧
      WriteIssued s t { owner := .forwardWrite f.posted, cls := .path, access := f.access, stale := false }) ∧
    (s.path.forward = none → t = s)
  | .frontier =>
    (∀ f p ps, s.copy.front = some f → f.writes = p :: ps →
      t = { s with arbiter := t.arbiter, copy := t.copy } ∧
      WriteIssued { s with copy := { s.copy with state := .copying, front := some { f with phase := .port, went := true } } } t
        { owner := .frontier, cls := .frontier, access := s.copy.pieceAccess s.copy.spanBuffer p, stale := false }) ∧
    ((∀ f, s.copy.front = some f → f.writes = []) → t = s)
  | .copyAhead =>
    (∀ a p ps, s.copy.ahead = some a → a.writes = p :: ps →
      t = { s with arbiter := t.arbiter, copy := t.copy } ∧
      WriteIssued { s with copy := { s.copy with ahead := some { a with waitsCap := false, went := true } } } t
        { owner := .copyAhead, cls := a.cls, access := s.copy.pieceAccess s.copy.aheadBuffer p, stale := false }) ∧
    ((∀ a, s.copy.ahead = some a → a.writes = []) → t = s)
  | .left a =>
    t = { s with arbiter := t.arbiter, copy := t.copy } ∧
    WriteIssued s t { owner := .frontier, cls := .frontier, access := a, stale := true }

/-- From `s` to `t` these capture requests were answered go, in their order (R31, R34, R39). -/
def AllAnswered : List CaptureRequest → Chip → Chip → Prop
  | [], s, t => t = s
  | q :: qs, s, t => ∃ u, GoAnswered s u q.requester ∧ AllAnswered qs u t

/-- The record LOG BROKEN is listed when the ring is configured and its room is free, and otherwise is lost (R34, R169). -/
def BrokenPosted (s t : Chip) (reason : Reason) : Prop :=
  let record : AttnRecord :=
    { kind := .logBroken, lane := 0xFF#8, outcome := 0#16, tag := 0#32, subject := reason.code.setWidth 32 }
  t.attention = if s.attention.configured && !s.attention.roomTaken .logBroken
    then (s.withPost .logBroken record).attention else s.attention

/-- From `s` to `t` the log entered BROKEN with a reason (R34, R14): the timer stopped, the table was cleared, every CAPTURING region
became IDLE, LOG BROKEN was posted, and then every capture request that waited was answered go. The indices and the list stay. -/
def LogBroke (s t : Chip) (reason : Reason) : Prop :=
  ∃ v : Chip, v = { s with
      regions := v.regions, attention := v.attention
      log := { s.log with state := .broken, reason := reason, stallTimer := none, table := [], requests := [] } } ∧
    (∀ n : Fin 16, v.regions[n] = if s.regions[n].state = .capturing then { s.regions[n] with state := .idle } else s.regions[n]) ∧
    BrokenPosted s v reason ∧ AllAnswered s.log.requests v t ∧
    t.log = v.log ∧ t.regions = v.regions ∧ t.attention = v.attention ∧ t.lanes = v.lanes ∧ t.freeIndex = v.freeIndex

/-! ## Log jobs -/

/-- The grant of lane `l`'s log job is due (R40): no log job runs, and the job is the oldest that waits, with `rest` behind it. -/
def Chip.GrantDue (s : Chip) (l : Lane) (addr : Word) (d : Descriptor) (rest : List Lane) : Prop :=
  s.log.running = none ∧ s.log.beside = none ∧ s.log.waiting = l :: rest ∧ s.HasJob l .wait addr d

/-- The step of lane `l`'s log job is due (R26): the job has been granted, and no capture is in progress any more. -/
def Chip.StepDue (s : Chip) (l : Lane) (addr : Word) (d : Descriptor) (rest : List Lane) : Prop :=
  s.log.running = some { lane := l, stage := .granted } ∧ s.log.waiting = rest ∧ s.HasJob l .run addr d ∧ s.log.capture = none

/-- Lane `l`'s log job is due, for its grant or for its step. -/
def Chip.LogJobDue (s : Chip) (l : Lane) (addr : Word) (d : Descriptor) (rest : List Lane) : Prop :=
  s.GrantDue l addr d rest ∨ s.StepDue l addr d rest

/-- A log job that has been granted waits for the capture in progress: until that is over its command changes nothing (R26; log
entry 24). -/
def WaitsForCapture (c : Instr) : Prop :=
  ∀ (s : State) (l : Lane), s.chip.log.running = some { lane := l, stage := .granted } → s.chip.log.capture ≠ none →
    exec c s = .next s

/-- From `s` to `t` a due log job was refused (R41): its lane is handed the outcome with result 0, and nothing else changes. -/
def LogJobRefused (s t : Chip) (l : Lane) (addr : Word) (d : Descriptor) (rest : List Lane) (o : JobOutcome) : Prop :=
  HandsBack s t l addr d o 0#32 ∧ t.log = { s.log with waiting := rest, running := none } ∧ t.regions = s.regions ∧
    SameBesideHandBack s t

/-- The range of a ring that ATTACH LOG or ADOPT LOG names meets a non-FREE region, the control page or the attention ring (R37, R79). -/
def Chip.RingMeets (s : Chip) (d : Descriptor) : Prop :=
  s.regionOverlaps d.a.toNat (96 * d.b.toNat) = true ∨ s.pageOverlaps d.a.toNat (96 * d.b.toNat) = true ∨
    s.attnRingOverlaps d.a.toNat (96 * d.b.toNat) = true

/-- The geometry and policy that a ring job's operands name (R37, Table 10-5). -/
def RingOperands (l : LogState) (d : Descriptor) : Prop :=
  l.base = d.a ∧ l.capacity = d.b.toNat ∧ l.stallLimit.toNat = d.c.toNat % 65536 ∧
  (l.policy = .break ↔ d.c.toNat / 65536 % 256 = 0) ∧ (l.policy = .stall ↔ d.c.toNat / 65536 % 256 = 1)

/-- From `s` to `t` lane `l` entered RUN, or stayed there, and nothing else of the Lane Unit changed. -/
def LaneRuns (s t : Chip) (l : Lane) : Prop :=
  LaneSet s t l { s.lane l with state := .run } ∧ t.lanes = { s.lanes with lanes := t.lanes.lanes }

/-- From `s` to `t` lane `l`'s log job was granted with a capture in progress and now waits for its step (R26, R40): the lane is in
RUN, the job runs, and nothing else changes. -/
def JobGranted (s t : Chip) (l : Lane) (rest : List Lane) : Prop :=
  LaneRuns s t l ∧ t = { s with
    lanes := t.lanes, log := { s.log with waiting := rest, running := some { lane := l, stage := .granted } } }

/-- The log as it returns to UNSET (R16): every item at its reset value but the waiting jobs of the arbiter; the job that made the
change runs no more. -/
def LogState.backToUnset (l : LogState) : LogState :=
  { state := .unset, base := 0#32, capacity := 0, policy := .break, stallLimit := 0#16, head := 0, tail := 0, count := 0
    nextSeq := 0#32, lastSeq := 0#32, highest := 0#32, reason := .none, checkpoints := [], table := [], stallTimer := none
    waiting := l.waiting, running := none, beside := l.beside, requests := l.requests, capture := l.capture }

/-- From `s` to `t` a held access whose region has left RESTORING was classified afresh; with none nothing happened (R124). -/
def HeldReleased (s t : Chip) : Prop :=
  (∀ u, s.path.upstream = some u → u.wait = .held → s.holdApplies u.access.addr = false → Classified s t u.access u.toPost) ∧
  ((∀ u, s.path.upstream = some u → u.wait = .held → s.holdApplies u.access.addr = true) → t = s)

/-- One entry once the restore entry request has been taken (R12). -/
def restoreEntered (r r' : Region) : Prop :=
  (r.state = .idle → r' = { r with state := .restoring, resume := .idle }) ∧
  (r.state = .capturing → r' = { r with state := .restoring, resume := .capturing }) ∧
  (r.state = .free ∨ r.state = .restoring ∨ r.state = .faulted → r' = r)

/-- One entry once the return request has been taken (R12). -/
def returned (r r' : Region) : Prop :=
  (r.state = .restoring → r.resume = .idle → r' = { r with state := .idle }) ∧
  (r.state = .restoring → r.resume = .capturing → r' = { r with state := .capturing, resume := .idle }) ∧
  (r.state ≠ .restoring → r' = r)

/-- The MARKER write of the end of the rollback `c` (R22, R66): into slot `slot`, with SEQUENCE next sequence. -/
def markerWrite (s : Chip) (c : Rollback) (slot : Nat) : PortRequest :=
  { owner := .marker, cls := .log, stale := false
    access := writeLine (s.log.base + BitVec.ofNat 32 (96 * slot))
      (markerHeader s.log.nextSeq (if c.applied = 0 then s.log.lastSeq else c.lastPrevious) c.target) }

/-- A valid RECORD (R82). -/
def ValidRecord (header first second : Line) : Prop :=
  headerKind header = 0xC1#8 ∧ headerCheck header = recordCheck header first second ∧ headerSequence header ≠ 0#32 ∧
  headerSequence header ≠ 0xFFFFFFFF#32 ∧ (headerGranule header).toNat % 64 = 0 ∧ headerCheckpoint header ≠ 0#32

/-- A valid MARKER (R82). -/
def ValidMarker (header : Line) : Prop :=
  headerKind header = 0xC2#8 ∧ headerCheck header = markerCheck header ∧ headerSequence header ≠ 0#32 ∧
  headerCheckpoint header ≠ 0#32

/-! ## The Copy Engine -/

/-- From `s` to `t` the active copy ended with an outcome (R115, R117): the context is IDLE, every write that waited for copy-ahead requests
the port, but for one that has been withdrawn (R168), the capture requests of the frontier and of the copy-ahead are withdrawn, and
no others (R26, R118), a write of theirs that was answered go and waits for the port is left there to be issued (R26), the COPY's
lane is handed the outcome and the result, and each CANCEL COPY that waits ends DONE with the result. A rollback's drain waits for
no write of the copy any more, but for those left (R60; log entry 29). -/
def CopyEnded (s t : Chip) (o : JobOutcome) : Prop :=
  t.copy.state = .idle ∧ t.copy.windowTimer = false ∧ t.copy.cancelPend = false ∧ t.copy.front = none ∧ t.copy.ahead = none ∧
  t.copy.queue = [] ∧ t.copy.cancels = [] ∧ t.copy.map = s.copy.map ∧ t.copy.frontier = s.copy.frontier ∧
  t.copy.waiting = s.copy.waiting ∧ SameBeyondCopy s t ∧
  (∀ q ∈ t.log.requests, q.requester ≠ .frontier ∧ q.requester ≠ .copyAhead) ∧
  (∀ q ∈ s.log.requests, q.requester ≠ .frontier → q.requester ≠ .copyAhead → q ∈ t.log.requests) ∧
  (∀ r, (r ∈ s.copy.queue ∧ r.withdrawn = false) ∨ (∃ a, s.copy.ahead = some a ∧ a.trigger = some r) →
    r ∈ t.arbiter.requests) ∧
  (∀ r ∈ t.arbiter.requests, r.withdrawn = true →
    r ∈ s.arbiter.requests ∨ r ∈ s.lanes.accesses ∨ ∃ a, s.copy.ahead = some a ∧ a.trigger = some r) ∧
  (∀ r ∈ s.arbiter.requests, r.stale = false →
    (r.owner = .frontier ∧ s.copy.wentWaits = true) ∨ (r.owner = .copyAhead ∧ s.copy.aheadWent = true) →
    { r with stale := true } ∈ t.arbiter.requests) ∧
  (∀ l c, s.log.running = some { lane := l, stage := .rolling c } →
    t.log.running = some { lane := l, stage := .rolling { c with
      drainFrontier := false, drainAhead := false
      late := if c.drainAhead then c.late else c.late ++ s.arbiter.leaves .copyAhead s.copy.aheadWent } }) ∧
  (s.copy.lane ∉ s.copy.cancels → ∀ m st addr d, s.HasJob m st addr d →
    ∀ ended : JobOutcome → Prop, ended = (fun o' =>
      t.lane m = { s.lane m with
        state := .finish
        current := some { addr := addr, desc := some d, outcome := some o', result := BitVec.ofNat 32 s.copy.result } } ∧
      { owner := .laneOutcome m, cls := .lane, stale := false
        access := outcomeAccess addr d o' (BitVec.ofNat 32 s.copy.result) } ∈ t.waitingAccesses) →
    (m = s.copy.lane → ended o) ∧ (m ∈ s.copy.cancels → ended .done)) ∧
  (∀ m, m ≠ s.copy.lane → m ∉ s.copy.cancels → t.lane m = s.lane m)

/-- From `s` to `t` the frontier begins the span at FRONTIER (R100, R101, R104): with the budget of the window spent the copy pauses; else it
is charged, and the span's first source line is read. -/
def SpanBegun (s t : Chip) : Prop :=
  (s.copy.budget ≠ 0#8 → s.copy.budgetLeft = 0#8 →
    t = { s with copy := { s.copy with state := .pausedBudget, front := none } }) ∧
  (s.copy.budget = 0#8 ∨ s.copy.budgetLeft ≠ 0#8 →
    ∀ n, n = min (s.copy.length - s.copy.frontier) (64 - (s.copy.source.toNat + s.copy.frontier) % 64) →
    t = { s with
      copy := { s.copy with
        state := .copying
        budgetLeft := if s.copy.budget = 0#8 then s.copy.budgetLeft else s.copy.budgetLeft - 1#8
        front := some { start := s.copy.frontier, length := n, phase := .read, went := false, covered := false
                        reads := sourceLines (s.copy.source.toNat + s.copy.frontier) n
                        writes := s.copy.pieces s.copy.frontier n } }
      arbiter := { s.arbiter with requests := s.arbiter.requests ++
        [{ owner := .frontier, cls := .frontier, stale := false
           access := readLine (BitVec.ofNat 32 (32 * ((s.copy.source.toNat + s.copy.frontier) / 32))) }] } })

/-- From `s` to `t` the frontier failed (R116): the copy ends, at once or, with a copy-ahead in progress, when that has run to its end. -/
def FrontFailed (s t : Chip) (o : JobOutcome) : Prop :=
  (s.copy.ahead = none → CopyEnded s t o) ∧
  (s.copy.ahead ≠ none →
    t.copy = { s.copy with front := none, fix := some (s.copy.fix.getD (.frontier o)) } ∧ SameBeyondCopy s t ∧ t.lanes = s.lanes)

/-- From `s` to `t` the frontier `f` took the steps of R102 for its next destination write `p`. -/
def FrontWriteStarted (s t : Chip) (f : Front) (p : Piece) : Prop :=
  (s.ringGuard p.addr = true → FrontFailed s t .destFault) ∧
  (s.ringGuard p.addr = false →
    (∀ n r, s.lookup p.addr = some (n, r) → r.state = .restoring →
      t = { s with copy := { s.copy with state := .pausedRegion, front := some { f with phase := .paused, went := false } } }) ∧
    (∀ n r, s.lookup p.addr = some (n, r) → r.state ≠ .restoring → s.captureApplies r = true →
      t = { s with
        copy := { s.copy with state := .copying, front := some { f with phase := .capture, went := false } }
        log := { s.log with requests := s.log.requests ++
          [{ requester := .frontier, granule := granuleOf p.addr, region := n, cls := .frontier, stalled := false }] } }) ∧
    ((∀ n r, s.lookup p.addr = some (n, r) → r.state ≠ .restoring ∧ s.captureApplies r = false) →
      t = { s with arbiter := t.arbiter, copy := t.copy } ∧
      WriteIssued { s with copy := { s.copy with state := .copying, front := some { f with phase := .port, went := false } } } t
        { owner := .frontier, cls := .frontier, stale := false, access := s.copy.pieceAccess s.copy.spanBuffer p }))

/-- From `s` to `t` the frontier leaves a span that is complete (R103): at LENGTH the copy ends DONE, else the next span begins. -/
def NextSpan (s t : Chip) : Prop :=
  (s.copy.frontier = s.copy.length → CopyEnded s t .done) ∧ (s.copy.frontier ≠ s.copy.length → SpanBegun s t)

/-- From `s` to `t` a copy-ahead failed (R112); an outcome that a frontier fault has fixed stands (R116). -/
def AheadFailed (s t : Chip) (o : JobOutcome) : Prop :=
  (∀ o', s.copy.fix = some (.frontier o') → CopyEnded s t o') ∧
  ((∀ o', s.copy.fix ≠ some (.frontier o')) → CopyEnded s t o)

/-- From `s` to `t` the copy-ahead `a` took the steps of R107 for its next destination write `p`. -/
def AheadWriteStarted (s t : Chip) (a : Ahead) (p : Piece) : Prop :=
  (s.ringGuard p.addr = true → AheadFailed s t .destFault) ∧
  (s.ringGuard p.addr = false →
    (∀ n r, s.lookup p.addr = some (n, r) → s.captureApplies r = true →
      (s.copy.recordWriteWaits a = true → AheadFailed s t .destFault) ∧
      (s.copy.recordWriteWaits a = false →
        t = { s with
          copy := { s.copy with ahead := some { a with waitsCap := true, went := false } }
          log := { s.log with requests := s.log.requests ++
            [{ requester := .copyAhead, granule := granuleOf p.addr, region := n, cls := a.cls, stalled := false }] } })) ∧
    ((∀ n r, s.lookup p.addr = some (n, r) → s.captureApplies r = false) →
      t = { s with arbiter := t.arbiter, copy := t.copy } ∧
      WriteIssued { s with copy := { s.copy with ahead := some { a with waitsCap := false, went := false } } } t
        { owner := .copyAhead, cls := a.cls, stale := false, access := s.copy.pieceAccess s.copy.aheadBuffer p }))

/-- From `s` to `t` the read that a copy-ahead shares with a capture was answered FAULT (R108; log entry 10): the copy ends SOURCE
FAULT, at once, or, with another copy-ahead in progress, when the write's own request is taken. -/
def SharedReadFailed (s t : Chip) : Prop :=
  (s.copy.ahead = none → CopyEnded s t .sourceFault) ∧
  (s.copy.ahead ≠ none → t = { s with path := { s.path with
    forward := s.path.forward.map fun f => { f with image := .failed } } })

/-- From `s` to `t` the region that a PAUSED-REGION wait is on left RESTORING (R96, R114): STATE becomes COPYING, and the steps of R102
are taken again for the same write. In any other state of the copy nothing happened. -/
def FrontResumed (s t : Chip) : Prop :=
  (s.copy.state ≠ .pausedRegion → t = s) ∧
  (s.copy.state = .pausedRegion → ∀ s₁ : Chip, s₁ = { s with copy := { s.copy with state := .copying } } →
    (∀ f p ps, s.copy.front = some f → f.phase = .paused → f.writes = p :: ps → FrontWriteStarted s₁ t f p) ∧
    ((∀ f, s.copy.front = some f → f.phase ≠ .paused ∨ f.writes = []) → t = s₁))

/-! ## The ends of a rollback -/

/-- From `s` to `t` the rollback that lane `l` runs failed (R13, R33, R65): the regions it held are FAULTED, a paused copy and a held
access go on, the log enters BROKEN, the job ends RESTORE FAULT with the records applied, and no drain is waited for. -/
def RollbackFailed (s t : Chip) (l : Lane) (addr : Word) (d : Descriptor) (reason : Reason) (applied : Nat) : Prop :=
  ∃ v x w y z : Chip,
    v = { s with regions := v.regions } ∧
    (∀ n : Fin 16,
      (s.regions[n].state = .restoring → v.regions[n] = { s.regions[n] with state := .faulted, resume := .idle }) ∧
      (s.regions[n].state ≠ .restoring → v.regions[n] = s.regions[n])) ∧
    FrontResumed v x ∧ HeldReleased x w ∧ LogBroke w y reason ∧
    HandsBack y z l addr d .restoreFault (BitVec.ofNat 32 applied) ∧ SameBesideHandBack y z ∧ z.regions = y.regions ∧
    z.log = { y.log with running := none } ∧
    t = { z with path := { z.path with watches := { z.path.watches with rollback := none } } }

/-- From `s` to `t` the rollback `c` that lane `l` runs trimmed the log and returned (R67): checkpoint `e` is the newest entry, empty, with
the entries `older` before it and FIRST SEQUENCE `next`; the regions take their RESUME states; a paused copy and a held access go
on; and the job ends DONE with the records applied. -/
def RollbackReturned (s t : Chip) (l : Lane) (addr : Word) (d : Descriptor) (c : Rollback) (older : List Checkpoint)
    (e : Checkpoint) (next : Word) : Prop :=
  ∃ v x w : Chip, (∀ n : Fin 16, returned s.regions[n] v.regions[n]) ∧
    v = { s with regions := v.regions, log := { s.log with
      lastSeq := if c.applied = 0 then s.log.lastSeq else c.lastPrevious
      nextSeq := next, tail := e.firstSlot, count := s.log.count - c.applied
      checkpoints := older ++ [{ e with records := 0, firstSequence := next }]
      table := [], state := .attached, running := v.log.running } } ∧
    (∃ context, v.log.running = some { lane := l, stage := .rolling context }) ∧
    FrontResumed v x ∧ HeldReleased x w ∧
    HandsBack w t l addr d .done (BitVec.ofNat 32 c.applied) ∧ SameBesideHandBack w t ∧ t.regions = w.regions ∧
    t.log = { w.log with running := none }

/-! ## Lanes and attention records -/

/-- From `s` to `t` a source handed a record (R169): with the ring unconfigured it is dropped, with the source's room free it is listed, and
in both cases the source goes on as `next` says; with the room taken the source waits. -/
def Handed (s t : Chip) (src : Source) (r : AttnRecord) (k : AfterHand) (next : Chip → Chip → Prop) : Prop :=
  (s.attention.configured = false → next s t) ∧
  (s.attention.configured = true → s.attention.roomTaken src = false → next (s.withPost src r) t) ∧
  (s.attention.configured = true → s.attention.roomTaken src = true → t = s.withHanding src r k)

/-- From `s` to `t` lane `l` came to its end of chain (R145): it drops its job and CUT PENDING, and takes its oldest entry into FETCH or is
IDLE. -/
def ChainEnds (l : Lane) (s t : Chip) : Prop :=
  SameBesideHandBack s t ∧ t.regions = s.regions ∧ t.log = s.log ∧
  ((s.lane l).queue = [] →
    LaneSet s t l { state := .idle, queue := [], current := none, cutPending := false } ∧
    t.waitingAccesses = s.waitingAccesses) ∧
  (∀ a rest, (s.lane l).queue = a :: rest →
    LaneSet s t l { state := .fetch, queue := rest, cutPending := false
                    current := some { addr := a, desc := none, outcome := none, result := 0#32 } } ∧
    AccessMade s t { owner := .laneFetch l, cls := .lane, access := readLine a, stale := false })

/-- A record of lane `l` (Table 9-2). -/
def recordOf (k : AttnKind) (l : Lane) (outcome : Half) (tag subject : Word) : AttnRecord :=
  { kind := k, lane := BitVec.ofNat 8 l.val, outcome := outcome, tag := tag, subject := subject }

/-- From `s` to `t` lane `l`, whose job with descriptor `d` ended with outcome `o`, decided on its chain (R156). -/
def ChainDecided (l : Lane) (d : Descriptor) (o : JobOutcome) (s t : Chip) : Prop :=
  ∀ cut : Prop, cut = ((s.lane l).cutPending = true ∨ (o ≠ .done ∧ d.flags.getLsbD 1 = false)) →
  (d.next = 0#32 → ChainEnds l s t) ∧
  (d.next ≠ 0#32 → cut → Handed s t (.lane l) (recordOf .chainCut l o.code d.tag d.next) (.laneEnd l) (ChainEnds l)) ∧
  (d.next ≠ 0#32 → ¬cut →
    (d.next.toNat % 32 = 0 → SameBesideHandBack s t ∧ t.regions = s.regions ∧ t.log = s.log ∧
      LaneSet s t l { s.lane l with
        state := .fetch, current := some { addr := d.next, desc := none, outcome := none, result := 0#32 } } ∧
      AccessMade s t { owner := .laneFetch l, cls := .lane, access := readLine d.next, stale := false }) ∧
    (d.next.toNat % 32 ≠ 0 →
      Handed s t (.lane l) (recordOf .descriptorFault l 0#16 0#32 d.next) (.laneEnd l) (ChainEnds l)))

/-- From `s` to `t` a direct outcome write's record has been handed, and the take goes on (R148, R159): the next owed write of `rest`, or the
end of the take, with the FINISH of a withdrawn job, and the words that follow. -/
def TakeGoesOn (l : Lane) (o : JobOutcome) (rest : List Word) (finish : Bool) (s t : Chip) : Prop :=
  (∀ b more, rest = b :: more →
    t.lanes.take = some { lane := l, outcome := o, owed := rest, finishAfter := finish } ∧ (∀ m, t.lane m = s.lane m) ∧
    SameBeyondLanes s t ∧ t.path = s.path ∧ t.attention = s.attention ∧
    AccessMade s t { owner := .laneDirect l, cls := .lane, access := directAccess b o, stale := false }) ∧
  (rest = [] → ∀ f, s.path.forward = some f → ∃ u, WordsExamined u t f f.words ∧ u.lanes.take = none ∧ SameBeyondLanes s u ∧
    u.path = s.path ∧ u.attention = s.attention ∧
    (finish = false → (∀ m, u.lane m = s.lane m) ∧ u.waitingAccesses = s.waitingAccesses) ∧
    (finish = true → ∀ st addr d, s.HasJob l st addr d → HandsBack s u l addr d .cancelled 0#32))

/-- The Attention Unit with the ring unconfigured: every item at its reset value (R165), and the handings and a configure that wait as they
are. -/
def AttentionState.ringGone (a : AttentionState) : AttentionState :=
  { configured := false, base := 0#32, capacity := 0, lineEnable := false, produce := 0#16, consume := 0#16, sequence := 0#32
    overrun := none, posts := [], posting := none, handings := a.handings, configure := a.configure }

/-- From `s` to `t` an accepted CONFIGURE ATTENTION of lane `l` took effect (R168). With base 0 the ring is unconfigured and the sources that
wait for room go on; otherwise the ring is configured, empty, the produce word is written with 0, part status ATTENTION FAULT
becomes READY with a status word owed, and the job ends DONE with the capacity. -/
def ConfigureTaken (s t : Chip) (c : PendingConfigure) (addr : Word) (d : Descriptor) : Prop :=
  (c.base = 0#32 →
    t.attention.configured = false ∧ t.attention.base = 0#32 ∧ t.attention.capacity = 0 ∧ t.attention.lineEnable = false ∧
    t.attention.produce = 0#16 ∧ t.attention.consume = 0#16 ∧ t.attention.sequence = 0#32 ∧ t.attention.overrun = none ∧
    t.attention.posting = none ∧ t.path.status = s.path.status ∧ t.path.statusOwed = s.path.statusOwed ∧
    (s.attention.handings = [] → HandsBack s t c.lane addr d .done 0#32 ∧ t.regions = s.regions ∧ t.log = s.log ∧
      SameBesideHandBack { s with attention := { s.attention.ringGone with configure := none } } t)) ∧
  (c.base ≠ 0#32 → ∃ u : Chip,
    ∀ a : AttentionState, a = { s.attention with
      configured := true, base := c.base, capacity := c.capacity, lineEnable := c.lineEnable, produce := 0#16, consume := 0#16
      sequence := 0#32, overrun := none, configure := none
      posting := some { kind := .configure, sequence := 0#32, slot := 0, step := .produce } } →
    ∀ p : PathState, p = (if s.path.status = .attentionFault
      then { s.path with status := .ready, statusOwed := s.path.statusOwed ++ [.ready] } else s.path) →
    WriteIssued { s with attention := a, path := p } u
      { owner := .attention, cls := .attention, stale := false, access := produceAccess s.path.pageBase 0#16 } ∧
    u = { s with attention := a, path := p, arbiter := u.arbiter, copy := u.copy } ∧
    HandsBack u t c.lane addr d .done (BitVec.ofNat 32 c.capacity) ∧ SameBesideHandBack u t ∧ t.regions = s.regions ∧ t.log = s.log)

/-- From `s` to `t` the Attention Unit issued the write that the posting `p` has reached (R170). -/
def PostingIssued (s t : Chip) (p : Posting) (a : Access) : Prop :=
  WriteIssued { s with attention := { s.attention with posting := some p } } t
    { owner := .attention, cls := .attention, access := a, stale := false } ∧
  t = { s with attention := { s.attention with posting := some p }, arbiter := t.arbiter, copy := t.copy }

/-- The OVERRUN record with a dropped count (R171). -/
def overrunRecord (n : Word) : AttnRecord :=
  { kind := .overrun, lane := 0xFF#8, outcome := 0#16, tag := 0#32, subject := n }

/-- From `s` to `t` the ring was deconfigured after a FAULT (R174): the Attention Unit holds its reset values, part status is ATTENTION FAULT,
a status word is owed, and the sources that wait for room go on. -/
def Deconfigured (s t : Chip) : Prop :=
  t.attention.configured = false ∧ t.attention.base = 0#32 ∧ t.attention.capacity = 0 ∧ t.attention.lineEnable = false ∧
  t.attention.produce = 0#16 ∧ t.attention.consume = 0#16 ∧ t.attention.sequence = 0#32 ∧ t.attention.overrun = none ∧
  t.attention.posting = none ∧ t.attnLine = false ∧ t.path.status = .attentionFault ∧
  t.path.statusOwed = s.path.statusOwed ++ [.attentionFault] ∧ t.regions = s.regions ∧ t.log = s.log ∧
  (s.attention.handings = [] → t = { s with
    attention := s.attention.ringGone
    path := { s.path with status := .attentionFault, statusOwed := s.path.statusOwed ++ [.attentionFault] } })

/-! ## Reset -/

/-- The blocks other than the Path Controller and the arbiter hold their reset values (R15, R42, R95, R144, R165). -/
def Chip.BlocksAtReset (t : Chip) : Prop :=
  (∀ n : Fin 16, t.regions[n] = { state := .free, base := 0#32, length := 0, resume := .idle }) ∧
  (t.log.state = .unset ∧ t.log.base = 0#32 ∧ t.log.capacity = 0 ∧ t.log.policy = .break ∧ t.log.stallLimit = 0#16 ∧
    t.log.head = 0 ∧ t.log.tail = 0 ∧ t.log.count = 0 ∧ t.log.nextSeq = 0#32 ∧ t.log.lastSeq = 0#32 ∧
    t.log.highest = 0#32 ∧ t.log.reason = .none ∧ t.log.checkpoints = [] ∧ t.log.table = [] ∧ t.log.stallTimer = none ∧
    t.log.waiting = [] ∧ t.log.running = none ∧ t.log.requests = [] ∧ t.log.capture = none) ∧
  (t.copy.state = .idle ∧ t.copy.source = 0#32 ∧ t.copy.dest = 0#32 ∧ t.copy.length = 0 ∧ t.copy.mode = .plain ∧
    t.copy.budget = 0#8 ∧ t.copy.budgetLeft = 0#8 ∧ t.copy.frontier = 0 ∧ t.copy.lane = 0 ∧ t.copy.cancelPend = false ∧
    (∀ k, t.copy.copied k = false) ∧ t.copy.windowTimer = false ∧ t.copy.waiting = []) ∧
  ((∀ l, t.lane l = { state := .idle, queue := [], current := none, cutPending := false }) ∧ t.lanes.accesses = [] ∧
    t.lanes.later = [] ∧ t.lanes.refused = none ∧ t.lanes.take = none) ∧
  (t.attention.configured = false ∧ t.attention.base = 0#32 ∧ t.attention.capacity = 0 ∧ t.attention.lineEnable = false ∧
    t.attention.produce = 0#16 ∧ t.attention.consume = 0#16 ∧ t.attention.sequence = 0#32 ∧ t.attention.overrun = none ∧
    t.attention.posts = [] ∧ t.attention.posting = none ∧ t.attnLine = false)

/-- The Path Controller holds the values that Table 7-1 gives after a reset of this kind, with this page base. -/
def PathState.AtReset (p : PathState) (cause : ResetCause) (pageBase : Word) : Prop :=
  p.pageBase = pageBase ∧ p.status = .starting ∧ p.cause = cause ∧ p.post = false ∧ p.restoreResponse = .hold ∧
  p.holdLimit = 0#16 ∧ p.upstream = none ∧ p.postQueue = [] ∧ p.holdTimer = none ∧ p.barrier = none ∧
  p.watches = { mark := none, rollback := none, attach := none, adopt := none }

/-- A status word write (R140, R141): class 1, one single write of 4 bytes at page + 0x20 with these four bytes. -/
def IsStatusWrite (r : PortRequest) (owner : Owner) (pageBase : Word) (state cause : Byte) : Prop :=
  r.owner = owner ∧ r.cls = .path ∧ r.stale = false ∧ r.access.write = true ∧ r.access.shape = .single ∧
  r.access.addr = pageBase + 0x20#32 ∧ r.access.mask = 0xF#32 ∧
  r.access.data = (1#8 ++ 6#8 ++ cause ++ state : Word).setWidth 256

/-! ## Laws between the blocks -/

/-- R14: a region is CAPTURING only while the log is ATTACHED, and RESTORING only while the log is ROLLING. -/
def Chip.RegionLogLaw (s : Chip) : Prop :=
  ∀ n : Fin 16, (s.regions[n].state = .capturing → s.log.state = .attached) ∧
    (s.regions[n].state = .restoring → s.log.state = .rolling)

/-- R19 and R44 for a log that retains records: count is at most N, tail is (head + count) modulo N, the list is not empty, the RECORDS
of its entries sum to count, and each entry's FIRST SLOT is head plus the RECORDS of all older entries, modulo N. -/
def LogState.RetainedLaw (l : LogState) : Prop :=
  l.count ≤ l.capacity ∧ l.head < l.capacity ∧ l.tail = (l.head + l.count) % l.capacity ∧
  l.checkpoints ≠ [] ∧ recordsOf l.checkpoints = l.count ∧
  ∀ older e newer, l.checkpoints = older ++ e :: newer → e.firstSlot = (l.head + recordsOf older) % l.capacity

/-- The sum of the records of some runs of a scan. -/
def runRecords (rs : List Run) : Nat := (rs.map (·.records)).sum

/-- What an adopt scan of a ring of `n` slots has found (R81, R83, R84): the select pass has taken no record, and its NEWEST is a slot of the ring; in
the walk pass the slot at hand is the one before the records taken, those are fewer than `n`, and their runs divide them. A scan
that has not begun is in its select pass. -/
def Scan.Law (n : Nat) (c : Scan) : Prop :=
  (c.started = false → c.pass = .select) ∧
  (c.pass = .select → c.slot < n ∧ c.included = 0 ∧ c.runs = [] ∧ ∀ x, c.newest = some x → x.slot < n) ∧
  (c.pass = .walk → c.tail < n ∧ c.included < n ∧ c.slot = (c.tail + (n - 1) * (c.included + 1)) % n ∧
    runRecords c.runs = c.included ∧
    ∀ older r newer, c.runs = older ++ r :: newer → r.oldest = (c.tail + (n - 1) * c.included + runRecords older) % n)

/-- What a rollback's context holds while the log is ROLLING (R61, R65): nothing has been applied in DRAIN; after it the span is the
records of the target and of every newer entry, all of them applied at FINISH. -/
def LogState.SpanLaw (l : LogState) (c : Rollback) : Prop :=
  (c.phase = .drain → c.applied = 0) ∧ (c.phase ≠ .drain → c.span = recordsOf (l.since c.target)) ∧
  (c.phase = .finish → c.applied = c.span)

/-- The laws of the ring's indices (R19) and of the checkpoint list (R44) in every state of the log, with what they rest on between commands: a capture in
progress has its slot (R29), and a scan and a rollback hold what they have counted. -/
def LogState.RingLaw (l : LogState) : Prop :=
  (l.state = .unset ∨ l.state = .preparing ∨ l.state = .scanning →
    l.head = 0 ∧ l.tail = 0 ∧ l.count = 0 ∧ l.checkpoints = [] ∧ l.capture = none) ∧
  (l.state = .preparing ∨ l.state = .scanning → 0 < l.capacity) ∧
  (l.state = .attached ∨ l.state = .rolling ∨ l.state = .broken → l.RetainedLaw) ∧
  (l.state = .attached ∨ l.state = .rolling → l.capture ≠ none → l.count < l.capacity) ∧
  (l.state = .rolling → ∀ c, l.rollback = some c → l.SpanLaw c) ∧
  (l.state = .scanning → ∀ m c, l.running = some { lane := m, stage := .adopting c } → c.Law l.capacity)

/-- R126, R27 and R144: the post queue holds at most 4 entries, the logged-granule table at most 1,024 addresses, and a lane's
queue at most 6 entries. -/
def Chip.WithinCapacity (s : Chip) : Prop :=
  s.path.postQueue.length ≤ 4 ∧ s.log.table.length ≤ 1024 ∧ ∀ l, (s.lane l).queue.length ≤ 6

/-- R106, as it stands between commands: no write that waits for its grant lies in a NOT COPIED source granule. The other
clauses are what this rests on: the write that triggered the copy-ahead in progress lies in the granule being copied, an
access that waits as an ORDERED READ is a read, a CONSISTENT copy has at most 4,096 spans (R98), and only an active copy has a
frontier transfer. -/
def Chip.WriteCheckLaw (s : Chip) : Prop :=
  (∀ r ∈ s.arbiter.requests, r.access.write = true → s.copy.notCopied r.access.addr = none) ∧
  (∀ a r, s.copy.ahead = some a → a.trigger = some r → r.access.addr.toNat / 64 = s.copy.source.toNat / 64 + a.entry) ∧
  (∀ u, s.path.upstream = some u → u.wait = .orderedRead → u.access.write = false) ∧
  (s.copy.mode = .consistent → s.copy.spans ≤ 4096) ∧
  (s.copy.front.isSome = true → s.copy.active = true)

end Sys2Proof.Machine
end

