-- ==== Sys2Proof/Certificates/Slice0/Obligations.lean ====
section
/-! DEFINITION. The statements for the provers. Each docstring names the rules of spec/ its statement comes from. -/

open Sys2Proof Sys2Proof.Machine

/-! ## The machine, reset and start-up -/

/-- Right after a pin reset every block holds the value the manual gives it, and start-up's status word write waits for the Memory
Port. The model's choices: the straps read 0 in `State.reset` (log entry 5), and no command waits. -/
def Obligations.ResetValues : Prop :=
  State.reset.pending = [] ∧ State.reset.chip.BlocksAtReset ∧ State.reset.chip.path.AtReset .pin 0#32 ∧
  State.reset.chip.arbiter.inFlight = none ∧
  ∃ r, State.reset.chip.arbiter.requests = [r] ∧ IsStatusWrite r .startUp 0#32 1#8 1#8

/-- One step takes the command at the front of the queue and runs it with the queue's rest. -/
def Obligations.StepRunsFront : Prop :=
  ∀ (c : Instr) (rest : List Instr) (s : Machine.State), s.pending = c :: rest →
    step s = exec c { s with pending := rest }

/-- PIN_RESET, in any state (R142, R139): every block takes its pin-reset value, the page base is PAGE × 65,536, and the status word
with STATE READY and CAUSE PIN requests the port. -/
def Obligations.PinReset : Prop :=
  ∀ (page : Half) (s : Machine.State), ∃ t r, exec (.pinReset page) s = .next { s with chip := t } ∧
    t.BlocksAtReset ∧ t.path.AtReset .pin (BitVec.ofNat 32 (page.toNat * 65536)) ∧
    t.arbiter.inFlight = none ∧ t.arbiter.retryCount = 0 ∧ t.arbiter.requests = [r] ∧
    IsStatusWrite r .startUp (BitVec.ofNat 32 (page.toNat * 65536)) 1#8 1#8

/-- RESET_PART and SOFT_RESET_PORT_IDLE (R161, R143): a submit word with request code 2 is answered DONE, part status becomes RESETTING, every
other block takes its reset values, no request waits, and a transaction already issued stays, its answer to be discarded. The
settings, the post queue and the page base stay until the port is idle: then the Path Controller takes its soft-reset values
with the page base kept, and the status word with CAUSE SOFT is issued through the write check.
The mark on that transaction is the model's (log entry 21). -/
def Obligations.SoftReset : Prop :=
  (∀ (s : Machine.State) (f : ForwardPoint) (l : Lane) (v : Word) (ws : List PageWord),
    s.chip.WordNext f (.submit l) v ws → v.toNat % 32 = 2 →
    ∃ t, exec .resetPart s = .next { s with chip := t } ∧ t.BlocksAtReset ∧
      t.path = { s.chip.path with
        status := .resetting, upstream := none, holdTimer := none, response := some .done, barrier := none
        watches := { mark := none, rollback := none, attach := none, adopt := none }
        forward := none, statusOwed := [], statusBusy := false } ∧
      t.arbiter = { requests := [], retryCount := s.chip.arbiter.retryCount
                    inFlight := s.chip.arbiter.inFlight.map fun r => { r with stale := true } } ∧
      t.freeIndex = s.chip.freeIndex) ∧
  (∀ s : Machine.State, s.chip.path.status = .resetting → s.chip.arbiter.inFlight = none →
    ∃ t r, exec .softResetPortIdle s = .next { s with chip := t } ∧
      IsStatusWrite r .startUp s.chip.path.pageBase 1#8 2#8 ∧
      WriteIssued { s.chip with arbiter := { requests := [], inFlight := none, retryCount := 0 } } t r ∧
      t.path.AtReset .soft s.chip.path.pageBase ∧
      t = { s.chip with path := t.path, arbiter := t.arbiter, copy := t.copy })

/-- START_UP (R140): the final answer to the start-up status word, DONE or FAULT, makes part status READY, and an access that waits
in STARTING is classified. -/
def Obligations.StartUpEnds : Prop :=
  ∀ (a : FinalAnswer) (s : Machine.State), s.chip.InFlight .startUp →
    ∃ t, exec (.startUp a) s = .next { s with chip := t } ∧
      ((∀ u, s.chip.path.upstream = some u → u.wait ≠ .starting) →
        t = { s.chip with arbiter := s.chip.portFree, path := { s.chip.path with status := .ready } }) ∧
      (∀ u, s.chip.path.upstream = some u → u.wait = .starting →
        Classified { s.chip with arbiter := s.chip.portFree, path := { s.chip.path with status := .ready } } t
          u.access u.toPost)

/-- STATUS_WORD_WRITE and STATUS_WORD_WRITE_ANSWER (R141): the oldest report's word is issued at page + 0x20 once no other is being
written, and its final answer, DONE or FAULT, ends the write and changes nothing else. -/
def Obligations.StatusWord : Prop :=
  (∀ (s : Machine.State) (st : PartStatus) (rest : List PartStatus) (b : Byte),
    s.chip.path.statusOwed = [st] ++ rest → s.chip.path.statusBusy = false →
    (st = .ready ∧ b = 1#8 ∨ st = .attentionFault ∧ b = 2#8) →
    ∃ t r, exec .statusWordWrite s = .next { s with chip := t } ∧
      (s.chip.path.cause = .pin → IsStatusWrite r .status s.chip.path.pageBase b 1#8) ∧
      (s.chip.path.cause = .soft → IsStatusWrite r .status s.chip.path.pageBase b 2#8) ∧
      WriteIssued s.chip t r ∧
      t = { s.chip with path := { s.chip.path with statusOwed := rest, statusBusy := true }
                        arbiter := t.arbiter, copy := t.copy }) ∧
  (∀ (a : FinalAnswer) (s : Machine.State), s.chip.InFlight .status →
    exec (.statusWordWriteAnswer a) s = .next { s with chip := { s.chip with
      arbiter := s.chip.portFree, path := { s.chip.path with statusBusy := false } } })

/-! ## The Processor Port -/

/-- HOST_ACCESS_ARRIVAL (R123, R125, R132, R140): a single or a line with no access outstanding starts the hold-limit timer and is
classified by part status and then by steps 2 to 5; an access of neither shape is no access of the port, and the model stops by
name there.
The stop is the model's choice (log entry 15). -/
def Obligations.ArrivalClassified : Prop :=
  (∀ (a : Access) (s : Machine.State), a.wf = true → s.chip.path.upstream = none →
    ∃ t, exec (.hostAccessArrival a) s = .next { s with chip := t } ∧
      ∀ s₁ : Chip, s₁ = { s.chip with path := { s.chip.path with
        holdTimer := if s.chip.path.holdLimit = 0#16 then none else some s.chip.path.holdLimit, response := none } } →
      (s.chip.path.status = .starting → t = s₁.waitsIn a .starting false) ∧
      (s.chip.path.status = .resetting → t = s₁.answeredWith .retry) ∧
      (s.chip.path.status = .ready ∨ s.chip.path.status = .attentionFault → Classified s₁ t a false)) ∧
  (∀ (a : Access) (s : Machine.State), a.wf = false → exec (.hostAccessArrival a) s = .fault .malformedAccess)

/-- HOLD_LIMIT_EXPIRY (R132): an access that is HELD, in QUEUE FULL, or an ORDERED READ not yet issued, is answered RETRY and dropped;
an ORDERED READ at the forward point leaves it and its request is withdrawn. -/
def Obligations.HoldLimitExpiry : Prop :=
  ∀ (s : Machine.State) (u : Upstream) (limit : Half), s.chip.path.holdTimer = some limit →
    s.chip.path.upstream = some u → (u.wait = .held ∨ u.wait = .queueFull ∨ u.wait = .orderedRead) →
    (∀ f, u.wait = .orderedRead → s.chip.path.forward = some f → f.access.write = false →
      ∀ s₁ : Chip, s₁ = { s.chip with
        path := { s.chip.path with forward := none }
        arbiter := { s.chip.arbiter with requests := s.chip.arbiter.requests.filter fun r => r.owner != .forwardRead } } →
      exec .holdLimitExpiry s = .next { s with chip := s₁.answeredWith .retry }) ∧
    ((u.wait = .orderedRead → ∀ f, s.chip.path.forward = some f → f.access.write = true) →
      exec .holdLimitExpiry s = .next { s with chip := s.chip.answeredWith .retry })

/-- FORWARD_READ (R127): with every write accepted before it issued, the ORDERED READ is looked up: outside a RESTORING region it takes
the forward point and requests the port at class 1; inside one it is held or answered RETRY. -/
def Obligations.ForwardRead : Prop :=
  ∀ (s : Machine.State) (u : Upstream), s.chip.path.forward = none → s.chip.path.postQueue = [] →
    s.chip.path.upstream = some u → u.wait = .orderedRead →
    (s.chip.holdApplies u.access.addr = false →
      exec .forwardRead s = .next { s with chip := { s.chip with
        path := { s.chip.path with forward := some { access := u.access, accepted := u.accepted, posted := false
                                                     stage := .port, image := .absent, words := [] } }
        arbiter := { s.chip.arbiter with requests := s.chip.arbiter.requests ++
          [{ owner := .forwardRead, cls := .path, access := u.access, stale := false }] } } }) ∧
    (s.chip.holdApplies u.access.addr = true →
      (s.chip.path.restoreResponse = .hold →
        exec .forwardRead s = .next { s with chip := s.chip.waitsIn u.access .held false }) ∧
      (s.chip.path.restoreResponse = .retry →
        exec .forwardRead s = .next { s with chip := s.chip.answeredWith .retry }))

/-- FORWARD_WRITE (R126, R128, R23): the oldest write takes the free forward point. Where capture applies a capture request is made with
its granule and region; elsewhere the write is issued through the write check. A write accepted at or after a MARK's barrier
waits.
That the command then changes nothing is the model's choice (log entry 11). -/
def Obligations.ForwardWrite : Prop :=
  ∀ (s : Machine.State) (a : Access) (n : Nat) (posted : Bool), s.chip.path.forward = none →
    s.chip.OldestWrite a n posted →
    ((∃ b, s.chip.path.barrier = some b ∧ b ≤ n) → exec .forwardWrite s = .next s) ∧
    ((∀ b, s.chip.path.barrier = some b → n < b) →
      ∃ t, exec .forwardWrite s = .next { s with chip := t } ∧
        ∀ s₁ : ForwardStage → Chip, s₁ = (fun st => { s.chip with path := { s.chip.path with
          forward := some { access := a, accepted := n, posted := posted, stage := st, image := .absent, words := [] } } }) →
        (∀ k r, s.chip.lookup a.addr = some (k, r) → s.chip.captureApplies r = true →
          t = { s₁ .capture with log := { s.chip.log with requests := s.chip.log.requests ++
            [{ requester := .host, granule := granuleOf a.addr, region := k, cls := .path, stalled := false }] } }) ∧
        ((∀ k r, s.chip.lookup a.addr = some (k, r) → s.chip.captureApplies r = false) →
          t = { s₁ .port with arbiter := t.arbiter, copy := t.copy } ∧
          WriteIssued (s₁ .port) t { owner := .forwardWrite posted, cls := .path, access := a, stale := false }))


/-- FORWARDED_WRITE_ANSWER for a posted write (R129, R169): DONE and FAULT take its entry out of the post queue, and a write that waits
in QUEUE FULL is classified afresh; on FAULT a WRITE LOST record with the write's address is handed, and holds the forward point
while the Path Controller's room is taken. -/
def Obligations.PostedWriteAnswer : Prop :=
  ∀ (s : Machine.State) (f : ForwardPoint), s.chip.InFlight (.forwardWrite true) →
    s.chip.path.forward = some f → f.posted = true →
    ∀ s₁ : Option ForwardPoint → Chip, s₁ = (fun p => { s.chip with
      arbiter := s.chip.portFree
      path := { s.chip.path with
        forward := p, postQueue := s.chip.path.postQueue.filter fun e => e.accepted != f.accepted } }) →
    (∀ d, ∃ t, exec (.forwardedWriteAnswer (.done d)) s = .next { s with chip := t } ∧ QueueFullServed (s₁ none) t) ∧
    (∃ u t, exec (.forwardedWriteAnswer .fault) s = .next { s with chip := t } ∧
      QueueFullServed (s₁ (some { f with stage := .handing })) u ∧
      ∀ lost : AttnRecord, lost = { kind := .writeLost, lane := 0xFF#8, outcome := 0#16, tag := 0#32,
                                    subject := f.access.addr } →
      (s.chip.attention.configured = false → t = { u with path := { u.path with forward := none } }) ∧
      (s.chip.attention.configured = true →
        (s.chip.attention.roomTaken .path = false →
          t = Chip.withPost { u with path := { u.path with forward := none } } .path lost) ∧
        (s.chip.attention.roomTaken .path = true → t = u.withHanding .path lost .pathFree)))

/-- ORDERED_READ_ANSWER, and FORWARDED_WRITE_ANSWER for an ORDERED WRITE (R127, R129, R130): memory's answer is passed upstream and the access
leaves the forward point; a control-page write answered DONE has its recognised words examined first. -/
def Obligations.OrderedAnswers : Prop :=
  (∀ (s : Machine.State), s.chip.InFlight .forwardRead →
    ∀ s₁ : Response → Machine.State, s₁ = (fun r => { s with chip := Chip.answeredWith { s.chip with
      arbiter := s.chip.portFree, path := { s.chip.path with forward := none } } r }) →
    (∀ d, exec (.orderedReadAnswer (.done d)) s = .next (s₁ (.data d))) ∧
    exec (.orderedReadAnswer .fault) s = .next (s₁ .fault) ∧
    exec (.orderedReadAnswer .retry) s = .next (s₁ .retry)) ∧
  (∀ (s : Machine.State) (f : ForwardPoint), s.chip.InFlight (.forwardWrite false) →
    s.chip.path.forward = some f → f.posted = false →
    ∀ s₁ : Chip, s₁ = { s.chip with arbiter := s.chip.portFree } →
    ∀ ended : Response → Chip, ended = (fun r => { s₁.wordsLeft f [] with
      path := { (s₁.wordsLeft f []).path with response := some r } }) →
    exec (.forwardedWriteAnswer .fault) s = .next { s with chip := ended .fault } ∧
    exec (.forwardedWriteAnswer .retry) s = .next { s with chip := ended .retry } ∧
    (∀ d, s.chip.onPage f.access.addr = false →
      exec (.forwardedWriteAnswer (.done d)) s = .next { s with chip := ended .done }) ∧
    (∀ d, s.chip.onPage f.access.addr = true →
      ∃ t, exec (.forwardedWriteAnswer (.done d)) s = .next { s with chip := t } ∧
        WordsExamined s₁ t f (pageWords s.chip.path.pageBase f.access)))

/-! ## The recognised words of the control page -/

/-- CONFIGURE_PATH (R138, R176): with A below 4 and B at most 65,535, POST is bit 0 of A, RESTORE RESPONSE is RETRY exactly when bit 1 of
A is set, the hold limit is B, and the job ends DONE; otherwise it ends BAD OPERAND and the settings stay. The result is 0. -/
def Obligations.ConfigurePath : Prop :=
  ∀ (s : Machine.State) (l : Lane) (addr : Word) (d : Descriptor), s.chip.HasJob l .run addr d → d.code = 1#8 →
    ∃ t, exec (.configurePath l) s = .next { s with chip := t } ∧
      (d.a.toNat < 4 → d.b.toNat ≤ 65535 →
        HandsBack s.chip t l addr d .done 0#32 ∧
        SameBesideHandBack { s.chip with path := { s.chip.path with
          post := d.a.getLsbD 0, restoreResponse := if d.a.getLsbD 1 then .retry else .hold
          holdLimit := BitVec.ofNat 16 d.b.toNat } } t) ∧
      ((4 ≤ d.a.toNat ∨ 65535 < d.b.toNat) →
        HandsBack s.chip t l addr d .badOperand 0#32 ∧ SameBesideHandBack s.chip t) ∧
      t.regions = s.chip.regions ∧ t.log = s.chip.log

/-- SUBMIT (R147, R148, R179): request code 0 takes the word. Descriptor address 0 posts MAILBOX FAULT; with six entries waiting the
descriptor is answered QUEUE FULL by a direct outcome write; otherwise it joins the queue, and an IDLE lane takes its oldest
entry into FETCH. -/
def Obligations.Submit : Prop :=
  ∀ (s : Machine.State) (f : ForwardPoint) (l : Lane) (v : Word) (ws : List PageWord),
    s.chip.WordNext f (.submit l) v ws → v.toNat % 32 = 0 →
    ∃ t, exec .submit s = .next { s with chip := t } ∧
      (v = 0#32 → MailboxFaulted s.chip t l f ws) ∧
      (v ≠ 0#32 → 6 ≤ (s.chip.lane l).queue.length →
        t.lanes.take = some { lane := l, outcome := .queueFull, owed := [v], finishAfter := false } ∧
        AccessMade s.chip t { owner := .laneDirect l, cls := .lane, access := directAccess v .queueFull, stale := false } ∧
        (∀ m, t.lane m = s.chip.lane m) ∧ SameBeyondLanes s.chip t ∧ t.path = (s.chip.withWords f ws).path ∧
        t.attention = s.chip.attention) ∧
      (v ≠ 0#32 → (s.chip.lane l).queue.length < 6 →
        ∃ u, WordsExamined u t f ws ∧ SameBesideHandBack (s.chip.withWords f ws) u ∧ u.regions = s.chip.regions ∧
          u.log = s.chip.log ∧
          ((s.chip.lane l).state ≠ .idle → u.waitingAccesses = s.chip.waitingAccesses ∧
            LaneSet s.chip u l { s.chip.lane l with queue := (s.chip.lane l).queue ++ [v] }) ∧
          ((s.chip.lane l).state = .idle → ∀ a rest, (s.chip.lane l).queue ++ [v] = a :: rest →
            AccessMade s.chip u { owner := .laneFetch l, cls := .lane, access := readLine a, stale := false } ∧
            LaneSet s.chip u l { state := .fetch, queue := rest, cutPending := false
                                 current := some { addr := a, desc := none, outcome := none, result := 0#32 } }))

/-- FLUSH (R159): request code 1 empties the lane's queue, sets CUT PENDING on a lane with a current job, and withdraws a job that waits
at an arbiter; each entry removed is owed CANCELLED by a direct outcome write, oldest first, and with none owed a withdrawn job
enters FINISH with CANCELLED at once. -/
def Obligations.Flush : Prop :=
  ∀ (s : Machine.State) (f : ForwardPoint) (l : Lane) (v : Word) (ws : List PageWord),
    s.chip.WordNext f (.submit l) v ws → v.toNat % 32 = 1 →
    ∃ t, exec .flush s = .next { s with chip := t } ∧
      ∀ waits : Bool, waits = ((s.chip.lane l).state == .wait) →
      ∀ s₁ : Chip, s₁ = { s.chip.withWords f ws with
          log := { s.chip.log with
            waiting := if waits then s.chip.log.waiting.filter (· != l) else s.chip.log.waiting }
          copy := { s.chip.copy with
            waiting := if waits then s.chip.copy.waiting.filter (· != l) else s.chip.copy.waiting } } →
      ∀ r : LaneRec, r = { s.chip.lane l with
          queue := [], cutPending := (s.chip.lane l).cutPending || (s.chip.lane l).state != .idle } →
      (∀ a rest, (s.chip.lane l).queue = a :: rest →
        t.lanes.take = some { lane := l, outcome := .cancelled, owed := a :: rest, finishAfter := waits } ∧
        LaneSet s.chip t l r ∧ SameBeyondLanes s₁ t ∧ t.path = s₁.path ∧ t.attention = s₁.attention ∧
        AccessMade s.chip t { owner := .laneDirect l, cls := .lane, access := directAccess a .cancelled, stale := false }) ∧
      ((s.chip.lane l).queue = [] → waits = false →
        ∃ u, WordsExamined u t f ws ∧ SameBesideHandBack s₁ u ∧ u.regions = s₁.regions ∧ u.log = s₁.log ∧
          u.waitingAccesses = s.chip.waitingAccesses ∧ LaneSet s.chip u l r) ∧
      ((s.chip.lane l).queue = [] → waits = true → ∀ addr d, s.chip.HasJob l .wait addr d →
        ∃ u, WordsExamined u t f ws ∧ SameBesideHandBack s₁ u ∧ u.regions = s₁.regions ∧ u.log = s₁.log ∧
          LaneSet s.chip u l { r with
            state := .finish
            current := some { addr := addr, desc := some d, outcome := some .cancelled, result := 0#32 } } ∧
          AccessMade s.chip u
            { owner := .laneOutcome l, cls := .lane, access := outcomeAccess addr d .cancelled 0#32, stale := false })

/-- NO_REQUEST (R146): a submit word with request code 3 to 31 posts MAILBOX FAULT from its lane, and the lane is unchanged. -/
def Obligations.NoRequest : Prop :=
  ∀ (s : Machine.State) (f : ForwardPoint) (l : Lane) (v : Word) (ws : List PageWord),
    s.chip.WordNext f (.submit l) v ws → 3 ≤ v.toNat % 32 →
    ∃ t, exec .noRequest s = .next { s with chip := t } ∧ MailboxFaulted s.chip t l f ws ∧
      ∀ m, t.lane m = s.chip.lane m

/-- CONSUME_WORD (R172, R169): with the ring unconfigured the value is ignored; a valid index becomes the consume index and clears
overrun when it advances; an invalid one posts MAILBOX FAULT with SUBJECT page + 0x18. -/
def Obligations.ConsumeWord : Prop :=
  ∀ (s : Machine.State) (f : ForwardPoint) (v : Word) (ws : List PageWord), s.chip.WordNext f .consume v ws →
    ∃ t, exec .consumeWord s = .next { s with chip := t } ∧
      ∀ c : Half, c = BitVec.ofNat 16 (v.toNat % 65536) →
      ∀ valid : Prop, valid = ((s.chip.attention.produce - c).toNat ≤ s.chip.attention.occupancy) →
      ∀ record : AttnRecord, record = mailboxRecord 0xFF#8 (s.chip.path.pageBase + 0x18#32) →
      (s.chip.attention.configured = false → WordsExamined (s.chip.withWords f ws) t f ws) ∧
      (s.chip.attention.configured = true →
        (valid → WordsExamined { s.chip.withWords f ws with attention := { s.chip.attention with
            consume := c, overrun := if c = s.chip.attention.consume then s.chip.attention.overrun else none } } t f ws) ∧
        (¬valid →
          (s.chip.attention.roomTaken .attention = true →
            t = (s.chip.withWords { f with stage := .handing } ws).withHanding .attention record .pathWord) ∧
          (s.chip.attention.roomTaken .attention = false →
            WordsExamined ((s.chip.withWords { f with stage := .handing } ws).withPost .attention record) t
              { f with stage := .handing } ws)))

/-! ## The Memory Port -/

/-- MEMORY_PORT_GRANT (R36, R91, R135): with the port free and no soft reset running, a waiting request of the highest class is chosen, the
status word write first of class 1 and otherwise the oldest of its class. A write of the Copy Engine or of a lane whose granule the
ring guard claims by then is not issued: the copy ends DEST FAULT, and the lane's write counts as answered FAULT. Any other
request is granted; every other access goes on waiting; and the owner learns of the grant (R127, R131). The Log Unit is then
unchanged but for a rollback's drain, which waits no more for the write of the frontier or of the copy-ahead at work that is
granted (R60).
The oldest of a class is the model's reading (log entry 23), the two bits of the drain are the model's (log entry 29), and the
guard is met at the grant by log entries 18 and 36. -/
def Obligations.PortGrant : Prop :=
  ∀ s : Machine.State, s.chip.arbiter.inFlight = none → s.chip.path.status ≠ .resetting → s.chip.arbiter.requests ≠ [] →
    (∀ q ∈ s.chip.arbiter.requests, q.isStatusWord → q.cls = .path) →
    ∃ t r older newer, exec .memoryPortGrant s = .next { s with chip := t } ∧
      s.chip.arbiter.requests = older ++ r :: newer ∧
      (∀ q ∈ s.chip.arbiter.requests, r.cls.number ≤ q.cls.number) ∧
      ((∃ q ∈ s.chip.arbiter.requests, q.isStatusWord) → r.isStatusWord) ∧
      (∀ q ∈ older, q.cls = r.cls → r.isStatusWord ∧ ¬q.isStatusWord) ∧
      ∀ lane copying stopped : Prop, lane = (∃ l, r.owner = .laneOutcome l ∨ r.owner = .laneDirect l) →
        copying = (r.owner = .frontier ∨ r.owner = .copyAhead) →
        stopped = ((lane ∨ copying) ∧ r.access.write = true ∧ s.chip.ringGuard r.access.addr = true) →
      (stopped → ∀ s₁ : Chip, s₁ = { s.chip with arbiter := { s.chip.arbiter with requests := older ++ newer } } →
        (lane → t = { s₁ with lanes := { s.chip.lanes with presented := false, refused := some r } }) ∧
        (copying → r.stale = true → t = s₁) ∧
        (r.owner = .frontier → r.stale = false → FrontFailed s₁ t .destFault) ∧
        (r.owner = .copyAhead → r.stale = false → AheadFailed s₁ t .destFault)) ∧
      (¬stopped →
        t.arbiter.inFlight = some r ∧ t.arbiter.retryCount = 0 ∧
        (r :: t.waitingAccesses).Perm s.chip.waitingAccesses ∧
        t.regions = s.chip.regions ∧ t.attention = s.chip.attention ∧ t.freeIndex = s.chip.freeIndex ∧
        (∀ l, t.lane l = s.chip.lane l) ∧ t.lanes.take = s.chip.lanes.take ∧
        t.copy = { s.chip.copy with queue := t.copy.queue } ∧
        (r.access.write = false ∨ ¬copying → t.log = s.chip.log) ∧
        ((∀ l c, s.chip.log.running ≠ some { lane := l, stage := .rolling c }) → t.log = s.chip.log) ∧
        (∀ l c, s.chip.log.running = some { lane := l, stage := .rolling c } → r.access.write = true →
          (r.owner = .frontier → t.log = { s.chip.log with running := some { lane := l, stage := .rolling { c with
            drainFrontier := c.drainFrontier && r.stale } } }) ∧
          (r.owner = .copyAhead → t.log = { s.chip.log with running := some { lane := l, stage := .rolling { c with
            drainAhead := c.drainAhead && r.stale } } })) ∧
        (r.owner = .forwardRead → t.path = { s.chip.path with
          upstream := s.chip.path.upstream.map fun u => { u with wait := .issued }, holdTimer := none }) ∧
        (∀ f, r.owner = .forwardWrite true → s.chip.path.forward = some f → s.chip.onPage f.access.addr = false →
          t.path = (s.chip.reportIssued f.accepted).path) ∧
        (∀ f, r.owner = .forwardWrite false → s.chip.path.forward = some f →
          (s.chip.onPage f.access.addr = true → t.path = s.chip.issueUpstream.path) ∧
          (s.chip.onPage f.access.addr = false → t.path = (s.chip.issueUpstream.reportIssued f.accepted).path)) ∧
        (r.owner ≠ .forwardRead → (∀ p, r.owner ≠ .forwardWrite p) → t.path = s.chip.path))

/-- RETRY_REISSUE and RETRY_LIMIT_EXHAUSTED (R133, R134): a RETRY to an own access or a posted write is counted and the access issued
again while the count is below 16, but ends the transaction during a soft reset; at a count of 16 the transaction ends, and its
owner acts as on FAULT. The RETRY of an ORDERED access is not the arbiter's.
The model's choices: the exhausting answer is the FAULT its owner acts on (log entry 34), and what is not due changes nothing
(log entry 11). -/
def Obligations.RetryRule : Prop :=
  ∀ (s : Machine.State) (r : PortRequest), s.chip.arbiter.inFlight = some r →
    (∀ c, r.owner.finalAnswer .fault = some c →
      (s.chip.path.status = .resetting →
        exec .retryReissue s = .next { s with chip := { s.chip with arbiter := s.chip.portFree } }) ∧
      (s.chip.path.status ≠ .resetting → s.chip.arbiter.retryCount < 16 →
        exec .retryReissue s = .next { s with chip := { s.chip with
          arbiter := { s.chip.arbiter with retryCount := s.chip.arbiter.retryCount + 1 } } }) ∧
      (s.chip.arbiter.retryCount = 16 →
        (r.stale = true → exec .retryLimitExhausted s = .next { s with chip := { s.chip with arbiter := s.chip.portFree } }) ∧
        (r.stale = false → (∀ f, r.owner = .forwardWrite true → s.chip.path.forward = some f → f.posted = true) →
          ∃ t, exec .retryLimitExhausted s = .next { s with chip := t } ∧ exec c s = .next { s with chip := t }))) ∧
    (r.owner.finalAnswer .fault = none → exec .retryReissue s = .next s ∧ exec .retryLimitExhausted s = .next s)

/-! ## Tracked regions -/

/-- DEFINE_REGION (R3, R6, R7): the entry number and then the four checks in their order decide the outcome; when all pass the entry becomes
an IDLE region with BASE and LENGTH, and every other entry stays. The result is 0.
The attention ring that counts for OVERLAP is the configured one, and also that of an accepted CONFIGURE ATTENTION which still
settles a posting (log entry 6). -/
def Obligations.DefineRegion : Prop :=
  ∀ (s : Machine.State) (l : Lane) (addr : Word) (d : Descriptor), s.chip.HasJob l .run addr d → d.code = 3#8 →
    ∃ t, exec (.defineRegion l) s = .next { s with chip := t } ∧ t.log = s.chip.log ∧ SameBesideHandBack s.chip t ∧
      ∀ ends : JobOutcome → Prop, ends = (fun o => HandsBack s.chip t l addr d o 0#32 ∧ (o ≠ .done → t.regions = s.chip.regions)) →
      (15 < d.a.toNat → ends .badOperand) ∧
      ∀ n : Fin 16, d.a.toNat = n.val →
      (s.chip.regions[n].state ≠ .free → ends .regionState) ∧
      (s.chip.regions[n].state = .free → d.b.toNat % 64 ≠ 0 → ends .alignment) ∧
      (s.chip.regions[n].state = .free → d.b.toNat % 64 = 0 →
        (d.c.toNat = 0 ∨ 262144 < d.c.toNat ∨ 0xFFFFFFFF < d.b.toNat + 64 * d.c.toNat - 1 → ends .badOperand) ∧
        (0 < d.c.toNat → d.c.toNat ≤ 262144 → d.b.toNat + 64 * d.c.toNat - 1 ≤ 0xFFFFFFFF →
          ∀ meets : Prop, meets = (s.chip.regionOverlaps d.b.toNat (64 * d.c.toNat) = true ∨
            s.chip.pageOverlaps d.b.toNat (64 * d.c.toNat) = true ∨
            s.chip.logRingOverlaps d.b.toNat (64 * d.c.toNat) = true ∨
            s.chip.attnRingOverlaps d.b.toNat (64 * d.c.toNat) = true) →
          (meets → ends .overlap) ∧
          (¬meets → ends .done ∧ t.regions = s.chip.regions.set n
            { state := .idle, base := d.b, length := d.c.toNat, resume := s.chip.regions[n].resume })))

/-- START_CAPTURE and STOP_CAPTURE (R6, R8, R9): the entry number, the entry's state and, for an IDLE entry to be started, the log's
state decide the outcome and the entry's new state. Nothing else of the table changes, and the result is 0. -/
def Obligations.StartStopCapture : Prop :=
  ∀ (s : Machine.State) (l : Lane) (addr : Word) (d : Descriptor), s.chip.HasJob l .run addr d →
    ∀ ends : Chip → JobOutcome → Vector Region 16 → Prop,
      ends = (fun t o regions => HandsBack s.chip t l addr d o 0#32 ∧ t.regions = regions ∧ t.log = s.chip.log ∧
        SameBesideHandBack s.chip t) →
    (d.code = 4#8 → ∃ t, exec (.startCapture l) s = .next { s with chip := t } ∧
      (15 < d.a.toNat → ends t .badOperand s.chip.regions) ∧
      ∀ n : Fin 16, d.a.toNat = n.val → ∀ r, r = s.chip.regions[n] →
        (r.state = .free ∨ r.state = .restoring ∨ r.state = .faulted → ends t .regionState s.chip.regions) ∧
        (r.state = .capturing → ends t .done s.chip.regions) ∧
        (r.state = .idle → s.chip.log.state ≠ .attached → ends t .logState s.chip.regions) ∧
        (r.state = .idle → s.chip.log.state = .attached →
          ends t .done (s.chip.regions.set n { r with state := .capturing }))) ∧
    (d.code = 5#8 → ∃ t, exec (.stopCapture l) s = .next { s with chip := t } ∧
      (15 < d.a.toNat → ends t .badOperand s.chip.regions) ∧
      ∀ n : Fin 16, d.a.toNat = n.val → ∀ r, r = s.chip.regions[n] →
        (r.state = .free ∨ r.state = .restoring ∨ r.state = .faulted → ends t .regionState s.chip.regions) ∧
        (r.state = .idle → ends t .done s.chip.regions) ∧
        (r.state = .capturing → ends t .done (s.chip.regions.set n { r with state := .idle })))

/-- CLEAR_FAULT (R10): a FAULTED region becomes IDLE with outcome DONE; any other state gives REGION STATE; no access but the outcome write
is made; and a FAULTED region counts in the overlap checks. -/
def Obligations.ClearFault : Prop :=
  (∀ (s : Machine.State) (l : Lane) (addr : Word) (d : Descriptor), s.chip.HasJob l .run addr d → d.code = 6#8 →
    ∃ t, exec (.clearFault l) s = .next { s with chip := t } ∧ t.log = s.chip.log ∧ SameBesideHandBack s.chip t ∧
      (15 < d.a.toNat → HandsBack s.chip t l addr d .badOperand 0#32 ∧ t.regions = s.chip.regions) ∧
      ∀ n : Fin 16, d.a.toNat = n.val →
      (s.chip.regions[n].state = .faulted → HandsBack s.chip t l addr d .done 0#32 ∧
        t.regions = s.chip.regions.set n { s.chip.regions[n] with state := .idle }) ∧
      (s.chip.regions[n].state ≠ .faulted → HandsBack s.chip t l addr d .regionState 0#32 ∧ t.regions = s.chip.regions)) ∧
  (∀ (c : Chip) (n : Fin 16) (base len : Nat), c.regions[n].state = .faulted →
    overlaps c.regions[n].base.toNat (64 * c.regions[n].length) base len = true → c.regionOverlaps base len = true)

/-- DELETE_REGION (R6, R11): an IDLE or FAULTED entry becomes FREE with its other fields as they were, unless an ATTACHED log holds
records. The result is 0. -/
def Obligations.DeleteRegion : Prop :=
  ∀ (s : Machine.State) (l : Lane) (addr : Word) (d : Descriptor), s.chip.HasJob l .run addr d → d.code = 7#8 →
    ∃ t, exec (.deleteRegion l) s = .next { s with chip := t } ∧ t.log = s.chip.log ∧ SameBesideHandBack s.chip t ∧
      (15 < d.a.toNat → HandsBack s.chip t l addr d .badOperand 0#32 ∧ t.regions = s.chip.regions) ∧
      ∀ n : Fin 16, d.a.toNat = n.val → ∀ r, r = s.chip.regions[n] →
      (r.state = .free ∨ r.state = .capturing ∨ r.state = .restoring →
        HandsBack s.chip t l addr d .regionState 0#32 ∧ t.regions = s.chip.regions) ∧
      (r.state = .idle ∨ r.state = .faulted →
        (s.chip.log.state = .attached → 0 < s.chip.log.count →
          HandsBack s.chip t l addr d .recordsHeld 0#32 ∧ t.regions = s.chip.regions) ∧
        ((s.chip.log.state = .attached → s.chip.log.count = 0) →
          HandsBack s.chip t l addr d .done 0#32 ∧ t.regions = s.chip.regions.set n { r with state := .free }))

/-! ## Captures -/

/-- CAPTURE_REQUEST (R24, R26, R29, R30, R33): with no capture in progress the oldest request not yet taken is taken. It is answered go
without a record where no record is due; it starts a capture at tail with its first read; a full ring breaks the log or fails the
rollback, and the request is then answered go, or makes the request wait; and during a stall it joins those that wait.
A table hit made while a capture was in progress is answered ahead of the requests that wait for space too (log entry 45). -/
def Obligations.CaptureRequestTaken : Prop :=
  ∀ (s : Machine.State) (older newer : List CaptureRequest) (r : CaptureRequest), s.chip.log.capture = none →
    s.chip.log.requests = older ++ r :: newer → (∀ q ∈ older, q.stalled = true) → r.stalled = false →
    ∃ t, exec .captureRequest s = .next { s with chip := t } ∧
      ∀ s₁ : Chip, s₁ = { s.chip with log := { s.chip.log with requests := older ++ newer } } →
      ∀ hit : Prop, hit = (r.granule ∈ s.chip.log.table) →
      ∀ taking : Prop, taking = (s.chip.log.state = .attached ∨ s.chip.log.draining = true) →
      ∀ space : Prop, space = (s.chip.log.nextSeq ≠ 0xFFFFFFFF#32 ∧ s.chip.log.count ≠ s.chip.log.capacity) →
      (¬taking ∨ hit → GoAnswered s₁ t r.requester) ∧
      (taking → ¬hit → (s.chip.log.state = .attached → older = [] ∧ ∀ q ∈ newer, q.stalled = false) →
        (space → ∀ c : Capture, c = { request := r, slot := s.chip.log.tail, sequence := s.chip.log.nextSeq
                                      previous := s.chip.log.lastSeq, checkpoint := s.chip.log.newestNumber
                                      first := 0#256, second := 0#256, step := .readFirst, answer := true } →
          t = { s₁ with
          log := { s₁.log with capture := some c }
          arbiter := { s.chip.arbiter with requests := s.chip.arbiter.requests ++
            [{ owner := .capture, cls := r.cls, access := readLine r.granule, stale := false }] } }) ∧
        (¬space → s.chip.log.state = .attached →
          (s.chip.log.nextSeq = 0xFFFFFFFF#32 ∨ s.chip.log.policy = .break →
            ∃ u, LogBroke s₁ u .overflow ∧ GoAnswered u t r.requester) ∧
          (s.chip.log.nextSeq ≠ 0xFFFFFFFF#32 → s.chip.log.policy = .stall →
            t.log = { s.chip.log with
              requests := [{ r with stalled := true }] ++ newer
              stallTimer := if s.chip.log.stallLimit = 0#16 then none else some s.chip.log.stallLimit } ∧
            t = { s.chip with log := t.log, attention := t.attention } ∧
            ∀ record : AttnRecord, record = { kind := .logStalled, lane := 0xFF#8, outcome := 0#16, tag := 0#32
                                              subject := BitVec.ofNat 32 s.chip.log.tail } →
            t.attention = if s.chip.attention.configured && !s.chip.attention.roomTaken .logStalled
              then (s.chip.withPost .logStalled record).attention else s.chip.attention)) ∧
        (¬space → s.chip.log.state = .rolling → ∀ l c addr d, s.chip.log.running = some { lane := l, stage := .rolling c } →
          s.chip.HasJob l .run addr d → ∃ u, RollbackFailed s₁ u l addr d .overflow 0 ∧ GoAnswered u t r.requester)) ∧
      (s.chip.log.state = .attached → ¬hit → older ≠ [] → (∀ q ∈ newer, q.stalled = false) →
        t = { s.chip with log := { s.chip.log with requests := older ++ [{ r with stalled := true }] ++ newer } })

/-- CAPTURE_TRANSFER_ANSWER (R25, R31, R32, R33, R108, R111): the reads are followed by the two image writes and the header, each issued
through the write check at the class of the write it serves, and the image read for a host write is kept for its copy-ahead,
unless a COPY was accepted in the middle of the read. A
record write that needs a copy-ahead while the one in progress waits for its own capture ends the copy DEST FAULT, whose capture
requests are withdrawn, and requests the port. The answer to the header counts the record, while ATTACHED and in a rollback's
DRAIN, and answers the request, and the requests that wait for space are taken again. A FAULT breaks the log, or fails the
rollback, and leaves the indices; it ends the copy whose copy-ahead shares the read; and the request is answered go.
The model's: `answer` stands for a request that its owner still waits for, and a log that has broken takes no record (log entry 9);
the kept image is log entry 30 and the shared FAULT log entry 10; what the requests that wait for space do is log entry 40, and
that they go before a log job's step is log entry 43; the order of the writes that one step brings to the write check is log
entry 46. -/
def Obligations.CaptureTransferAnswer : Prop :=
  ∀ (s : Machine.State) (c : Capture), s.chip.InFlight .capture → s.chip.log.capture = some c →
    ∀ s₁ : Capture → Chip, s₁ = (fun c' => { s.chip with
      arbiter := s.chip.portFree, log := { s.chip.log with capture := some c' } }) →
    ∀ slot : Word, slot = s.chip.log.base + BitVec.ofNat 32 (96 * c.slot) →
    ∀ own : Access → PortRequest, own = (fun a => { owner := .capture, cls := c.request.cls, access := a, stale := false }) →
    ∀ issues : Chip → Chip → Access → Prop, issues = (fun v t a =>
      ∀ meets : Prop, meets = (v.copy.notCopied a.addr ≠ none ∧ ∃ h, v.copy.ahead = some h ∧ h.waitsCap = true) →
      (¬meets → WriteIssued v t (own a) ∧ t = { v with arbiter := t.arbiter, copy := t.copy }) ∧
      (meets → ∃ u, AheadFailed v u .destFault ∧
        u.log.requests = (v.log.requests.filter fun q => q.requester != .frontier && q.requester != .copyAhead) ∧
        t = { u with arbiter := { u.arbiter with requests := u.arbiter.requests ++ [own a] } })) →
    (∀ data, ∃ t, exec (.captureTransferAnswer (.done data)) s = .next { s with chip := t } ∧
      (c.step = .readFirst → ∀ v, v = s₁ { c with first := data, step := .readSecond } →
        t = { v with arbiter := { s.chip.portFree with
          requests := s.chip.arbiter.requests ++ [own (readLine (c.request.granule + 0x20#32))] } }) ∧
      (c.step = .readSecond → ∀ v, v = s₁ { c with second := data, step := .writeFirst } →
        (∀ f, c.request.requester = .host → s.chip.path.forward = some f → f.image ≠ .unshared →
          issues { v with path := { s.chip.path with forward := some { f with image := .held (data ++ c.first) } } } t
            (writeLine (slot + 0x20#32) c.first)) ∧
        (c.request.requester ≠ .host ∨ (∀ f, s.chip.path.forward = some f → f.image = .unshared) → issues v t (writeLine (slot + 0x20#32) c.first))) ∧
      (c.step = .writeFirst → issues (s₁ { c with step := .writeSecond }) t (writeLine (slot + 0x40#32) c.second)) ∧
      (c.step = .writeSecond → issues (s₁ { c with step := .writeHeader }) t (writeLine slot
        (recordHeader c.request.region c.sequence c.previous c.checkpoint c.request.granule c.first c.second))) ∧
      (c.step = .writeHeader → ∃ u v,
        ∀ taking : Prop, taking = (s.chip.log.state = .attached ∨ s.chip.log.draining = true) →
        (taking → ∀ older e, s.chip.log.checkpoints = older ++ [e] →
          v = { s.chip with arbiter := s.chip.portFree, log := { s.chip.log with
            capture := none, tail := (s.chip.log.tail + 1) % s.chip.log.capacity, count := s.chip.log.count + 1
            lastSeq := c.sequence, nextSeq := s.chip.log.nextSeq + 1#32
            checkpoints := older ++ [{ e with records := e.records + 1 }]
            table := if s.chip.log.table.length < 1024 ∧ c.request.granule ∉ s.chip.log.table
              then s.chip.log.table ++ [c.request.granule] else s.chip.log.table } }) ∧
        (¬taking → v = { s.chip with arbiter := s.chip.portFree, log := { s.chip.log with capture := none } }) ∧
        (c.answer = true → GoAnswered v u c.request.requester) ∧ (c.answer = false → u = v) ∧ t = u.retake ∧
        ((∀ q ∈ u.log.requests, q.stalled = false) → t = { u with log := { u.log with stallTimer := none } }))) ∧
    (∃ u x t, exec (.captureTransferAnswer .fault) s = .next { s with chip := t } ∧
      ∀ s₀ : Chip, s₀ = { s.chip with arbiter := s.chip.portFree, log := { s.chip.log with capture := none } } →
      (s.chip.log.state = .attached → LogBroke s₀ u .captureFault) ∧
      (s.chip.log.draining = true → ∀ l r addr d, s.chip.log.running = some { lane := l, stage := .rolling r } →
        s.chip.HasJob l .run addr d → RollbackFailed s₀ u l addr d .captureFault 0) ∧
      (∀ shares : Prop, shares = ((c.step = .readFirst ∨ c.step = .readSecond) ∧ c.request.requester = .host ∧
          u.copy.notCopied c.request.granule ≠ none ∧ ∀ f, u.path.forward = some f → f.image ≠ .unshared) →
        (shares → SharedReadFailed u x) ∧ (¬shares → x = u)) ∧
      (s.chip.log.state = .attached ∨ s.chip.log.draining = true →
        (c.answer = true → GoAnswered x t c.request.requester) ∧ (c.answer = false → t = x)))

/-- STALL_TIMER_EXPIRY (R31, R34): the log enters BROKEN with OVERFLOW, LOG BROKEN is posted, and every request that waits is answered
go, so that its write is issued. With the timer stopped nothing is due.
The last clause is the model's choice (log entry 11). -/
def Obligations.StallTimerExpiry : Prop :=
  ∀ s : Machine.State,
    (∀ limit, s.chip.log.state = .attached → s.chip.log.stallTimer = some limit →
      ∃ t, exec .stallTimerExpiry s = .next { s with chip := t } ∧ LogBroke s.chip t .overflow) ∧
    (s.chip.log.stallTimer = none → exec .stallTimerExpiry s = .next s)

/-! ## Log jobs -/

/-- ATTACH_LOG (R26, R37, R40, R41): the log state and the operands are checked in order at the grant; an accepted job places the ring,
clears the table, enters PREPARING and waits for its drain point.
A job that passes its checks with a capture in progress is granted and takes its step after it, with the checks met again (log
entry 24). The ring of an accepted CONFIGURE ATTENTION which still settles a posting counts for OVERLAP too (log entry 6). -/
def Obligations.AttachLog : Prop :=
  WaitsForCapture .attachLog ∧
  ∀ (s : Machine.State) (l : Lane) (addr : Word) (d : Descriptor) (rest : List Lane), s.chip.LogJobDue l addr d rest →
    d.code = 8#8 → ∃ t, exec .attachLog s = .next { s with chip := t } ∧
      ∀ bad : Prop, bad = (d.b.toNat < 16 ∨ 65535 < d.b.toNat ∨ 0xFFFFFFFF < d.a.toNat + 96 * d.b.toNat - 1 ∨
        1 < d.c.toNat / 65536 % 256 ∨ d.d = 0#32 ∨ d.d = 0xFFFFFFFF#32) →
      (s.chip.log.state ≠ .unset → LogJobRefused s.chip t l addr d rest .logState) ∧
      (s.chip.log.state = .unset →
        (d.a.toNat % 32 ≠ 0 → LogJobRefused s.chip t l addr d rest .alignment) ∧
        (d.a.toNat % 32 = 0 → bad → LogJobRefused s.chip t l addr d rest .badOperand) ∧
        (d.a.toNat % 32 = 0 → ¬bad → s.chip.RingMeets d → LogJobRefused s.chip t l addr d rest .overlap) ∧
        (d.a.toNat % 32 = 0 → ¬bad → ¬s.chip.RingMeets d → s.chip.log.capture ≠ none → JobGranted s.chip t l rest) ∧
        (d.a.toNat % 32 = 0 → ¬bad → ¬s.chip.RingMeets d → s.chip.log.capture = none →
          RingOperands t.log d ∧ LaneRuns s.chip t l ∧
          t = { s.chip with
            lanes := t.lanes
            log := { s.chip.log with
              state := .preparing, base := t.log.base, capacity := t.log.capacity, policy := t.log.policy
              stallLimit := t.log.stallLimit, table := [], waiting := rest
              running := some { lane := l, stage := .attachDrain d.d } }
            path := { s.chip.path with watches := { s.chip.path.watches with attach := s.chip.drainPoint } } }))

/-- VOIDING_START and SELECT_PASS_START (R38, R81): once every host write accepted before the job has been issued, the first VOID write, or
the first read of the select pass, of slot 0 is made; until then nothing happens.
A command before its time changes nothing by the model's choice (log entry 11). -/
def Obligations.DrainedScansBegin : Prop :=
  (∀ (s : Machine.State) (l : Lane) (first : Word), s.chip.log.running = some { lane := l, stage := .attachDrain first } →
    s.chip.log.state = .preparing →
    (s.chip.path.watches.attach ≠ none → exec .voidingStart s = .next s) ∧
    (s.chip.path.watches.attach = none → ∃ t, exec .voidingStart s = .next { s with chip := t } ∧
      ∀ s₁ : Chip, s₁ = { s.chip with log := { s.chip.log with running := some { lane := l, stage := .voiding first 0 } } } →
      t = { s₁ with arbiter := t.arbiter, copy := t.copy } ∧
      WriteIssued s₁ t { owner := .void, cls := .log, access := writeLine s.chip.log.base 0#256, stale := false })) ∧
  (∀ (s : Machine.State) (l : Lane) (c : Scan), s.chip.log.running = some { lane := l, stage := .adopting c } →
    s.chip.log.state = .scanning → c.started = false →
    (s.chip.path.watches.adopt ≠ none → exec .selectPassStart s = .next s) ∧
    (s.chip.path.watches.adopt = none → exec .selectPassStart s = .next { s with chip := { s.chip with
      log := { s.chip.log with
        running := some { lane := l, stage := .adopting { c with started := true, slot := 0, step := .readHeader } } }
      arbiter := { s.chip.arbiter with requests := s.chip.arbiter.requests ++
        [{ owner := .scan, cls := .log, access := readLine s.chip.log.base, stale := false }] } } }))

/-- VOID_WRITE_ANSWER (R38): after DONE the next slot is voided, and after the last the log is ATTACHED with one checkpoint and the job ends
DONE with N; a FAULT returns the log to UNSET and the job ends VOID FAULT with the slots voided. -/
def Obligations.VoidWriteAnswer : Prop :=
  ∀ (s : Machine.State) (l : Lane) (addr : Word) (d : Descriptor) (first : Word) (slot : Nat), s.chip.InFlight .void →
    s.chip.log.running = some { lane := l, stage := .voiding first slot } → s.chip.log.state = .preparing →
    s.chip.HasJob l .run addr d →
    ∀ s₁ : Chip, s₁ = { s.chip with arbiter := s.chip.portFree } →
    (∀ data, ∃ t, exec (.voidWriteAnswer (.done data)) s = .next { s with chip := t } ∧
      (slot + 1 < s.chip.log.capacity →
        ∀ s₂ : Chip, s₂ = { s₁ with
          log := { s.chip.log with running := some { lane := l, stage := .voiding first (slot + 1) } } } →
        t = { s₂ with arbiter := t.arbiter, copy := t.copy } ∧
        WriteIssued s₂ t { owner := .void, cls := .log, stale := false,
                           access := writeLine (s.chip.log.base + BitVec.ofNat 32 (96 * (slot + 1))) 0#256 }) ∧
      (s.chip.log.capacity ≤ slot + 1 →
        t.log = { s.chip.log with
          head := 0, tail := 0, count := 0, nextSeq := 1#32, lastSeq := 0#32
          checkpoints := [{ number := first, firstSlot := 0, firstSequence := 1#32, records := 0 }]
          highest := first, reason := .none, state := .attached, running := none } ∧
        HandsBack s₁ t l addr d .done (BitVec.ofNat 32 s.chip.log.capacity) ∧
        SameBesideHandBack s₁ t ∧ t.regions = s.chip.regions)) ∧
    (∃ t, exec (.voidWriteAnswer .fault) s = .next { s with chip := t } ∧ t.log = s.chip.log.backToUnset ∧
      HandsBack s₁ t l addr d .voidFault (BitVec.ofNat 32 slot) ∧ SameBesideHandBack s₁ t ∧ t.regions = s.chip.regions)

/-- DETACH_LOG (R14, R26, R39, R40, R41): with the log ATTACHED or BROKEN the timer stops, CAPTURING regions become IDLE, every waiting
capture request is answered go, the log returns to UNSET and the job ends DONE; in any other state it ends LOG STATE.
A job that passes its check with a capture in progress is granted and takes its step after it, with the check met again (log
entry 24). That the writes answered go come before the outcome write is log entry 46. -/
def Obligations.DetachLog : Prop :=
  WaitsForCapture .detachLog ∧
  ∀ (s : Machine.State) (l : Lane) (addr : Word) (d : Descriptor) (rest : List Lane), s.chip.LogJobDue l addr d rest →
    d.code = 10#8 → ∃ t, exec .detachLog s = .next { s with chip := t } ∧
      (s.chip.log.state ≠ .attached → s.chip.log.state ≠ .broken → LogJobRefused s.chip t l addr d rest .logState) ∧
      (s.chip.log.state = .attached ∨ s.chip.log.state = .broken →
        (s.chip.log.capture ≠ none → JobGranted s.chip t l rest) ∧
        (s.chip.log.capture = none →
          ∃ v u, (∀ n : Fin 16, v.regions[n] =
              if s.chip.regions[n].state = .capturing then { s.chip.regions[n] with state := .idle } else s.chip.regions[n]) ∧
            LaneRuns s.chip v l ∧
            v = { s.chip with regions := v.regions, lanes := v.lanes, log := { s.chip.log with
              stallTimer := none, requests := [], waiting := rest, running := some { lane := l, stage := .granted } } } ∧
            AllAnswered s.chip.log.requests v u ∧ u = { v with path := u.path, arbiter := u.arbiter, copy := u.copy } ∧
            HandsBack u t l addr d .done 0#32 ∧ SameBesideHandBack u t ∧ t.regions = v.regions ∧
            t.log = v.log.backToUnset))

/-- MARK (R46, R47, R131): the log state, the list and the highest number are checked in order; an accepted MARK asks for the drain point and
sets the barrier at the forward point. Its checks and acceptance do not wait for a capture. -/
def Obligations.MarkAccepted : Prop :=
  ∀ (s : Machine.State) (l : Lane) (addr : Word) (d : Descriptor) (rest : List Lane), s.chip.log.running = none →
    s.chip.log.beside = none → s.chip.log.waiting = l :: rest → s.chip.HasJob l .wait addr d → d.code = 11#8 →
    ∃ t, exec .mark s = .next { s with chip := t } ∧
      (s.chip.log.state ≠ .attached → LogJobRefused s.chip t l addr d rest .logState) ∧
      (s.chip.log.state = .attached →
        (24 ≤ s.chip.log.checkpoints.length → LogJobRefused s.chip t l addr d rest .listFull) ∧
        (s.chip.log.checkpoints.length < 24 → s.chip.log.highest = 0xFFFFFFFF#32 →
          LogJobRefused s.chip t l addr d rest .numberExhausted) ∧
        (s.chip.log.checkpoints.length < 24 → s.chip.log.highest ≠ 0xFFFFFFFF#32 →
          LaneRuns s.chip t l ∧
          t = { s.chip with
            lanes := t.lanes
            log := { s.chip.log with waiting := rest, running := some { lane := l, stage := .markDrain } }
            path := { s.chip.path with
              watches := { s.chip.path.watches with mark := s.chip.drainPoint }
              barrier := some s.chip.path.acceptCount } }))

/-- MARK_APPEND (R49, R51): once the drain point has been issued and no capture is in progress, the append adds a checkpoint with highest issued + 1
at tail, clears the table, lifts the barrier and ends the job DONE with the number; a log that has broken takes no append. A
RELEASE granted beside the MARK takes its step first, and the append uses the list that it leaves.
A command before its time changes nothing by the model's choice (log entry 11). -/
def Obligations.MarkAppend : Prop :=
  ∀ (s : Machine.State) (l : Lane) (addr : Word) (d : Descriptor),
    s.chip.log.running = some { lane := l, stage := .markDrain } → s.chip.HasJob l .run addr d →
    (s.chip.path.watches.mark ≠ none ∨ s.chip.log.capture ≠ none ∨ s.chip.log.beside ≠ none → exec .markAppend s = .next s) ∧
    (s.chip.path.watches.mark = none → s.chip.log.capture = none → s.chip.log.beside = none →
      ∃ t, exec .markAppend s = .next { s with chip := t } ∧ t.regions = s.chip.regions ∧
        SameBesideHandBack { s.chip with path := { s.chip.path with barrier := none } } t ∧
        (s.chip.log.state = .attached →
          t.log = { s.chip.log with
            checkpoints := s.chip.log.checkpoints ++
              [{ number := s.chip.log.highest + 1#32, firstSlot := s.chip.log.tail
                 firstSequence := s.chip.log.nextSeq, records := 0 }]
            highest := s.chip.log.highest + 1#32, table := [], running := none } ∧
          HandsBack s.chip t l addr d .done (s.chip.log.highest + 1#32)) ∧
        (s.chip.log.state ≠ .attached →
          t.log = { s.chip.log with running := none } ∧ HandsBack s.chip t l addr d .logState 0#32))

/-- RELEASE (R26, R40, R50, R51): granted in its turn, or, while a draining MARK meets a stall, the oldest waiting RELEASE beside it. The
checks are taken at the grant; the step removes the entries older than the named one, moves head to its FIRST SLOT, lowers
count and ends DONE with the records removed; then the captures that wait for space are taken again, the first of them at once.
A RELEASE that passes its checks with a capture in progress takes its step after it, with the checks met again (log
entry 24), what the captures that wait for space do is log entry 40, and that the outcome write comes before theirs is log entry 46. -/
def Obligations.ReleaseJob : Prop :=
  WaitsForCapture .release ∧
  ∀ (s : Machine.State) (l : Lane) (addr : Word) (d : Descriptor), d.code = 13#8 →
    ∀ refused : List Lane → Option LogJob → Chip → Prop, refused = (fun waiting running t =>
      ∀ ends : JobOutcome → Prop, ends = (fun o => HandsBack s.chip t l addr d o 0#32 ∧ SameBesideHandBack s.chip t ∧
        t.regions = s.chip.regions ∧
        t.log = { s.chip.log with waiting := waiting, running := running, beside := none }) →
      (s.chip.log.state ≠ .attached → ends .logState) ∧
      (s.chip.log.state = .attached → (∀ e ∈ s.chip.log.checkpoints, e.number ≠ d.a) → ends .noSuchCheckpoint)) →
    ∀ effect : List Lane → Option LogJob → Chip → Prop, effect = (fun waiting running t =>
      (s.chip.log.state = .attached → ∀ older c newer, s.chip.log.checkpoints = older ++ c :: newer → c.number = d.a →
        (∀ e ∈ older, e.number ≠ d.a) →
        ∃ u, HandsBack s.chip u l addr d .done (BitVec.ofNat 32 (recordsOf older)) ∧ u.regions = s.chip.regions ∧
          SameBesideHandBack s.chip u ∧
          u.log = { s.chip.log with
            checkpoints := c :: newer, head := c.firstSlot, count := s.chip.log.count - recordsOf older
            waiting := waiting, running := running, beside := none } ∧
          t = u.retake ∧
          ((∀ q ∈ s.chip.log.requests, q.stalled = false) → t = { u with log := { u.log with stallTimer := none } }) ∧
          (∀ q qs, s.chip.log.requests = q :: qs → q.stalled = true → s.chip.log.nextSeq ≠ 0xFFFFFFFF#32 →
            u.log.count ≠ s.chip.log.capacity → q.granule ∉ s.chip.log.table →
            t = { u with
              log := { u.log with
                requests := qs
                stallTimer := if qs.any (·.stalled) then u.log.stallTimer else none
                capture := some { request := q, slot := u.log.tail, sequence := u.log.nextSeq, previous := u.log.lastSeq
                                  checkpoint := u.log.newestNumber, first := 0#256, second := 0#256
                                  step := .readFirst, answer := true } }
              arbiter := { u.arbiter with requests := u.arbiter.requests ++
                [{ owner := .capture, cls := q.cls, access := readLine q.granule, stale := false }] } }))) →
    ∀ passes : Prop, passes = (s.chip.log.state = .attached ∧ ∃ e ∈ s.chip.log.checkpoints, e.number = d.a) →
    (∀ rest, s.chip.LogJobDue l addr d rest → s.chip.log.beside = none →
      ∃ t, exec .release s = .next { s with chip := t } ∧ refused rest none t ∧
        (s.chip.log.capture = none → effect rest none t) ∧
        (s.chip.log.capture ≠ none → passes → JobGranted s.chip t l rest)) ∧
    (∀ m before rest, s.chip.log.running = some { lane := m, stage := .markDrain } → s.chip.path.watches.mark ≠ none →
      s.chip.log.stalled = true → s.chip.log.beside = none →
      s.chip.log.waiting = before ++ l :: rest → l ∉ before →
      (∀ k ∈ before, ∀ a e, s.chip.HasJob k .wait a e → e.code ≠ 13#8) → s.chip.HasJob l .wait addr d →
      ∃ t, exec .release s = .next { s with chip := t } ∧ refused (before ++ rest) s.chip.log.running t ∧
        (s.chip.log.capture = none → effect (before ++ rest) s.chip.log.running t) ∧
        (s.chip.log.capture ≠ none → passes → LaneRuns s.chip t l ∧ t = { s.chip with
          lanes := t.lanes, log := { s.chip.log with waiting := before ++ rest, beside := some l } })) ∧
    (s.chip.log.beside = some l → s.chip.HasJob l .run addr d →
      (s.chip.log.capture ≠ none → exec .release s = .next s) ∧
      (s.chip.log.capture = none → ∃ t, exec .release s = .next { s with chip := t } ∧
        refused s.chip.log.waiting s.chip.log.running t ∧ effect s.chip.log.waiting s.chip.log.running t))

/-- REPORT_LOG (R26, R40, R41, R53, R54): the state and the buffer are checked in order at the grant; then, with no capture in progress, the
snapshot of that moment is fixed and its first write issued, a line for a 32-aligned buffer and otherwise a single of 8 bytes.
A report that has passed its checks and waits for a capture does not meet them again (log entry 24); the attention ring that
meets the buffer is the configured one (log entry 6). -/
def Obligations.ReportLog : Prop :=
  WaitsForCapture .reportLog ∧
  ∀ (s : Machine.State) (l : Lane) (addr : Word) (d : Descriptor) (rest : List Lane), d.code = 14#8 →
    ∀ write : Access → PortRequest, write = (fun a => { owner := .report, cls := .log, access := a, stale := false }) →
    ∀ begins : Chip → Prop, begins = (fun t =>
      ∃ u : Chip, LaneRuns s.chip u l ∧
        u = { s.chip with lanes := u.lanes, log := { s.chip.log with
          waiting := rest
          running := some { lane := l, stage := .reporting { addr := d.a, snapshot := reportSnapshot s.chip.log, written := 0 } } } } ∧
        t = { u with arbiter := t.arbiter, copy := t.copy } ∧
        (d.a.toNat % 32 = 0 → WriteIssued u t (write
          (writeLine d.a (field (reportSnapshot s.chip.log) 0 256)))) ∧
        (d.a.toNat % 32 ≠ 0 → WriteIssued u t (write
          (writeSingle d.a 8 ((field (reportSnapshot s.chip.log) 0 64).setWidth 256))))) →
    (s.chip.GrantDue l addr d rest → ∃ t, exec .reportLog s = .next { s with chip := t } ∧
      ∀ known : Prop, known = (s.chip.log.state = .unset ∨ s.chip.log.state = .attached ∨ s.chip.log.state = .broken) →
      ∀ fits : Prop, fits = (d.a.toNat + 255 ≤ 0xFFFFFFFF) →
      ∀ meets : Prop, meets = (s.chip.pageOverlaps d.a.toNat 256 = true ∨ s.chip.logRingOverlaps d.a.toNat 256 = true ∨
        s.chip.attention.ringMeets d.a.toNat 256 = true) →
      (¬known → LogJobRefused s.chip t l addr d rest .logState) ∧
      (known → d.a.toNat % 16 ≠ 0 → LogJobRefused s.chip t l addr d rest .alignment) ∧
      (known → d.a.toNat % 16 = 0 → ¬fits → LogJobRefused s.chip t l addr d rest .badOperand) ∧
      (known → d.a.toNat % 16 = 0 → fits → meets → LogJobRefused s.chip t l addr d rest .overlap) ∧
      (known → d.a.toNat % 16 = 0 → fits → ¬meets →
        (s.chip.log.capture = none → begins t) ∧ (s.chip.log.capture ≠ none → JobGranted s.chip t l rest))) ∧
    (s.chip.StepDue l addr d rest → ∃ t, exec .reportLog s = .next { s with chip := t } ∧ begins t)

/-- REPORT_WRITE_ANSWER (R55): after DONE the next write of the same snapshot follows, and after the last the job ends DONE with 256; a FAULT
ends it REPORT FAULT with the bytes that memory has answered DONE. -/
def Obligations.ReportWriteAnswer : Prop :=
  ∀ (s : Machine.State) (l : Lane) (addr : Word) (d : Descriptor) (r : Report), s.chip.InFlight .report →
    s.chip.log.running = some { lane := l, stage := .reporting r } → s.chip.HasJob l .run addr d →
    ∀ s₁ : Chip, s₁ = { s.chip with arbiter := s.chip.portFree } →
    ∀ write : Access → PortRequest, write = (fun a => { owner := .report, cls := .log, access := a, stale := false }) →
    ∀ n, n = r.written + (if r.addr.toNat % 32 = 0 then 32 else 8) →
    (∀ data, ∃ t, exec (.reportWriteAnswer (.done data)) s = .next { s with chip := t } ∧
      (n < 256 → ∀ u : Chip, u = { s₁ with log := { s.chip.log with
          running := some { lane := l, stage := .reporting { r with written := n } } } } →
        t = { u with arbiter := t.arbiter, copy := t.copy } ∧
        (r.addr.toNat % 32 = 0 → WriteIssued u t (write
          (writeLine (r.addr + BitVec.ofNat 32 n) (field r.snapshot n 256)))) ∧
        (r.addr.toNat % 32 ≠ 0 → WriteIssued u t (write
          (writeSingle (r.addr + BitVec.ofNat 32 n) 8 ((field r.snapshot n 64).setWidth 256))))) ∧
      (256 ≤ n → HandsBack s₁ t l addr d .done 256#32 ∧ t.log = { s.chip.log with running := none } ∧
        t.regions = s.chip.regions ∧ SameBesideHandBack s₁ t)) ∧
    (∃ t, exec (.reportWriteAnswer .fault) s = .next { s with chip := t } ∧
      HandsBack s₁ t l addr d .reportFault (BitVec.ofNat 32 r.written) ∧ t.log = { s.chip.log with running := none } ∧
      t.regions = s.chip.regions ∧ SameBesideHandBack s₁ t)

/-! ## Rollback -/

/-- ROLLBACK (R12, R26, R40, R57, R58): granted with a capture in progress it waits for that; then, in one step, a log not ATTACHED, a stall,
and an unknown checkpoint refuse it in that order, and an accepted rollback makes the log ROLLING, every IDLE or CAPTURING
region RESTORING, and waits for its drain point and for the Copy Engine's looked-up write.
That the job keeps its grant while a capture is in progress, and its command then changes nothing, is the model's choice (log
entry 24), and the two bits for that write are the model's (log entry 29). -/
def Obligations.RollbackAccepted : Prop :=
  WaitsForCapture .rollback ∧
  ∀ (s : Machine.State) (l : Lane) (addr : Word) (d : Descriptor) (rest : List Lane), s.chip.LogJobDue l addr d rest →
    d.code = 12#8 → ∃ t, exec .rollback s = .next { s with chip := t } ∧
      (s.chip.log.capture ≠ none → JobGranted s.chip t l rest) ∧
      (s.chip.log.capture = none → s.chip.log.state ≠ .attached ∨ (∃ q ∈ s.chip.log.requests, q.stalled = true) →
        LogJobRefused s.chip t l addr d rest .logState) ∧
      (s.chip.log.capture = none → s.chip.log.state = .attached → (∀ q ∈ s.chip.log.requests, q.stalled = false) →
        ((∀ e ∈ s.chip.log.checkpoints, e.number ≠ d.a) → LogJobRefused s.chip t l addr d rest .noSuchCheckpoint) ∧
        ((∃ e ∈ s.chip.log.checkpoints, e.number = d.a) →
          LaneRuns s.chip t l ∧ (∀ n : Fin 16, restoreEntered s.chip.regions[n] t.regions[n]) ∧
          ∃ c : Rollback, c.target = d.a ∧ c.phase = .drain ∧ c.applied = 0 ∧
            c.drainFrontier = s.chip.frontWriteDue ∧ c.drainAhead = s.chip.aheadWriteDue ∧ c.late = [] ∧
            t = { s.chip with
              lanes := t.lanes, regions := t.regions
              log := { s.chip.log with
                state := .rolling, waiting := rest, running := some { lane := l, stage := .rolling c } }
              path := { s.chip.path with watches := { s.chip.path.watches with rollback := s.chip.drainPoint } } }))

/-- ROLLBACK_DRAIN_END (R60, R61, R62, R66, R69): once the drain's writes have been issued and no capture is in progress, the span is the
records of the target and of every newer entry. With records the walk reads the slot before tail; with none the MARKER is
issued, or, with the ring full or the sequence exhausted, the trim is taken at once.
A command before its time changes nothing by the model's choice (log entry 11), and the two bits for the Copy Engine's write,
with the writes that an ended copy has left beside them, are the model's (log entry 29). -/
def Obligations.RollbackDrainEnd : Prop :=
  ∀ (s : Machine.State) (l : Lane) (addr : Word) (d : Descriptor) (c : Rollback) (older : List Checkpoint) (e : Checkpoint)
    (newer : List Checkpoint), s.chip.log.running = some { lane := l, stage := .rolling c } → s.chip.log.state = .rolling →
    s.chip.HasJob l .run addr d → c.phase = .drain → c.applied = 0 →
    s.chip.log.checkpoints = older ++ e :: newer → e.number = c.target → (∀ k ∈ older, k.number ≠ c.target) →
    ∀ waits : Prop, waits = (s.chip.path.watches.rollback ≠ none ∨ c.drainFrontier = true ∨ c.drainAhead = true ∨
      s.chip.leftCopyWrite = true ∨ s.chip.log.capture ≠ none) →
    ∀ n, n = recordsOf (e :: newer) →
    ∀ slot, slot = (s.chip.log.tail + s.chip.log.capacity - 1) % s.chip.log.capacity →
    (waits → exec .rollbackDrainEnd s = .next s) ∧
    (¬waits → ∃ t, exec .rollbackDrainEnd s = .next { s with chip := t } ∧
      ∀ c' : Phase → Rollback, c' = (fun p => { c with phase := p, span := n, walkSlot := slot, expected := s.chip.log.lastSeq }) →
      (n ≠ 0 → t = { s.chip with
        log := { s.chip.log with running := some { lane := l, stage := .rolling { c' .restore with step := .readHeader } } }
        arbiter := { s.chip.arbiter with requests := s.chip.arbiter.requests ++
          [{ owner := .restore, cls := .log, stale := false,
             access := readLine (s.chip.log.base + BitVec.ofNat 32 (96 * slot)) }] } }) ∧
      (n = 0 → s.chip.log.count ≠ s.chip.log.capacity → s.chip.log.nextSeq ≠ 0xFFFFFFFF#32 →
        ∀ u : Chip, u = { s.chip with
          log := { s.chip.log with running := some { lane := l, stage := .rolling (c' .finish) } } } →
        t = { u with arbiter := t.arbiter, copy := t.copy } ∧ WriteIssued u t (markerWrite s.chip c e.firstSlot)) ∧
      (n = 0 → s.chip.log.count = s.chip.log.capacity ∨ s.chip.log.nextSeq = 0xFFFFFFFF#32 →
        RollbackReturned s.chip t l addr d c older e s.chip.log.nextSeq))

/-- RESTORE_ACCESS_ANSWER (R62 to R66): the three reads of a slot, its validation, the two image writes through the write check, and the next
slot by its PREVIOUS or, after the last, the MARKER; a slot that is no match, and any FAULT, fails the rollback. -/
def Obligations.RestoreAccessAnswer : Prop :=
  ∀ (s : Machine.State) (l : Lane) (addr : Word) (d : Descriptor) (c : Rollback) (older : List Checkpoint) (e : Checkpoint)
    (newer : List Checkpoint), s.chip.InFlight .restore →
    s.chip.log.running = some { lane := l, stage := .rolling c } → s.chip.log.state = .rolling →
    s.chip.HasJob l .run addr d → c.phase = .restore →
    s.chip.log.checkpoints = older ++ e :: newer → e.number = c.target → (∀ k ∈ older, k.number ≠ c.target) →
    ∀ s₁ : Rollback → Chip, s₁ = (fun c' => { s.chip with
      arbiter := s.chip.portFree, log := { s.chip.log with running := some { lane := l, stage := .rolling c' } } }) →
    ∀ slot : Nat → Word, slot = (fun i => s.chip.log.base + BitVec.ofNat 32 (96 * i)) →
    ∀ reads : Chip → Rollback → Word → Prop, reads = (fun t c' a => t = { s₁ c' with
      arbiter := { s.chip.portFree with requests := s.chip.arbiter.requests ++
        [{ owner := .restore, cls := .log, access := readLine a, stale := false }] } }) →
    ∀ writes : Chip → Rollback → Word → Line → Prop, writes = (fun t c' a data =>
      t = { s₁ c' with arbiter := t.arbiter, copy := t.copy } ∧
      WriteIssued (s₁ c') t { owner := .restore, cls := .log, access := writeLine a data, stale := false }) →
    (∀ data, ∃ t, exec (.restoreAccessAnswer (.done data)) s = .next { s with chip := t } ∧
      (c.step = .readHeader → reads t { c with header := data, step := .readFirst } (slot c.walkSlot + 0x20#32)) ∧
      (c.step = .readFirst → reads t { c with first := data, step := .readSecond } (slot c.walkSlot + 0x40#32)) ∧
      (c.step = .readSecond →
        ∀ valid : Prop, valid = (headerKind c.header = 0xC1#8 ∧ headerCheck c.header = recordCheck c.header c.first data ∧
          headerSequence c.header = c.expected ∧ (headerGranule c.header).toNat % 64 = 0 ∧
          (c.walkSlot = e.firstSlot → 0 < e.records → headerSequence c.header = e.firstSequence)) →
        (valid → writes t { c with second := data, step := .writeFirst } (headerGranule c.header) c.first) ∧
        (¬valid → RollbackFailed { s.chip with arbiter := s.chip.portFree } t l addr d .restoreFault c.applied)) ∧
      (c.step = .writeFirst → writes t { c with step := .writeSecond } (headerGranule c.header + 0x20#32) c.second) ∧
      (c.step = .writeSecond →
        ∀ c' : Rollback, c' = { c with applied := c.applied + 1, lastPrevious := headerPrevious c.header } →
        (c.applied + 1 ≠ c.span → ∀ i, i = (c.walkSlot + s.chip.log.capacity - 1) % s.chip.log.capacity →
          reads t { c' with expected := headerPrevious c.header, walkSlot := i, step := .readHeader } (slot i)) ∧
        (c.applied + 1 = c.span → s.chip.log.nextSeq ≠ 0xFFFFFFFF#32 →
          t = { s₁ { c' with phase := .finish } with arbiter := t.arbiter, copy := t.copy } ∧
          WriteIssued (s₁ { c' with phase := .finish }) t (markerWrite s.chip c' e.firstSlot)) ∧
        (c.applied + 1 = c.span → s.chip.log.nextSeq = 0xFFFFFFFF#32 →
          RollbackReturned { s.chip with arbiter := s.chip.portFree } t l addr d c' older e s.chip.log.nextSeq))) ∧
    (∃ t, exec (.restoreAccessAnswer .fault) s = .next { s with chip := t } ∧
      RollbackFailed { s.chip with arbiter := s.chip.portFree } t l addr d .restoreFault c.applied)

/-- MARKER_WRITE_ANSWER (R67, R68): the log is trimmed to the target with next sequence raised by 1 and the regions return; after a FAULT the
log then enters BROKEN with RESTORE FAULT, so that no region stays CAPTURING. -/
def Obligations.MarkerWriteAnswer : Prop :=
  ∀ (s : Machine.State) (l : Lane) (addr : Word) (d : Descriptor) (c : Rollback) (older : List Checkpoint) (e : Checkpoint)
    (newer : List Checkpoint), s.chip.InFlight .marker →
    s.chip.log.running = some { lane := l, stage := .rolling c } → s.chip.log.state = .rolling →
    s.chip.HasJob l .run addr d → c.phase = .finish →
    s.chip.log.checkpoints = older ++ e :: newer → e.number = c.target → (∀ k ∈ older, k.number ≠ c.target) →
    ∀ returns : Chip → Prop, returns = (fun u => RollbackReturned { s.chip with arbiter := s.chip.portFree } u l addr d c older e
      (s.chip.log.nextSeq + 1#32)) →
    (∀ data, ∃ t, exec (.markerWriteAnswer (.done data)) s = .next { s with chip := t } ∧ returns t) ∧
    (∃ u t, exec (.markerWriteAnswer .fault) s = .next { s with chip := t } ∧ returns u ∧
      LogBroke u t .restoreFault)

/-! ## Adopting a log -/

/-- ADOPT_LOG (R26, R40, R79, R80): the log state and the operands are checked in order at the grant; an accepted job places the ring,
clears the table, enters SCANNING with an empty scan context and the floor, and waits for its drain point.
A job that passes its checks with a capture in progress is granted and takes its step after it, with the checks met again (log
entry 24). The ring of an accepted CONFIGURE ATTENTION which still settles a posting counts for OVERLAP too (log entry 6). -/
def Obligations.AdoptLog : Prop :=
  WaitsForCapture .adoptLog ∧
  ∀ (s : Machine.State) (l : Lane) (addr : Word) (d : Descriptor) (rest : List Lane), s.chip.LogJobDue l addr d rest →
    d.code = 9#8 → ∃ t, exec .adoptLog s = .next { s with chip := t } ∧
      ∀ bad : Prop, bad = (d.b.toNat < 16 ∨ 65535 < d.b.toNat ∨ 0xFFFFFFFF < d.a.toNat + 96 * d.b.toNat - 1 ∨
        1 < d.c.toNat / 65536 % 256) →
      (s.chip.log.state ≠ .unset → LogJobRefused s.chip t l addr d rest .logState) ∧
      (s.chip.log.state = .unset →
        (d.a.toNat % 32 ≠ 0 → LogJobRefused s.chip t l addr d rest .alignment) ∧
        (d.a.toNat % 32 = 0 → bad → LogJobRefused s.chip t l addr d rest .badOperand) ∧
        (d.a.toNat % 32 = 0 → ¬bad → s.chip.RingMeets d → LogJobRefused s.chip t l addr d rest .overlap) ∧
        (d.a.toNat % 32 = 0 → ¬bad → ¬s.chip.RingMeets d → s.chip.log.capture ≠ none → JobGranted s.chip t l rest) ∧
        (d.a.toNat % 32 = 0 → ¬bad → ¬s.chip.RingMeets d → s.chip.log.capture = none →
          RingOperands t.log d ∧ LaneRuns s.chip t l ∧
          ∃ c : Scan, c.pass = .select ∧ c.started = false ∧ c.newest = none ∧ c.included = 0 ∧ c.runs = [] ∧ c.floor = d.d ∧
          t = { s.chip with
            lanes := t.lanes
            log := { s.chip.log with
              state := .scanning, base := t.log.base, capacity := t.log.capacity, policy := t.log.policy
              stallLimit := t.log.stallLimit, table := [], waiting := rest
              running := some { lane := l, stage := .adopting c } }
            path := { s.chip.path with watches := { s.chip.path.watches with adopt := s.chip.drainPoint } } }))

/-- SCAN_READ_ANSWER (R81 to R90): a slot's three reads; in the select pass the newest valid slot is kept, and the last slot fixes the log's
end; in the walk pass a slot that continues the chain is taken and the slot before it read, and any other stops the walk; the
log is rebuilt and ATTACHED, or the scan ends SCAN EMPTY; a FAULT ends it SCAN FAULT with the slot.
Next sequence is stated for a newest SEQUENCE below 0xFFFFFFFF (log entry 1). -/
def Obligations.ScanReadAnswer : Prop :=
  ∀ (s : Machine.State) (l : Lane) (addr : Word) (d : Descriptor) (c : Scan), s.chip.InFlight .scan →
    s.chip.log.running = some { lane := l, stage := .adopting c } → s.chip.log.state = .scanning → c.started = true →
    s.chip.HasJob l .run addr d →
    ∀ s₀ : Chip, s₀ = { s.chip with arbiter := s.chip.portFree } →
    ∀ cap, cap = s.chip.log.capacity →
    ∀ reads : Chip → Scan → Word → Prop, reads = (fun t c' a => t = { s₀ with
      log := { s.chip.log with running := some { lane := l, stage := .adopting c' } }
      arbiter := { s.chip.portFree with requests := s.chip.arbiter.requests ++
        [{ owner := .scan, cls := .log, stale := false,
           access := readLine (s.chip.log.base + BitVec.ofNat 32 (96 * c'.slot) + a) }] } }) →
    ∀ empty : Chip → JobOutcome → Nat → Prop, empty = (fun t o n => t.log = s.chip.log.backToUnset ∧
      HandsBack s₀ t l addr d o (BitVec.ofNat 32 n) ∧ SameBesideHandBack s₀ t ∧ t.regions = s.chip.regions) →
    ∀ rebuilt : Chip → Scan → Newest → Prop, rebuilt = (fun t c' n =>
      (c'.included = 0 → n.isMarker = false → empty t .scanEmpty 0) ∧
      (c'.included ≠ 0 ∨ n.isMarker = true → n.sequence ≠ 0xFFFFFFFF#32 →
        t.log = { s.chip.log with
          tail := c'.tail, count := c'.included
          head := match c'.runs with
            | r :: _ => r.oldest
            | [] => c'.tail
          nextSeq := n.sequence + 1#32
          lastSeq := if n.isMarker then n.previous else n.sequence
          checkpoints := t.log.checkpoints
          highest := match t.log.checkpoints.getLast? with
            | some k => k.number
            | none => 0#32
          table := [], stallTimer := none, state := .attached, running := none } ∧
        (∀ runs : List Checkpoint, runs = c'.runs.map (fun r =>
            { number := r.number, firstSlot := r.oldest, firstSequence := r.sequence, records := r.records }) →
          (n.isMarker = true → (∀ r ∈ c'.runs, r.number ≠ n.checkpoint) → t.log.checkpoints = runs ++
            [{ number := n.checkpoint, firstSlot := c'.tail, firstSequence := n.sequence + 1#32, records := 0 }]) ∧
          (n.isMarker = false ∨ (∃ r ∈ c'.runs, r.number = n.checkpoint) → t.log.checkpoints = runs)) ∧
        HandsBack s₀ t l addr d .done (BitVec.ofNat 32 c'.included) ∧ SameBesideHandBack s₀ t ∧ t.regions = s.chip.regions)) →
    ∀ walks : Chip → Scan → Newest → Prop, walks = (fun t c' n =>
      (c'.expected = 0#32 ∨ c'.included = cap → rebuilt t c' n) ∧
      (c'.expected ≠ 0#32 → c'.included ≠ cap →
        reads t { c' with slot := (c'.tail + (cap - 1) * (c'.included + 1)) % cap, step := .readHeader } 0#32)) →
    (∀ data, ∃ t, exec (.scanReadAnswer (.done data)) s = .next { s with chip := t } ∧
      (c.step = .readHeader → reads t { c with header := data, step := .readFirst } 0x20#32) ∧
      (c.step = .readFirst → reads t { c with first := data, step := .readSecond } 0x40#32) ∧
      (c.step = .readSecond → c.pass = .select → ∃ newest,
        (¬(ValidRecord c.header c.first data ∨ ValidMarker c.header) → newest = c.newest) ∧
        (ValidRecord c.header c.first data ∨ ValidMarker c.header →
          (∀ n, c.newest = some n → (headerSequence c.header).toNat ≤ n.sequence.toNat → newest = some n) ∧
          ((∀ n, c.newest = some n → n.sequence.toNat < (headerSequence c.header).toNat) → newest = some
            { slot := c.slot, isMarker := headerKind c.header == 0xC2#8, sequence := headerSequence c.header
              previous := headerPrevious c.header, checkpoint := headerCheckpoint c.header })) ∧
        (c.slot + 1 < cap → reads t { c with newest := newest, slot := c.slot + 1, step := .readHeader } 0#32) ∧
        (cap ≤ c.slot + 1 →
          (newest = none → empty t .scanEmpty 0) ∧
          (∀ n, newest = some n →
            (n.isMarker = true → walks t { c with
              newest := newest, pass := .walk, tail := n.slot, expected := n.previous, bound := some n.checkpoint } n) ∧
            (n.isMarker = false → walks t { c with
              newest := newest, pass := .walk, tail := (n.slot + 1) % cap, expected := n.sequence, bound := none } n)))) ∧
      (c.step = .readSecond → c.pass = .walk → ∀ n, c.newest = some n →
        ∀ k, k = headerCheckpoint c.header →
        ∀ takes : Prop, takes = (ValidRecord c.header c.first data ∧ headerSequence c.header = c.expected ∧
          c.floor.toNat ≤ k.toNat ∧ (∀ b, c.bound = some b → k.toNat ≤ b.toNat) ∧ (k ∈ c.numbers ∨ c.numbers.length < 24)) →
        (¬takes → rebuilt t c n) ∧
        (takes → ∀ c' : Scan, c' = { c with
            included := c.included + 1, bound := some k, expected := headerPrevious c.header
            runs := joinRun c.runs k c.slot (headerSequence c.header) } →
          ((headerPrevious c.header).toNat < (headerSequence c.header).toNat → walks t c' n) ∧
          ((headerSequence c.header).toNat ≤ (headerPrevious c.header).toNat → rebuilt t c' n)))) ∧
    (∃ t, exec (.scanReadAnswer .fault) s = .next { s with chip := t } ∧ empty t .scanFault c.slot)

/-! ## The Copy Engine -/

/-- COPY (R97, R98, R99): with the context IDLE the oldest waiting job is granted. An operand outside R98 ends it BAD OPERAND; otherwise the
context takes the operands, waiting writes into a source granule of a CONSISTENT copy go back to the write check, and the first
span begins. An image that a capture has read before, a FAULT on such a read, and a read that has its first line, serve no
copy-ahead of this copy (R105, R108; log entries 10 and 30). -/
def Obligations.CopyGranted : Prop :=
  ∀ (s : Machine.State) (l : Lane) (addr : Word) (d : Descriptor) (rest : List Lane), s.chip.copy.state = .idle →
    s.chip.copy.waiting = l :: rest → s.chip.HasJob l .wait addr d → d.code = 15#8 →
    ∀ a b c m : Nat, a = d.a.toNat → b = d.b.toNat → c = d.c.toNat → m = d.d.toNat / 256 % 256 →
    ∀ bad : Prop, bad = (c = 0 ∨ 16777216 < c ∨ 0xFFFFFFFF < a + c - 1 ∨ 0xFFFFFFFF < b + c - 1 ∨
      (a ≤ b + c - 1 ∧ b ≤ a + c - 1) ∨ 1 < m ∨
      (m = 1 ∧ (4096 < (a + c - 1) / 64 - a / 64 + 1 ∨ (a / 64 ≤ (b + c - 1) / 64 ∧ b / 64 ≤ (a + c - 1) / 64)))) →
    ∀ begun : Prop, begun = (∃ k, s.chip.log.capture = some k ∧ k.step = .readSecond ∧ k.request.requester = .host) →
    ∃ t image, exec .copy s = .next { s with chip := t } ∧ t.regions = s.chip.regions ∧ t.log = s.chip.log ∧
      (begun → image = .unshared) ∧ (¬begun → image = .absent) ∧
      (bad → HandsBack s.chip t l addr d .badOperand 0#32 ∧
        SameBesideHandBack { s.chip with copy := { s.chip.copy with waiting := rest } } t) ∧
      (¬bad → ∃ u : Chip, SpanBegun u t ∧ LaneRuns s.chip u l ∧
        (∀ r, r ∈ u.copy.queue ↔ r ∈ s.chip.arbiter.requests ∧ r.access.write = true ∧ m = 1 ∧
          a / 64 ≤ r.access.addr.toNat / 64 ∧ r.access.addr.toNat / 64 ≤ (a + c - 1) / 64) ∧
        (∀ r, r ∈ u.arbiter.requests ↔ r ∈ s.chip.arbiter.requests ∧ r ∉ u.copy.queue) ∧
        (m = 0 ∧ u.copy.mode = .plain ∨ m = 1 ∧ u.copy.mode = .consistent) ∧
        u.copy.budget.toNat = d.d.toNat % 256 ∧
        u = { s.chip with
          lanes := u.lanes
          arbiter := { s.chip.arbiter with requests := u.arbiter.requests }
          path := { s.chip.path with forward := s.chip.path.forward.map fun f => { f with image := image } }
          copy := { s.chip.copy with
            state := .copying, source := d.a, dest := d.b, length := c, mode := u.copy.mode, budget := u.copy.budget
            budgetLeft := u.copy.budget, frontier := 0, lane := l, cancelPend := false, map := 0#4096
            windowTimer := u.copy.budget != 0#8, waiting := rest, front := none, ahead := none, queue := u.copy.queue
            fix := none, cancels := [] } })

/-- FRONTIER_TRANSFER_ANSWER (R101, R102, R103, R109, R116): the reads of a span and then its destination writes follow one another, each
write by the steps of R102; after the last the span is complete and the next begins, or the copy ends DONE; a span that
copy-ahead has covered is left; a FAULT fails the frontier.
When the covered span is left is the model's reading (log entry 8), and so is what becomes of a copy-ahead in progress when the
last span completes (log entry 20). -/
def Obligations.FrontierTransferAnswer : Prop :=
  ∀ (s : Machine.State) (f : Front), s.chip.InFlight .frontier → s.chip.copy.front = some f → s.chip.copy.fix = none →
    ∀ s₁ : Chip, s₁ = { s.chip with arbiter := s.chip.portFree } →
    (∀ data, ∃ t, exec (.frontierTransferAnswer (.done data)) s = .next { s with chip := t } ∧
      (f.covered = true → NextSpan { s₁ with copy := { s.chip.copy with front := none } } t) ∧
      (f.covered = false →
        (f.phase = .read →
          (∀ a b rest, f.reads = a :: b :: rest → t = { s₁ with
            copy := { s.chip.copy with
              spanBuffer := depositLine s.chip.copy.spanBuffer a data, front := some { f with reads := b :: rest } }
            arbiter := { s.chip.portFree with requests := s.chip.arbiter.requests ++
              [{ owner := .frontier, cls := .frontier, access := readLine b, stale := false }] } }) ∧
          (∀ a p ps, f.reads = [a] → f.writes = p :: ps →
            FrontWriteStarted { s₁ with copy := { s.chip.copy with
              spanBuffer := depositLine s.chip.copy.spanBuffer a data
              front := some { f with reads := [], phase := .port } } } t { f with reads := [] } p)) ∧
        (f.phase ≠ .read →
          (∀ q p ps, f.writes = q :: p :: ps → FrontWriteStarted s₁ t { f with writes := p :: ps, went := false } p) ∧
          (∀ q, f.writes = [q] →
            (s.chip.copy.mode = .plain →
              NextSpan { s₁ with copy := { s.chip.copy with front := none, frontier := f.start + f.length } } t) ∧
            (s.chip.copy.mode = .consistent →
              NextSpan { s₁ with copy := { s.chip.copy with front := none }.markCopied (s.chip.copy.spanAt f.start) } t))))) ∧
    (∃ t, exec (.frontierTransferAnswer .fault) s = .next { s with chip := t } ∧
      (f.phase = .read → FrontFailed s₁ t .sourceFault) ∧ (f.phase ≠ .read → FrontFailed s₁ t .destFault))

/-- PACING_WINDOW_EXPIRY (R104): BUDGET LEFT becomes BUDGET; a PAUSED-BUDGET copy becomes COPYING and its span is charged and begins; in the
other states nothing else changes, and with the timer stopped nothing does.
The last clause is the model's choice (log entry 11). -/
def Obligations.PacingWindowExpiry : Prop :=
  ∀ s : Machine.State,
    (s.chip.copy.windowTimer = false → exec .pacingWindowExpiry s = .next s) ∧
    (s.chip.copy.windowTimer = true → ∀ u : CopyStatus → Chip, u = (fun st => { s.chip with
        copy := { s.chip.copy with budgetLeft := s.chip.copy.budget, state := st } }) →
      (s.chip.copy.state ≠ .pausedBudget → exec .pacingWindowExpiry s = .next { s with chip := u s.chip.copy.state }) ∧
      (s.chip.copy.state = .pausedBudget → s.chip.copy.fix = none →
        ∃ t, exec .pacingWindowExpiry s = .next { s with chip := t } ∧ SpanBegun (u .copying) t))

/-- COPY_AHEAD_REQUEST (R106, R107, R108, R110, R111): with no copy-ahead in progress the oldest request is taken and its entry looked at
again. COPIED releases the write to the port; NOT COPIED starts a copy-ahead at the write's class, which reads the granule's
range bytes, or goes on from the image that a capture of the same host write has read, or fails where that read was answered
FAULT. A write that a configure has withdrawn has its copy-ahead run, but is not issued.
The model's readings: the command changes nothing while a copy-ahead is in progress (log entry 11); the image serves only a copy
accepted before its read began (log entry 30), and its FAULT ends the copy SOURCE FAULT when the write's own request is taken (log entry 10); a
record write that waits is found by log entry 7; and the withdrawn write is log entry 28. -/
def Obligations.CopyAheadRequest : Prop :=
  ∀ (s : Machine.State) (r : PortRequest) (rest : List PortRequest), s.chip.copy.queue = r :: rest →
    (s.chip.copy.ahead ≠ none → exec .copyAheadRequest s = .next s) ∧
    (s.chip.copy.ahead = none → ∃ t, exec .copyAheadRequest s = .next { s with chip := t } ∧
      ∀ s₁ : Chip, s₁ = { s.chip with copy := { s.chip.copy with queue := rest } } →
      (s.chip.copy.notCopied r.access.addr = none →
        (r.withdrawn = true → t = s₁) ∧
        (r.withdrawn = false →
          t = { s₁ with arbiter := { s.chip.arbiter with requests := s.chip.arbiter.requests ++ [r] } })) ∧
      (∀ k, s.chip.copy.notCopied r.access.addr = some k →
        ∀ start len, start = s.chip.copy.spanStart k → len = s.chip.copy.spanLength k →
        ∀ a : List Word → Ahead, a = (fun reads => { entry := k, cls := r.cls, reads := reads, waitsCap := false, went := false
                                                     trigger := if r.withdrawn then none else some r
                                                     writes := s.chip.copy.pieces start len }) →
        (s.chip.sharedImage r = .absent ∨ s.chip.sharedImage r = .unshared →
          ∀ line more, sourceLines (s.chip.copy.source.toNat + start) len = line :: more →
          t = { s₁ with
            copy := { s₁.copy with ahead := some (a (line :: more)) }
            arbiter := { s.chip.arbiter with requests := s.chip.arbiter.requests ++
              [{ owner := .copyAhead, cls := r.cls, access := readLine line, stale := false }] } }) ∧
        (∀ image, s.chip.sharedImage r = .held image → ∀ p ps, s.chip.copy.pieces start len = p :: ps →
          AheadWriteStarted { s₁ with copy := { s₁.copy with ahead := some (a []), aheadBuffer := image } } t (a []) p) ∧
        (s.chip.sharedImage r = .failed → AheadFailed { s₁ with
          copy := { s₁.copy with ahead := some (a (sourceLines (s.chip.copy.source.toNat + start) len)) } } t .sourceFault)))

/-- COPY_AHEAD_TRANSFER_ANSWER (R103, R107, R109, R111, R112, R116, R117): the reads and then the destination writes follow one another;
after the last the entry is COPIED, FRONTIER advances and the triggering write requests the port. Then a copy whose outcome is
fixed or whose FRONTIER is at LENGTH ends, and a frontier on the same span moves on: a transfer that waits is withdrawn and the
next span begins, and a write whose capture request has been made is issued on go; a FAULT ends the copy.
The model's readings: a record write that waits is found by log entry 7; when a covered span is left is log entry 8, and when
the copy ends is log entry 19. No transfer of the frontier is in flight here, for the port has one transaction (R121). -/
def Obligations.CopyAheadTransferAnswer : Prop :=
  ∀ (s : Machine.State) (a : Ahead), s.chip.InFlight .copyAhead → s.chip.copy.ahead = some a →
    ∀ s₁ : Chip, s₁ = { s.chip with arbiter := s.chip.portFree } →
    (∀ data, ∃ t, exec (.copyAheadTransferAnswer (.done data)) s = .next { s with chip := t } ∧
      (∀ x y more, a.reads = x :: y :: more → t = { s₁ with
        copy := { s.chip.copy with
          aheadBuffer := depositLine s.chip.copy.aheadBuffer x data, ahead := some { a with reads := y :: more } }
        arbiter := { s.chip.portFree with requests := s.chip.arbiter.requests ++
          [{ owner := .copyAhead, cls := a.cls, access := readLine y, stale := false }] } }) ∧
      (∀ x p ps, a.reads = [x] → a.writes = p :: ps →
        AheadWriteStarted { s₁ with copy := { s.chip.copy with
          aheadBuffer := depositLine s.chip.copy.aheadBuffer x data, ahead := some { a with reads := [] } } } t
          { a with reads := [] } p) ∧
      (∀ q p ps, a.reads = [] → a.writes = q :: p :: ps →
        AheadWriteStarted { s₁ with copy := { s.chip.copy with ahead := some { a with writes := p :: ps, went := false } } } t
          { a with writes := p :: ps, went := false } p) ∧
      (∀ q, a.reads = [] → a.writes = [q] →
        ∀ u : Chip, u = { s₁ with
          copy := { s.chip.copy.markCopied a.entry with ahead := none }
          arbiter := { s.chip.portFree with requests := s.chip.arbiter.requests ++ a.trigger.toList } } →
        (∀ o, s.chip.copy.fix = some (.frontier o) → CopyEnded u t o) ∧
        (s.chip.copy.fix = some .cancel → CopyEnded u t .cancelled) ∧
        (s.chip.copy.fix = none → u.copy.frontier = s.chip.copy.length → CopyEnded u t .done ∧
          ∀ f p ps, s.chip.copy.front = some f → f.phase = .capture → f.writes = p :: ps →
            ∀ leaves : CaptureRequest → CaptureRequest, leaves = (fun q => if q.requester = .frontier
              then { q with requester := .left (s.chip.copy.pieceAccess s.chip.copy.spanBuffer p) } else q) →
            (∀ q, q ∈ t.log.requests ↔ q ∈ s.chip.log.requests.map leaves ∧ q.requester ≠ .copyAhead) ∧
            (∀ c, s.chip.log.capture = some c → c.request.requester = .frontier →
              t.log.capture = some { c with request := leaves c.request })) ∧
        (s.chip.copy.fix = none → u.copy.frontier ≠ s.chip.copy.length →
          ((∀ f, s.chip.copy.front = some f → s.chip.copy.spanAt f.start ≠ a.entry) → t = u) ∧
          (∀ f, s.chip.copy.front = some f → s.chip.copy.spanAt f.start = a.entry →
            (f.phase = .capture ∨ (f.phase = .port ∧ f.went = true) →
              t = { u with copy := { u.copy with front := some { f with covered := true, writes := f.writes.take 1 } } }) ∧
            (f.phase = .read ∨ f.phase = .paused ∨ (f.phase = .port ∧ f.went = false) →
              ∃ v : Chip, SpanBegun v t ∧ v.copy = { u.copy with state := .copying, front := none } ∧
                v.arbiter = { u.arbiter with
                  requests := u.arbiter.requests.filter fun r => r.owner != .frontier || r.stale } ∧
                v.log.requests = s.chip.log.requests.filter (fun q => q.requester != .frontier) ∧
                SameBeyondCopy u v ∧ v.lanes = u.lanes))))) ∧
    (∃ t, exec (.copyAheadTransferAnswer .fault) s = .next { s with chip := t } ∧
      (a.reads = [] → AheadFailed s₁ t .destFault) ∧ (a.reads ≠ [] → AheadFailed s₁ t .sourceFault))

/-- CANCEL_COPY (R117, R118): with no active copy it ends DONE with result 0; an active copy without a copy-ahead in progress or waiting ends
CANCELLED and the cancelling job with it; with one in progress CANCEL PENDING is set, the frontier stops, and the job waits in
RUN; with requests that only wait, the oldest is taken first, and the cancel then meets what that leaves (log entry 27). That a
paused copy too waits for a copy-ahead in progress is the model's choice (log entry 37), and so is that the outcome of a frontier
fault stands (log entry 42). -/
def Obligations.CancelCopy : Prop :=
  ∀ (s : Machine.State) (l : Lane) (addr : Word) (d : Descriptor), s.chip.HasJob l .run addr d → d.code = 16#8 →
    l ∉ s.chip.copy.cancels →
    ∃ t, exec (.cancelCopy l) s = .next { s with chip := t } ∧
      (s.chip.copy.state = .idle → HandsBack s.chip t l addr d .done 0#32 ∧ SameBesideHandBack s.chip t ∧
        t.regions = s.chip.regions ∧ t.log = s.chip.log) ∧
      (s.chip.copy.state ≠ .idle → s.chip.copy.ahead = none → s.chip.copy.queue = [] →
        CopyEnded { s.chip with copy := { s.chip.copy with cancels := s.chip.copy.cancels ++ [l] } } t .cancelled) ∧
      (s.chip.copy.state ≠ .idle → s.chip.copy.ahead ≠ none → SameBeyondCopy s.chip t ∧ t.lanes = s.chip.lanes ∧
        t.copy = { s.chip.copy with
          cancelPend := true, front := none, cancels := s.chip.copy.cancels ++ [l]
          fix := some (s.chip.copy.fix.getD .cancel) }) ∧
      (s.chip.copy.state ≠ .idle → s.chip.copy.ahead = none → s.chip.copy.queue ≠ [] →
        ∃ u : Chip, exec .copyAheadRequest s = .next { s with chip := u } ∧
          exec (.cancelCopy l) { s with chip := u } = .next { s with chip := t })

/-! ## Lanes -/

/-- DESCRIPTOR_FETCH_ANSWER (R149, R150, R151, R157): FAULT posts DESCRIPTOR FAULT and ends the chain; otherwise the descriptor is kept in
CURRENT, and then a non-zero OUTCOME posts DESCRIPTOR STALE and ends the chain, and else the CODE sends the lane to RUN, to WAIT
at an arbiter, or to FINISH with BAD CODE.
An access of the lane that waits for the answer is log entry 39. -/
def Obligations.DescriptorFetchAnswer : Prop :=
  ∀ (s : Machine.State) (l : Lane) (c : CurrentJob), s.chip.InFlight (.laneFetch l) → (s.chip.lane l).current = some c →
    ∀ s₁ : Chip, s₁ = { s.chip with arbiter := s.chip.portFree } →
    (∃ u t, exec (.descriptorFetchAnswer .fault) s = .next { s with chip := t } ∧ NextAccessMade s₁ u l ∧
      Handed u t (.lane l) (recordOf .descriptorFault l 0#16 0#32 c.addr) (.laneEnd l) (ChainEnds l)) ∧
    (∀ data, ∀ d : Descriptor, d = { code := field data 0 8, flags := field data 1 8, next := field data 8 32, tag := field data 12 32
                                     a := field data 16 32, b := field data 20 32, c := field data 24 32, d := field data 28 32 } →
      ∃ u v t, exec (.descriptorFetchAnswer (.done data)) s = .next { s with chip := t } ∧ NextAccessMade s₁ u l ∧
      LaneSet u v l { s.chip.lane l with current := some { c with desc := some d } } ∧
      v = { u with lanes := { u.lanes with lanes := v.lanes.lanes } } ∧
      ∀ enters : LaneStatus → Prop, enters = (fun st => LaneSet v t l { v.lane l with state := st } ∧
        t = { v with lanes := { v.lanes with lanes := t.lanes.lanes }, log := t.log, copy := t.copy }) →
      (field data 2 16 ≠ 0#16 →
        Handed v t (.lane l) (recordOf .descriptorStale l (field data 2 16) d.tag c.addr) (.laneEnd l) (ChainEnds l)) ∧
      (field data 2 16 = 0#16 →
        (16 < d.code.toNat → HandsBack v t l c.addr d .badCode 0#32 ∧ SameBesideHandBack v t ∧
          t.regions = s.chip.regions ∧ t.log = s.chip.log) ∧
        (d.code.toNat ≤ 7 ∨ d.code.toNat = 16 → enters .run ∧ t.log = v.log ∧ t.copy = v.copy) ∧
        (8 ≤ d.code.toNat → d.code.toNat ≤ 14 → enters .wait ∧ t.copy = v.copy ∧
          t.log = { v.log with waiting := v.log.waiting ++ [l] }) ∧
        (d.code.toNat = 15 → enters .wait ∧ t.log = v.log ∧
          t.copy = { v.copy with waiting := v.copy.waiting ++ [l] })))

/-- NULL (R152): it ends at once with DONE and result 0, and has no other effect. -/
def Obligations.NullJob : Prop :=
  ∀ (s : Machine.State) (l : Lane) (addr : Word) (d : Descriptor), s.chip.HasJob l .run addr d → d.code = 0#8 →
    ∃ t, exec (.null l) s = .next { s with chip := t } ∧ HandsBack s.chip t l addr d .done 0#32 ∧
      SameBesideHandBack s.chip t ∧ t.regions = s.chip.regions ∧ t.log = s.chip.log

/-- OUTCOME_WRITE_ANSWER (R154, R155, R156, R157): FAULT posts OUTCOME FAULT and ends the chain; DONE posts JOB DONE, nothing or JOB FAILED and the
chain is decided. A write that the ring guard kept from being issued counts as answered FAULT.
When that guard is taken is the model's reading (log entry 18), and an access of the lane that waits for the answer is log entry 39. -/
def Obligations.OutcomeWriteAnswer : Prop :=
  ∀ (s : Machine.State) (l : Lane) (addr : Word) (d : Descriptor) (o : JobOutcome) (result : Word),
    (s.chip.lane l).current = some { addr := addr, desc := some d, outcome := some o, result := result } →
    ∀ record : AttnKind → AttnRecord, record = (fun k => recordOf k l o.code d.tag addr) →
    (s.chip.InFlight (.laneOutcome l) → ∀ s₁ : Chip, s₁ = { s.chip with arbiter := s.chip.portFree } →
      (∃ u t, exec (.outcomeWriteAnswer .fault) s = .next { s with chip := t } ∧ NextAccessMade s₁ u l ∧
        Handed u t (.lane l) (record .outcomeFault) (.laneEnd l) (ChainEnds l)) ∧
      (∀ data, ∃ u t, exec (.outcomeWriteAnswer (.done data)) s = .next { s with chip := t } ∧ NextAccessMade s₁ u l ∧
        (o = .done → d.flags.getLsbD 0 = false → ChainDecided l d o u t) ∧
        (o = .done → d.flags.getLsbD 0 = true →
          Handed u t (.lane l) (record .jobDone) (.laneDecide l) (ChainDecided l d o)) ∧
        (o ≠ .done → Handed u t (.lane l) (record .jobFailed) (.laneDecide l) (ChainDecided l d o)))) ∧
    (∀ r a, (∀ m, ¬s.chip.InFlight (.laneOutcome m)) → s.chip.lanes.refused = some r → r.owner = .laneOutcome l →
      ∃ v u t, exec (.outcomeWriteAnswer a) s = .next { s with chip := t } ∧ SameBesideHandBack s.chip v ∧
        (∀ m, v.lane m = s.chip.lane m) ∧ v.regions = s.chip.regions ∧ v.log = s.chip.log ∧
        (r :: v.waitingAccesses).Perm s.chip.waitingAccesses ∧ NextAccessMade v u l ∧
        Handed u t (.lane l) (record .outcomeFault) (.laneEnd l) (ChainEnds l))

/-- DIRECT_OUTCOME_WRITE_ANSWER (R148, R157): DONE posts JOB FAILED and FAULT posts OUTCOME FAULT, with TAG 0 and the descriptor's address; then the
next owed write follows, or the take ends. A write that the ring guard kept from being issued counts as answered FAULT.
When that guard is taken is the model's reading (log entry 18), and an access of the lane that waits for the answer is log entry 39. -/
def Obligations.DirectOutcomeAnswer : Prop :=
  ∀ (s : Machine.State) (l : Lane) (o : JobOutcome) (addr : Word) (rest : List Word) (finish : Bool),
    s.chip.lanes.take = some { lane := l, outcome := o, owed := addr :: rest, finishAfter := finish } →
    ∀ record : AttnKind → AttnRecord, record = (fun k => recordOf k l o.code 0#32 addr) →
    (s.chip.InFlight (.laneDirect l) → ∀ s₁ : Chip, s₁ = { s.chip with arbiter := s.chip.portFree } →
      (∃ u t, exec (.directOutcomeWriteAnswer .fault) s = .next { s with chip := t } ∧ NextAccessMade s₁ u l ∧
        Handed u t (.lane l) (record .outcomeFault) .take (TakeGoesOn l o rest finish)) ∧
      (∀ data, ∃ u t, exec (.directOutcomeWriteAnswer (.done data)) s = .next { s with chip := t } ∧ NextAccessMade s₁ u l ∧
        Handed u t (.lane l) (record .jobFailed) .take (TakeGoesOn l o rest finish))) ∧
    (∀ r a, (∀ m, ¬s.chip.InFlight (.laneDirect m)) → s.chip.lanes.refused = some r → r.owner = .laneDirect l →
      ∃ v u t, exec (.directOutcomeWriteAnswer a) s = .next { s with chip := t } ∧ SameBesideHandBack s.chip v ∧
        (∀ m, v.lane m = s.chip.lane m) ∧ v.regions = s.chip.regions ∧ v.log = s.chip.log ∧
        (r :: v.waitingAccesses).Perm s.chip.waitingAccesses ∧ NextAccessMade v u l ∧
        Handed u t (.lane l) (record .outcomeFault) .take (TakeGoesOn l o rest finish))

/-! ## The Attention Unit -/

/-- CONFIGURE_ATTENTION (R167, R168): operand A of 0 unconfigures; otherwise the checks decide in order. An accepted job takes effect at once,
its waiting write withdrawn and its record back at the head of the post list, or waits for the answer to a write in flight. A
copy-ahead that the withdrawn write has triggered, begun or waiting, runs to its end without it.
That mark on a waiting request is the model's (log entry 28), and so is the order of the writes that one step makes (log entries 44
and 46); a second configure that meets a waiting one is not stated here
(log entry 38). -/
def Obligations.ConfigureAttention : Prop :=
  ∀ (s : Machine.State) (l : Lane) (addr : Word) (d : Descriptor), s.chip.HasJob l .run addr d → d.code = 2#8 →
    s.chip.attention.configure = none →
    ∀ a n : Nat, a = d.a.toNat → n = 16 * d.b.toNat →
    ∀ bad : Prop, bad = (d.b.toNat < 8 ∨ 1024 < d.b.toNat ∨ 0xFFFFFFFF < a + n - 1 ∨ 1 < d.c.toNat) →
    ∀ meets : Prop, meets = (s.chip.regionOverlaps a n = true ∨ s.chip.pageOverlaps a n = true ∨
      s.chip.logRingOverlaps a n = true) →
    ∃ t, exec (.configureAttention l) s = .next { s with chip := t } ∧
      ∀ refused : JobOutcome → Prop, refused = (fun o => HandsBack s.chip t l addr d o 0#32 ∧ SameBesideHandBack s.chip t ∧
        t.regions = s.chip.regions ∧ t.log = s.chip.log) →
      (a ≠ 0 → a % 16 ≠ 0 → refused .alignment) ∧ (a ≠ 0 → a % 16 = 0 → bad → refused .badOperand) ∧
      (a ≠ 0 → a % 16 = 0 → ¬bad → meets → refused .overlap) ∧
      (a = 0 ∨ (a % 16 = 0 ∧ ¬bad ∧ ¬meets) →
        ∃ c : PendingConfigure, c.lane = l ∧ c.base = d.a ∧ (a ≠ 0 → c.capacity = d.b.toNat) ∧
          (a ≠ 0 → (c.lineEnable = true ↔ d.c = 1#32)) ∧
          (s.chip.InFlight .attention →
            t = { s.chip with attention := { s.chip.attention with configure := some c } }) ∧
          (¬s.chip.InFlight .attention → ∃ u, ConfigureTaken u t c addr d ∧
            u = { s.chip with
              arbiter := { s.chip.arbiter with requests := s.chip.arbiter.requests.filter fun r => r.owner != .attention }
              copy := { s.chip.copy with
                queue := s.chip.copy.queue.map fun r => if r.owner = .attention then { r with stale := true } else r
                ahead := s.chip.copy.ahead.map fun h => { h with trigger := h.trigger.filter fun r => r.owner != .attention } }
              attention := { s.chip.attention with posting := none, posts := u.attention.posts } } ∧
            ((∀ p x, s.chip.attention.posting = some p → p.kind = .record x → p.step = .produce) →
              u.attention.posts = s.chip.attention.posts) ∧
            (∀ p x, s.chip.attention.posting = some p → p.kind = .record x → p.step ≠ .produce →
              u.attention.posts = [x] ++ s.chip.attention.posts)))

/-- ATTENTION_POSTING (R169, R170, R171): the oldest listed record leaves the list and its source's room is free. Below capacity − 1 it is
written with the next SEQUENCE; at capacity − 1 an OVERRUN record with SUBJECT 1 is written in its place; at capacity with
overrun in force the OVERRUN record is rewritten with its count one higher, and its SEQUENCE unchanged. That this write comes
before a write of the source that goes on is the model's (log entry 46). -/
def Obligations.AttentionPosting : Prop :=
  ∀ (s : Machine.State) (x : Listed) (rest : List Listed), s.chip.attention.configured = true →
    s.chip.attention.posting = none → s.chip.attention.posts = [x] ++ rest →
    ∀ n cap, n = (s.chip.attention.produce - s.chip.attention.consume).toNat → cap = s.chip.attention.capacity →
    ∀ slot, slot = s.chip.attention.produce.toNat % cap →
    ∀ at_ : Nat → Word, at_ = (fun i => s.chip.attention.base + BitVec.ofNat 32 (16 * i)) →
    ∀ seq, seq = s.chip.attention.sequence + 1#32 →
    ∀ s₁ : Word → Option Overrun → Chip, s₁ = (fun q o => { s.chip with
      attention := { s.chip.attention with posts := rest, sequence := q, overrun := o } }) →
    ∃ u t, exec .attentionPosting s = .next { s with chip := t } ∧
      (n + 1 < cap → PostingIssued (s₁ seq none) u { kind := .record x, sequence := seq, slot := slot, step := .low }
        (writeSingle (at_ slot) 8 (attentionLow x.record))) ∧
      (n + 1 = cap → PostingIssued (s₁ seq none) u { kind := .overrun, sequence := seq, slot := slot, step := .low }
        (writeSingle (at_ slot) 8 (attentionLow (overrunRecord 1#32)))) ∧
      (n = cap → ∀ o, s.chip.attention.overrun = some o →
        ∀ k, k = (if o.dropped = 0xFFFFFFFF#32 then o.dropped else o.dropped + 1#32) →
        PostingIssued (s₁ s.chip.attention.sequence (some { o with dropped := k })) u
          { kind := .rewrite k, sequence := o.sequence, slot := o.slot, step := .low }
          (writeSingle (at_ o.slot) 8 (attentionLow (overrunRecord k)))) ∧
      ((∀ h ∈ s.chip.attention.handings, h.listed.source ≠ x.source) → t = u) ∧
      ((∃ y ∈ rest, y.source = x.source) → t = u) ∧
      (∀ older h newer, (∀ y ∈ rest, y.source ≠ x.source) → u.attention.handings = older ++ h :: newer → (∀ g ∈ older, g.listed.source ≠ x.source) →
        h.listed.source = x.source →
        t = h.after.run (Chip.withPost { u with attention := { u.attention with handings := older ++ newer } }
          x.source h.listed.record))

/-- ATTENTION_WRITE_ANSWER (R168, R170, R171, R173, R174): after the first half the second follows; after the second the produce index rises by
1, for an OVERRUN record overrun comes into force, and the produce word is written; a rewrite ends there, and the produce word
ends a posting. A FAULT deconfigures the ring. A configure that has waited then takes effect. The order of the writes that this
makes is the model's (log entries 44 and 46). -/
def Obligations.AttentionWriteAnswer : Prop :=
  ∀ (s : Machine.State) (p : Posting), s.chip.InFlight .attention → s.chip.attention.posting = some p →
    ∀ s₁ : Chip, s₁ = { s.chip with arbiter := s.chip.portFree } →
    ∀ ended : Chip, ended = { s₁ with attention := { s.chip.attention with posting := none } } →
    ∀ counted : Option Overrun → Chip, counted = (fun o => { s₁ with attention := { s.chip.attention with
      produce := s.chip.attention.produce + 1#16, overrun := o } }) →
    ∀ word, word = produceAccess s.chip.path.pageBase (s.chip.attention.produce + 1#16) →
    ∀ high : AttnRecord → Access, high = (fun r => writeSingle
      (s.chip.attention.base + BitVec.ofNat 32 (16 * p.slot) + 8#32) 8 (attentionHigh r p.sequence)) →
    (∀ data, ∃ t, exec (.attentionWriteAnswer (.done data)) s = .next { s with chip := t } ∧
      (s.chip.attention.configure = none →
        (∀ x, p.kind = .record x →
          (p.step = .low → PostingIssued s₁ t { p with step := .high } (high x.record)) ∧
          (p.step = .high → PostingIssued (counted s.chip.attention.overrun) t { p with step := .produce } word)) ∧
        (p.kind = .overrun →
          (p.step = .low → PostingIssued s₁ t { p with step := .high } (high (overrunRecord 1#32))) ∧
          (p.step = .high → PostingIssued (counted (some { slot := p.slot, dropped := 1#32, sequence := p.sequence })) t
            { p with step := .produce } word)) ∧
        (∀ k, p.kind = .rewrite k →
          (p.step = .low → PostingIssued s₁ t { p with step := .high } (high (overrunRecord k))) ∧
          (p.step = .high → t = ended)) ∧
        (p.step = .produce → t = ended)) ∧
      (∀ c addr d, s.chip.attention.configure = some c → s.chip.HasJob c.lane .run addr d →
        (∀ x, p.kind = .record x → p.step = .low →
          ConfigureTaken { ended with attention := { ended.attention with posts := [x] ++ s.chip.attention.posts } } t c addr d) ∧
        ((∀ x, p.kind = .record x → p.step ≠ .low) → ConfigureTaken ended t c addr d))) ∧
    (∃ u t, exec (.attentionWriteAnswer .fault) s = .next { s with chip := t } ∧ Deconfigured s₁ u ∧
      (s.chip.attention.configure = none → t = u) ∧
      (∀ c addr d, s.chip.attention.configure = some c → s.chip.attention.handings = [] → s.chip.HasJob c.lane .run addr d →
        ConfigureTaken u t c addr d))

/-- The ATTN line (R173): it is asserted exactly while the ring is configured with LINE ENABLE on and the produce and consume indices
differ. It rises only when memory answers DONE to the second half of a record, and falls only at a consume word, a configure,
a FAULT on an attention write and a reset. The answers, a consume word and a configure give it as the indices they leave. -/
def Obligations.AttnLine : Prop :=
  (∀ s : Chip, s.attnLine = true ↔
    s.attention.configured = true ∧ s.attention.lineEnable = true ∧ s.attention.produce ≠ s.attention.consume) ∧
  (∀ (c : Instr) (s t : Machine.State), exec c s = .next t →
    (s.chip.attnLine = false → t.chip.attnLine = true →
      ∃ data p, c = .attentionWriteAnswer (.done data) ∧ s.chip.attention.posting = some p ∧ p.step = .high) ∧
    (s.chip.attnLine = true → t.chip.attnLine = false →
      (∃ page, c = .pinReset page) ∨ c = .resetPart ∨ c = .consumeWord ∨ (∃ l, c = .configureAttention l) ∨
        (∃ a, c = .attentionWriteAnswer a) ∨ c = .retryLimitExhausted)) ∧
  (∀ (s : Machine.State) (p : Posting), s.chip.InFlight .attention → s.chip.attention.posting = some p →
    ∀ a, ∃ t, exec (.attentionWriteAnswer a) s = .next { s with chip := t } ∧
      ∀ counts : Prop, counts = (p.step = .high ∧ ∀ n, p.kind ≠ .rewrite n) →
      (a = .fault ∨ s.chip.attention.configure ≠ none → t.attnLine = false) ∧
      (a ≠ .fault → s.chip.attention.configure = none →
        (counts → (t.attnLine = true ↔ s.chip.attention.configured = true ∧ s.chip.attention.lineEnable = true ∧
          s.chip.attention.produce + 1#16 ≠ s.chip.attention.consume)) ∧
        (¬counts → t.attnLine = s.chip.attnLine))) ∧
  (∀ (s : Machine.State) (f : ForwardPoint) (v : Word) (ws : List PageWord), s.chip.WordNext f .consume v ws →
    ∃ t, exec .consumeWord s = .next { s with chip := t } ∧
      ∀ c : Half, c = BitVec.ofNat 16 (v.toNat % 65536) →
      ∀ valid : Prop, valid = (s.chip.attention.configured = true ∧
        (s.chip.attention.produce - c).toNat ≤ (s.chip.attention.produce - s.chip.attention.consume).toNat) →
      (valid → (t.attnLine = true ↔ s.chip.attention.lineEnable = true ∧ s.chip.attention.produce ≠ c)) ∧
      (¬valid → t.attnLine = s.chip.attnLine)) ∧
  (∀ (s : Machine.State) (l : Lane) (addr : Word) (d : Descriptor), s.chip.HasJob l .run addr d → d.code = 2#8 →
    s.chip.attention.configure = none →
    ∃ t, exec (.configureAttention l) s = .next { s with chip := t } ∧
      ∀ takes : Prop, takes = (s.chip.configureCheck d = .done ∧ ¬s.chip.InFlight .attention) →
      (takes → t.attnLine = false) ∧ (¬takes → t.attnLine = s.chip.attnLine))

/-! ## Laws that every step keeps -/

/-- The law of R14 is kept by every step: a region is CAPTURING only while the log is ATTACHED, and RESTORING only while it is ROLLING. -/
def Obligations.RegionLogLawKept : Prop :=
  ∀ s t : Machine.State, s.chip.RegionLogLaw → step s = .next t → t.chip.RegionLogLaw

/-- The capacities of the post queue (R126), the logged-granule table (R27) and the lanes' queues (R144) are kept by every step. -/
def Obligations.WithinCapacityKept : Prop :=
  ∀ s t : Machine.State, s.chip.WithinCapacity → step s = .next t → t.chip.WithinCapacity

/-- The law of R106 is kept by every step: while a CONSISTENT copy is active, no write that waits for its grant lies in a NOT COPIED source
granule. -/
def Obligations.WriteCheckLawKept : Prop :=
  ∀ s t : Machine.State, s.chip.WriteCheckLaw → step s = .next t → t.chip.WriteCheckLaw

/-- The laws of the ring's indices (R19) and of the checkpoint list (R44) are kept by every step: while records are retained, count is at
most N, tail is (head + count) modulo N, the RECORDS of the entries sum to count and each FIRST SLOT is head plus the RECORDS of
the older entries; in UNSET, PREPARING and SCANNING all of them are 0 and the list is empty. -/
def Obligations.RingLawKept : Prop :=
  ∀ s t : Machine.State, s.chip.log.RingLaw → step s = .next t → t.chip.log.RingLaw

/-- A pin reset, in any state, leaves every region entry FREE with BASE 0, LENGTH 0 and RESUME IDLE; no job is in flight and no outcome write
waits; and no access is held (R15). A soft reset leaves the same. The four laws hold in the reset state. -/
def Obligations.ResetFreesRegions : Prop :=
  ∀ released : Chip → Prop, released = (fun t =>
    (∀ n : Fin 16, t.regions[n] = { state := .free, base := 0#32, length := 0, resume := .idle }) ∧
    (∀ l, (t.lane l).current = none) ∧ t.log.running = none ∧ t.log.waiting = [] ∧ t.copy.waiting = [] ∧
    (∀ r ∈ t.waitingAccesses, r.owner = .startUp) ∧ (∀ a, t.holdApplies a = false) ∧ t.path.upstream = none) →
  (∀ (page : Half) (s : Machine.State), ∃ t, exec (.pinReset page) s = .next { s with chip := t } ∧ released t) ∧
  (∀ (s : Machine.State) (f : ForwardPoint) (l : Lane) (v : Word) (ws : List PageWord),
    s.chip.WordNext f (.submit l) v ws → v.toNat % 32 = 2 →
    ∃ t, exec .resetPart s = .next { s with chip := t } ∧ released t) ∧
  State.reset.chip.RegionLogLaw ∧ State.reset.chip.WithinCapacity ∧ State.reset.chip.WriteCheckLaw ∧
  State.reset.chip.log.RingLaw
end

