-- ==== Sys2Proof/Laws/State.lean ====
section
/-! SUPPORT. What each update of the part's record leaves alone and what it sets, field by field: every lemma holds by `rfl`. -/

namespace Sys2Proof.Machine

/-! ## The Memory Port -/

@[simp] theorem Chip.request_regions (s : Chip) (r : PortRequest) : (s.request r).regions = s.regions := rfl
@[simp] theorem Chip.request_path (s : Chip) (r : PortRequest) : (s.request r).path = s.path := rfl
@[simp] theorem Chip.request_log (s : Chip) (r : PortRequest) : (s.request r).log = s.log := rfl
@[simp] theorem Chip.request_copy (s : Chip) (r : PortRequest) : (s.request r).copy = s.copy := rfl
@[simp] theorem Chip.request_lanes (s : Chip) (r : PortRequest) : (s.request r).lanes = s.lanes := rfl
@[simp] theorem Chip.request_attention (s : Chip) (r : PortRequest) : (s.request r).attention = s.attention := rfl
@[simp] theorem Chip.request_freeIndex (s : Chip) (r : PortRequest) : (s.request r).freeIndex = s.freeIndex := rfl
@[simp] theorem Chip.request_requests (s : Chip) (r : PortRequest) : (s.request r).arbiter.requests = s.arbiter.requests ++ [r] := rfl
@[simp] theorem Chip.request_inFlight (s : Chip) (r : PortRequest) : (s.request r).arbiter.inFlight = s.arbiter.inFlight := rfl
@[simp] theorem Chip.request_retryCount (s : Chip) (r : PortRequest) : (s.request r).arbiter.retryCount = s.arbiter.retryCount := rfl

@[simp] theorem Chip.withdraw_regions (s : Chip) (p : Owner → Bool) : (s.withdraw p).regions = s.regions := rfl
@[simp] theorem Chip.withdraw_path (s : Chip) (p : Owner → Bool) : (s.withdraw p).path = s.path := rfl
@[simp] theorem Chip.withdraw_log (s : Chip) (p : Owner → Bool) : (s.withdraw p).log = s.log := rfl
@[simp] theorem Chip.withdraw_copy (s : Chip) (p : Owner → Bool) : (s.withdraw p).copy = s.copy := rfl
@[simp] theorem Chip.withdraw_lanes (s : Chip) (p : Owner → Bool) : (s.withdraw p).lanes = s.lanes := rfl
@[simp] theorem Chip.withdraw_attention (s : Chip) (p : Owner → Bool) : (s.withdraw p).attention = s.attention := rfl
@[simp] theorem Chip.withdraw_freeIndex (s : Chip) (p : Owner → Bool) : (s.withdraw p).freeIndex = s.freeIndex := rfl
@[simp] theorem Chip.withdraw_requests (s : Chip) (p : Owner → Bool) : (s.withdraw p).arbiter.requests = s.arbiter.requests.filter fun r => !p r.owner := rfl
@[simp] theorem Chip.withdraw_inFlight (s : Chip) (p : Owner → Bool) : (s.withdraw p).arbiter.inFlight = s.arbiter.inFlight := rfl
@[simp] theorem Chip.withdraw_retryCount (s : Chip) (p : Owner → Bool) : (s.withdraw p).arbiter.retryCount = s.arbiter.retryCount := rfl

@[simp] theorem Chip.endTransaction_regions (s : Chip) : (s.endTransaction).regions = s.regions := rfl
@[simp] theorem Chip.endTransaction_path (s : Chip) : (s.endTransaction).path = s.path := rfl
@[simp] theorem Chip.endTransaction_log (s : Chip) : (s.endTransaction).log = s.log := rfl
@[simp] theorem Chip.endTransaction_copy (s : Chip) : (s.endTransaction).copy = s.copy := rfl
@[simp] theorem Chip.endTransaction_lanes (s : Chip) : (s.endTransaction).lanes = s.lanes := rfl
@[simp] theorem Chip.endTransaction_attention (s : Chip) : (s.endTransaction).attention = s.attention := rfl
@[simp] theorem Chip.endTransaction_freeIndex (s : Chip) : (s.endTransaction).freeIndex = s.freeIndex := rfl
@[simp] theorem Chip.endTransaction_arbiter (s : Chip) : (s.endTransaction).arbiter = s.portFree := rfl

@[simp] theorem Chip.portFree_requests (s : Chip) : s.portFree.requests = s.arbiter.requests := rfl
@[simp] theorem Chip.portFree_inFlight (s : Chip) : s.portFree.inFlight = none := rfl
@[simp] theorem Chip.portFree_retryCount (s : Chip) : s.portFree.retryCount = 0 := rfl

/-! ## Attention and lanes -/

@[simp] theorem Chip.listRecord_regions (s : Chip) (src : Source) (r : AttnRecord) : (s.listRecord src r).regions = s.regions := rfl
@[simp] theorem Chip.listRecord_path (s : Chip) (src : Source) (r : AttnRecord) : (s.listRecord src r).path = s.path := rfl
@[simp] theorem Chip.listRecord_arbiter (s : Chip) (src : Source) (r : AttnRecord) : (s.listRecord src r).arbiter = s.arbiter := rfl
@[simp] theorem Chip.listRecord_log (s : Chip) (src : Source) (r : AttnRecord) : (s.listRecord src r).log = s.log := rfl
@[simp] theorem Chip.listRecord_copy (s : Chip) (src : Source) (r : AttnRecord) : (s.listRecord src r).copy = s.copy := rfl
@[simp] theorem Chip.listRecord_lanes (s : Chip) (src : Source) (r : AttnRecord) : (s.listRecord src r).lanes = s.lanes := rfl
@[simp] theorem Chip.listRecord_freeIndex (s : Chip) (src : Source) (r : AttnRecord) : (s.listRecord src r).freeIndex = s.freeIndex := rfl
@[simp] theorem Chip.listRecord_posts (s : Chip) (src : Source) (r : AttnRecord) : (s.listRecord src r).attention.posts = s.attention.posts ++ [{ source := src, record := r }] := rfl
@[simp] theorem Chip.listRecord_configured (s : Chip) (src : Source) (r : AttnRecord) : (s.listRecord src r).attention.configured = s.attention.configured := rfl
@[simp] theorem Chip.listRecord_base (s : Chip) (src : Source) (r : AttnRecord) : (s.listRecord src r).attention.base = s.attention.base := rfl
@[simp] theorem Chip.listRecord_capacity (s : Chip) (src : Source) (r : AttnRecord) : (s.listRecord src r).attention.capacity = s.attention.capacity := rfl
@[simp] theorem Chip.listRecord_lineEnable (s : Chip) (src : Source) (r : AttnRecord) : (s.listRecord src r).attention.lineEnable = s.attention.lineEnable := rfl
@[simp] theorem Chip.listRecord_produce (s : Chip) (src : Source) (r : AttnRecord) : (s.listRecord src r).attention.produce = s.attention.produce := rfl
@[simp] theorem Chip.listRecord_consume (s : Chip) (src : Source) (r : AttnRecord) : (s.listRecord src r).attention.consume = s.attention.consume := rfl
@[simp] theorem Chip.listRecord_sequence (s : Chip) (src : Source) (r : AttnRecord) : (s.listRecord src r).attention.sequence = s.attention.sequence := rfl
@[simp] theorem Chip.listRecord_overrun (s : Chip) (src : Source) (r : AttnRecord) : (s.listRecord src r).attention.overrun = s.attention.overrun := rfl
@[simp] theorem Chip.listRecord_posting (s : Chip) (src : Source) (r : AttnRecord) : (s.listRecord src r).attention.posting = s.attention.posting := rfl
@[simp] theorem Chip.listRecord_handings (s : Chip) (src : Source) (r : AttnRecord) : (s.listRecord src r).attention.handings = s.attention.handings := rfl
@[simp] theorem Chip.listRecord_configure (s : Chip) (src : Source) (r : AttnRecord) : (s.listRecord src r).attention.configure = s.attention.configure := rfl

@[simp] theorem Chip.setLane_regions (s : Chip) (l : Lane) (r : LaneRec) : (s.setLane l r).regions = s.regions := rfl
@[simp] theorem Chip.setLane_path (s : Chip) (l : Lane) (r : LaneRec) : (s.setLane l r).path = s.path := rfl
@[simp] theorem Chip.setLane_arbiter (s : Chip) (l : Lane) (r : LaneRec) : (s.setLane l r).arbiter = s.arbiter := rfl
@[simp] theorem Chip.setLane_log (s : Chip) (l : Lane) (r : LaneRec) : (s.setLane l r).log = s.log := rfl
@[simp] theorem Chip.setLane_copy (s : Chip) (l : Lane) (r : LaneRec) : (s.setLane l r).copy = s.copy := rfl
@[simp] theorem Chip.setLane_attention (s : Chip) (l : Lane) (r : LaneRec) : (s.setLane l r).attention = s.attention := rfl
@[simp] theorem Chip.setLane_freeIndex (s : Chip) (l : Lane) (r : LaneRec) : (s.setLane l r).freeIndex = s.freeIndex := rfl
@[simp] theorem Chip.setLane_accesses (s : Chip) (l : Lane) (r : LaneRec) : (s.setLane l r).lanes.accesses = s.lanes.accesses := rfl
@[simp] theorem Chip.setLane_presented (s : Chip) (l : Lane) (r : LaneRec) : (s.setLane l r).lanes.presented = s.lanes.presented := rfl
@[simp] theorem Chip.setLane_refused (s : Chip) (l : Lane) (r : LaneRec) : (s.setLane l r).lanes.refused = s.lanes.refused := rfl
@[simp] theorem Chip.setLane_take (s : Chip) (l : Lane) (r : LaneRec) : (s.setLane l r).lanes.take = s.lanes.take := rfl

@[simp] theorem Chip.laneRuns_regions (s : Chip) (l : Lane) : (s.laneRuns l).regions = s.regions := rfl
@[simp] theorem Chip.laneRuns_path (s : Chip) (l : Lane) : (s.laneRuns l).path = s.path := rfl
@[simp] theorem Chip.laneRuns_arbiter (s : Chip) (l : Lane) : (s.laneRuns l).arbiter = s.arbiter := rfl
@[simp] theorem Chip.laneRuns_log (s : Chip) (l : Lane) : (s.laneRuns l).log = s.log := rfl
@[simp] theorem Chip.laneRuns_copy (s : Chip) (l : Lane) : (s.laneRuns l).copy = s.copy := rfl
@[simp] theorem Chip.laneRuns_attention (s : Chip) (l : Lane) : (s.laneRuns l).attention = s.attention := rfl
@[simp] theorem Chip.laneRuns_freeIndex (s : Chip) (l : Lane) : (s.laneRuns l).freeIndex = s.freeIndex := rfl
@[simp] theorem Chip.laneRuns_accesses (s : Chip) (l : Lane) : (s.laneRuns l).lanes.accesses = s.lanes.accesses := rfl
@[simp] theorem Chip.laneRuns_presented (s : Chip) (l : Lane) : (s.laneRuns l).lanes.presented = s.lanes.presented := rfl
@[simp] theorem Chip.laneRuns_refused (s : Chip) (l : Lane) : (s.laneRuns l).lanes.refused = s.lanes.refused := rfl
@[simp] theorem Chip.laneRuns_take (s : Chip) (l : Lane) : (s.laneRuns l).lanes.take = s.lanes.take := rfl

@[simp] theorem Chip.beginTake_regions (s : Chip) (l : Lane) (o : JobOutcome) (owed : List Word) (b : Bool) : (s.beginTake l o owed b).regions = s.regions := rfl
@[simp] theorem Chip.beginTake_path (s : Chip) (l : Lane) (o : JobOutcome) (owed : List Word) (b : Bool) : (s.beginTake l o owed b).path = s.path := rfl
@[simp] theorem Chip.beginTake_arbiter (s : Chip) (l : Lane) (o : JobOutcome) (owed : List Word) (b : Bool) : (s.beginTake l o owed b).arbiter = s.arbiter := rfl
@[simp] theorem Chip.beginTake_log (s : Chip) (l : Lane) (o : JobOutcome) (owed : List Word) (b : Bool) : (s.beginTake l o owed b).log = s.log := rfl
@[simp] theorem Chip.beginTake_copy (s : Chip) (l : Lane) (o : JobOutcome) (owed : List Word) (b : Bool) : (s.beginTake l o owed b).copy = s.copy := rfl
@[simp] theorem Chip.beginTake_attention (s : Chip) (l : Lane) (o : JobOutcome) (owed : List Word) (b : Bool) : (s.beginTake l o owed b).attention = s.attention := rfl
@[simp] theorem Chip.beginTake_freeIndex (s : Chip) (l : Lane) (o : JobOutcome) (owed : List Word) (b : Bool) : (s.beginTake l o owed b).freeIndex = s.freeIndex := rfl
@[simp] theorem Chip.beginTake_take (s : Chip) (l : Lane) (o : JobOutcome) (owed : List Word) (b : Bool) : (s.beginTake l o owed b).lanes.take = some { lane := l, outcome := o, owed := owed, finishAfter := b } := rfl
@[simp] theorem Chip.beginTake_lanes (s : Chip) (l : Lane) (o : JobOutcome) (owed : List Word) (b : Bool) : (s.beginTake l o owed b).lanes.lanes = s.lanes.lanes := rfl
@[simp] theorem Chip.beginTake_accesses (s : Chip) (l : Lane) (o : JobOutcome) (owed : List Word) (b : Bool) : (s.beginTake l o owed b).lanes.accesses = s.lanes.accesses := rfl
@[simp] theorem Chip.beginTake_presented (s : Chip) (l : Lane) (o : JobOutcome) (owed : List Word) (b : Bool) : (s.beginTake l o owed b).lanes.presented = s.lanes.presented := rfl
@[simp] theorem Chip.beginTake_refused (s : Chip) (l : Lane) (o : JobOutcome) (owed : List Word) (b : Bool) : (s.beginTake l o owed b).lanes.refused = s.lanes.refused := rfl

@[simp] theorem Chip.withdrawJob_regions (s : Chip) (l : Lane) : (s.withdrawJob l).regions = s.regions := rfl
@[simp] theorem Chip.withdrawJob_path (s : Chip) (l : Lane) : (s.withdrawJob l).path = s.path := rfl
@[simp] theorem Chip.withdrawJob_arbiter (s : Chip) (l : Lane) : (s.withdrawJob l).arbiter = s.arbiter := rfl
@[simp] theorem Chip.withdrawJob_lanes (s : Chip) (l : Lane) : (s.withdrawJob l).lanes = s.lanes := rfl
@[simp] theorem Chip.withdrawJob_attention (s : Chip) (l : Lane) : (s.withdrawJob l).attention = s.attention := rfl
@[simp] theorem Chip.withdrawJob_freeIndex (s : Chip) (l : Lane) : (s.withdrawJob l).freeIndex = s.freeIndex := rfl
@[simp] theorem Chip.withdrawJob_logWaiting (s : Chip) (l : Lane) : (s.withdrawJob l).log.waiting = s.log.waiting.filter (· != l) := rfl
@[simp] theorem Chip.withdrawJob_logState (s : Chip) (l : Lane) : (s.withdrawJob l).log.state = s.log.state := rfl
@[simp] theorem Chip.withdrawJob_copyWaiting (s : Chip) (l : Lane) : (s.withdrawJob l).copy.waiting = s.copy.waiting.filter (· != l) := rfl

/-! ## The Path Controller -/

@[simp] theorem Chip.answerUpstream_regions (s : Chip) (r : Response) : (s.answerUpstream r).regions = s.regions := rfl
@[simp] theorem Chip.answerUpstream_arbiter (s : Chip) (r : Response) : (s.answerUpstream r).arbiter = s.arbiter := rfl
@[simp] theorem Chip.answerUpstream_log (s : Chip) (r : Response) : (s.answerUpstream r).log = s.log := rfl
@[simp] theorem Chip.answerUpstream_copy (s : Chip) (r : Response) : (s.answerUpstream r).copy = s.copy := rfl
@[simp] theorem Chip.answerUpstream_lanes (s : Chip) (r : Response) : (s.answerUpstream r).lanes = s.lanes := rfl
@[simp] theorem Chip.answerUpstream_attention (s : Chip) (r : Response) : (s.answerUpstream r).attention = s.attention := rfl
@[simp] theorem Chip.answerUpstream_freeIndex (s : Chip) (r : Response) : (s.answerUpstream r).freeIndex = s.freeIndex := rfl
@[simp] theorem Chip.answerUpstream_upstream (s : Chip) (r : Response) : (s.answerUpstream r).path.upstream = none := rfl
@[simp] theorem Chip.answerUpstream_holdTimer (s : Chip) (r : Response) : (s.answerUpstream r).path.holdTimer = none := rfl
@[simp] theorem Chip.answerUpstream_response (s : Chip) (r : Response) : (s.answerUpstream r).path.response = some r := rfl
@[simp] theorem Chip.answerUpstream_pageBase (s : Chip) (r : Response) : (s.answerUpstream r).path.pageBase = s.path.pageBase := rfl
@[simp] theorem Chip.answerUpstream_status (s : Chip) (r : Response) : (s.answerUpstream r).path.status = s.path.status := rfl
@[simp] theorem Chip.answerUpstream_cause (s : Chip) (r : Response) : (s.answerUpstream r).path.cause = s.path.cause := rfl
@[simp] theorem Chip.answerUpstream_post (s : Chip) (r : Response) : (s.answerUpstream r).path.post = s.path.post := rfl
@[simp] theorem Chip.answerUpstream_restoreResponse (s : Chip) (r : Response) : (s.answerUpstream r).path.restoreResponse = s.path.restoreResponse := rfl
@[simp] theorem Chip.answerUpstream_holdLimit (s : Chip) (r : Response) : (s.answerUpstream r).path.holdLimit = s.path.holdLimit := rfl
@[simp] theorem Chip.answerUpstream_postQueue (s : Chip) (r : Response) : (s.answerUpstream r).path.postQueue = s.path.postQueue := rfl
@[simp] theorem Chip.answerUpstream_barrier (s : Chip) (r : Response) : (s.answerUpstream r).path.barrier = s.path.barrier := rfl
@[simp] theorem Chip.answerUpstream_watches (s : Chip) (r : Response) : (s.answerUpstream r).path.watches = s.path.watches := rfl
@[simp] theorem Chip.answerUpstream_forward (s : Chip) (r : Response) : (s.answerUpstream r).path.forward = s.path.forward := rfl
@[simp] theorem Chip.answerUpstream_statusOwed (s : Chip) (r : Response) : (s.answerUpstream r).path.statusOwed = s.path.statusOwed := rfl
@[simp] theorem Chip.answerUpstream_statusBusy (s : Chip) (r : Response) : (s.answerUpstream r).path.statusBusy = s.path.statusBusy := rfl
@[simp] theorem Chip.answerUpstream_acceptCount (s : Chip) (r : Response) : (s.answerUpstream r).path.acceptCount = s.path.acceptCount := rfl

@[simp] theorem Chip.freeForward_regions (s : Chip) : (s.freeForward).regions = s.regions := rfl
@[simp] theorem Chip.freeForward_arbiter (s : Chip) : (s.freeForward).arbiter = s.arbiter := rfl
@[simp] theorem Chip.freeForward_log (s : Chip) : (s.freeForward).log = s.log := rfl
@[simp] theorem Chip.freeForward_copy (s : Chip) : (s.freeForward).copy = s.copy := rfl
@[simp] theorem Chip.freeForward_lanes (s : Chip) : (s.freeForward).lanes = s.lanes := rfl
@[simp] theorem Chip.freeForward_attention (s : Chip) : (s.freeForward).attention = s.attention := rfl
@[simp] theorem Chip.freeForward_freeIndex (s : Chip) : (s.freeForward).freeIndex = s.freeIndex := rfl
@[simp] theorem Chip.freeForward_forward (s : Chip) : (s.freeForward).path.forward = none := rfl
@[simp] theorem Chip.freeForward_pageBase (s : Chip) : (s.freeForward).path.pageBase = s.path.pageBase := rfl
@[simp] theorem Chip.freeForward_status (s : Chip) : (s.freeForward).path.status = s.path.status := rfl
@[simp] theorem Chip.freeForward_cause (s : Chip) : (s.freeForward).path.cause = s.path.cause := rfl
@[simp] theorem Chip.freeForward_post (s : Chip) : (s.freeForward).path.post = s.path.post := rfl
@[simp] theorem Chip.freeForward_restoreResponse (s : Chip) : (s.freeForward).path.restoreResponse = s.path.restoreResponse := rfl
@[simp] theorem Chip.freeForward_holdLimit (s : Chip) : (s.freeForward).path.holdLimit = s.path.holdLimit := rfl
@[simp] theorem Chip.freeForward_upstream (s : Chip) : (s.freeForward).path.upstream = s.path.upstream := rfl
@[simp] theorem Chip.freeForward_postQueue (s : Chip) : (s.freeForward).path.postQueue = s.path.postQueue := rfl
@[simp] theorem Chip.freeForward_holdTimer (s : Chip) : (s.freeForward).path.holdTimer = s.path.holdTimer := rfl
@[simp] theorem Chip.freeForward_barrier (s : Chip) : (s.freeForward).path.barrier = s.path.barrier := rfl
@[simp] theorem Chip.freeForward_watches (s : Chip) : (s.freeForward).path.watches = s.path.watches := rfl
@[simp] theorem Chip.freeForward_statusOwed (s : Chip) : (s.freeForward).path.statusOwed = s.path.statusOwed := rfl
@[simp] theorem Chip.freeForward_statusBusy (s : Chip) : (s.freeForward).path.statusBusy = s.path.statusBusy := rfl
@[simp] theorem Chip.freeForward_acceptCount (s : Chip) : (s.freeForward).path.acceptCount = s.path.acceptCount := rfl
@[simp] theorem Chip.freeForward_response (s : Chip) : (s.freeForward).path.response = s.path.response := rfl

@[simp] theorem Chip.reportIssued_regions (s : Chip) (n : Nat) : (s.reportIssued n).regions = s.regions := rfl
@[simp] theorem Chip.reportIssued_arbiter (s : Chip) (n : Nat) : (s.reportIssued n).arbiter = s.arbiter := rfl
@[simp] theorem Chip.reportIssued_log (s : Chip) (n : Nat) : (s.reportIssued n).log = s.log := rfl
@[simp] theorem Chip.reportIssued_copy (s : Chip) (n : Nat) : (s.reportIssued n).copy = s.copy := rfl
@[simp] theorem Chip.reportIssued_lanes (s : Chip) (n : Nat) : (s.reportIssued n).lanes = s.lanes := rfl
@[simp] theorem Chip.reportIssued_attention (s : Chip) (n : Nat) : (s.reportIssued n).attention = s.attention := rfl
@[simp] theorem Chip.reportIssued_freeIndex (s : Chip) (n : Nat) : (s.reportIssued n).freeIndex = s.freeIndex := rfl
@[simp] theorem Chip.reportIssued_pageBase (s : Chip) (n : Nat) : (s.reportIssued n).path.pageBase = s.path.pageBase := rfl
@[simp] theorem Chip.reportIssued_status (s : Chip) (n : Nat) : (s.reportIssued n).path.status = s.path.status := rfl
@[simp] theorem Chip.reportIssued_cause (s : Chip) (n : Nat) : (s.reportIssued n).path.cause = s.path.cause := rfl
@[simp] theorem Chip.reportIssued_post (s : Chip) (n : Nat) : (s.reportIssued n).path.post = s.path.post := rfl
@[simp] theorem Chip.reportIssued_restoreResponse (s : Chip) (n : Nat) : (s.reportIssued n).path.restoreResponse = s.path.restoreResponse := rfl
@[simp] theorem Chip.reportIssued_holdLimit (s : Chip) (n : Nat) : (s.reportIssued n).path.holdLimit = s.path.holdLimit := rfl
@[simp] theorem Chip.reportIssued_upstream (s : Chip) (n : Nat) : (s.reportIssued n).path.upstream = s.path.upstream := rfl
@[simp] theorem Chip.reportIssued_postQueue (s : Chip) (n : Nat) : (s.reportIssued n).path.postQueue = s.path.postQueue := rfl
@[simp] theorem Chip.reportIssued_holdTimer (s : Chip) (n : Nat) : (s.reportIssued n).path.holdTimer = s.path.holdTimer := rfl
@[simp] theorem Chip.reportIssued_barrier (s : Chip) (n : Nat) : (s.reportIssued n).path.barrier = s.path.barrier := rfl
@[simp] theorem Chip.reportIssued_forward (s : Chip) (n : Nat) : (s.reportIssued n).path.forward = s.path.forward := rfl
@[simp] theorem Chip.reportIssued_statusOwed (s : Chip) (n : Nat) : (s.reportIssued n).path.statusOwed = s.path.statusOwed := rfl
@[simp] theorem Chip.reportIssued_statusBusy (s : Chip) (n : Nat) : (s.reportIssued n).path.statusBusy = s.path.statusBusy := rfl
@[simp] theorem Chip.reportIssued_acceptCount (s : Chip) (n : Nat) : (s.reportIssued n).path.acceptCount = s.path.acceptCount := rfl
@[simp] theorem Chip.reportIssued_response (s : Chip) (n : Nat) : (s.reportIssued n).path.response = s.path.response := rfl

@[simp] theorem Chip.reportDeconfigured_regions (s : Chip) : (s.reportDeconfigured).regions = s.regions := rfl
@[simp] theorem Chip.reportDeconfigured_arbiter (s : Chip) : (s.reportDeconfigured).arbiter = s.arbiter := rfl
@[simp] theorem Chip.reportDeconfigured_log (s : Chip) : (s.reportDeconfigured).log = s.log := rfl
@[simp] theorem Chip.reportDeconfigured_copy (s : Chip) : (s.reportDeconfigured).copy = s.copy := rfl
@[simp] theorem Chip.reportDeconfigured_lanes (s : Chip) : (s.reportDeconfigured).lanes = s.lanes := rfl
@[simp] theorem Chip.reportDeconfigured_attention (s : Chip) : (s.reportDeconfigured).attention = s.attention := rfl
@[simp] theorem Chip.reportDeconfigured_freeIndex (s : Chip) : (s.reportDeconfigured).freeIndex = s.freeIndex := rfl
@[simp] theorem Chip.reportDeconfigured_status (s : Chip) : (s.reportDeconfigured).path.status = .attentionFault := rfl
@[simp] theorem Chip.reportDeconfigured_statusOwed (s : Chip) : (s.reportDeconfigured).path.statusOwed = s.path.statusOwed ++ [.attentionFault] := rfl
@[simp] theorem Chip.reportDeconfigured_pageBase (s : Chip) : (s.reportDeconfigured).path.pageBase = s.path.pageBase := rfl
@[simp] theorem Chip.reportDeconfigured_cause (s : Chip) : (s.reportDeconfigured).path.cause = s.path.cause := rfl
@[simp] theorem Chip.reportDeconfigured_post (s : Chip) : (s.reportDeconfigured).path.post = s.path.post := rfl
@[simp] theorem Chip.reportDeconfigured_restoreResponse (s : Chip) : (s.reportDeconfigured).path.restoreResponse = s.path.restoreResponse := rfl
@[simp] theorem Chip.reportDeconfigured_holdLimit (s : Chip) : (s.reportDeconfigured).path.holdLimit = s.path.holdLimit := rfl
@[simp] theorem Chip.reportDeconfigured_upstream (s : Chip) : (s.reportDeconfigured).path.upstream = s.path.upstream := rfl
@[simp] theorem Chip.reportDeconfigured_postQueue (s : Chip) : (s.reportDeconfigured).path.postQueue = s.path.postQueue := rfl
@[simp] theorem Chip.reportDeconfigured_holdTimer (s : Chip) : (s.reportDeconfigured).path.holdTimer = s.path.holdTimer := rfl
@[simp] theorem Chip.reportDeconfigured_barrier (s : Chip) : (s.reportDeconfigured).path.barrier = s.path.barrier := rfl
@[simp] theorem Chip.reportDeconfigured_watches (s : Chip) : (s.reportDeconfigured).path.watches = s.path.watches := rfl
@[simp] theorem Chip.reportDeconfigured_forward (s : Chip) : (s.reportDeconfigured).path.forward = s.path.forward := rfl
@[simp] theorem Chip.reportDeconfigured_statusBusy (s : Chip) : (s.reportDeconfigured).path.statusBusy = s.path.statusBusy := rfl
@[simp] theorem Chip.reportDeconfigured_acceptCount (s : Chip) : (s.reportDeconfigured).path.acceptCount = s.path.acceptCount := rfl
@[simp] theorem Chip.reportDeconfigured_response (s : Chip) : (s.reportDeconfigured).path.response = s.path.response := rfl

@[simp] theorem Chip.waitUpstream_regions (s : Chip) (a : Access) (w : WaitState) (b : Bool) : (s.waitUpstream a w b).regions = s.regions := rfl
@[simp] theorem Chip.waitUpstream_arbiter (s : Chip) (a : Access) (w : WaitState) (b : Bool) : (s.waitUpstream a w b).arbiter = s.arbiter := rfl
@[simp] theorem Chip.waitUpstream_log (s : Chip) (a : Access) (w : WaitState) (b : Bool) : (s.waitUpstream a w b).log = s.log := rfl
@[simp] theorem Chip.waitUpstream_copy (s : Chip) (a : Access) (w : WaitState) (b : Bool) : (s.waitUpstream a w b).copy = s.copy := rfl
@[simp] theorem Chip.waitUpstream_lanes (s : Chip) (a : Access) (w : WaitState) (b : Bool) : (s.waitUpstream a w b).lanes = s.lanes := rfl
@[simp] theorem Chip.waitUpstream_attention (s : Chip) (a : Access) (w : WaitState) (b : Bool) : (s.waitUpstream a w b).attention = s.attention := rfl
@[simp] theorem Chip.waitUpstream_freeIndex (s : Chip) (a : Access) (w : WaitState) (b : Bool) : (s.waitUpstream a w b).freeIndex = s.freeIndex := rfl
@[simp] theorem Chip.waitUpstream_upstream (s : Chip) (a : Access) (w : WaitState) (b : Bool) : (s.waitUpstream a w b).path.upstream = some { access := a, wait := w, toPost := b, accepted := 0 } := rfl
@[simp] theorem Chip.waitUpstream_pageBase (s : Chip) (a : Access) (w : WaitState) (b : Bool) : (s.waitUpstream a w b).path.pageBase = s.path.pageBase := rfl
@[simp] theorem Chip.waitUpstream_status (s : Chip) (a : Access) (w : WaitState) (b : Bool) : (s.waitUpstream a w b).path.status = s.path.status := rfl
@[simp] theorem Chip.waitUpstream_cause (s : Chip) (a : Access) (w : WaitState) (b : Bool) : (s.waitUpstream a w b).path.cause = s.path.cause := rfl
@[simp] theorem Chip.waitUpstream_post (s : Chip) (a : Access) (w : WaitState) (b : Bool) : (s.waitUpstream a w b).path.post = s.path.post := rfl
@[simp] theorem Chip.waitUpstream_restoreResponse (s : Chip) (a : Access) (w : WaitState) (b : Bool) : (s.waitUpstream a w b).path.restoreResponse = s.path.restoreResponse := rfl
@[simp] theorem Chip.waitUpstream_holdLimit (s : Chip) (a : Access) (w : WaitState) (b : Bool) : (s.waitUpstream a w b).path.holdLimit = s.path.holdLimit := rfl
@[simp] theorem Chip.waitUpstream_postQueue (s : Chip) (a : Access) (w : WaitState) (b : Bool) : (s.waitUpstream a w b).path.postQueue = s.path.postQueue := rfl
@[simp] theorem Chip.waitUpstream_holdTimer (s : Chip) (a : Access) (w : WaitState) (b : Bool) : (s.waitUpstream a w b).path.holdTimer = s.path.holdTimer := rfl
@[simp] theorem Chip.waitUpstream_barrier (s : Chip) (a : Access) (w : WaitState) (b : Bool) : (s.waitUpstream a w b).path.barrier = s.path.barrier := rfl
@[simp] theorem Chip.waitUpstream_watches (s : Chip) (a : Access) (w : WaitState) (b : Bool) : (s.waitUpstream a w b).path.watches = s.path.watches := rfl
@[simp] theorem Chip.waitUpstream_forward (s : Chip) (a : Access) (w : WaitState) (b : Bool) : (s.waitUpstream a w b).path.forward = s.path.forward := rfl
@[simp] theorem Chip.waitUpstream_statusOwed (s : Chip) (a : Access) (w : WaitState) (b : Bool) : (s.waitUpstream a w b).path.statusOwed = s.path.statusOwed := rfl
@[simp] theorem Chip.waitUpstream_statusBusy (s : Chip) (a : Access) (w : WaitState) (b : Bool) : (s.waitUpstream a w b).path.statusBusy = s.path.statusBusy := rfl
@[simp] theorem Chip.waitUpstream_acceptCount (s : Chip) (a : Access) (w : WaitState) (b : Bool) : (s.waitUpstream a w b).path.acceptCount = s.path.acceptCount := rfl
@[simp] theorem Chip.waitUpstream_response (s : Chip) (a : Access) (w : WaitState) (b : Bool) : (s.waitUpstream a w b).path.response = s.path.response := rfl

@[simp] theorem Chip.acceptRead_regions (s : Chip) (a : Access) : (s.acceptRead a).regions = s.regions := rfl
@[simp] theorem Chip.acceptRead_arbiter (s : Chip) (a : Access) : (s.acceptRead a).arbiter = s.arbiter := rfl
@[simp] theorem Chip.acceptRead_log (s : Chip) (a : Access) : (s.acceptRead a).log = s.log := rfl
@[simp] theorem Chip.acceptRead_copy (s : Chip) (a : Access) : (s.acceptRead a).copy = s.copy := rfl
@[simp] theorem Chip.acceptRead_lanes (s : Chip) (a : Access) : (s.acceptRead a).lanes = s.lanes := rfl
@[simp] theorem Chip.acceptRead_attention (s : Chip) (a : Access) : (s.acceptRead a).attention = s.attention := rfl
@[simp] theorem Chip.acceptRead_freeIndex (s : Chip) (a : Access) : (s.acceptRead a).freeIndex = s.freeIndex := rfl
@[simp] theorem Chip.acceptRead_upstream (s : Chip) (a : Access) : (s.acceptRead a).path.upstream = some { access := a, wait := .orderedRead, toPost := false, accepted := s.path.acceptCount } := rfl
@[simp] theorem Chip.acceptRead_acceptCount (s : Chip) (a : Access) : (s.acceptRead a).path.acceptCount = s.path.acceptCount + 1 := rfl
@[simp] theorem Chip.acceptRead_pageBase (s : Chip) (a : Access) : (s.acceptRead a).path.pageBase = s.path.pageBase := rfl
@[simp] theorem Chip.acceptRead_status (s : Chip) (a : Access) : (s.acceptRead a).path.status = s.path.status := rfl
@[simp] theorem Chip.acceptRead_cause (s : Chip) (a : Access) : (s.acceptRead a).path.cause = s.path.cause := rfl
@[simp] theorem Chip.acceptRead_post (s : Chip) (a : Access) : (s.acceptRead a).path.post = s.path.post := rfl
@[simp] theorem Chip.acceptRead_restoreResponse (s : Chip) (a : Access) : (s.acceptRead a).path.restoreResponse = s.path.restoreResponse := rfl
@[simp] theorem Chip.acceptRead_holdLimit (s : Chip) (a : Access) : (s.acceptRead a).path.holdLimit = s.path.holdLimit := rfl
@[simp] theorem Chip.acceptRead_postQueue (s : Chip) (a : Access) : (s.acceptRead a).path.postQueue = s.path.postQueue := rfl
@[simp] theorem Chip.acceptRead_holdTimer (s : Chip) (a : Access) : (s.acceptRead a).path.holdTimer = s.path.holdTimer := rfl
@[simp] theorem Chip.acceptRead_barrier (s : Chip) (a : Access) : (s.acceptRead a).path.barrier = s.path.barrier := rfl
@[simp] theorem Chip.acceptRead_watches (s : Chip) (a : Access) : (s.acceptRead a).path.watches = s.path.watches := rfl
@[simp] theorem Chip.acceptRead_forward (s : Chip) (a : Access) : (s.acceptRead a).path.forward = s.path.forward := rfl
@[simp] theorem Chip.acceptRead_statusOwed (s : Chip) (a : Access) : (s.acceptRead a).path.statusOwed = s.path.statusOwed := rfl
@[simp] theorem Chip.acceptRead_statusBusy (s : Chip) (a : Access) : (s.acceptRead a).path.statusBusy = s.path.statusBusy := rfl
@[simp] theorem Chip.acceptRead_response (s : Chip) (a : Access) : (s.acceptRead a).path.response = s.path.response := rfl

@[simp] theorem Chip.acceptOrdered_regions (s : Chip) (a : Access) : (s.acceptOrdered a).regions = s.regions := rfl
@[simp] theorem Chip.acceptOrdered_arbiter (s : Chip) (a : Access) : (s.acceptOrdered a).arbiter = s.arbiter := rfl
@[simp] theorem Chip.acceptOrdered_log (s : Chip) (a : Access) : (s.acceptOrdered a).log = s.log := rfl
@[simp] theorem Chip.acceptOrdered_copy (s : Chip) (a : Access) : (s.acceptOrdered a).copy = s.copy := rfl
@[simp] theorem Chip.acceptOrdered_lanes (s : Chip) (a : Access) : (s.acceptOrdered a).lanes = s.lanes := rfl
@[simp] theorem Chip.acceptOrdered_attention (s : Chip) (a : Access) : (s.acceptOrdered a).attention = s.attention := rfl
@[simp] theorem Chip.acceptOrdered_freeIndex (s : Chip) (a : Access) : (s.acceptOrdered a).freeIndex = s.freeIndex := rfl
@[simp] theorem Chip.acceptOrdered_upstream (s : Chip) (a : Access) : (s.acceptOrdered a).path.upstream = some { access := a, wait := .orderedWrite, toPost := false, accepted := s.path.acceptCount } := rfl
@[simp] theorem Chip.acceptOrdered_acceptCount (s : Chip) (a : Access) : (s.acceptOrdered a).path.acceptCount = s.path.acceptCount + 1 := rfl
@[simp] theorem Chip.acceptOrdered_holdTimer (s : Chip) (a : Access) : (s.acceptOrdered a).path.holdTimer = none := rfl
@[simp] theorem Chip.acceptOrdered_pageBase (s : Chip) (a : Access) : (s.acceptOrdered a).path.pageBase = s.path.pageBase := rfl
@[simp] theorem Chip.acceptOrdered_status (s : Chip) (a : Access) : (s.acceptOrdered a).path.status = s.path.status := rfl
@[simp] theorem Chip.acceptOrdered_cause (s : Chip) (a : Access) : (s.acceptOrdered a).path.cause = s.path.cause := rfl
@[simp] theorem Chip.acceptOrdered_post (s : Chip) (a : Access) : (s.acceptOrdered a).path.post = s.path.post := rfl
@[simp] theorem Chip.acceptOrdered_restoreResponse (s : Chip) (a : Access) : (s.acceptOrdered a).path.restoreResponse = s.path.restoreResponse := rfl
@[simp] theorem Chip.acceptOrdered_holdLimit (s : Chip) (a : Access) : (s.acceptOrdered a).path.holdLimit = s.path.holdLimit := rfl
@[simp] theorem Chip.acceptOrdered_postQueue (s : Chip) (a : Access) : (s.acceptOrdered a).path.postQueue = s.path.postQueue := rfl
@[simp] theorem Chip.acceptOrdered_barrier (s : Chip) (a : Access) : (s.acceptOrdered a).path.barrier = s.path.barrier := rfl
@[simp] theorem Chip.acceptOrdered_watches (s : Chip) (a : Access) : (s.acceptOrdered a).path.watches = s.path.watches := rfl
@[simp] theorem Chip.acceptOrdered_forward (s : Chip) (a : Access) : (s.acceptOrdered a).path.forward = s.path.forward := rfl
@[simp] theorem Chip.acceptOrdered_statusOwed (s : Chip) (a : Access) : (s.acceptOrdered a).path.statusOwed = s.path.statusOwed := rfl
@[simp] theorem Chip.acceptOrdered_statusBusy (s : Chip) (a : Access) : (s.acceptOrdered a).path.statusBusy = s.path.statusBusy := rfl
@[simp] theorem Chip.acceptOrdered_response (s : Chip) (a : Access) : (s.acceptOrdered a).path.response = s.path.response := rfl

@[simp] theorem Chip.postWrite_regions (s : Chip) (a : Access) : (s.postWrite a).regions = s.regions := rfl
@[simp] theorem Chip.postWrite_arbiter (s : Chip) (a : Access) : (s.postWrite a).arbiter = s.arbiter := rfl
@[simp] theorem Chip.postWrite_log (s : Chip) (a : Access) : (s.postWrite a).log = s.log := rfl
@[simp] theorem Chip.postWrite_copy (s : Chip) (a : Access) : (s.postWrite a).copy = s.copy := rfl
@[simp] theorem Chip.postWrite_lanes (s : Chip) (a : Access) : (s.postWrite a).lanes = s.lanes := rfl
@[simp] theorem Chip.postWrite_attention (s : Chip) (a : Access) : (s.postWrite a).attention = s.attention := rfl
@[simp] theorem Chip.postWrite_freeIndex (s : Chip) (a : Access) : (s.postWrite a).freeIndex = s.freeIndex := rfl
@[simp] theorem Chip.postWrite_upstream (s : Chip) (a : Access) : (s.postWrite a).path.upstream = none := rfl
@[simp] theorem Chip.postWrite_postQueue (s : Chip) (a : Access) : (s.postWrite a).path.postQueue = s.path.postQueue ++ [{ addr := a.addr, shape := a.shape, mask := a.mask, data := a.data, accepted := s.path.acceptCount }] := rfl
@[simp] theorem Chip.postWrite_acceptCount (s : Chip) (a : Access) : (s.postWrite a).path.acceptCount = s.path.acceptCount + 1 := rfl
@[simp] theorem Chip.postWrite_holdTimer (s : Chip) (a : Access) : (s.postWrite a).path.holdTimer = none := rfl
@[simp] theorem Chip.postWrite_response (s : Chip) (a : Access) : (s.postWrite a).path.response = some .done := rfl
@[simp] theorem Chip.postWrite_pageBase (s : Chip) (a : Access) : (s.postWrite a).path.pageBase = s.path.pageBase := rfl
@[simp] theorem Chip.postWrite_status (s : Chip) (a : Access) : (s.postWrite a).path.status = s.path.status := rfl
@[simp] theorem Chip.postWrite_cause (s : Chip) (a : Access) : (s.postWrite a).path.cause = s.path.cause := rfl
@[simp] theorem Chip.postWrite_post (s : Chip) (a : Access) : (s.postWrite a).path.post = s.path.post := rfl
@[simp] theorem Chip.postWrite_restoreResponse (s : Chip) (a : Access) : (s.postWrite a).path.restoreResponse = s.path.restoreResponse := rfl
@[simp] theorem Chip.postWrite_holdLimit (s : Chip) (a : Access) : (s.postWrite a).path.holdLimit = s.path.holdLimit := rfl
@[simp] theorem Chip.postWrite_barrier (s : Chip) (a : Access) : (s.postWrite a).path.barrier = s.path.barrier := rfl
@[simp] theorem Chip.postWrite_watches (s : Chip) (a : Access) : (s.postWrite a).path.watches = s.path.watches := rfl
@[simp] theorem Chip.postWrite_forward (s : Chip) (a : Access) : (s.postWrite a).path.forward = s.path.forward := rfl
@[simp] theorem Chip.postWrite_statusOwed (s : Chip) (a : Access) : (s.postWrite a).path.statusOwed = s.path.statusOwed := rfl
@[simp] theorem Chip.postWrite_statusBusy (s : Chip) (a : Access) : (s.postWrite a).path.statusBusy = s.path.statusBusy := rfl

@[simp] theorem Chip.issueUpstream_regions (s : Chip) : (s.issueUpstream).regions = s.regions := rfl
@[simp] theorem Chip.issueUpstream_arbiter (s : Chip) : (s.issueUpstream).arbiter = s.arbiter := rfl
@[simp] theorem Chip.issueUpstream_log (s : Chip) : (s.issueUpstream).log = s.log := rfl
@[simp] theorem Chip.issueUpstream_copy (s : Chip) : (s.issueUpstream).copy = s.copy := rfl
@[simp] theorem Chip.issueUpstream_lanes (s : Chip) : (s.issueUpstream).lanes = s.lanes := rfl
@[simp] theorem Chip.issueUpstream_attention (s : Chip) : (s.issueUpstream).attention = s.attention := rfl
@[simp] theorem Chip.issueUpstream_freeIndex (s : Chip) : (s.issueUpstream).freeIndex = s.freeIndex := rfl
@[simp] theorem Chip.issueUpstream_upstream (s : Chip) : (s.issueUpstream).path.upstream = s.path.upstream.map fun u => { u with wait := .issued } := rfl
@[simp] theorem Chip.issueUpstream_holdTimer (s : Chip) : (s.issueUpstream).path.holdTimer = none := rfl
@[simp] theorem Chip.issueUpstream_pageBase (s : Chip) : (s.issueUpstream).path.pageBase = s.path.pageBase := rfl
@[simp] theorem Chip.issueUpstream_status (s : Chip) : (s.issueUpstream).path.status = s.path.status := rfl
@[simp] theorem Chip.issueUpstream_cause (s : Chip) : (s.issueUpstream).path.cause = s.path.cause := rfl
@[simp] theorem Chip.issueUpstream_post (s : Chip) : (s.issueUpstream).path.post = s.path.post := rfl
@[simp] theorem Chip.issueUpstream_restoreResponse (s : Chip) : (s.issueUpstream).path.restoreResponse = s.path.restoreResponse := rfl
@[simp] theorem Chip.issueUpstream_holdLimit (s : Chip) : (s.issueUpstream).path.holdLimit = s.path.holdLimit := rfl
@[simp] theorem Chip.issueUpstream_postQueue (s : Chip) : (s.issueUpstream).path.postQueue = s.path.postQueue := rfl
@[simp] theorem Chip.issueUpstream_barrier (s : Chip) : (s.issueUpstream).path.barrier = s.path.barrier := rfl
@[simp] theorem Chip.issueUpstream_watches (s : Chip) : (s.issueUpstream).path.watches = s.path.watches := rfl
@[simp] theorem Chip.issueUpstream_forward (s : Chip) : (s.issueUpstream).path.forward = s.path.forward := rfl
@[simp] theorem Chip.issueUpstream_statusOwed (s : Chip) : (s.issueUpstream).path.statusOwed = s.path.statusOwed := rfl
@[simp] theorem Chip.issueUpstream_statusBusy (s : Chip) : (s.issueUpstream).path.statusBusy = s.path.statusBusy := rfl
@[simp] theorem Chip.issueUpstream_acceptCount (s : Chip) : (s.issueUpstream).path.acceptCount = s.path.acceptCount := rfl
@[simp] theorem Chip.issueUpstream_response (s : Chip) : (s.issueUpstream).path.response = s.path.response := rfl

@[simp] theorem Chip.endStatusWrite_regions (s : Chip) : (s.endStatusWrite).regions = s.regions := rfl
@[simp] theorem Chip.endStatusWrite_arbiter (s : Chip) : (s.endStatusWrite).arbiter = s.arbiter := rfl
@[simp] theorem Chip.endStatusWrite_log (s : Chip) : (s.endStatusWrite).log = s.log := rfl
@[simp] theorem Chip.endStatusWrite_copy (s : Chip) : (s.endStatusWrite).copy = s.copy := rfl
@[simp] theorem Chip.endStatusWrite_lanes (s : Chip) : (s.endStatusWrite).lanes = s.lanes := rfl
@[simp] theorem Chip.endStatusWrite_attention (s : Chip) : (s.endStatusWrite).attention = s.attention := rfl
@[simp] theorem Chip.endStatusWrite_freeIndex (s : Chip) : (s.endStatusWrite).freeIndex = s.freeIndex := rfl
@[simp] theorem Chip.endStatusWrite_statusBusy (s : Chip) : (s.endStatusWrite).path.statusBusy = false := rfl
@[simp] theorem Chip.endStatusWrite_pageBase (s : Chip) : (s.endStatusWrite).path.pageBase = s.path.pageBase := rfl
@[simp] theorem Chip.endStatusWrite_status (s : Chip) : (s.endStatusWrite).path.status = s.path.status := rfl
@[simp] theorem Chip.endStatusWrite_cause (s : Chip) : (s.endStatusWrite).path.cause = s.path.cause := rfl
@[simp] theorem Chip.endStatusWrite_post (s : Chip) : (s.endStatusWrite).path.post = s.path.post := rfl
@[simp] theorem Chip.endStatusWrite_restoreResponse (s : Chip) : (s.endStatusWrite).path.restoreResponse = s.path.restoreResponse := rfl
@[simp] theorem Chip.endStatusWrite_holdLimit (s : Chip) : (s.endStatusWrite).path.holdLimit = s.path.holdLimit := rfl
@[simp] theorem Chip.endStatusWrite_upstream (s : Chip) : (s.endStatusWrite).path.upstream = s.path.upstream := rfl
@[simp] theorem Chip.endStatusWrite_postQueue (s : Chip) : (s.endStatusWrite).path.postQueue = s.path.postQueue := rfl
@[simp] theorem Chip.endStatusWrite_holdTimer (s : Chip) : (s.endStatusWrite).path.holdTimer = s.path.holdTimer := rfl
@[simp] theorem Chip.endStatusWrite_barrier (s : Chip) : (s.endStatusWrite).path.barrier = s.path.barrier := rfl
@[simp] theorem Chip.endStatusWrite_watches (s : Chip) : (s.endStatusWrite).path.watches = s.path.watches := rfl
@[simp] theorem Chip.endStatusWrite_forward (s : Chip) : (s.endStatusWrite).path.forward = s.path.forward := rfl
@[simp] theorem Chip.endStatusWrite_statusOwed (s : Chip) : (s.endStatusWrite).path.statusOwed = s.path.statusOwed := rfl
@[simp] theorem Chip.endStatusWrite_acceptCount (s : Chip) : (s.endStatusWrite).path.acceptCount = s.path.acceptCount := rfl
@[simp] theorem Chip.endStatusWrite_response (s : Chip) : (s.endStatusWrite).path.response = s.path.response := rfl

@[simp] theorem Chip.watch_regions (s : Chip) (set : DrainWatches → Option Nat → DrainWatches) : (s.watch set).regions = s.regions := rfl
@[simp] theorem Chip.watch_arbiter (s : Chip) (set : DrainWatches → Option Nat → DrainWatches) : (s.watch set).arbiter = s.arbiter := rfl
@[simp] theorem Chip.watch_log (s : Chip) (set : DrainWatches → Option Nat → DrainWatches) : (s.watch set).log = s.log := rfl
@[simp] theorem Chip.watch_copy (s : Chip) (set : DrainWatches → Option Nat → DrainWatches) : (s.watch set).copy = s.copy := rfl
@[simp] theorem Chip.watch_lanes (s : Chip) (set : DrainWatches → Option Nat → DrainWatches) : (s.watch set).lanes = s.lanes := rfl
@[simp] theorem Chip.watch_attention (s : Chip) (set : DrainWatches → Option Nat → DrainWatches) : (s.watch set).attention = s.attention := rfl
@[simp] theorem Chip.watch_freeIndex (s : Chip) (set : DrainWatches → Option Nat → DrainWatches) : (s.watch set).freeIndex = s.freeIndex := rfl
@[simp] theorem Chip.watch_watches (s : Chip) (set : DrainWatches → Option Nat → DrainWatches) : (s.watch set).path.watches = set s.path.watches s.drainPoint := rfl
@[simp] theorem Chip.watch_pageBase (s : Chip) (set : DrainWatches → Option Nat → DrainWatches) : (s.watch set).path.pageBase = s.path.pageBase := rfl
@[simp] theorem Chip.watch_status (s : Chip) (set : DrainWatches → Option Nat → DrainWatches) : (s.watch set).path.status = s.path.status := rfl
@[simp] theorem Chip.watch_cause (s : Chip) (set : DrainWatches → Option Nat → DrainWatches) : (s.watch set).path.cause = s.path.cause := rfl
@[simp] theorem Chip.watch_post (s : Chip) (set : DrainWatches → Option Nat → DrainWatches) : (s.watch set).path.post = s.path.post := rfl
@[simp] theorem Chip.watch_restoreResponse (s : Chip) (set : DrainWatches → Option Nat → DrainWatches) : (s.watch set).path.restoreResponse = s.path.restoreResponse := rfl
@[simp] theorem Chip.watch_holdLimit (s : Chip) (set : DrainWatches → Option Nat → DrainWatches) : (s.watch set).path.holdLimit = s.path.holdLimit := rfl
@[simp] theorem Chip.watch_upstream (s : Chip) (set : DrainWatches → Option Nat → DrainWatches) : (s.watch set).path.upstream = s.path.upstream := rfl
@[simp] theorem Chip.watch_postQueue (s : Chip) (set : DrainWatches → Option Nat → DrainWatches) : (s.watch set).path.postQueue = s.path.postQueue := rfl
@[simp] theorem Chip.watch_holdTimer (s : Chip) (set : DrainWatches → Option Nat → DrainWatches) : (s.watch set).path.holdTimer = s.path.holdTimer := rfl
@[simp] theorem Chip.watch_barrier (s : Chip) (set : DrainWatches → Option Nat → DrainWatches) : (s.watch set).path.barrier = s.path.barrier := rfl
@[simp] theorem Chip.watch_forward (s : Chip) (set : DrainWatches → Option Nat → DrainWatches) : (s.watch set).path.forward = s.path.forward := rfl
@[simp] theorem Chip.watch_statusOwed (s : Chip) (set : DrainWatches → Option Nat → DrainWatches) : (s.watch set).path.statusOwed = s.path.statusOwed := rfl
@[simp] theorem Chip.watch_statusBusy (s : Chip) (set : DrainWatches → Option Nat → DrainWatches) : (s.watch set).path.statusBusy = s.path.statusBusy := rfl
@[simp] theorem Chip.watch_acceptCount (s : Chip) (set : DrainWatches → Option Nat → DrainWatches) : (s.watch set).path.acceptCount = s.path.acceptCount := rfl
@[simp] theorem Chip.watch_response (s : Chip) (set : DrainWatches → Option Nat → DrainWatches) : (s.watch set).path.response = s.path.response := rfl

/-! ## The Log Unit and the Region Table -/

@[simp] theorem Chip.requestCapture_regions (s : Chip) (q : Requester) (g : Word) (n : Nat) (c : PortClass) : (s.requestCapture q g n c).regions = s.regions := rfl
@[simp] theorem Chip.requestCapture_path (s : Chip) (q : Requester) (g : Word) (n : Nat) (c : PortClass) : (s.requestCapture q g n c).path = s.path := rfl
@[simp] theorem Chip.requestCapture_arbiter (s : Chip) (q : Requester) (g : Word) (n : Nat) (c : PortClass) : (s.requestCapture q g n c).arbiter = s.arbiter := rfl
@[simp] theorem Chip.requestCapture_copy (s : Chip) (q : Requester) (g : Word) (n : Nat) (c : PortClass) : (s.requestCapture q g n c).copy = s.copy := rfl
@[simp] theorem Chip.requestCapture_lanes (s : Chip) (q : Requester) (g : Word) (n : Nat) (c : PortClass) : (s.requestCapture q g n c).lanes = s.lanes := rfl
@[simp] theorem Chip.requestCapture_attention (s : Chip) (q : Requester) (g : Word) (n : Nat) (c : PortClass) : (s.requestCapture q g n c).attention = s.attention := rfl
@[simp] theorem Chip.requestCapture_freeIndex (s : Chip) (q : Requester) (g : Word) (n : Nat) (c : PortClass) : (s.requestCapture q g n c).freeIndex = s.freeIndex := rfl
@[simp] theorem Chip.requestCapture_requests (s : Chip) (q : Requester) (g : Word) (n : Nat) (c : PortClass) : (s.requestCapture q g n c).log.requests = s.log.requests ++ [{ requester := q, granule := g, region := n, cls := c, stalled := false }] := rfl
@[simp] theorem Chip.requestCapture_state (s : Chip) (q : Requester) (g : Word) (n : Nat) (c : PortClass) : (s.requestCapture q g n c).log.state = s.log.state := rfl
@[simp] theorem Chip.requestCapture_base (s : Chip) (q : Requester) (g : Word) (n : Nat) (c : PortClass) : (s.requestCapture q g n c).log.base = s.log.base := rfl
@[simp] theorem Chip.requestCapture_capacity (s : Chip) (q : Requester) (g : Word) (n : Nat) (c : PortClass) : (s.requestCapture q g n c).log.capacity = s.log.capacity := rfl
@[simp] theorem Chip.requestCapture_policy (s : Chip) (q : Requester) (g : Word) (n : Nat) (c : PortClass) : (s.requestCapture q g n c).log.policy = s.log.policy := rfl
@[simp] theorem Chip.requestCapture_stallLimit (s : Chip) (q : Requester) (g : Word) (n : Nat) (c : PortClass) : (s.requestCapture q g n c).log.stallLimit = s.log.stallLimit := rfl
@[simp] theorem Chip.requestCapture_head (s : Chip) (q : Requester) (g : Word) (n : Nat) (c : PortClass) : (s.requestCapture q g n c).log.head = s.log.head := rfl
@[simp] theorem Chip.requestCapture_tail (s : Chip) (q : Requester) (g : Word) (n : Nat) (c : PortClass) : (s.requestCapture q g n c).log.tail = s.log.tail := rfl
@[simp] theorem Chip.requestCapture_count (s : Chip) (q : Requester) (g : Word) (n : Nat) (c : PortClass) : (s.requestCapture q g n c).log.count = s.log.count := rfl
@[simp] theorem Chip.requestCapture_nextSeq (s : Chip) (q : Requester) (g : Word) (n : Nat) (c : PortClass) : (s.requestCapture q g n c).log.nextSeq = s.log.nextSeq := rfl
@[simp] theorem Chip.requestCapture_lastSeq (s : Chip) (q : Requester) (g : Word) (n : Nat) (c : PortClass) : (s.requestCapture q g n c).log.lastSeq = s.log.lastSeq := rfl
@[simp] theorem Chip.requestCapture_highest (s : Chip) (q : Requester) (g : Word) (n : Nat) (c : PortClass) : (s.requestCapture q g n c).log.highest = s.log.highest := rfl
@[simp] theorem Chip.requestCapture_reason (s : Chip) (q : Requester) (g : Word) (n : Nat) (c : PortClass) : (s.requestCapture q g n c).log.reason = s.log.reason := rfl
@[simp] theorem Chip.requestCapture_checkpoints (s : Chip) (q : Requester) (g : Word) (n : Nat) (c : PortClass) : (s.requestCapture q g n c).log.checkpoints = s.log.checkpoints := rfl
@[simp] theorem Chip.requestCapture_table (s : Chip) (q : Requester) (g : Word) (n : Nat) (c : PortClass) : (s.requestCapture q g n c).log.table = s.log.table := rfl
@[simp] theorem Chip.requestCapture_stallTimer (s : Chip) (q : Requester) (g : Word) (n : Nat) (c : PortClass) : (s.requestCapture q g n c).log.stallTimer = s.log.stallTimer := rfl
@[simp] theorem Chip.requestCapture_waiting (s : Chip) (q : Requester) (g : Word) (n : Nat) (c : PortClass) : (s.requestCapture q g n c).log.waiting = s.log.waiting := rfl
@[simp] theorem Chip.requestCapture_running (s : Chip) (q : Requester) (g : Word) (n : Nat) (c : PortClass) : (s.requestCapture q g n c).log.running = s.log.running := rfl
@[simp] theorem Chip.requestCapture_beside (s : Chip) (q : Requester) (g : Word) (n : Nat) (c : PortClass) : (s.requestCapture q g n c).log.beside = s.log.beside := rfl
@[simp] theorem Chip.requestCapture_capture (s : Chip) (q : Requester) (g : Word) (n : Nat) (c : PortClass) : (s.requestCapture q g n c).log.capture = s.log.capture := rfl

@[simp] theorem Chip.restoreEntry_path (s : Chip) : (s.restoreEntry).path = s.path := rfl
@[simp] theorem Chip.restoreEntry_arbiter (s : Chip) : (s.restoreEntry).arbiter = s.arbiter := rfl
@[simp] theorem Chip.restoreEntry_log (s : Chip) : (s.restoreEntry).log = s.log := rfl
@[simp] theorem Chip.restoreEntry_copy (s : Chip) : (s.restoreEntry).copy = s.copy := rfl
@[simp] theorem Chip.restoreEntry_lanes (s : Chip) : (s.restoreEntry).lanes = s.lanes := rfl
@[simp] theorem Chip.restoreEntry_attention (s : Chip) : (s.restoreEntry).attention = s.attention := rfl
@[simp] theorem Chip.restoreEntry_freeIndex (s : Chip) : (s.restoreEntry).freeIndex = s.freeIndex := rfl
@[simp] theorem Chip.restoreEntry_regions (s : Chip) : (s.restoreEntry).regions = s.regions.map Region.enterRestore := rfl

@[simp] theorem Chip.disarm_path (s : Chip) : (s.disarm).path = s.path := rfl
@[simp] theorem Chip.disarm_arbiter (s : Chip) : (s.disarm).arbiter = s.arbiter := rfl
@[simp] theorem Chip.disarm_log (s : Chip) : (s.disarm).log = s.log := rfl
@[simp] theorem Chip.disarm_copy (s : Chip) : (s.disarm).copy = s.copy := rfl
@[simp] theorem Chip.disarm_lanes (s : Chip) : (s.disarm).lanes = s.lanes := rfl
@[simp] theorem Chip.disarm_attention (s : Chip) : (s.disarm).attention = s.attention := rfl
@[simp] theorem Chip.disarm_freeIndex (s : Chip) : (s.disarm).freeIndex = s.freeIndex := rfl
@[simp] theorem Chip.disarm_regions (s : Chip) : (s.disarm).regions = s.regions.map Region.disarmed := rfl

@[simp] theorem Chip.setStage_regions (s : Chip) (st : LogStage) : (s.setStage st).regions = s.regions := rfl
@[simp] theorem Chip.setStage_path (s : Chip) (st : LogStage) : (s.setStage st).path = s.path := rfl
@[simp] theorem Chip.setStage_arbiter (s : Chip) (st : LogStage) : (s.setStage st).arbiter = s.arbiter := rfl
@[simp] theorem Chip.setStage_copy (s : Chip) (st : LogStage) : (s.setStage st).copy = s.copy := rfl
@[simp] theorem Chip.setStage_lanes (s : Chip) (st : LogStage) : (s.setStage st).lanes = s.lanes := rfl
@[simp] theorem Chip.setStage_attention (s : Chip) (st : LogStage) : (s.setStage st).attention = s.attention := rfl
@[simp] theorem Chip.setStage_freeIndex (s : Chip) (st : LogStage) : (s.setStage st).freeIndex = s.freeIndex := rfl
@[simp] theorem Chip.setStage_running (s : Chip) (st : LogStage) : (s.setStage st).log.running = s.log.running.map fun j => { j with stage := st } := rfl
@[simp] theorem Chip.setStage_state (s : Chip) (st : LogStage) : (s.setStage st).log.state = s.log.state := rfl
@[simp] theorem Chip.setStage_base (s : Chip) (st : LogStage) : (s.setStage st).log.base = s.log.base := rfl
@[simp] theorem Chip.setStage_capacity (s : Chip) (st : LogStage) : (s.setStage st).log.capacity = s.log.capacity := rfl
@[simp] theorem Chip.setStage_policy (s : Chip) (st : LogStage) : (s.setStage st).log.policy = s.log.policy := rfl
@[simp] theorem Chip.setStage_stallLimit (s : Chip) (st : LogStage) : (s.setStage st).log.stallLimit = s.log.stallLimit := rfl
@[simp] theorem Chip.setStage_head (s : Chip) (st : LogStage) : (s.setStage st).log.head = s.log.head := rfl
@[simp] theorem Chip.setStage_tail (s : Chip) (st : LogStage) : (s.setStage st).log.tail = s.log.tail := rfl
@[simp] theorem Chip.setStage_count (s : Chip) (st : LogStage) : (s.setStage st).log.count = s.log.count := rfl
@[simp] theorem Chip.setStage_nextSeq (s : Chip) (st : LogStage) : (s.setStage st).log.nextSeq = s.log.nextSeq := rfl
@[simp] theorem Chip.setStage_lastSeq (s : Chip) (st : LogStage) : (s.setStage st).log.lastSeq = s.log.lastSeq := rfl
@[simp] theorem Chip.setStage_highest (s : Chip) (st : LogStage) : (s.setStage st).log.highest = s.log.highest := rfl
@[simp] theorem Chip.setStage_reason (s : Chip) (st : LogStage) : (s.setStage st).log.reason = s.log.reason := rfl
@[simp] theorem Chip.setStage_checkpoints (s : Chip) (st : LogStage) : (s.setStage st).log.checkpoints = s.log.checkpoints := rfl
@[simp] theorem Chip.setStage_table (s : Chip) (st : LogStage) : (s.setStage st).log.table = s.log.table := rfl
@[simp] theorem Chip.setStage_stallTimer (s : Chip) (st : LogStage) : (s.setStage st).log.stallTimer = s.log.stallTimer := rfl
@[simp] theorem Chip.setStage_waiting (s : Chip) (st : LogStage) : (s.setStage st).log.waiting = s.log.waiting := rfl
@[simp] theorem Chip.setStage_beside (s : Chip) (st : LogStage) : (s.setStage st).log.beside = s.log.beside := rfl
@[simp] theorem Chip.setStage_requests (s : Chip) (st : LogStage) : (s.setStage st).log.requests = s.log.requests := rfl
@[simp] theorem Chip.setStage_capture (s : Chip) (st : LogStage) : (s.setStage st).log.capture = s.log.capture := rfl

@[simp] theorem Chip.setRollback_regions (s : Chip) (c : Rollback) : (s.setRollback c).regions = s.regions := rfl
@[simp] theorem Chip.setRollback_path (s : Chip) (c : Rollback) : (s.setRollback c).path = s.path := rfl
@[simp] theorem Chip.setRollback_arbiter (s : Chip) (c : Rollback) : (s.setRollback c).arbiter = s.arbiter := rfl
@[simp] theorem Chip.setRollback_copy (s : Chip) (c : Rollback) : (s.setRollback c).copy = s.copy := rfl
@[simp] theorem Chip.setRollback_lanes (s : Chip) (c : Rollback) : (s.setRollback c).lanes = s.lanes := rfl
@[simp] theorem Chip.setRollback_attention (s : Chip) (c : Rollback) : (s.setRollback c).attention = s.attention := rfl
@[simp] theorem Chip.setRollback_freeIndex (s : Chip) (c : Rollback) : (s.setRollback c).freeIndex = s.freeIndex := rfl
@[simp] theorem Chip.setRollback_running (s : Chip) (c : Rollback) : (s.setRollback c).log.running = s.log.running.map fun j => { j with stage := .rolling c } := rfl
@[simp] theorem Chip.setRollback_state (s : Chip) (c : Rollback) : (s.setRollback c).log.state = s.log.state := rfl
@[simp] theorem Chip.setRollback_base (s : Chip) (c : Rollback) : (s.setRollback c).log.base = s.log.base := rfl
@[simp] theorem Chip.setRollback_capacity (s : Chip) (c : Rollback) : (s.setRollback c).log.capacity = s.log.capacity := rfl
@[simp] theorem Chip.setRollback_policy (s : Chip) (c : Rollback) : (s.setRollback c).log.policy = s.log.policy := rfl
@[simp] theorem Chip.setRollback_stallLimit (s : Chip) (c : Rollback) : (s.setRollback c).log.stallLimit = s.log.stallLimit := rfl
@[simp] theorem Chip.setRollback_head (s : Chip) (c : Rollback) : (s.setRollback c).log.head = s.log.head := rfl
@[simp] theorem Chip.setRollback_tail (s : Chip) (c : Rollback) : (s.setRollback c).log.tail = s.log.tail := rfl
@[simp] theorem Chip.setRollback_count (s : Chip) (c : Rollback) : (s.setRollback c).log.count = s.log.count := rfl
@[simp] theorem Chip.setRollback_nextSeq (s : Chip) (c : Rollback) : (s.setRollback c).log.nextSeq = s.log.nextSeq := rfl
@[simp] theorem Chip.setRollback_lastSeq (s : Chip) (c : Rollback) : (s.setRollback c).log.lastSeq = s.log.lastSeq := rfl
@[simp] theorem Chip.setRollback_highest (s : Chip) (c : Rollback) : (s.setRollback c).log.highest = s.log.highest := rfl
@[simp] theorem Chip.setRollback_reason (s : Chip) (c : Rollback) : (s.setRollback c).log.reason = s.log.reason := rfl
@[simp] theorem Chip.setRollback_checkpoints (s : Chip) (c : Rollback) : (s.setRollback c).log.checkpoints = s.log.checkpoints := rfl
@[simp] theorem Chip.setRollback_table (s : Chip) (c : Rollback) : (s.setRollback c).log.table = s.log.table := rfl
@[simp] theorem Chip.setRollback_stallTimer (s : Chip) (c : Rollback) : (s.setRollback c).log.stallTimer = s.log.stallTimer := rfl
@[simp] theorem Chip.setRollback_waiting (s : Chip) (c : Rollback) : (s.setRollback c).log.waiting = s.log.waiting := rfl
@[simp] theorem Chip.setRollback_beside (s : Chip) (c : Rollback) : (s.setRollback c).log.beside = s.log.beside := rfl
@[simp] theorem Chip.setRollback_requests (s : Chip) (c : Rollback) : (s.setRollback c).log.requests = s.log.requests := rfl
@[simp] theorem Chip.setRollback_capture (s : Chip) (c : Rollback) : (s.setRollback c).log.capture = s.log.capture := rfl

/-! ## Lanes -/

@[simp] theorem Chip.lane_setLane_self (s : Chip) (l : Lane) (r : LaneRec) : (s.setLane l r).lane l = r := by
  simp [Chip.setLane, Chip.lane]

theorem Chip.lane_setLane (s : Chip) (l m : Lane) (r : LaneRec) :
    (s.setLane l r).lane m = if m = l then r else s.lane m := by
  simp only [Chip.setLane, Chip.lane, Fin.getElem_fin, Vector.getElem_set]
  by_cases h : m = l
  · simp [h]
  · rw [if_neg h, if_neg fun e => h (Fin.ext e.symm)]

theorem Chip.lane_setLane_of_ne (s : Chip) {l m : Lane} (r : LaneRec) (h : m ≠ l) : (s.setLane l r).lane m = s.lane m := by
  rw [Chip.lane_setLane, if_neg h]

/-- A lane depends on the Lane Unit's lanes alone. -/
theorem Chip.lane_congr {s t : Chip} (h : t.lanes.lanes = s.lanes.lanes) (l : Lane) : t.lane l = s.lane l := by
  simp only [Chip.lane, h]

end Sys2Proof.Machine
end

