-- ==== Sys2Proof/Laws/Ops.lean ====
section
/-! SUPPORT. For each shared operation that has cases: the blocks it leaves alone, and once everything it can do. -/

namespace Sys2Proof.Machine

/-! ## The write check (R106) -/

@[simp] theorem Chip.issueWrite_regions (s : Chip) (r : PortRequest) : (s.issueWrite r).regions = s.regions := by
  unfold Chip.issueWrite; split <;> rfl
@[simp] theorem Chip.issueWrite_path (s : Chip) (r : PortRequest) : (s.issueWrite r).path = s.path := by
  unfold Chip.issueWrite; split <;> rfl
@[simp] theorem Chip.issueWrite_log (s : Chip) (r : PortRequest) : (s.issueWrite r).log = s.log := by
  unfold Chip.issueWrite; split <;> rfl
@[simp] theorem Chip.issueWrite_lanes (s : Chip) (r : PortRequest) : (s.issueWrite r).lanes = s.lanes := by
  unfold Chip.issueWrite; split <;> rfl
@[simp] theorem Chip.issueWrite_attention (s : Chip) (r : PortRequest) : (s.issueWrite r).attention = s.attention := by
  unfold Chip.issueWrite; split <;> rfl
@[simp] theorem Chip.issueWrite_freeIndex (s : Chip) (r : PortRequest) : (s.issueWrite r).freeIndex = s.freeIndex := by
  unfold Chip.issueWrite; split <;> rfl
@[simp] theorem Chip.issueWrite_inFlight (s : Chip) (r : PortRequest) :
    (s.issueWrite r).arbiter.inFlight = s.arbiter.inFlight := by
  unfold Chip.issueWrite; split <;> rfl
@[simp] theorem Chip.issueWrite_retryCount (s : Chip) (r : PortRequest) :
    (s.issueWrite r).arbiter.retryCount = s.arbiter.retryCount := by
  unfold Chip.issueWrite; split <;> rfl

/-- A write that the check lets through joins the arbiter's waiting requests. -/
theorem Chip.issueWrite_of_passes {s : Chip} {r : PortRequest} (h : s.copy.notCopied r.access.addr = none) :
    s.issueWrite r = s.request r := by
  simp [Chip.issueWrite, h]

/-- A write that the check keeps back waits for its copy-ahead. -/
theorem Chip.issueWrite_of_kept {s : Chip} {r : PortRequest} {k : Nat} (h : s.copy.notCopied r.access.addr = some k) :
    s.issueWrite r = { s with copy := { s.copy with queue := s.copy.queue ++ [r] } } := by
  simp [Chip.issueWrite, h]

/-- The write check touches nothing of the Copy Engine but its queue of writes. -/
theorem Chip.issueWrite_copy (s : Chip) (r : PortRequest) :
    (s.issueWrite r).copy = { s.copy with queue := (s.issueWrite r).copy.queue } := by
  unfold Chip.issueWrite; split <;> rfl

/-- Either way the write joins the accesses that wait. -/
theorem Chip.issueWrite_made (s : Chip) (r : PortRequest) : AccessMade s (s.issueWrite r) r := by
  intro p
  unfold Chip.issueWrite
  split <;> simp [Chip.waitingAccesses, Chip.request] <;> tauto

/-- A request joins the accesses that wait. -/
theorem Chip.request_made (s : Chip) (r : PortRequest) : AccessMade s (s.request r) r := by
  intro p
  simp [Chip.waitingAccesses, Chip.request]; tauto

/-! ## The Lane Unit's accesses (R157) -/

/-- Presenting an access changes nothing outside the Lane Unit, the waiting requests and the writes that wait for copy-ahead,
and no lane; and it makes no access wait that did not, nor releases one. -/
theorem Chip.presentLane_spec (s : Chip) :
    let t := s.presentLane
    SameBesideHandBack s t ∧ t.regions = s.regions ∧ t.log = s.log ∧ (∀ l, t.lane l = s.lane l) ∧
      t.waitingAccesses.Perm s.waitingAccesses := by
  unfold Chip.presentLane
  split
  · simp [SameBesideHandBack]
  · rename_i h
    simp only [Bool.or_eq_true, not_or, Bool.not_eq_true, Option.isSome_eq_false_iff, Option.isNone_iff_eq_none] at h
    split
    · simp [SameBesideHandBack]
    · rename_i r rest hr
      split
      · refine ⟨⟨rfl, rfl, rfl, rfl, rfl, rfl, rfl⟩, rfl, rfl, fun l => rfl, ?_⟩
        rw [List.perm_iff_count]
        intro p
        simp [Chip.waitingAccesses, hr, h.2, List.count_cons]
        omega
      · have key : ∀ u : Chip, u = { s with lanes := { s.lanes with accesses := rest, presented := true } } →
            SameBesideHandBack s (u.issueWrite r) ∧ (u.issueWrite r).regions = s.regions ∧ (u.issueWrite r).log = s.log ∧
              (∀ l, (u.issueWrite r).lane l = s.lane l) ∧ (u.issueWrite r).waitingAccesses.Perm s.waitingAccesses ∧
            SameBesideHandBack s (u.request r) ∧ (u.request r).regions = s.regions ∧ (u.request r).log = s.log ∧
              (∀ l, (u.request r).lane l = s.lane l) ∧ (u.request r).waitingAccesses.Perm s.waitingAccesses := by
          rintro u rfl
          refine ⟨?_, by simp, by simp, fun l => Chip.lane_congr (by simp) l, ?_, ⟨rfl, rfl, rfl, rfl, rfl, rfl, rfl⟩, rfl,
            rfl, fun l => rfl, ?_⟩
          · refine ⟨by simp, by simp, by simp, by simp, by simp, by simp, ?_⟩
            exact Chip.issueWrite_copy _ _
          · unfold Chip.issueWrite
            split <;> rw [List.perm_iff_count] <;> intro p <;>
              simp [Chip.waitingAccesses, Chip.request, hr, List.count_cons] <;> omega
          · rw [List.perm_iff_count]
            intro p
            simp [Chip.waitingAccesses, Chip.request, hr, List.count_cons]
            omega
        obtain ⟨a, b, c, d, e, a', b', c', d', e'⟩ := key _ rfl
        dsimp only
        split
        · exact ⟨a, b, c, d, e⟩
        · exact ⟨a', b', c', d', e'⟩

end Sys2Proof.Machine
end

