-- ==== Sys2Proof/Laws/Lanes.lean ====
section
/-! SUPPORT. What the operations of the lanes, of the post list and of the control page's words can do. -/

namespace Sys2Proof.Machine

/-! ## The two frames compose -/

theorem SameBesideHandBack.refl (s : Chip) : SameBesideHandBack s s := ⟨rfl, rfl, rfl, rfl, rfl, rfl, rfl⟩

theorem SameBesideHandBack.trans {s t u : Chip} (h : SameBesideHandBack s t) (k : SameBesideHandBack t u) :
    SameBesideHandBack s u := by
  obtain ⟨a, b, c, d, e, f, g⟩ := h
  obtain ⟨a', b', c', d', e', f', g'⟩ := k
  refine ⟨a'.trans a, b'.trans b, c'.trans c, d'.trans d, e'.trans e, f'.trans f, ?_⟩
  rw [g', g]

theorem SameBeyondLanes.refl (s : Chip) : SameBeyondLanes s s := ⟨rfl, rfl, rfl, rfl, rfl, rfl, rfl, rfl⟩

theorem SameBeyondLanes.trans {s t u : Chip} (h : SameBeyondLanes s t) (k : SameBeyondLanes t u) : SameBeyondLanes s u := by
  obtain ⟨a, b, c, d, e, f, g, i⟩ := h
  obtain ⟨a', b', c', d', e', f', g', i'⟩ := k
  refine ⟨a'.trans a, b'.trans b, c'.trans c, d'.trans d, e'.trans e, ?_, ?_, ?_⟩
  · rw [f', f]
  · rw [g', g]
  · rw [i', i]

theorem SameBesideHandBack.beyond {s t : Chip} (h : SameBesideHandBack s t) (hr : t.regions = s.regions)
    (hl : t.log = s.log) : SameBeyondLanes s t := by
  obtain ⟨a, b, c, _, e, f, g⟩ := h
  exact ⟨hr, hl, c, e, f, g, by rw [a], by rw [b]⟩

/-! ## Accesses of the lanes -/

/-- A lane's access joins the accesses that wait, and nothing else changes (R157). -/
theorem Chip.makeLaneAccess_spec (s : Chip) (o : Owner) (a : Access) :
    let t := s.makeLaneAccess o a
    SameBesideHandBack s t ∧ t.regions = s.regions ∧ t.log = s.log ∧ (∀ l, t.lane l = s.lane l) ∧
      AccessMade s t { owner := o, cls := .lane, access := a, stale := false } := by
  unfold Chip.makeLaneAccess
  dsimp only
  split
  · refine ⟨⟨rfl, rfl, rfl, rfl, rfl, rfl, rfl⟩, rfl, rfl, fun l => rfl, fun p => ?_⟩
    simp [Chip.waitingAccesses]; tauto
  · obtain ⟨h, hr, hl, hn, hw⟩ := Chip.presentLane_spec { s with lanes := { s.lanes with
      accesses := s.lanes.accesses ++ [{ owner := o, cls := .lane, access := a, stale := false }] } }
    refine ⟨h, hr, hl, hn, fun p => ?_⟩
    rw [hw.mem_iff]
    simp [Chip.waitingAccesses]; tauto

/-- An access of the same lane, as a lane. -/
theorem Owner.sameLane_iff {o p : Owner} {l : Lane} (h : o.lane = some l) : o.sameLane p = true ↔ p.lane = some l := by
  unfold Owner.sameLane
  rw [h]
  simp only [Option.isSome_some, Bool.true_and, beq_iff_eq]
  exact eq_comm

/-- Without an access that waits for its lane nothing is made when an access of the lane is over. -/
theorem Chip.accessOver_of_none {s : Chip} {o : Owner} (h : ∀ r ∈ s.lanes.later, o.sameLane r.owner = false) :
    s.accessOver o = s := by
  unfold Chip.accessOver
  rw [List.find?_eq_none.2 (by intro r hr; simp [h r hr])]

/-- The access of a lane is over, and the next one is made (R157). -/
theorem Chip.accessOver_spec (s : Chip) {o : Owner} {l : Lane} (hl : o.lane = some l) : NextAccessMade s (s.accessOver o) l := by
  unfold Chip.accessOver
  split
  · rename_i hn
    refine ⟨⟨rfl, rfl, rfl, rfl, rfl, rfl, rfl⟩, rfl, rfl, fun m => rfl, .refl _, fun _ => rfl, ?_⟩
    intro older r newer e _ hr _
    have := (List.find?_eq_none.1 hn) r (by rw [e]; simp)
    simp [(Owner.sameLane_iff hl).2 hr] at this
  · rename_i r hr
    have hmem := List.mem_of_find?_eq_some hr
    have hsame := List.find?_some hr
    split
    · rename_i hb
      refine ⟨⟨rfl, rfl, rfl, rfl, rfl, rfl, rfl⟩, rfl, rfl, fun m => rfl, .refl _, fun _ => rfl, ?_⟩
      intro older r' newer _ _ _ hno
      obtain ⟨q, hq, hs⟩ := List.any_eq_true.1 hb
      simp only [Bool.and_eq_true] at hs
      exact absurd ((Owner.sameLane_iff hl).1 hs.1) (hno q hq)
    · obtain ⟨a, b, c, d, e⟩ := Chip.presentLane_spec { s with lanes := { s.lanes with
        accesses := s.lanes.accesses ++ [r], later := s.lanes.later.erase r } }
      refine ⟨a, b, c, d, e.trans ?_, fun h => absurd ((Owner.sameLane_iff hl).1 hsame) (h r hmem), ?_⟩
      · rw [List.perm_iff_count]
        intro p
        have := List.count_pos_iff.2 hmem
        by_cases he : p = r
        · subst he
          simp [Chip.waitingAccesses]
          omega
        · simp [Chip.waitingAccesses, he, Ne.symm he]
      · intro older r' newer hlat hold hr' _
        have hfr : s.lanes.later.find? (fun r => o.sameLane r.owner) = some r' := by
          rw [hlat, List.find?_append]
          have : older.find? (fun r => o.sameLane r.owner) = none := by
            rw [List.find?_eq_none]; intro q hq hs
            exact hold q hq ((Owner.sameLane_iff hl).1 hs)
          rw [this]; simp [(Owner.sameLane_iff hl).2 hr']
        rw [hr] at hfr
        obtain rfl := Option.some.inj hfr
        have hnot : r ∉ older := fun hm => hold r hm ((Owner.sameLane_iff hl).1 hsame)
        have hlater : ∀ u : Chip, u.presentLane.lanes.later = u.lanes.later := by
          intro u; unfold Chip.presentLane; split
          · rfl
          · split
            · rfl
            · split
              · rfl
              · dsimp only; split <;> simp
        rw [hlater]
        show s.lanes.later.erase r = _
        rw [hlat, List.erase_append_right _ hnot, List.erase_cons_head]

/-- A lane's new value changes nothing else. -/
theorem Chip.setLane_beside (s : Chip) (l : Lane) (r : LaneRec) : SameBesideHandBack s (s.setLane l r) :=
  ⟨rfl, rfl, rfl, rfl, rfl, rfl, rfl⟩

theorem Chip.setLane_waiting (s : Chip) (l : Lane) (r : LaneRec) : (s.setLane l r).waitingAccesses = s.waitingAccesses := rfl

/-- A lane that takes a value and makes an access. -/
theorem Chip.setLane_makeLaneAccess_spec (s : Chip) (l : Lane) (r : LaneRec) (o : Owner) (a : Access) :
    let t := (s.setLane l r).makeLaneAccess o a
    SameBesideHandBack s t ∧ t.regions = s.regions ∧ t.log = s.log ∧ LaneSet s t l r ∧
      AccessMade s t { owner := o, cls := .lane, access := a, stale := false } := by
  obtain ⟨h, hr, hl, hn, hw⟩ := (s.setLane l r).makeLaneAccess_spec o a
  exact ⟨(s.setLane_beside l r).trans h, hr, hl, ⟨by rw [hn]; simp, fun m hm => by rw [hn, s.lane_setLane_of_ne r hm]⟩, hw⟩

/-- The lane and the fetch of a descriptor (R149). -/
theorem Chip.enterFetch_spec (s : Chip) (l : Lane) (addr : Word) :
    let t := s.enterFetch l addr
    SameBesideHandBack s t ∧ t.regions = s.regions ∧ t.log = s.log ∧
      LaneSet s t l { s.lane l with
        state := .fetch, current := some { addr := addr, desc := none, outcome := none, result := 0#32 } } ∧
      AccessMade s t { owner := .laneFetch l, cls := .lane, access := readLine addr, stale := false } :=
  s.setLane_makeLaneAccess_spec l _ _ _

/-- The end of a job hands back outcome and result (R153, R154). -/
theorem Chip.finishJob_spec (s : Chip) {l : Lane} {addr : Word} {d : Descriptor} (o : JobOutcome) (result : Word)
    (h : ∃ p q, (s.lane l).current = some { addr := addr, desc := some d, outcome := p, result := q }) :
    let t := s.finishJob l o result
    HandsBack s t l addr d o result ∧ SameBesideHandBack s t ∧ t.regions = s.regions ∧ t.log = s.log := by
  obtain ⟨p, q, h⟩ := h
  obtain ⟨hb, hr, hl, hs, hm⟩ := s.setLane_makeLaneAccess_spec l { s.lane l with
    state := .finish, current := some { addr := addr, desc := some d, outcome := some o, result := result } }
    (.laneOutcome l) (outcomeAccess addr d o result)
  simp only [Chip.finishJob, h]
  exact ⟨⟨hs, hm⟩, hb, hr, hl⟩

/-- The job a lane holds, as the commands that take it see it (R151). -/
theorem Chip.HasJob.jobIn {s : Chip} {l : Lane} {st : LaneStatus} {addr : Word} {d : Descriptor} (h : s.HasJob l st addr d)
    {k : JobKind} (hk : jobKind d.code = some k) : s.jobIn l st k = some d := by
  obtain ⟨hs, o, r, hc⟩ := h
  simp [Chip.jobIn, hc, hs, hk]

/-- A job's end touches the lanes and what waits for the port, whatever the lane held. -/
theorem Chip.finishJob_beside (s : Chip) (l : Lane) (o : JobOutcome) (result : Word) :
    SameBesideHandBack s (s.finishJob l o result) ∧ (s.finishJob l o result).regions = s.regions ∧
      (s.finishJob l o result).log = s.log := by
  unfold Chip.finishJob
  split
  · rename_i addr d _ _ _
    obtain ⟨hb, hr, hl, _, _⟩ := s.setLane_makeLaneAccess_spec l { s.lane l with
      state := .finish, current := some { addr := addr, desc := some d, outcome := some o, result := result } }
      (.laneOutcome l) (outcomeAccess addr d o result)
    exact ⟨hb, hr, hl⟩
  · exact ⟨.refl s, rfl, rfl⟩

/-- The end of chain touches the lanes and what waits for the port (R145). -/
theorem Chip.endChain_beside (s : Chip) (l : Lane) :
    SameBesideHandBack s (s.endChain l) ∧ (s.endChain l).regions = s.regions ∧ (s.endChain l).log = s.log := by
  unfold Chip.endChain
  split
  · exact ⟨s.setLane_beside l _, rfl, rfl⟩
  · rename_i a rest _
    obtain ⟨h, hr, hl, _, _⟩ := (s.setLane l { state := .idle, queue := rest, current := none, cutPending := false }).enterFetch_spec l a
    exact ⟨(s.setLane_beside l _).trans h, hr, hl⟩

/-- The end of chain with an empty queue: the lane is IDLE (R145). -/
theorem Chip.endChain_of_empty {s : Chip} {l : Lane} (h : (s.lane l).queue = []) :
    s.endChain l = s.setLane l { state := .idle, queue := [], current := none, cutPending := false } := by
  simp [Chip.endChain, h]

/-- The end of chain with an entry in the queue: the lane takes it (R145). -/
theorem Chip.endChain_of_entry {s : Chip} {l : Lane} {a : Word} {rest : List Word} (h : (s.lane l).queue = a :: rest) :
    LaneSet s (s.endChain l) l
        { state := .fetch, queue := rest, cutPending := false
          current := some { addr := a, desc := none, outcome := none, result := 0#32 } } ∧
      AccessMade s (s.endChain l) { owner := .laneFetch l, cls := .lane, access := readLine a, stale := false } := by
  simp only [Chip.endChain, h]
  obtain ⟨_, _, _, hs, hm⟩ := (s.setLane l { state := .idle, queue := rest, current := none, cutPending := false }).enterFetch_spec l a
  refine ⟨⟨by simpa using hs.1, fun m hn => by rw [hs.2 m hn, s.lane_setLane_of_ne _ hn]⟩, hm⟩

/-! ## Handing records (R169) -/

/-- A handing: with the ring unconfigured the source goes on; with its room taken it waits; with room free its record is listed
and it goes on. -/
theorem Chip.hand_cases (s : Chip) (src : Source) (r : AttnRecord) (k : AfterHand) (act : Chip → Chip) :
    (s.attention.configured = false ∧ s.hand src r k act = act s) ∨
    (s.attention.configured = true ∧ s.attention.roomTaken src = true ∧
      s.hand src r k act = { s with attention := { s.attention with
        handings := s.attention.handings ++ [{ listed := { source := src, record := r }, after := k }] } }) ∨
    (s.attention.configured = true ∧ s.attention.roomTaken src = false ∧ s.hand src r k act = act (s.listRecord src r)) := by
  unfold Chip.hand
  cases hc : s.attention.configured <;> cases hr : s.attention.roomTaken src <;> simp

theorem Chip.hand_of_unconfigured {s : Chip} (h : s.attention.configured = false) (src : Source) (r : AttnRecord)
    (k : AfterHand) (act : Chip → Chip) : s.hand src r k act = act s := by
  simp [Chip.hand, h]

theorem Chip.hand_of_room {s : Chip} {src : Source} (h : s.attention.configured = true)
    (hr : s.attention.roomTaken src = false) (r : AttnRecord) (k : AfterHand) (act : Chip → Chip) :
    s.hand src r k act = act (s.withPost src r) := by
  unfold Chip.hand
  rw [if_neg (by simp [h]), if_neg (by simp [hr])]
  rfl

theorem Chip.hand_of_taken {s : Chip} {src : Source} (h : s.attention.configured = true)
    (hr : s.attention.roomTaken src = true) (r : AttnRecord) (k : AfterHand) (act : Chip → Chip) :
    s.hand src r k act = s.withHanding src r k := by
  unfold Chip.hand
  rw [if_neg (by simp [h]), if_pos hr]
  rfl

theorem Chip.listRecord_beyond (s : Chip) (src : Source) (r : AttnRecord) : SameBeyondLanes s (s.listRecord src r) :=
  ⟨rfl, rfl, rfl, rfl, rfl, rfl, rfl, rfl⟩

/-- A handing stays within the frame of what the source does next. -/
theorem Chip.hand_beyond (s : Chip) (src : Source) (r : AttnRecord) (k : AfterHand) {act : Chip → Chip}
    (h : ∀ u, SameBeyondLanes u (act u)) : SameBeyondLanes s (s.hand src r k act) := by
  rcases s.hand_cases src r k act with ⟨_, e⟩ | ⟨_, _, e⟩ | ⟨_, _, e⟩ <;> rw [e]
  · exact h s
  · exact ⟨rfl, rfl, rfl, rfl, rfl, rfl, rfl, rfl⟩
  · exact (s.listRecord_beyond src r).trans (h _)

theorem Chip.endChain_beyond (s : Chip) (l : Lane) : SameBeyondLanes s (s.endChain l) :=
  (s.endChain_beside l).1.beyond (s.endChain_beside l).2.1 (s.endChain_beside l).2.2

theorem Chip.finishJob_beyond (s : Chip) (l : Lane) (o : JobOutcome) (result : Word) :
    SameBeyondLanes s (s.finishJob l o result) :=
  (s.finishJob_beside l o result).1.beyond (s.finishJob_beside l o result).2.1 (s.finishJob_beside l o result).2.2

theorem Chip.makeLaneAccess_beyond (s : Chip) (o : Owner) (a : Access) : SameBeyondLanes s (s.makeLaneAccess o a) := by
  obtain ⟨h, hr, hl, _, _⟩ := s.makeLaneAccess_spec o a
  exact h.beyond hr hl

theorem Chip.cutChain_beyond (s : Chip) (l : Lane) (o : JobOutcome) (d : Descriptor) :
    SameBeyondLanes s (s.cutChain l o d) :=
  s.hand_beyond _ _ _ fun u => u.endChain_beyond l

theorem Chip.followNext_beyond (s : Chip) (l : Lane) (next : Word) : SameBeyondLanes s (s.followNext l next) := by
  unfold Chip.followNext
  split
  · obtain ⟨h, hr, hl, _, _⟩ := s.enterFetch_spec l next
    exact h.beyond hr hl
  · exact s.hand_beyond _ _ _ fun u => u.endChain_beyond l

/-- The chain decision touches the lanes, the post list and what waits for the port (R156). -/
theorem Chip.decideChain_beyond (s : Chip) (l : Lane) : SameBeyondLanes s (s.decideChain l) := by
  unfold Chip.decideChain
  split
  · split_ifs
    · exact s.endChain_beyond l
    · exact s.cutChain_beyond l _ _
    · exact s.followNext_beyond l _
    · exact s.cutChain_beyond l _ _
  · exact s.endChain_beyond l

/-! ## The words of the control page (R130) -/

theorem Chip.endOrderedWrite_beyond (s : Chip) (r : Response) : SameBeyondLanes s (s.endOrderedWrite r) := by
  unfold Chip.endOrderedWrite
  split
  · exact ⟨rfl, rfl, rfl, rfl, rfl, rfl, rfl, rfl⟩
  · exact .refl s

theorem Chip.examineWords_beyond (s : Chip) (f : ForwardPoint) (ws : List PageWord) :
    SameBeyondLanes s (s.examineWords f ws) := by
  induction ws generalizing s with
  | nil => exact s.endOrderedWrite_beyond .done
  | cons w ws ih =>
    unfold Chip.examineWords
    split_ifs
    · exact ⟨rfl, rfl, rfl, rfl, rfl, rfl, rfl, rfl⟩
    · exact ih s
    · exact ⟨rfl, rfl, rfl, rfl, rfl, rfl, rfl, rfl⟩
    · exact (s.listRecord_beyond _ _).trans (ih _)

theorem Chip.nextWords_beyond (s : Chip) : SameBeyondLanes s s.nextWords := by
  unfold Chip.nextWords
  split
  · exact s.examineWords_beyond _ _
  · exact .refl s

theorem Chip.continueTake_beyond (s : Chip) : SameBeyondLanes s s.continueTake := by
  unfold Chip.continueTake
  split
  · exact .refl s
  · split
    · exact s.makeLaneAccess_beyond _ _
    · have h : SameBeyondLanes s { s with lanes := { s.lanes with take := none } } := ⟨rfl, rfl, rfl, rfl, rfl, rfl, rfl, rfl⟩
      split
      · exact (h.trans (Chip.finishJob_beyond _ _ _ _)).trans (Chip.nextWords_beyond _)
      · exact h.trans (Chip.nextWords_beyond _)

theorem Chip.nextDirect_beyond (s : Chip) : SameBeyondLanes s s.nextDirect := by
  unfold Chip.nextDirect
  split
  · exact .refl s
  · exact SameBeyondLanes.trans (t := { s with lanes := _ }) ⟨rfl, rfl, rfl, rfl, rfl, rfl, rfl, rfl⟩ (Chip.continueTake_beyond _)

theorem AfterHand.run_beyond (k : AfterHand) (s : Chip) : SameBeyondLanes s (k.run s) := by
  cases k
  · exact s.decideChain_beyond _
  · exact s.endChain_beyond _
  · exact s.nextDirect_beyond
  · exact s.nextWords_beyond
  · exact ⟨rfl, rfl, rfl, rfl, rfl, rfl, rfl, rfl⟩

theorem Chip.serveHanding_beyond (s : Chip) (src : Source) : SameBeyondLanes s (s.serveHanding src) := by
  unfold Chip.serveHanding
  split
  · exact .refl s
  split
  · exact .refl s
  · refine SameBeyondLanes.trans ?_ (AfterHand.run_beyond _ _)
    exact ⟨rfl, rfl, rfl, rfl, rfl, rfl, rfl, rfl⟩

theorem Chip.dropHandings_beyond (s : Chip) : SameBeyondLanes s s.dropHandings := by
  have h : ∀ (hs : List Handing) (u : Chip), SameBeyondLanes u (hs.foldl (fun t h => h.after.run t) u) := by
    intro hs
    induction hs with
    | nil => exact fun u => .refl u
    | cons x xs ih => exact fun u => (AfterHand.run_beyond _ u).trans (ih _)
  exact SameBeyondLanes.trans (t := { s with attention := _ }) ⟨rfl, rfl, rfl, rfl, rfl, rfl, rfl, rfl⟩ (h _ _)

end Sys2Proof.Machine
end

