-- ==== Sys2Proof/Laws/Path.lean ====
section
/-! SUPPORT. What the Path Controller's operations can do: the write check, classification, and the words of the control page. -/

namespace Sys2Proof.Machine

/-- A write issued through the write check (R106). -/
theorem Chip.issueWrite_issued (s : Chip) (r : PortRequest) : WriteIssued s (s.issueWrite r) r := by
  constructor
  · intro h
    rw [Chip.issueWrite_of_passes h]
    exact ⟨rfl, rfl⟩
  · intro k h
    rw [Chip.issueWrite_of_kept h]
    exact ⟨rfl, rfl⟩

/-- The write check depends on the arbiter and the Copy Engine alone. -/
theorem Chip.issueWrite_issued_of {s u : Chip} (ha : u.arbiter = s.arbiter) (hc : u.copy = s.copy) (r : PortRequest) :
    WriteIssued s (u.issueWrite r) r := by
  have h := u.issueWrite_issued r
  unfold WriteIssued at h ⊢
  rwa [ha, hc] at h

/-- Issuing a write touches the waiting requests and the Copy Engine's queue alone. -/
theorem Chip.issueWrite_rest (s : Chip) (r : PortRequest) :
    s.issueWrite r = { s with arbiter := (s.issueWrite r).arbiter, copy := (s.issueWrite r).copy } := by
  unfold Chip.issueWrite
  split <;> rfl

/-- Classification follows R123, with acceptance by R125. -/
theorem Chip.classify_classified (s : Chip) (a : Access) (toPost : Bool) : Classified s (s.classify a toPost) a toPost := by
  unfold Classified Chip.meetsHold
  refine ⟨?_, ?_, ?_, ?_, ?_⟩
  · intro h w; simp [Chip.classify, h, w, Chip.orderedWriteIn, Chip.acceptOrdered]
  · intro h w g; simp [Chip.classify, h, w, g, Chip.answeredWith, Chip.answerUpstream]
  · rintro h ⟨hp, hh⟩
    have hg : (a.write && s.ringGuard a.addr) = false := by rcases h with h | h <;> simp [h]
    constructor <;> intro hr <;>
      simp [Chip.classify, hp, hg, Chip.classifyHeld, hh, hr, Chip.waitsIn, Chip.waitUpstream, Chip.answeredWith,
        Chip.answerUpstream]
  · intro w hn
    have : s.onPage a.addr = true ∨ s.holdApplies a.addr = false := by
      cases h₁ : s.onPage a.addr <;> cases h₂ : s.holdApplies a.addr <;> simp_all
    cases hp : s.onPage a.addr
    · have hh : s.holdApplies a.addr = false := by simpa [hp] using this
      simp [Chip.classify, hp, w, Chip.classifyHeld, hh, Chip.acceptAccess, Chip.acceptRead]
    · simp [Chip.classify, hp, w, Chip.acceptAccess, Chip.acceptRead]
  · intro hp w hg hh
    have e : s.classify a toPost = s.acceptAccess a toPost := by simp [Chip.classify, hp, w, hg, Chip.classifyHeld, hh]
    rw [e]
    constructor
    · intro h₁ h₂; simp [Chip.acceptAccess, w, h₁, h₂, Chip.acceptOrdered, Chip.orderedWriteIn]
    · intro h
      have h' : (s.path.post || toPost) = true := by simpa using h
      constructor
      · intro hq
        have : ¬s.path.postQueue.length < Config.postDepth := by simp only [Config.postDepth]; omega
        simp only [Chip.acceptAccess, w, h', Bool.not_true, Bool.false_eq_true, if_false, if_true, this]
        rfl
      · intro hq
        have : s.path.postQueue.length < Config.postDepth := hq
        simp only [Chip.acceptAccess, w, h', Bool.not_true, Bool.false_eq_true, if_false, if_true, this]
        rfl

/-- Acceptance and classification change the Path Controller alone. -/
theorem Chip.classify_rest (s : Chip) (a : Access) (toPost : Bool) :
    s.classify a toPost = { s with path := (s.classify a toPost).path } := by
  unfold Chip.classify Chip.classifyHeld Chip.acceptAccess
  split_ifs <;> (try split) <;> rfl

theorem Chip.serveQueueFull_rest (s : Chip) : s.serveQueueFull = { s with path := s.serveQueueFull.path } := by
  unfold Chip.serveQueueFull
  split
  · split
    · exact s.classify_rest _ true
    · rfl
  · rfl

/-- A write that waits in QUEUE FULL is classified afresh (R125). -/
theorem Chip.serveQueueFull_served (s : Chip) : QueueFullServed s s.serveQueueFull := by
  constructor
  · intro u h w
    simp only [Chip.serveQueueFull, h, w, if_true]
    exact s.classify_classified u.access true
  · intro h
    unfold Chip.serveQueueFull
    split
    · rename_i u hu
      rw [if_neg (h u hu)]
    · rfl

/-! ## The words of the control page -/

/-- The end of a control-page write as the words left say it. -/
theorem Chip.endOrderedWrite_eq {s : Chip} {f g : ForwardPoint} (h : s.path.forward = some g) (hg : g.accepted = f.accepted)
    (r : Response) :
    s.endOrderedWrite r = { s.wordsLeft f [] with path := { (s.wordsLeft f []).path with response := some r } } := by
  simp [Chip.endOrderedWrite, h, Chip.wordsLeft, Chip.reportIssued, Chip.answerUpstream, Chip.freeForward, clearWatch, hg]

theorem Chip.examineWords_left {s : Chip} {f g : ForwardPoint} (h : s.path.forward = some g) (hg : g.accepted = f.accepted)
    (ws : List PageWord) (hw : ∀ w ∈ ws.head?, w.full = true) : s.examineWords f ws = s.wordsLeft f ws := by
  cases ws with
  | nil => exact Chip.endOrderedWrite_eq h hg .done
  | cons w ws =>
    have : w.full = true := hw w rfl
    simp [Chip.examineWords, this, Chip.wordsLeft]

theorem Chip.examineWords_taken {s : Chip} {w : PageWord} (hf : w.full = false) (hc : s.attention.configured = true)
    (hr : s.attention.roomTaken .path = true) (f : ForwardPoint) (ws : List PageWord) :
    s.examineWords f (w :: ws) = Chip.withHanding
      { s with path := { s.path with forward := some { f with stage := .handing, words := ws } } } .path
      (mailboxRecord 0xFF#8 f.access.addr) .pathWord := by
  simp only [Chip.examineWords, hf, hc, hr, Bool.not_true, Bool.false_eq_true, if_false, if_true]
  simp only [Chip.withHanding, hc]
  rfl

theorem Chip.examineWords_listed {s : Chip} {w : PageWord} (hf : w.full = false) (hc : s.attention.configured = true)
    (hr : s.attention.roomTaken .path = false) (f : ForwardPoint) (ws : List PageWord) :
    s.examineWords f (w :: ws) = (s.withPost .path (mailboxRecord 0xFF#8 f.access.addr)).examineWords f ws := by
  simp only [Chip.examineWords, hf, hc, hr, Bool.not_true, Bool.false_eq_true, if_false]
  rfl

/-- The words of a control-page write are examined as R130 says. -/
theorem Chip.examineWords_examined {s : Chip} {f g : ForwardPoint} (h : s.path.forward = some g)
    (hg : g.accepted = f.accepted) (ws : List PageWord) : WordsExamined s (s.examineWords f ws) f ws := by
  constructor
  · rintro (hc | hw)
    · induction ws with
      | nil => exact Chip.examineWords_left h hg [] (by simp)
      | cons w ws ih =>
        cases hf : w.full
        · simp only [Chip.examineWords, hf, hc, List.dropWhile]
          simpa using ih
        · rw [Chip.examineWords_left h hg _ (by simp [hf])]
          simp [List.dropWhile, hf]
    · rw [Chip.examineWords_left h hg _ hw]
      cases ws with
      | nil => rfl
      | cons w ws => simp [List.dropWhile, hw w rfl]
  · rintro hc w rest rfl hf
    refine ⟨fun hr => Chip.examineWords_taken hf hc hr f rest, fun hr => ?_⟩
    rw [Chip.examineWords_listed hf hc hr]
    have hroom : (s.withPost .path (mailboxRecord 0xFF#8 f.access.addr)).attention.roomTaken .path = true := by
      simp [Chip.withPost, AttentionState.roomTaken]
    constructor
    · rintro w' rest' rfl hf'
      exact Chip.examineWords_taken (s := s.withPost .path _) hf' hc hroom f rest'
    · intro hw
      exact Chip.examineWords_left (s := s.withPost .path _) (g := g) h hg rest hw

/-- The same, from the words that the forward point keeps. -/
theorem Chip.nextWords_examined {s : Chip} {f : ForwardPoint} {ws : List PageWord}
    (h : s.path.forward = some { f with words := ws }) : WordsExamined s s.nextWords f ws := by
  have e : s.nextWords = s.examineWords { f with words := ws } ws := by simp [Chip.nextWords, h]
  rw [e]
  exact Chip.examineWords_examined h rfl ws

/-- The next recognised word, as the commands that take it see it. -/
theorem Chip.WordNext.nextWord {s : Chip} {f : ForwardPoint} {target : WordTarget} {v : Word} {ws : List PageWord}
    (h : s.WordNext f target v ws) : s.nextWord = some ({ target := target, value := v, full := true }, ws) := by
  obtain ⟨ht, hf, hs, hw⟩ := h
  simp [Chip.nextWord, ht, hf, hs, hw]

theorem Chip.WordNext.popWord {s : Chip} {f : ForwardPoint} {target : WordTarget} {v : Word} {ws : List PageWord}
    (h : s.WordNext f target v ws) : s.popWord ws = s.withWords f ws := by
  simp [Chip.popWord, h.2.1, Chip.withWords]

/-- The request code is the low five bits of the word (R146). -/
theorem requestOf_eq (v : Word) : requestOf v =
    if v.toNat % 32 = 0 then .submit else if v.toNat % 32 = 1 then .flush else if v.toNat % 32 = 2 then .resetPart else .none := by
  have : (v &&& 31#32).toNat = v.toNat % 32 := by
    rw [BitVec.toNat_and]
    exact Nat.and_two_pow_sub_one_eq_mod v.toNat 5
  unfold requestOf
  rw [this]
  split <;> simp_all

theorem Chip.WordNext.nextSubmit {s : Chip} {f : ForwardPoint} {l : Lane} {v : Word} {ws : List PageWord}
    (h : s.WordNext f (.submit l) v ws) {r : Request} (hr : requestOf v = r) : s.nextSubmit r = some (l, v, ws) := by
  simp [Chip.nextSubmit, h.nextWord, hr]

/-- A descriptor address with its low five bits zero is the word itself (R179). -/
theorem submitAddress_of_aligned {v : Word} (h : v.toNat % 32 = 0) : submitAddress v = v := by
  have h₀ : v &&& 31#32 = 0#32 := by
    apply BitVec.eq_of_toNat_eq
    rw [BitVec.toNat_and]
    exact (Nat.and_two_pow_sub_one_eq_mod v.toNat 5).trans h
  unfold submitAddress
  have : v = (v &&& 0xFFFFFFE0#32) ||| (v &&& 31#32) := by
    rw [← BitVec.and_or_distrib_left]
    exact (BitVec.and_allOnes (x := v)).symm
  rw [h₀] at this
  simpa using this.symm

/-- A take with nothing owed ends at once, and the words that follow are examined (R146). -/
theorem Chip.continueTake_empty {s : Chip} {l : Lane} {o : JobOutcome} :
    (s.beginTake l o [] false).continueTake = Chip.nextWords { s with lanes := { s.lanes with take := none } } := rfl

/-- A word that posts MAILBOX FAULT from its lane (R146, R147). -/
theorem Chip.mailboxFault_faulted {s : Chip} {l : Lane} {f : ForwardPoint} {ws : List PageWord} (ht : s.lanes.take = none) :
    MailboxFaulted s ((s.withWords f ws).mailboxFault l) l f ws := by
  have lanes : ∀ u : Chip, u.lanes.take = none →
      Chip.nextDirect (u.beginTake l .queueFull [] false) = u.nextWords := by
    intro u hu
    show Chip.nextWords { u with lanes := { u.lanes with take := none } } = u.nextWords
    rw [← hu]
  refine ⟨fun hc => ?_, fun hc hr => ?_, fun hc hr => ?_⟩
  · rw [Chip.mailboxFault, Chip.hand_of_unconfigured (by exact hc), lanes _ (by exact ht)]
    exact Chip.nextWords_examined rfl
  · rw [Chip.mailboxFault, Chip.hand_of_room (by exact hc) (by exact hr)]
    exact (lanes ((s.withWords f ws).withPost _ _) ht) ▸ Chip.nextWords_examined rfl
  · exact Chip.hand_of_taken (by exact hc) (by exact hr) _ _ _

end Sys2Proof.Machine
end

