-- ==== Sys2Proof/Laws/Log.lean ====
section
/-! SUPPORT. What the Log Unit's operations can do: answers to capture requests, BROKEN, the taking of a request. -/

namespace Sys2Proof.Machine

/-! ## Answers to capture requests -/

/-- Issuing a requester's write touches the Path Controller, the arbiter and the Copy Engine alone (R23). -/
theorem Chip.answerGo_frame (s : Chip) (q : Requester) :
    (s.answerGo q).regions = s.regions ∧ (s.answerGo q).log = s.log ∧ (s.answerGo q).lanes = s.lanes ∧
      (s.answerGo q).attention = s.attention ∧ (s.answerGo q).freeIndex = s.freeIndex := by
  unfold Chip.answerGo Chip.issueFront Chip.issueAhead
  split
  · split
    · simp
    · simp
  · split
    · split <;> simp
    · simp
  · split
    · split <;> simp
    · simp
  · simp

/-- A request is answered go as R23 says. -/
theorem Chip.answerGo_answered (s : Chip) (q : Requester) : GoAnswered s (s.answerGo q) q := by
  cases q with
  | host =>
    refine ⟨fun f hf => ?_, fun hf => by simp only [Chip.answerGo, hf]⟩
    simp only [Chip.answerGo, hf]
    refine ⟨Chip.issueWrite_rest _ _, ?_⟩
    refine Chip.issueWrite_issued_of ?_ ?_ _ <;> rfl
  | frontier =>
    refine ⟨fun f p ps hf hw => ?_, fun h => ?_⟩
    · simp only [Chip.answerGo, hf, Chip.issueFront, hw]
      refine ⟨?_, Chip.issueWrite_issued _ _⟩
      conv_lhs => rw [Chip.issueWrite_rest]
    · simp only [Chip.answerGo]
      split
      · rename_i f hf
        simp only [Chip.issueFront, h f hf]
      · rfl
  | copyAhead =>
    refine ⟨fun a p ps ha hw => ?_, fun h => ?_⟩
    · simp only [Chip.answerGo, ha, Chip.issueAhead, hw]
      refine ⟨?_, Chip.issueWrite_issued _ _⟩
      conv_lhs => rw [Chip.issueWrite_rest]
    · simp only [Chip.answerGo]
      split
      · rename_i a ha
        simp only [Chip.issueAhead, h a ha]
      · rfl
  | left a => exact ⟨Chip.issueWrite_rest _ _, Chip.issueWrite_issued _ _⟩

/-- Answering every waiting request empties their list and touches the same blocks (R31, R34, R39). -/
theorem Chip.answerAll_frame (s : Chip) :
    s.answerAll.regions = s.regions ∧ s.answerAll.log = { s.log with requests := [] } ∧ s.answerAll.lanes = s.lanes ∧
      s.answerAll.attention = s.attention ∧ s.answerAll.freeIndex = s.freeIndex := by
  have key : ∀ (rs : List CaptureRequest) (u : Chip),
      let t := rs.foldl (fun t r => t.answerGo r.requester) u
      t.regions = u.regions ∧ t.log = u.log ∧ t.lanes = u.lanes ∧ t.attention = u.attention ∧ t.freeIndex = u.freeIndex := by
    intro rs
    induction rs with
    | nil => exact fun u => ⟨rfl, rfl, rfl, rfl, rfl⟩
    | cons r rs ih =>
      intro u
      obtain ⟨a, b, c, d, e⟩ := u.answerGo_frame r.requester
      obtain ⟨a', b', c', d', e'⟩ := ih (u.answerGo r.requester)
      exact ⟨a'.trans a, b'.trans b, c'.trans c, d'.trans d, e'.trans e⟩
  exact key s.log.requests { s with log := { s.log with requests := [] } }

/-- Every waiting request is answered go in its order (R31, R34, R39). -/
theorem Chip.answerAll_answered (s : Chip) :
    AllAnswered s.log.requests { s with log := { s.log with requests := [] } } s.answerAll := by
  have key : ∀ (rs : List CaptureRequest) (u : Chip), AllAnswered rs u (rs.foldl (fun t r => t.answerGo r.requester) u) := by
    intro rs
    induction rs with
    | nil => exact fun u => rfl
    | cons r rs ih => exact fun u => ⟨u.answerGo r.requester, u.answerGo_answered _, ih _⟩
  exact key _ _

/-! ## BROKEN (R34) -/

/-- A record of the Log Unit is listed, or lost with its room taken (R169). -/
theorem Chip.handLog_eq (s : Chip) (src : Source) (r : AttnRecord) :
    s.handLog src r = { s with attention :=
      if s.attention.configured && !s.attention.roomTaken src then (s.withPost src r).attention else s.attention } := by
  unfold Chip.handLog
  split <;> rfl

/-- The log enters BROKEN: what becomes of the log, the regions and the post list. -/
theorem Chip.breakLog_spec {s : Chip} (reason : Reason) (h : s.log.state ≠ .broken) :
    let t := s.breakLog reason
    t.log = { s.log with state := .broken, reason := reason, stallTimer := none, table := [], requests := [] } ∧
      t.regions = s.regions.map Region.disarmed ∧ BrokenPosted s t reason ∧ t.lanes = s.lanes ∧ t.freeIndex = s.freeIndex := by
  simp only [Chip.breakLog, if_neg h]
  obtain ⟨a, b, c, d, e⟩ := Chip.answerAll_frame
    (Chip.handLog (Chip.disarm { s with log := { s.log with state := .broken, reason := reason, stallTimer := none, table := [] } })
      .logBroken (plainRecord .logBroken (reason.code.setWidth 32)))
  rw [Chip.handLog_eq] at *
  refine ⟨b, a, ?_, c, e⟩
  unfold BrokenPosted
  rw [d]
  rfl

/-- One entry under the disarm request (R14). -/
theorem Region.disarmed_eq (r : Region) :
    r.disarmed = if r.state = .capturing then { r with state := .idle } else r := by
  unfold Region.disarmed
  split <;> simp_all

/-- The log enters BROKEN as R34 says. -/
theorem Chip.breakLog_broke {s : Chip} (reason : Reason) (h : s.log.state ≠ .broken) :
    LogBroke s (s.breakLog reason) reason := by
  obtain ⟨a, b, _, c, d⟩ := Chip.breakLog_spec reason h
  have hans := Chip.answerAll_answered
    (Chip.handLog (Chip.disarm { s with log := { s.log with state := .broken, reason := reason, stallTimer := none, table := [] } })
      .logBroken (plainRecord .logBroken (reason.code.setWidth 32)))
  have ha := (Chip.answerAll_frame
    (Chip.handLog (Chip.disarm { s with log := { s.log with state := .broken, reason := reason, stallTimer := none, table := [] } })
      .logBroken (plainRecord .logBroken (reason.code.setWidth 32)))).2.2.2.1
  simp only [Chip.breakLog, if_neg h] at a b c d ⊢
  rw [Chip.handLog_eq] at *
  refine ⟨_, ?_, fun n => ?_, ?_, hans, a, b, ha, c, d⟩
  · rfl
  · simp [Chip.disarm, Region.disarmed_eq]
  · rfl

/-- While the log is BROKEN a further cause changes nothing. -/
theorem Chip.breakLog_of_broken {s : Chip} (reason : Reason) (h : s.log.state = .broken) : s.breakLog reason = s := by
  simp [Chip.breakLog, h]

/-! ## Requests that wait for space (R31) -/

/-- With no request waiting for space, taking them again only stops the timer. -/
theorem Chip.retake_of_none {s : Chip} (h : ∀ q ∈ s.log.requests, q.stalled = false) :
    s.retake = { s with log := { s.log with stallTimer := none } } := by
  have hf : s.log.requests.find? (·.stalled) = none := by
    rw [List.find?_eq_none]; intro q hq; simp [h q hq]
  have hr : ∀ n, s.retakeStalled n = s := by
    intro n
    cases n with
    | zero => rfl
    | succ n => simp [Chip.retakeStalled, hf]
  have hs : s.log.stalled = false := by
    simp only [LogState.stalled, List.any_eq_false]; intro q hq; simp [h q hq]
  simp [Chip.retake, hr, Chip.settleStall, hs]

/-- A capture's record write passes the write check like any write, but for the case of R111. -/
theorem Chip.issueRecordWrite_eq {s : Chip} {r : PortRequest}
    (h : s.copy.notCopied r.access.addr = none ∨ ∀ a, s.copy.ahead = some a → a.waitsCap = false) :
    s.issueRecordWrite r = s.issueWrite r := by
  unfold Chip.issueRecordWrite
  split
  · rename_i h₁ h₂
    rcases h with h | h
    · rw [h] at h₁; cases h₁
    · have := h _ h₂; cases this
  · rfl

/-- A record write that needs a copy-ahead while the one in progress waits for its own capture ends the copy, and requests the port
(R111). -/
theorem Chip.issueRecordWrite_met {s : Chip} {r : PortRequest} (h : s.copy.notCopied r.access.addr ≠ none)
    (ha : ∃ a, s.copy.ahead = some a ∧ a.waitsCap = true) : s.issueRecordWrite r = (s.failAhead .destFault).request r := by
  obtain ⟨k, hk⟩ := Option.ne_none_iff_exists'.1 h
  obtain ⟨a, h₁, h₂⟩ := ha
  cases a
  subst h₂
  unfold Chip.issueRecordWrite
  rw [hk, h₁]

/-- The newest entry counts one more record (R25). -/
theorem countRecord_append (older : List Checkpoint) (e : Checkpoint) :
    countRecord (older ++ [e]) = older ++ [{ e with records := e.records + 1 }] := by
  induction older with
  | nil => rfl
  | cons c cs ih =>
    cases cs with
    | nil => rfl
    | cons d ds => simpa [countRecord] using ih

/-! ## Log jobs -/

/-- The end of the running log job hands its lane outcome and result (R40). -/
theorem Chip.endLogJob_of_running {s : Chip} {j : LogJob} (h : s.log.running = some j) (o : JobOutcome) (result : Word) :
    s.endLogJob o result = Chip.finishJob { s with log := { s.log with running := none } } j.lane o result := by
  simp [Chip.endLogJob, h]

/-- The end of a log job, whatever runs: only the running job goes from the log. -/
theorem Chip.endLogJob_frame (s : Chip) (o : JobOutcome) (result : Word) :
    SameBesideHandBack s (s.endLogJob o result) ∧ (s.endLogJob o result).regions = s.regions ∧
      (s.endLogJob o result).log = { s.log with running := none } := by
  unfold Chip.endLogJob
  split
  · obtain ⟨a, b, c⟩ := Chip.finishJob_beside { s with log := { s.log with running := none } } _ o result
    exact ⟨a, b, c⟩
  · rename_i h
    exact ⟨.refl s, rfl, by rw [← h]⟩

end Sys2Proof.Machine
end

