-- ==== Sys2Proof/Laws/Copy.lean ====
section
/-! SUPPORT. What the Copy Engine's operations leave alone, and what the region requests that end a hold leave alone. -/

namespace Sys2Proof.Machine

theorem LogJob.withDrainBits_self (o : Option LogJob) : ∃ a b ls, o = o.map (LogJob.withDrainBits a b ls) := by
  cases o with
  | none => exact ⟨false, false, [], rfl⟩
  | some j =>
    obtain ⟨l, st⟩ := j
    cases st
    case rolling c => exact ⟨c.drainFrontier, c.drainAhead, c.late, rfl⟩
    all_goals exact ⟨false, false, [], rfl⟩

theorem LogJob.withDrainBits_twice (a b a' b' : Bool) (ls ls' : List PortRequest) (j : LogJob) :
    (j.withDrainBits a b ls).withDrainBits a' b' ls' = j.withDrainBits a' b' ls' := by
  obtain ⟨l, st⟩ := j
  cases st <;> rfl

theorem Capture.sameWanted (o : Option Capture) : ∃ q b, o = o.map fun c => { c with request := q, answer := b } := by
  cases o with
  | none =>
    exact ⟨{ requester := .host, granule := 0#32, region := 0, cls := .path, stalled := false }, false, rfl⟩
  | some c => exact ⟨c.request, c.answer, rfl⟩

theorem LogBesideCopy.refl (l : LogState) : LogBesideCopy l l := ⟨rfl, LogJob.withDrainBits_self _, Capture.sameWanted _⟩

theorem LogBesideCopy.trans {l m n : LogState} (h : LogBesideCopy l m) (k : LogBesideCopy m n) : LogBesideCopy l n := by
  obtain ⟨e, ⟨a, b, ls, hr⟩, q, w, hc⟩ := h
  obtain ⟨e', ⟨a', b', ls', hr'⟩, q', w', hc'⟩ := k
  refine ⟨by rw [e', e], ⟨a', b', ls', ?_⟩, q', w', ?_⟩
  · rw [hr', hr, Option.map_map]
    exact congrArg (fun f => Option.map f l.running) (funext fun j => LogJob.withDrainBits_twice a b a' b' ls ls' j)
  · rw [hc', hc, Option.map_map]
    rfl

/-- Another list of waiting requests. -/
theorem LogBesideCopy.of_requests {l m : LogState} (h : m = { l with requests := m.requests, stallTimer := m.stallTimer }) :
    LogBesideCopy l m := by
  refine ⟨by rw [h], ?_, ?_⟩
  · rw [h]; exact LogJob.withDrainBits_self _
  · rw [h]; exact Capture.sameWanted _

theorem SameBeyondCopy.refl (s : Chip) : SameBeyondCopy s s := ⟨rfl, rfl, rfl, rfl, .refl _⟩

theorem SameBeyondCopy.trans {s t u : Chip} (h : SameBeyondCopy s t) (k : SameBeyondCopy t u) : SameBeyondCopy s u := by
  obtain ⟨a, b, c, d, e⟩ := h
  obtain ⟨a', b', c', d', e'⟩ := k
  exact ⟨a'.trans a, b'.trans b, c'.trans c, d'.trans d, e.trans e'⟩

/-- A change within the same frame whose blocks are equal field by field. -/
theorem SameBeyondCopy.of_blocks {s t : Chip} (hr : t.regions = s.regions) (hp : t.path = s.path)
    (ha : t.attention = s.attention) (hf : t.freeIndex = s.freeIndex) (hl : t.log = s.log) : SameBeyondCopy s t :=
  ⟨hr, hp, ha, hf, by rw [hl]; exact .refl _⟩

/-! ## Withdrawals -/

theorem LogState.withdrawCaptures_frame (l : LogState) (p : Requester → Bool) : LogBesideCopy l (l.withdrawCaptures p) := by
  refine ⟨rfl, LogJob.withDrainBits_self _, ?_⟩
  unfold LogState.withdrawCaptures
  cases hc : l.capture with
  | none => exact Capture.sameWanted none
  | some c => exact ⟨c.request, if p c.request.requester then false else c.answer, by dsimp; split <;> rfl⟩

theorem LogState.clearDrainCopies_frame (l : LogState) (a b : Bool) :
    l.clearDrainCopies a b = { l with running := (l.clearDrainCopies a b).running } := by
  unfold LogState.clearDrainCopies
  split <;> rfl

theorem LogState.clearDrainCopies_beside (l : LogState) (a b : Bool) : LogBesideCopy l (l.clearDrainCopies a b) := by
  refine ⟨l.clearDrainCopies_frame a b ▸ rfl, ?_, ?_⟩
  · unfold LogState.clearDrainCopies
    split
    · rename_i c h
      rw [h]
      exact ⟨c.drainFrontier && !a, c.drainAhead && !b, c.late, rfl⟩
    · exact LogJob.withDrainBits_self _
  · rw [LogState.clearDrainCopies_frame]
    exact Capture.sameWanted _

theorem LogState.dropped_frame (l : LogState) (p : Requester → Bool) (a b : Bool) :
    LogBesideCopy l ((l.withdrawCaptures p).clearDrainCopies a b) :=
  (l.withdrawCaptures_frame p).trans (LogState.clearDrainCopies_beside _ a b)

theorem Chip.dropFront_frame (s : Chip) : SameBeyondCopy s s.dropFront :=
  ⟨rfl, rfl, rfl, rfl, LogState.dropped_frame _ _ _ _⟩

theorem LogState.leaveLate_frame (l : LogState) (left : List PortRequest) :
    l.leaveLate left = { l with running := (l.leaveLate left).running } := by
  unfold LogState.leaveLate
  split <;> rfl

theorem LogState.leaveLate_beside (l : LogState) (left : List PortRequest) : LogBesideCopy l (l.leaveLate left) := by
  refine ⟨l.leaveLate_frame left ▸ rfl, ?_, ?_⟩
  · unfold LogState.leaveLate
    split
    · rename_i c h
      rw [h]
      exact ⟨c.drainFrontier, c.drainAhead, _, rfl⟩
    · exact LogJob.withDrainBits_self _
  · rw [LogState.leaveLate_frame]
    exact Capture.sameWanted _

theorem Chip.dropAhead_frame (s : Chip) : SameBeyondCopy s s.dropAhead :=
  ⟨rfl, rfl, rfl, rfl, (s.log.leaveLate_beside _).trans (LogState.dropped_frame _ _ _ _)⟩

/-- What an owner leaves is its waiting write, which it no longer acts on. -/
theorem ArbiterState.mem_leaves {a : ArbiterState} {o : Owner} {went : Bool} {r : PortRequest} (h : r ∈ a.leaves o went) :
    ∃ q, (q ∈ a.requests ∧ q.owner = o ∧ q.stale = false) ∧ r = { q with stale := true } := by
  cases went with
  | false => cases h
  | true =>
    obtain ⟨q, hq, rfl⟩ := List.mem_map.1 h
    obtain ⟨h₁, h₂⟩ := List.mem_filter.1 hq
    exact ⟨q, ⟨h₁, by simpa using h₂⟩, rfl⟩

/-- The requests that an owner leaves when it gives up its transfer are among those that wait then. -/
theorem ArbiterState.giveUp_leaves {a : ArbiterState} {o : Owner} {went : Bool} {r : PortRequest} (h : r ∈ a.leaves o went) :
    r ∈ (a.giveUp o went).requests := by
  cases went with
  | false => cases h
  | true =>
    obtain ⟨q, hq, rfl⟩ := List.mem_map.1 h
    obtain ⟨h₁, h₂⟩ := List.mem_filter.1 hq
    exact List.mem_filterMap.2 ⟨q, h₁, if_pos (by simpa using h₂)⟩

/-- What waits after an owner has given up its transfer waited before, or is what it leaves. -/
theorem ArbiterState.mem_giveUp {a : ArbiterState} {o : Owner} {went : Bool} {r : PortRequest}
    (h : r ∈ (a.giveUp o went).requests) : r ∈ a.requests ∧ (r.owner = o → r.stale = true) ∨ r ∈ a.leaves o went := by
  obtain ⟨q, hq, he⟩ := List.mem_filterMap.1 h
  split_ifs at he with h₁ h₂
  · refine .inr ?_
    rw [ArbiterState.leaves, if_pos h₂, ← Option.some.inj he]
    exact List.mem_map.2 ⟨q, List.mem_filter.2 ⟨hq, by simpa using h₁⟩, rfl⟩
  · rw [← Option.some.inj he]
    exact .inl ⟨hq, fun ho => by simpa [ho] using h₁⟩

/-- A request of another owner stays. -/
theorem ArbiterState.giveUp_other {a : ArbiterState} {o : Owner} {went : Bool} {r : PortRequest} (h : r ∈ a.requests)
    (ho : r.owner = o → r.stale = true) : r ∈ (a.giveUp o went).requests :=
  List.mem_filterMap.2 ⟨r, h, if_neg fun x => by rw [ho x.1] at x; exact absurd x.2 (by decide)⟩

/-- What one owner gives up is nothing that another one leaves. -/
theorem ArbiterState.leaves_giveUp (a : ArbiterState) {o p : Owner} (h : o ≠ p) (v w : Bool) :
    (a.giveUp o v).leaves p w = a.leaves p w := by
  unfold ArbiterState.leaves ArbiterState.giveUp
  dsimp only
  congr 2
  induction a.requests with
  | nil => rfl
  | cons r rs ih =>
    rw [List.filterMap_cons]
    by_cases hr : r.owner = o ∧ r.stale = false
    · cases v <;> simpa [hr, h] using ih
    · rw [if_neg hr, List.filter_cons, List.filter_cons, ih]

/-! ## The end of a copy -/

theorem Chip.finishJob_copyFrame (s : Chip) (l : Lane) (o : JobOutcome) (r : Word) : SameBeyondCopy s (s.finishJob l o r) := by
  obtain ⟨h, hr, hl⟩ := s.finishJob_beside l o r
  exact .of_blocks hr h.1 h.2.1 h.2.2.1 hl

theorem Chip.endCancels_frame (s : Chip) (r : Word) (ls : List Lane) : SameBeyondCopy s (s.endCancels r ls) := by
  induction ls generalizing s with
  | nil => exact .refl s
  | cons l ls ih => exact (s.finishJob_copyFrame l .done r).trans (ih _)

theorem Chip.endCopy_frame (s : Chip) (o : JobOutcome) : SameBeyondCopy s (s.endCopy o) := by
  unfold Chip.endCopy
  refine SameBeyondCopy.trans ?_ (Chip.endCancels_frame _ _ _)
  refine SameBeyondCopy.trans ?_ (Chip.finishJob_copyFrame _ _ _ _)
  exact (s.dropFront_frame.trans s.dropFront.dropAhead_frame).trans (.of_blocks rfl rfl rfl rfl rfl)

/-- What the end of a copy changes in the Log Unit is what the two withdrawals change. -/
theorem Chip.endCopy_log (s : Chip) (o : JobOutcome) : (s.endCopy o).log = s.dropFront.dropAhead.log := by
  have c : ∀ (ls : List Lane) (r : Word) (u : Chip), (u.endCancels r ls).log = u.log := by
    intro ls r
    induction ls with
    | nil => exact fun u => rfl
    | cons l ls ih => exact fun u => (ih _).trans (u.finishJob_beside l .done r).2.2
  unfold Chip.endCopy
  rw [c]
  exact (Chip.finishJob_beside _ _ _ _).2.2

/-- The requests that wait in the Log Unit lose those that are withdrawn. -/
theorem LogState.dropped_requests (l : LogState) (p : Requester → Bool) (a b : Bool) :
    ((l.withdrawCaptures p).clearDrainCopies a b).requests = l.requests.filter fun q => !p q.requester := by
  rw [LogState.clearDrainCopies_frame]
  rfl

/-- The end of a copy withdraws the capture requests of its frontier and of its copy-ahead, and no other (R26, R112, R118). -/
theorem Chip.endCopy_requests (s : Chip) (o : JobOutcome) :
    (s.endCopy o).log.requests =
      s.log.requests.filter fun q => q.requester != .frontier && q.requester != .copyAhead := by
  rw [s.endCopy_log o]
  refine (LogState.dropped_requests (s.dropFront.log.leaveLate _) _ _ _).trans ?_
  rw [LogState.leaveLate_frame]
  dsimp only
  rw [show s.dropFront.log.requests = s.log.requests.filter fun q => !(q.requester == .frontier) from
    LogState.dropped_requests s.log _ _ _, List.filter_filter]
  refine List.filter_congr fun q _ => ?_
  simp [bne, Bool.and_comm]

/-- With no capture request and no stall there is nothing for the end of a copy to withdraw from the Log Unit but the running job's
wait. -/
theorem Chip.endCopy_log_of_quiet {s : Chip} (hr : s.log.requests = []) (hc : s.log.capture = none)
    (ht : s.log.stallTimer = none) (o : JobOutcome) :
    (s.endCopy o).log = { s.log with running := (s.endCopy o).log.running } := by
  have w : ∀ (l : LogState) (p : Requester → Bool) (a b : Bool), l.requests = [] → l.capture = none → l.stallTimer = none →
      ∀ m, m = (l.withdrawCaptures p).clearDrainCopies a b → m = { l with running := m.running } := by
    intro l p a b h₁ h₂ h₃ m hm
    have : l.withdrawCaptures p = l := by
      simp only [LogState.withdrawCaptures, h₁, h₂]
      cases l
      simp_all
    rw [hm, this]
    exact LogState.clearDrainCopies_frame _ _ _
  have k : s.dropFront.dropAhead.log = { s.log with running := s.dropFront.dropAhead.log.running } := by
    have h₁ := w s.log _ _ _ hr hc ht s.dropFront.log rfl
    have h₀ := s.dropFront.log.leaveLate_frame (s.dropFront.arbiter.leaves .copyAhead s.dropFront.copy.aheadWent)
    have h₂ := w _ _ _ _ (by rw [h₀, h₁]; exact hr) (by rw [h₀, h₁]; exact hc) (by rw [h₀, h₁]; exact ht)
      s.dropFront.dropAhead.log rfl
    rw [h₂, h₀, h₁]
  rw [s.endCopy_log o, k]

theorem Chip.failAhead_frame (s : Chip) (o : JobOutcome) : SameBeyondCopy s (s.failAhead o) := by
  unfold Chip.failAhead
  split <;> exact s.endCopy_frame _

theorem Chip.failAhead_requests (s : Chip) (o : JobOutcome) :
    (s.failAhead o).log.requests =
      s.log.requests.filter fun q => q.requester != .frontier && q.requester != .copyAhead := by
  unfold Chip.failAhead
  split <;> exact s.endCopy_requests _

theorem Chip.failFront_frame (s : Chip) (o : JobOutcome) : SameBeyondCopy s (s.failFront o) := by
  unfold Chip.failFront
  split
  · exact s.dropFront_frame.trans (.of_blocks rfl rfl rfl rfl rfl)
  · exact s.endCopy_frame o

/-! ## The frontier and copy-ahead -/

theorem Chip.issueWrite_copyFrame (s : Chip) (r : PortRequest) : SameBeyondCopy s (s.issueWrite r) :=
  .of_blocks (by simp) (by simp) (by simp) (by simp) (by simp)

theorem Chip.request_copyFrame (s : Chip) (r : PortRequest) : SameBeyondCopy s (s.request r) := .of_blocks rfl rfl rfl rfl rfl

theorem Chip.requestCapture_frame (s : Chip) (q : Requester) (g : Word) (n : Nat) (c : PortClass) :
    SameBeyondCopy s (s.requestCapture q g n c) := ⟨rfl, rfl, rfl, rfl, .of_requests rfl⟩

theorem Chip.beginSpan_frame (s : Chip) : SameBeyondCopy s s.beginSpan := by
  unfold Chip.beginSpan
  split_ifs
  · exact .refl s
  · exact .of_blocks rfl rfl rfl rfl rfl
  all_goals
    dsimp only
    split <;> exact .of_blocks rfl rfl rfl rfl rfl

theorem Chip.issueFront_frame (s : Chip) (f : Front) (went : Bool) : SameBeyondCopy s (s.issueFront f went) := by
  unfold Chip.issueFront
  split
  · exact (SameBeyondCopy.of_blocks rfl rfl rfl rfl rfl).trans (Chip.issueWrite_copyFrame _ _)
  · exact .refl s

theorem Chip.startFrontWrite_frame (s : Chip) (f : Front) : SameBeyondCopy s (s.startFrontWrite f) := by
  unfold Chip.startFrontWrite
  split
  · exact .refl s
  · split
    · exact s.failFront_frame _
    · split
      · split_ifs
        · exact .of_blocks rfl rfl rfl rfl rfl
        · exact ⟨rfl, rfl, rfl, rfl, .of_requests rfl⟩
        · exact s.issueFront_frame _ _
      · exact s.issueFront_frame _ _

theorem Chip.resumeFront_frame (s : Chip) : SameBeyondCopy s s.resumeFront := by
  unfold Chip.resumeFront
  split
  · have h : SameBeyondCopy s { s with copy := { s.copy with state := .copying } } := .of_blocks rfl rfl rfl rfl rfl
    dsimp only
    split
    · split
      · exact h.trans (Chip.startFrontWrite_frame _ _)
      · exact h
    · exact h
  · exact .refl s

theorem Chip.nextSpan_frame (s : Chip) : SameBeyondCopy s s.nextSpan := by
  unfold Chip.nextSpan
  split
  · exact s.endCopy_frame _
  · exact s.beginSpan_frame

theorem Chip.completeSpan_frame (s : Chip) (f : Front) : SameBeyondCopy s (s.completeSpan f) := by
  unfold Chip.completeSpan
  exact SameBeyondCopy.trans (.of_blocks rfl rfl rfl rfl rfl) (Chip.nextSpan_frame _)

theorem Chip.advanceFront_frame (s : Chip) (f : Front) (data : Line) : SameBeyondCopy s (s.advanceFront f data) := by
  unfold Chip.advanceFront
  split
  · exact SameBeyondCopy.trans (.of_blocks rfl rfl rfl rfl rfl) (Chip.nextSpan_frame _)
  · split
    · split
      · dsimp only
        split
        · exact .of_blocks rfl rfl rfl rfl rfl
        · exact SameBeyondCopy.trans (.of_blocks rfl rfl rfl rfl rfl) (Chip.startFrontWrite_frame _ _)
      · exact .refl s
    · split
      · exact s.completeSpan_frame f
      · exact s.startFrontWrite_frame _
      · exact .refl s

theorem Chip.issueAhead_frame (s : Chip) (a : Ahead) (went : Bool) : SameBeyondCopy s (s.issueAhead a went) := by
  unfold Chip.issueAhead
  split
  · exact (SameBeyondCopy.of_blocks rfl rfl rfl rfl rfl).trans (Chip.issueWrite_copyFrame _ _)
  · exact .refl s

theorem Chip.startAheadWrite_frame (s : Chip) (a : Ahead) : SameBeyondCopy s (s.startAheadWrite a) := by
  unfold Chip.startAheadWrite
  split
  · exact .refl s
  · split
    · exact s.failAhead_frame _
    · split
      · split_ifs
        · exact s.failAhead_frame _
        · exact ⟨rfl, rfl, rfl, rfl, .of_requests rfl⟩
        · exact s.issueAhead_frame _ _
      · exact s.issueAhead_frame _ _

theorem Chip.coverFront_frame (s : Chip) (f : Front) : SameBeyondCopy s (s.coverFront f) := by
  unfold Chip.coverFront
  dsimp only
  split
  · exact .of_blocks rfl rfl rfl rfl rfl
  · exact (s.dropFront_frame.trans (.of_blocks rfl rfl rfl rfl rfl)).trans (Chip.beginSpan_frame _)

theorem Chip.leaveFront_frame (s : Chip) : SameBeyondCopy s s.leaveFront := by
  unfold Chip.leaveFront
  split
  · refine ⟨rfl, rfl, rfl, rfl, rfl, LogJob.withDrainBits_self _, ?_⟩
    dsimp only
    cases s.log.capture with
    | none => exact Capture.sameWanted none
    | some c => exact ⟨_, c.answer, rfl⟩
  · exact .refl s

theorem Chip.afterAhead_frame (s : Chip) (onFront : Bool) : SameBeyondCopy s (s.afterAhead onFront) := by
  unfold Chip.afterAhead
  split
  · exact s.endCopy_frame _
  · exact s.endCopy_frame _
  · split_ifs
    · exact s.leaveFront_frame.trans (Chip.endCopy_frame _ _)
    · split
      · exact s.coverFront_frame _
      · exact .refl s
    · exact .refl s

theorem Chip.completeAhead_frame (s : Chip) (a : Ahead) : SameBeyondCopy s (s.completeAhead a) := by
  unfold Chip.completeAhead
  dsimp only
  split
  · refine SameBeyondCopy.trans ?_ (Chip.afterAhead_frame _ _)
    exact .of_blocks rfl rfl rfl rfl rfl
  · refine SameBeyondCopy.trans ?_ (Chip.afterAhead_frame _ _)
    exact .of_blocks rfl rfl rfl rfl rfl

theorem Chip.advanceAhead_frame (s : Chip) (a : Ahead) (data : Line) : SameBeyondCopy s (s.advanceAhead a data) := by
  unfold Chip.advanceAhead
  split
  · dsimp only
    split
    · exact .of_blocks rfl rfl rfl rfl rfl
    · exact SameBeyondCopy.trans (.of_blocks rfl rfl rfl rfl rfl) (Chip.startAheadWrite_frame _ _)
  · split
    · exact s.completeAhead_frame a
    · exact SameBeyondCopy.trans (.of_blocks rfl rfl rfl rfl rfl) (Chip.startAheadWrite_frame _ _)
    · exact .refl s

theorem Chip.startAhead_frame (s : Chip) (k : Nat) (r : PortRequest) (image : SharedImage) :
    SameBeyondCopy s (s.startAhead k r image) := by
  unfold Chip.startAhead
  dsimp only
  split
  · exact SameBeyondCopy.trans (.of_blocks rfl rfl rfl rfl rfl) (Chip.failAhead_frame _ _)
  · exact SameBeyondCopy.trans (.of_blocks rfl rfl rfl rfl rfl) (Chip.startAheadWrite_frame _ _)
  all_goals split <;> exact .of_blocks rfl rfl rfl rfl rfl

/-! ## The end of a hold (R5, R12, R13) -/

theorem Chip.releaseHeld_rest (s : Chip) : s.releaseHeld = { s with path := s.releaseHeld.path } := by
  unfold Chip.releaseHeld
  split
  · split
    · exact s.classify_rest _ _
    · rfl
  · rfl

/-- The end of a hold leaves the regions, the Attention Unit, and the log's state and records alone. -/
theorem Chip.endHold_frame (s : Chip) :
    s.endHold.regions = s.regions ∧ s.endHold.attention = s.attention ∧ s.endHold.freeIndex = s.freeIndex ∧
      LogBesideCopy s.log s.endHold.log := by
  unfold Chip.endHold
  obtain ⟨a, _, c, d, e⟩ := s.resumeFront_frame
  have hr : s.resumeFront.releaseHeld.regions = s.resumeFront.regions := by rw [Chip.releaseHeld_rest]
  have ha : s.resumeFront.releaseHeld.attention = s.resumeFront.attention := by rw [Chip.releaseHeld_rest]
  have hf : s.resumeFront.releaseHeld.freeIndex = s.resumeFront.freeIndex := by rw [Chip.releaseHeld_rest]
  have hl : s.resumeFront.releaseHeld.log = s.resumeFront.log := by rw [Chip.releaseHeld_rest]
  exact ⟨hr.trans a, ha.trans c, hf.trans d, by rw [hl]; exact e⟩

/-! ## A failed rollback (R13, R33, R65) -/

/-- One entry under the fault request (R13). -/
theorem Region.toFaulted_eq (r : Region) :
    r.toFaulted = if r.state = .restoring then { r with state := .faulted, resume := .idle } else r := by
  unfold Region.toFaulted
  split <;> simp_all

/-- The regions and the log after a failed rollback. -/
theorem Chip.failRollback_spec {s : Chip} (reason : Reason) (applied : Nat) (h : s.log.state ≠ .broken) :
    let t := s.failRollback reason applied
    t.regions = (s.regions.map Region.toFaulted).map Region.disarmed ∧ t.freeIndex = s.freeIndex ∧
      t.log = { s.log with state := .broken, reason := reason, stallTimer := none, table := [], requests := []
                           capture := t.log.capture, running := none } := by
  intro t
  obtain ⟨a, _, c, d⟩ := Chip.endHold_frame { s with regions := s.regions.map Region.toFaulted }
  have hb : s.faultRequest.log.state ≠ .broken := by
    show (Chip.endHold { s with regions := s.regions.map Region.toFaulted }).log.state ≠ .broken
    rw [d.1]; exact h
  obtain ⟨e, f, _, _, g⟩ := Chip.breakLog_spec (s := s.faultRequest) reason hb
  obtain ⟨i, j, k⟩ := (s.faultRequest.breakLog reason).endLogJob_frame .restoreFault (BitVec.ofNat 32 applied)
  refine ⟨?_, ?_, ?_⟩
  · show ((s.faultRequest.breakLog reason).endLogJob .restoreFault (BitVec.ofNat 32 applied)).regions = _
    rw [j, f]
    exact congrArg _ a
  · show ((s.faultRequest.breakLog reason).endLogJob .restoreFault (BitVec.ofNat 32 applied)).freeIndex = _
    rw [i.2.2.1, g]
    exact c
  · show ((s.faultRequest.breakLog reason).endLogJob .restoreFault (BitVec.ofNat 32 applied)).log = _
    have hc : t.log.capture = s.faultRequest.log.capture := by
      show ((s.faultRequest.breakLog reason).endLogJob .restoreFault (BitVec.ofNat 32 applied)).log.capture = _
      rw [k, e]
    rw [hc, k, e]
    have : s.faultRequest.log = (Chip.endHold { s with regions := s.regions.map Region.toFaulted }).log := rfl
    rw [this, d.1]

end Sys2Proof.Machine
end

