-- ==== Sys2Proof/Laws/Jobs.lean ====
section
/-! SUPPORT. How commands reach their work: an answer to a transaction, a log job at its grant, and the refusal of one. -/

namespace Sys2Proof.Machine

/-- A part is its blocks. -/
theorem Chip.eq_of_blocks {x y : Chip} (h₁ : x.regions = y.regions) (h₂ : x.path = y.path) (h₃ : x.arbiter = y.arbiter)
    (h₄ : x.log = y.log) (h₅ : x.copy = y.copy) (h₆ : x.lanes = y.lanes) (h₇ : x.attention = y.attention)
    (h₈ : x.freeIndex = y.freeIndex) : x = y := by
  cases x
  cases y
  simp_all

/-- Memory's answer to a transaction in flight ends it, and its owner acts on the answer. -/
theorem Chip.answered_of_inFlight {s : Chip} {o : Owner} (h : s.InFlight o) (p : Owner → Bool) (hp : p o = true)
    (act : PortRequest → Chip → Chip) :
    ∃ r, s.arbiter.inFlight = some r ∧ r.owner = o ∧ s.answered p act = act r s.endTransaction := by
  obtain ⟨r, h₁, h₂, h₃⟩ := h
  exact ⟨r, h₁, h₂, by simp [Chip.answered, h₁, h₂, hp, h₃]⟩

/-- A handed-back job rests on the lane as it was before the lane entered RUN. -/
theorem HandsBack.of_lane {s s' t : Chip} {l : Lane} {addr : Word} {d : Descriptor} {o : JobOutcome} {r : Word}
    (h : HandsBack s' t l addr d o r) (hm : ∀ m, m ≠ l → s'.lane m = s.lane m)
    (hl : { s'.lane l with state := .finish } = { s.lane l with state := .finish, current := (s'.lane l).current })
    (hw : s'.waitingAccesses = s.waitingAccesses) : HandsBack s t l addr d o r := by
  obtain ⟨⟨a, b⟩, c⟩ := h
  refine ⟨⟨?_, fun m hn => by rw [b m hn, hm m hn]⟩, ?_⟩
  · rw [a]
    have := congrArg (fun x : LaneRec => { x with
      current := some { addr := addr, desc := some d, outcome := some o, result := r } }) hl
    simpa using this
  · intro p; rw [c p, hw]

/-! ## Log jobs at their grant (R40, R41) -/

/-- The part once the job of lane `l` has been granted, its step not yet taken. -/
def Chip.granted (s : Chip) (l : Lane) (rest : List Lane) : Chip :=
  Chip.laneRuns { s with log := { s.log with waiting := rest, running := some { lane := l, stage := .granted } } } l

theorem Chip.laneRuns_of_run {s : Chip} {l : Lane} (h : (s.lane l).state = .run) : s.laneRuns l = s := by
  have h' : ({ s.lane l with state := .run } : LaneRec) = s.lane l := by
    cases hl : s.lane l; simp_all
  unfold Chip.laneRuns Chip.setLane
  rw [h']
  have : s.lanes.lanes.set l (s.lane l) = s.lanes.lanes := by
    unfold Chip.lane
    exact Vector.set_getElem_self _
  rw [this]

/-- A job whose step is due has been granted already. -/
theorem Chip.StepDue.granted {s : Chip} {l : Lane} {addr : Word} {d : Descriptor} {rest : List Lane}
    (h : s.StepDue l addr d rest) : s.granted l rest = s := by
  obtain ⟨h₁, h₂, h₃, _⟩ := h
  unfold Chip.granted
  have : ({ s with log := { s.log with waiting := rest, running := some { lane := l, stage := .granted } } } : Chip) = s := by
    rw [← h₁, ← h₂]
  rw [this]
  exact Chip.laneRuns_of_run h₃.1

/-- The grant of a log job of its kind, once everything it can do: refused at once, stepped at once, or waiting for the capture in
progress. -/
theorem Chip.grantLog_of_grant {s : Chip} {l : Lane} {addr : Word} {d : Descriptor} {rest : List Lane}
    (h : s.GrantDue l addr d rest) {k : JobKind} (hk : jobKind d.code = some k) (check : Descriptor → Chip → JobOutcome)
    (b : Bool) (act : Lane → Descriptor → Chip → Chip) :
    s.grantLog k check b act =
      if check d s ≠ .done then (s.granted l rest).endLogJob (check d s) 0#32
      else if s.log.capture = none ∨ b = false then act l d (s.granted l rest) else s.granted l rest := by
  obtain ⟨h₁, hbs, h₂, h₃⟩ := h
  unfold Chip.grantLog
  rw [h₁]
  dsimp only
  rw [if_neg (by simp [hbs])]
  simp only [h₂, h₃.jobIn hk]
  show (if _ then (s.granted l rest).endLogJob (check d s) 0#32 else if _ then act l d (s.granted l rest) else s.granted l rest) = _
  by_cases hc : s.log.capture = none ∨ b = false
  · rw [if_pos hc, if_pos (c := (s.log.betweenCaptures || !b) = true) (by simpa [LogState.betweenCaptures] using hc)]
  · rw [if_neg hc, if_neg (c := (s.log.betweenCaptures || !b) = true) (by simpa [LogState.betweenCaptures] using hc)]

/-- The step of a granted log job of its kind. -/
theorem Chip.grantLog_of_step {s : Chip} {l : Lane} {addr : Word} {d : Descriptor} {rest : List Lane}
    (h : s.StepDue l addr d rest) {k : JobKind} (hk : jobKind d.code = some k) (check : Descriptor → Chip → JobOutcome)
    (b : Bool) (act : Lane → Descriptor → Chip → Chip) : s.grantLog k check b act = act l d s := by
  obtain ⟨h₁, h₂, h₃, hc⟩ := h
  unfold Chip.grantLog
  rw [h₁]
  simp only [h₃.jobIn hk]
  simp [LogState.betweenCaptures, hc]

/-- A granted job waits while a capture is in progress (R26). -/
theorem Chip.grantLog_waits {s : Chip} {l : Lane} (h : s.log.running = some { lane := l, stage := .granted })
    (hc : s.log.capture ≠ none) (k : JobKind) (check : Descriptor → Chip → JobOutcome) (act : Lane → Descriptor → Chip → Chip) :
    s.grantLog k check true act = s := by
  unfold Chip.grantLog
  rw [h]
  dsimp only
  split
  · rw [if_neg (by simpa [LogState.betweenCaptures] using hc)]
  · rfl

/-- A due log job whose step takes the checks again: refused with their outcome, stepped, or granted and waiting. -/
theorem Chip.grantLog_of_due {s : Chip} {l : Lane} {addr : Word} {d : Descriptor} {rest : List Lane}
    (h : s.LogJobDue l addr d rest) {k : JobKind} (hk : jobKind d.code = some k) {check : Descriptor → Chip → JobOutcome}
    {act : Lane → Descriptor → Chip → Chip}
    (ha : check d s ≠ .done → act l d (s.granted l rest) = (s.granted l rest).endLogJob (check d s) 0#32) :
    s.grantLog k check true act =
      if check d s ≠ .done then (s.granted l rest).endLogJob (check d s) 0#32
      else if s.log.capture = none then act l d (s.granted l rest) else s.granted l rest := by
  rcases h with h | h
  · rw [Chip.grantLog_of_grant h hk]
    simp
  · rw [Chip.grantLog_of_step h hk, if_pos h.2.2.2]
    by_cases hd : check d s ≠ .done
    · rw [if_pos hd, ← ha hd, h.granted]
    · rw [if_neg hd, h.granted]

/-- The grant itself: the lane runs, and the job is the running one. -/
theorem Chip.granted_spec (s : Chip) (l : Lane) (rest : List Lane) :
    LaneRuns s (s.granted l rest) l ∧ (s.granted l rest).waitingAccesses = s.waitingAccesses ∧
      s.granted l rest = { s with
        lanes := (s.granted l rest).lanes
        log := { s.log with waiting := rest, running := some { lane := l, stage := .granted } } } :=
  ⟨⟨⟨by simp [Chip.granted, Chip.laneRuns, Chip.lane, Chip.setLane],
    fun m hm => Chip.lane_setLane_of_ne _ _ hm⟩, rfl⟩, rfl, rfl⟩

/-- A job that is granted with a capture in progress waits for its step (R26). -/
theorem Chip.granted_jobGranted (s : Chip) (l : Lane) (rest : List Lane) : JobGranted s (s.granted l rest) l rest :=
  ⟨(s.granted_spec l rest).1, (s.granted_spec l rest).2.2⟩

/-- A granted job still has its descriptor. -/
theorem Chip.LogJobDue.current {s : Chip} {l : Lane} {addr : Word} {d : Descriptor} {rest : List Lane}
    (h : s.LogJobDue l addr d rest) :
    ∃ p q, (s.lane l).current = some { addr := addr, desc := some d, outcome := p, result := q } := by
  rcases h with ⟨_, _, _, h⟩ | ⟨_, _, h, _⟩ <;> exact h.2

/-- A granted job that ends at once: its lane is handed the outcome, and the log is `log'` with no job running. -/
theorem Chip.granted_ends {s : Chip} {l : Lane} {addr : Word} {d : Descriptor} {rest : List Lane}
    (h : ∃ p q, (s.lane l).current = some { addr := addr, desc := some d, outcome := p, result := q })
    (o : JobOutcome) (r : Word) {u : Chip} (hl : u.lanes = (s.granted l rest).lanes)
    (hr : ∃ st, u.log.running = some { lane := l, stage := st }) (ha : u.arbiter = s.arbiter) (hc : u.copy = s.copy) :
    HandsBack s (u.endLogJob o r) l addr d o r ∧ SameBesideHandBack u (u.endLogJob o r) ∧
      (u.endLogJob o r).regions = u.regions ∧ (u.endLogJob o r).log = { u.log with running := none } := by
  obtain ⟨st, hr⟩ := hr
  rw [Chip.endLogJob_of_running hr]
  obtain ⟨p, q, h⟩ := h
  have hlane : ∀ m, (u.lane m) = (s.granted l rest).lane m := fun m => Chip.lane_congr (by rw [hl]) m
  have hself : (s.granted l rest).lane l = { s.lane l with state := .run } := (s.granted_spec l rest).1.1.1
  obtain ⟨a, b, c, e⟩ := Chip.finishJob_spec (s := { u with log := { u.log with running := none } }) (l := l) (addr := addr)
    (d := d) o r ⟨p, q, by show (u.lane l).current = _; rw [hlane, hself]; exact h⟩
  refine ⟨HandsBack.of_lane a (fun m hm => ?_) ?_ ?_, b, c, e⟩
  · show u.lane m = _
    rw [hlane, (s.granted_spec l rest).1.1.2 m hm]
  · have : (({ u with log := { u.log with running := none } } : Chip).lane l) = { s.lane l with state := .run } := by
      show u.lane l = _
      rw [hlane, hself]
    rw [this]
  · show u.lanes.later ++ u.lanes.accesses ++ u.lanes.refused.toList ++ u.arbiter.requests ++ u.copy.queue = _
    rw [hl, ha, hc]
    rfl

/-- A refused log job changes nothing but its lane (R41). -/
theorem Chip.granted_refused {s : Chip} {l : Lane} {addr : Word} {d : Descriptor} {rest : List Lane}
    (h : ∃ p q, (s.lane l).current = some { addr := addr, desc := some d, outcome := p, result := q }) (o : JobOutcome) :
    LogJobRefused s ((s.granted l rest).endLogJob o 0#32) l addr d rest o := by
  obtain ⟨a, b, c, e⟩ := Chip.granted_ends (rest := rest) h o 0#32 (u := s.granted l rest) rfl ⟨_, rfl⟩ rfl rfl
  exact ⟨a, e, c, b⟩

/-- The end of the running log job, whose lane has descriptor `d`. -/
theorem Chip.endLogJob_spec {s : Chip} {l : Lane} {st : LogStage} {addr : Word} {d : Descriptor}
    (hr : s.log.running = some { lane := l, stage := st })
    (h : ∃ p q, (s.lane l).current = some { addr := addr, desc := some d, outcome := p, result := q })
    (o : JobOutcome) (r : Word) :
    HandsBack s (s.endLogJob o r) l addr d o r ∧ SameBesideHandBack s (s.endLogJob o r) ∧
      (s.endLogJob o r).regions = s.regions ∧ (s.endLogJob o r).log = { s.log with running := none } := by
  rw [Chip.endLogJob_of_running hr]
  exact Chip.finishJob_spec (s := { s with log := { s.log with running := none } }) o r h

/-! ## The checkpoint list (R50, R57) -/

/-- The list split at the one entry with a number. -/
theorem LogState.find_of_split {l : LogState} {older newer : List Checkpoint} {e : Checkpoint} {c : Word}
    (h : l.checkpoints = older ++ e :: newer) (he : e.number = c) (ho : ∀ k ∈ older, k.number ≠ c) :
    l.find c = some e ∧ l.older c = older ∧ l.since c = e :: newer := by
  unfold LogState.find LogState.older LogState.since
  rw [h]
  clear h
  induction older with
  | nil => simp [he]
  | cons k ks ih =>
    have hk : k.number ≠ c := ho k (by simp)
    obtain ⟨a, b, d⟩ := ih fun x hx => ho x (by simp [hx])
    simp [hk] at a b d ⊢
    exact ⟨a, b, d⟩

/-- No entry has the number. -/
theorem LogState.find_eq_none {l : LogState} {c : Word} : l.find c = none ↔ ∀ e ∈ l.checkpoints, e.number ≠ c := by
  simp [LogState.find]

/-! ## Ring operands (R37, R79, R176) -/

/-- The policy field names BREAK or STALL. -/
theorem policyOf_spec (c : Word) :
    ((policyOf c).isSome = true ↔ c.toNat / 65536 % 256 ≤ 1) ∧
      (policyOf c = some .break ↔ c.toNat / 65536 % 256 = 0) ∧ (policyOf c = some .stall ↔ c.toNat / 65536 % 256 = 1) := by
  have : (field c 2 8 : Byte).toNat = c.toNat / 65536 % 256 := by
    simp [field, Nat.shiftRight_eq_div_pow]
  unfold policyOf
  rw [this]
  generalize c.toNat / 65536 % 256 = n
  match n with
  | 0 => simp
  | 1 => simp
  | n + 2 => simp

/-- The ring operands as accepted. -/
theorem ringOperands_of_ok (l : LogState) {d : Descriptor} (h : d.c.toNat / 65536 % 256 ≤ 1) (st : LogStatus) :
    RingOperands (l.withRing d st) d := by
  obtain ⟨_, hb, hs⟩ := policyOf_spec d.c
  refine ⟨rfl, rfl, by simp [LogState.withRing, stallLimitOf, field], ?_, ?_⟩
  · show (policyOf d.c).getD .break = .break ↔ _
    rw [← hb]
    cases hp : policyOf d.c with
    | none => exact absurd h (by rw [← (policyOf_spec d.c).1, hp]; simp)
    | some p => simp
  · show (policyOf d.c).getD .break = .stall ↔ _
    rw [← hs]
    cases hp : policyOf d.c with
    | none => exact absurd h (by rw [← (policyOf_spec d.c).1, hp]; simp)
    | some p => simp

/-- The operand checks that ATTACH LOG and ADOPT LOG share. -/
theorem ringOperandsOk_eq (d : Descriptor) :
    ringOperandsOk d = false ↔ (d.b.toNat < 16 ∨ 65535 < d.b.toNat ∨ 0xFFFFFFFF < d.a.toNat + 96 * d.b.toNat - 1 ∨
      1 < d.c.toNat / 65536 % 256) := by
  have hp := (policyOf_spec d.c).1
  unfold ringOperandsOk passes4GiB
  rw [← Bool.not_eq_true, Bool.and_eq_true, Bool.and_eq_true, hp]
  simp
  omega

theorem ringRangeOverlaps_eq (s : Chip) (d : Descriptor) : s.ringRangeOverlaps d = true ↔ s.RingMeets d := by
  unfold Chip.ringRangeOverlaps Chip.RingMeets
  simp [or_assoc]

/-! ## Captures taken again (R31, R51) -/

/-- With room again, the first request that waits for space starts its capture. -/
theorem Chip.retake_of_space {s : Chip} {q : CaptureRequest} {qs : List CaptureRequest} (hr : s.log.requests = q :: qs)
    (hq : q.stalled = true) (ha : s.log.state = .attached) (hc : s.log.capture = none) (hn : s.log.nextSeq ≠ 0xFFFFFFFF#32)
    (hs : s.log.count ≠ s.log.capacity) (ht : q.granule ∉ s.log.table) :
    s.retake = { s with
      log := { s.log with
        requests := qs
        stallTimer := if qs.any (·.stalled) then s.log.stallTimer else none
        capture := some { request := q, slot := s.log.tail, sequence := s.log.nextSeq, previous := s.log.lastSeq
                          checkpoint := s.log.newestNumber, first := 0#256, second := 0#256, step := .readFirst
                          answer := true } }
      arbiter := { s.arbiter with requests := s.arbiter.requests ++
        [{ owner := .capture, cls := q.cls, access := readLine q.granule, stale := false }] } } := by
  have h₁ : s.retakeStalled s.log.requests.length =
      Chip.startCaptureOf { s with log := { s.log with requests := qs } } q := by
    rw [hr]
    show Chip.retakeStalled s (qs.length + 1) = _
    unfold Chip.retakeStalled
    rw [if_neg (by simp [hc]), hr]
    simp only [List.find?_cons, hq, List.erase_cons_head]
    rw [if_neg (by tauto)]
    have h₂ : Chip.takeCapture { s with log := { s.log with requests := qs } } q =
        Chip.startCaptureOf { s with log := { s.log with requests := qs } } q := by
      unfold Chip.takeCapture
      have a : (({ s with log := { s.log with requests := qs } } : Chip).log.state == .attached) = true := by
        show (s.log.state == .attached) = true
        rw [ha]; rfl
      have b : ({ s with log := { s.log with requests := qs } } : Chip).log.table.contains q.granule = false := by
        show s.log.table.contains q.granule = false
        simpa using ht
      have c : ¬(s.log.nextSeq = Config.seqMax ∨ s.log.count = s.log.capacity) := by
        rintro (h | h)
        · exact hn h
        · exact hs h
      rw [a, b]
      simp only [Bool.true_or, Bool.not_true, Bool.false_eq_true, if_false]
      rw [if_neg c]
    rw [h₂]
    have h₃ : ∀ n (u : Chip), u.log.capture.isSome = true → u.retakeStalled n = u := by
      intro n u hu
      cases n with
      | zero => rfl
      | succ n => unfold Chip.retakeStalled; rw [if_pos hu]
    exact h₃ _ _ rfl
  unfold Chip.retake
  rw [h₁]
  unfold Chip.settleStall
  have h₄ : (Chip.startCaptureOf { s with log := { s.log with requests := qs } } q).log.stalled = qs.any (·.stalled) := rfl
  rw [h₄]
  split <;> rfl

end Sys2Proof.Machine
end

