-- ==== Sys2Proof/Laws/Spans.lean ====
section
/-! SUPPORT. What the Copy Engine's operations do: the end of a copy, the beginning of a span, and the steps before a destination
write (R100 to R118). -/

namespace Sys2Proof.Machine

/-! ## The end of a copy (R115) -/

/-- Every withdrawn write that the part may still issue has been one of them before (R168). -/
def Chip.NothingWithdrawnTo (s t : Chip) : Prop :=
  ∀ r ∈ t.arbiter.requests ++ t.lanes.accesses, r.withdrawn = true → r ∈ s.arbiter.requests ++ s.lanes.accesses

/-- Ending a job while no copy is active changes nothing of the Copy Engine, and takes no waiting request away. -/
theorem Chip.finishJob_idle {s : Chip} (h : s.copy.state = .idle) (l : Lane) (o : JobOutcome) (result : Word) :
    let t := s.finishJob l o result
    t.copy = s.copy ∧ (∀ r ∈ s.arbiter.requests, r ∈ t.arbiter.requests) ∧ (∀ r ∈ s.waitingAccesses, r ∈ t.waitingAccesses) ∧
      (∀ m, m ≠ l → t.lane m = s.lane m) ∧ s.NothingWithdrawnTo t ∧
      ∀ addr d p q, (s.lane l).current = some { addr := addr, desc := some d, outcome := p, result := q } →
        t.lane l = { s.lane l with
          state := .finish, current := some { addr := addr, desc := some d, outcome := some o, result := result } } ∧
        { owner := .laneOutcome l, cls := .lane, access := outcomeAccess addr d o result, stale := false } ∈ t.waitingAccesses := by
  have hn : ∀ a, s.copy.notCopied a = none := by intro a; simp [CopyState.notCopied, CopyState.active, h]
  have hp : ∀ u : Chip, u.copy = s.copy → u.presentLane.copy = u.copy ∧
      (∀ r ∈ u.arbiter.requests, r ∈ u.presentLane.arbiter.requests) ∧ u.NothingWithdrawnTo u.presentLane := by
    intro u hu
    unfold Chip.presentLane
    split_ifs
    · exact ⟨rfl, fun r hr => hr, fun r hr _ => hr⟩
    · split
      · exact ⟨rfl, fun r hr => hr, fun r hr _ => hr⟩
      · rename_i x xs hx
        split_ifs
        · refine ⟨rfl, fun r hr => hr, fun r hr _ => ?_⟩
          simp only [List.mem_append, hx, List.mem_cons] at hr ⊢
          tauto
        · rw [Chip.issueWrite_of_passes (by show u.copy.notCopied _ = _; rw [hu]; exact hn _)]
          refine ⟨rfl, fun r hr => List.mem_append_left _ hr, fun r hr _ => ?_⟩
          simp only [Chip.request, List.mem_append, hx, List.mem_cons] at hr ⊢
          tauto
        · refine ⟨rfl, fun r hr => List.mem_append_left _ hr, fun r hr _ => ?_⟩
          simp only [Chip.request, List.mem_append, hx, List.mem_cons] at hr ⊢
          tauto
  dsimp only
  unfold Chip.finishJob
  split
  · rename_i addr d p q hc
    obtain ⟨e₁, e₂, e₃, ⟨e₄, e₅⟩, e₆⟩ := Chip.setLane_makeLaneAccess_spec s l { s.lane l with
      state := .finish, current := some { addr := addr, desc := some d, outcome := some o, result := result } }
      (.laneOutcome l) (outcomeAccess addr d o result)
    have ka : ∀ (r : LaneRec) (o : Owner) (a : Access), ((s.setLane l r).makeLaneAccess o a).copy = s.copy ∧
        (∀ q ∈ s.arbiter.requests, q ∈ ((s.setLane l r).makeLaneAccess o a).arbiter.requests) ∧
        (o.lane.isSome = true → s.NothingWithdrawnTo ((s.setLane l r).makeLaneAccess o a)) := by
      intro r o a
      unfold Chip.makeLaneAccess
      dsimp only
      split
      · exact ⟨rfl, fun q hq => hq, fun _ r hr _ => hr⟩
      · obtain ⟨h₁, h₂, h₃⟩ := hp { (s.setLane l r) with lanes := { (s.setLane l r).lanes with
          accesses := (s.setLane l r).lanes.accesses ++ [{ owner := o, cls := .lane, access := a, stale := false }] } } rfl
        refine ⟨h₁, h₂, fun ho q hq hw => ?_⟩
        have := h₃ q hq hw
        simp only [List.mem_append, List.mem_singleton] at this
        rcases this with h | h | rfl
        · exact List.mem_append_left _ h
        · exact List.mem_append_right _ h
        · simp [PortRequest.withdrawn] at hw
    obtain ⟨k₁, k₂, k₃⟩ := ka { s.lane l with
      state := .finish, current := some { addr := addr, desc := some d, outcome := some o, result := result } }
      (.laneOutcome l) (outcomeAccess addr d o result)
    refine ⟨k₁, k₂, fun r hr => (e₆ r).2 (.inl hr), fun m hm => e₅ m hm, k₃ rfl, fun addr' d' p' q' hc' => ?_⟩
    rw [hc] at hc'
    obtain ⟨rfl, rfl⟩ : addr = addr' ∧ d = d' := by injection hc' with x; injection x with x y; injection y with y; exact ⟨x, y⟩
    exact ⟨e₄, (e₆ _).2 (.inr rfl)⟩
  · rename_i hc
    refine ⟨rfl, fun r hr => hr, fun r hr => hr, fun m _ => rfl, fun r hr _ => hr, fun addr d p q hc' => ?_⟩
    exact absurd hc' (hc addr d p q)

/-- The CANCEL COPY jobs that wait end DONE with the result. -/
theorem Chip.endCancels_spec {s : Chip} (h : s.copy.state = .idle) (result : Word) (ls : List Lane) :
    let t := s.endCancels result ls
    t.copy = s.copy ∧ (∀ r ∈ s.arbiter.requests, r ∈ t.arbiter.requests) ∧ (∀ r ∈ s.waitingAccesses, r ∈ t.waitingAccesses) ∧
      (∀ m, m ∉ ls → t.lane m = s.lane m) ∧ s.NothingWithdrawnTo t ∧
      ∀ m ∈ ls, ∀ addr d p q, (s.lane m).current = some { addr := addr, desc := some d, outcome := p, result := q } →
        t.lane m = { s.lane m with
          state := .finish, current := some { addr := addr, desc := some d, outcome := some .done, result := result } } ∧
        { owner := .laneOutcome m, cls := .lane, access := outcomeAccess addr d .done result, stale := false } ∈ t.waitingAccesses := by
  induction ls generalizing s with
  | nil => exact ⟨rfl, fun r hr => hr, fun r hr => hr, fun m _ => rfl, fun r hr _ => hr,
      fun m hm => absurd hm List.not_mem_nil⟩
  | cons l ls ih =>
    obtain ⟨a, b, c, e, w, g⟩ := Chip.finishJob_idle h l .done result
    obtain ⟨a', b', c', e', w', g'⟩ := ih (s := s.finishJob l .done result) (by rw [a]; exact h)
    have hk : s.endCancels result (l :: ls) = (s.finishJob l .done result).endCancels result ls := rfl
    dsimp only
    rw [hk]
    refine ⟨a'.trans a, fun r hr => b' r (b r hr), fun r hr => c' r (c r hr), fun m hm => ?_,
      fun r hr hw => w r (w' r hr hw) hw, fun m hm addr d p q hc => ?_⟩
    · rw [e' m (fun x => hm (List.mem_cons_of_mem _ x)), e m (fun x => hm (x ▸ List.mem_cons_self))]
    · by_cases hl : m = l
      · subst hl
        obtain ⟨g₁, g₂⟩ := g addr d p q hc
        by_cases hs : m ∈ ls
        · obtain ⟨k₁, k₂⟩ := g' m hs addr d (some .done) result (by rw [g₁])
          exact ⟨by rw [k₁, g₁], k₂⟩
        · exact ⟨by rw [e' m hs, g₁], c' _ g₂⟩
      · have hs : m ∈ ls := (List.mem_cons.1 hm).resolve_left hl
        obtain ⟨k₁, k₂⟩ := g' m hs addr d p q (by rw [e m hl]; exact hc)
        exact ⟨by rw [k₁, e m hl], k₂⟩

/-- The end of a copy is what R115 says. -/
theorem Chip.endCopy_ended (s : Chip) (o : JobOutcome) : CopyEnded s (s.endCopy o) o := by
  have hf := s.endCopy_frame o
  let s₂ : Chip := { s.dropFront.dropAhead with
    arbiter := { s.dropFront.dropAhead.arbiter with
      requests := s.dropFront.dropAhead.arbiter.requests ++ ((match s.copy.ahead with
        | some { trigger := some r, .. } => [r]
        | _ => []) ++ s.copy.queue.filter fun r => !r.withdrawn) }
    copy := { s.dropFront.dropAhead.copy with
      state := .idle, windowTimer := false, cancelPend := false, queue := [], fix := none, cancels := [] } }
  have he : s.endCopy o = (s₂.finishJob s.copy.lane o (BitVec.ofNat 32 s.copy.result)).endCancels
      (BitVec.ofNat 32 s.copy.result) s.copy.cancels := rfl
  obtain ⟨a, b, c, e, w, g⟩ := Chip.finishJob_idle (s := s₂) rfl s.copy.lane o (BitVec.ofNat 32 s.copy.result)
  obtain ⟨a', b', c', e', w', g'⟩ := Chip.endCancels_spec (s := s₂.finishJob s.copy.lane o (BitVec.ofNat 32 s.copy.result))
    (by rw [a]) (BitVec.ofNat 32 s.copy.result) s.copy.cancels
  rw [← he] at a' b' c' e' w' g'
  have hc : (s.endCopy o).copy = s₂.copy := a'.trans a
  refine ⟨by rw [hc], by rw [hc], by rw [hc], by rw [hc]; rfl, by rw [hc]; rfl, by rw [hc], by rw [hc], by rw [hc]; rfl,
    by rw [hc]; rfl, by rw [hc]; rfl, hf, fun q hq => ?_, fun q hq h₁ h₂ => ?_, ?_, ?_, fun r hr hs hw => ?_, fun l c hl => ?_, ?_, ?_⟩
  · rw [s.endCopy_requests o] at hq
    simpa using (List.mem_filter.1 hq).2
  · rw [s.endCopy_requests o]
    exact List.mem_filter.2 ⟨hq, by simp [h₁, h₂]⟩
  · rintro r hr
    refine b' r (b r (List.mem_append_right _ ?_))
    rcases hr with h | ⟨x, h, h'⟩
    · exact List.mem_append_right _ (List.mem_filter.2 ⟨h.1, by simp [h.2]⟩)
    · refine List.mem_append_left _ ?_
      cases x; simp only at h'; subst h'; rw [h]; simp
  · intro r hr hw
    have h := w r (w' r (List.mem_append_left _ hr) hw) hw
    simp only [s₂, List.mem_append, List.mem_filter, hw, Bool.not_true, Bool.false_eq_true, and_false, or_false] at h
    rcases h with (h | h) | h
    · left
      have hne : ∀ o went (a : ArbiterState), o ≠ .attention → r ∈ (a.giveUp o went).requests → r ∈ a.requests := by
        intro o went a ho hm
        rcases ArbiterState.mem_giveUp hm with hq | hl
        · exact hq.1
        · obtain ⟨q, hq, rfl⟩ := ArbiterState.mem_leaves hl
          simp [PortRequest.withdrawn, hq.2.1, ho] at hw
      exact hne .frontier _ _ (by decide) (hne .copyAhead _ _ (by decide) h)
    · right; right
      split at h
      · rename_i q _ _ _ _ ha
        rw [List.mem_singleton] at h
        subst h
        exact ⟨_, ha, rfl⟩
      · cases h
    · exact .inr (.inl h)
  · refine b' _ (b _ (List.mem_append_left _ ?_))
    rcases hw with ⟨ho, hw⟩ | ⟨ho, hw⟩
    · refine ArbiterState.giveUp_other (ArbiterState.giveUp_leaves (o := .frontier) ?_) fun _ => rfl
      rw [ArbiterState.leaves, if_pos hw]
      exact List.mem_map.2 ⟨r, List.mem_filter.2 ⟨hr, by simp [ho, hs]⟩, rfl⟩
    · refine ArbiterState.giveUp_leaves ?_
      rw [show s.dropFront.copy.aheadWent = s.copy.aheadWent from rfl, ArbiterState.leaves, if_pos hw]
      exact List.mem_map.2 ⟨r, List.mem_filter.2 ⟨ArbiterState.giveUp_other hr (by simp [ho]), by simp [ho, hs]⟩, rfl⟩
  · rw [s.endCopy_log o]
    have h₁ : s.dropFront.log.running = some { lane := l, stage := .rolling { c with drainFrontier := false } } := by
      show ((s.log.withdrawCaptures _).clearDrainCopies true false).running = _
      unfold LogState.clearDrainCopies
      rw [show (s.log.withdrawCaptures _).running = _ from hl]
      simp
    have h₂ : s.dropFront.arbiter.leaves .copyAhead s.dropFront.copy.aheadWent = s.arbiter.leaves .copyAhead s.copy.aheadWent :=
      ArbiterState.leaves_giveUp _ (by decide) _ _
    show (((s.dropFront.log.leaveLate _).withdrawCaptures _).clearDrainCopies false true).running = _
    rw [h₂]
    unfold LogState.leaveLate
    rw [h₁]
    simp [LogState.clearDrainCopies, LogState.withdrawCaptures]
  · rintro hn m st addr d ⟨_, p, q, hj⟩ ended rfl
    refine ⟨?_, fun hm => ?_⟩
    · rintro rfl
      obtain ⟨g₁, g₂⟩ := g addr d p q hj
      exact ⟨by rw [e' _ hn, g₁]; rfl, c' _ g₂⟩
    · have hl : m ≠ s.copy.lane := fun x => hn (x ▸ hm)
      obtain ⟨k₁, k₂⟩ := g' m hm addr d p q (by rw [e m hl]; exact hj)
      exact ⟨by rw [k₁, e m hl]; rfl, k₂⟩
  · intro m hl hm
    rw [e' m hm, e m hl]; rfl

/-- Leaving the frontier's write changes its own capture requests alone (R109). -/
theorem Chip.leaveFront_mem {s : Chip} {q : CaptureRequest} (h : q ∈ s.log.requests) (hq : q.requester ≠ .frontier) :
    q ∈ s.leaveFront.log.requests := by
  unfold Chip.leaveFront
  split
  · exact List.mem_map.2 ⟨q, h, if_neg hq⟩
  · exact h

/-- Leaving the frontier's write touches the Log Unit alone. -/
theorem Chip.leaveFront_eq (s : Chip) : s.leaveFront = { s with log := s.leaveFront.log } := by
  unfold Chip.leaveFront
  split <;> rfl

/-- The end of a copy whose frontier's write has been left is an end of that copy. -/
theorem CopyEnded.of_leaveFront {s t : Chip} {o : JobOutcome} (h : CopyEnded s.leaveFront t o) : CopyEnded s t o := by
  have hm := fun q => s.leaveFront_mem (q := q)
  have hf := s.leaveFront_frame
  have hr : s.leaveFront.log.running = s.log.running := by unfold Chip.leaveFront; split <;> rfl
  rw [s.leaveFront_eq] at h hf hm hr
  generalize s.leaveFront.log = l at *
  obtain ⟨h₁, h₂, h₃, h₄, h₅, h₆, h₇, h₈, h₉, h₁₀, h₁₁, h₁₂, h₁₃, h₁₄, h₁₅, h₁₆, h₁₇, h₁₈⟩ := h
  exact ⟨h₁, h₂, h₃, h₄, h₅, h₆, h₇, h₈, h₉, h₁₀, hf.trans h₁₁, h₁₂,
    fun q hq n₁ n₂ => h₁₃ q (hm q hq n₁) n₁ n₂, h₁₄, h₁₅, h₁₆, fun m c hc => h₁₇ m c (hr.trans hc), h₁₈⟩

/-- A copy-ahead fails as R112 says. -/
theorem Chip.failAhead_failed (s : Chip) (o : JobOutcome) : AheadFailed s (s.failAhead o) o := by
  unfold Chip.failAhead AheadFailed
  split
  · rename_i o' h
    refine ⟨fun p hp => ?_, fun h' => absurd h (h' _)⟩
    rw [h] at hp
    cases hp
    exact s.endCopy_ended _
  · rename_i h
    exact ⟨fun o' ho' => absurd ho' (h o'), fun _ => s.endCopy_ended o⟩

/-- The frontier fails as R116 says. -/
theorem Chip.failFront_failed (s : Chip) (o : JobOutcome) : FrontFailed s (s.failFront o) o := by
  refine ⟨fun h => ?_, fun h => ⟨?_, s.failFront_frame o, ?_⟩⟩
  · unfold Chip.failFront
    rw [if_neg (by simp [h])]
    exact s.endCopy_ended o
  all_goals
    unfold Chip.failFront
    rw [if_pos (Option.isSome_iff_ne_none.2 h)]
    rfl

/-- A write that the ring guard stops at its grant is not issued, and its owner takes it as R36, R148 and R154 say. -/
theorem Chip.stopWrite_stopped (s : Chip) (r : PortRequest) :
    ((∃ l, r.owner = .laneOutcome l ∨ r.owner = .laneDirect l) →
      s.stopWrite r = { s with lanes := { s.lanes with presented := false, refused := some r } }) ∧
    (r.owner = .frontier ∨ r.owner = .copyAhead → r.stale = true → s.stopWrite r = s) ∧
    (r.owner = .frontier → r.stale = false → FrontFailed s (s.stopWrite r) .destFault) ∧
    (r.owner = .copyAhead → r.stale = false → AheadFailed s (s.stopWrite r) .destFault) := by
  unfold Chip.stopWrite
  refine ⟨fun ⟨l, h⟩ => ?_, fun h hs => ?_, fun h hs => ?_, fun h hs => ?_⟩
  · rcases h with h | h <;> rw [h]
  · rcases h with h | h <;> rw [h] <;> exact if_pos hs
  · rw [h]
    simp only [hs, Bool.false_eq_true, if_false]
    exact s.failFront_failed _
  · rw [h]
    simp only [hs, Bool.false_eq_true, if_false]
    exact s.failAhead_failed _

/-! ## Spans (R100, R101, R104) -/

theorem CopyState.spanLength_at (c : CopyState) (f : Nat) :
    c.spanStart (c.spanAt f + 1) - f = min (c.length - f) (64 - (c.source.toNat + f) % 64) := by
  unfold CopyState.spanStart CopyState.spanAt
  rw [if_neg (Nat.succ_ne_zero _)]
  omega

theorem sourceLines_head (addr len : Nat) :
    ∃ more, sourceLines addr len = BitVec.ofNat 32 (32 * (addr / 32)) :: more := by
  unfold sourceLines
  dsimp only
  split_ifs
  · exact ⟨_, rfl⟩
  · exact ⟨_, rfl⟩

/-- The frontier begins a span, or pauses for the budget. -/
theorem Chip.beginSpan_begun {s : Chip} (h : s.copy.fix = none) : SpanBegun s s.beginSpan := by
  refine ⟨fun h₁ h₂ => ?_, fun h₁ n hn => ?_⟩
  · unfold Chip.beginSpan
    rw [if_neg (by simp [h]), if_pos ⟨h₁, h₂⟩]
  · unfold Chip.beginSpan
    rw [if_neg (by simp [h]), if_neg (by rintro ⟨x, y⟩; rcases h₁ with z | z; exact x z; exact z y)]
    dsimp only
    rw [CopyState.spanLength_at, ← hn]
    obtain ⟨more, hm⟩ := sourceLines_head (s.copy.source.toNat + s.copy.frontier) n
    rw [hm]
    rfl

/-- After a span the copy ends or the next span begins. -/
theorem Chip.nextSpan_next {s : Chip} (h : s.copy.fix = none) : NextSpan s s.nextSpan := by
  unfold Chip.nextSpan
  refine ⟨fun h₁ => ?_, fun h₁ => ?_⟩
  · rw [if_pos h₁]; exact s.endCopy_ended _
  · rw [if_neg h₁]; exact Chip.beginSpan_begun h

/-! ## Destination writes (R102, R107) -/

theorem Chip.startFrontWrite_eq {s : Chip} {f : Front} {p : Piece} {ps : List Piece} (h : f.writes = p :: ps) :
    s.startFrontWrite f =
      if s.ringGuard p.addr then s.failFront .destFault
      else match s.lookup p.addr with
        | some (n, r) =>
          if r.state = .restoring then
            { s with copy := { s.copy with state := .pausedRegion, front := some { f with phase := .paused, went := false } } }
          else if s.captureApplies r then
            Chip.requestCapture
              { s with copy := { s.copy with state := .copying, front := some { f with phase := .capture, went := false } } }
              .frontier (granuleOf p.addr) n .frontier
          else s.issueFront f false
        | none => s.issueFront f false := by
  cases f
  cases h
  rfl

theorem Chip.startAheadWrite_eq {s : Chip} {a : Ahead} {p : Piece} {ps : List Piece} (h : a.writes = p :: ps) :
    s.startAheadWrite a =
      if s.ringGuard p.addr then s.failAhead .destFault
      else match s.lookup p.addr with
        | some (n, r) =>
          if s.captureApplies r then
            if s.copy.recordWriteWaits a then s.failAhead .destFault
            else Chip.requestCapture { s with copy := { s.copy with ahead := some { a with waitsCap := true, went := false } } }
              .copyAhead (granuleOf p.addr) n a.cls
          else s.issueAhead a false
        | none => s.issueAhead a false := by
  cases a
  cases h
  rfl

/-- The frontier takes the steps of R102 for its next destination write. -/
theorem Chip.startFrontWrite_started {s : Chip} {f : Front} {p : Piece} {ps : List Piece} (h : f.writes = p :: ps) :
    FrontWriteStarted s (s.startFrontWrite f) f p := by
  have hi : s.issueFront f false = { s with arbiter := (s.issueFront f false).arbiter, copy := (s.issueFront f false).copy } ∧
      WriteIssued { s with copy := { s.copy with state := .copying, front := some { f with phase := .port, went := false } } }
        (s.issueFront f false)
        { owner := .frontier, cls := .frontier, stale := false, access := s.copy.pieceAccess s.copy.spanBuffer p } := by
    unfold Chip.issueFront
    rw [h]
    exact ⟨Chip.issueWrite_rest _ _, Chip.issueWrite_issued _ _⟩
  refine ⟨fun hg => ?_, fun hg => ⟨fun n r hl hr => ?_, fun n r hl hr hc => ?_, fun hl => ?_⟩⟩
  all_goals rw [Chip.startFrontWrite_eq h, hg]
  · exact s.failFront_failed _
  all_goals simp only [Bool.false_eq_true, if_false]
  · rw [hl]; dsimp only; rw [if_pos hr]
  · rw [hl]; dsimp only; rw [if_neg hr, if_pos hc]; rfl
  · cases hk : s.lookup p.addr with
    | none => exact hi
    | some x =>
      obtain ⟨n, r⟩ := x
      obtain ⟨k₁, k₂⟩ := hl n r hk
      dsimp only
      rw [if_neg k₁, if_neg (by simp [k₂])]
      exact hi

/-- Copy-ahead takes the steps of R107 for its next destination write. -/
theorem Chip.startAheadWrite_started {s : Chip} {a : Ahead} {p : Piece} {ps : List Piece} (h : a.writes = p :: ps) :
    AheadWriteStarted s (s.startAheadWrite a) a p := by
  have hi : s.issueAhead a false = { s with arbiter := (s.issueAhead a false).arbiter, copy := (s.issueAhead a false).copy } ∧
      WriteIssued { s with copy := { s.copy with ahead := some { a with waitsCap := false, went := false } } } (s.issueAhead a false)
        { owner := .copyAhead, cls := a.cls, stale := false, access := s.copy.pieceAccess s.copy.aheadBuffer p } := by
    unfold Chip.issueAhead
    rw [h]
    exact ⟨Chip.issueWrite_rest _ _, Chip.issueWrite_issued _ _⟩
  refine ⟨fun hg => ?_, fun hg => ⟨fun n r hl hc => ⟨fun hw => ?_, fun hw => ?_⟩, fun hl => ?_⟩⟩
  all_goals rw [Chip.startAheadWrite_eq h, hg]
  · exact s.failAhead_failed _
  all_goals simp only [Bool.false_eq_true, if_false]
  · rw [hl]; dsimp only; rw [if_pos hc, if_pos hw]; exact s.failAhead_failed _
  · rw [hl]; dsimp only; rw [if_pos hc, if_neg (by simp [hw])]; rfl
  · cases hk : s.lookup p.addr with
    | none => exact hi
    | some x =>
      obtain ⟨n, r⟩ := x
      dsimp only
      rw [if_neg (by simp [hl n r hk])]
      exact hi

end Sys2Proof.Machine
end

