-- ==== Sys2Proof/Laws/Rollbacks.lean ====
section
/-! SUPPORT. The two ends of a rollback (R65, R67), whatever the Copy Engine does at the end of the hold. -/

namespace Sys2Proof.Machine

/-! ## The end of a hold (R5, R12, R13) -/

/-- A held access is classified afresh once its region has left RESTORING (R124). -/
theorem Chip.releaseHeld_released (s : Chip) : HeldReleased s s.releaseHeld := by
  refine ⟨fun u hu hw hh => ?_, fun hn => ?_⟩
  · unfold Chip.releaseHeld
    rw [hu]
    dsimp only
    rw [if_pos ⟨hw, hh⟩]
    exact Chip.classify_classified _ _ _
  · unfold Chip.releaseHeld
    split
    · rename_i u hu
      rw [if_neg]
      rintro ⟨a, b⟩
      rw [hn u hu a] at b
      cases b
    · rfl

/-- A copy that a hold has paused takes the steps of R102 again (R96, R114). -/
theorem Chip.resumeFront_resumed (s : Chip) : FrontResumed s s.resumeFront := by
  refine ⟨fun h => by unfold Chip.resumeFront; rw [if_neg h], fun h s₁ hs₁ => ?_⟩
  have he : s.resumeFront = match s₁.copy.front with
      | some f => if f.phase = .paused then s₁.startFrontWrite f else s₁
      | none => s₁ := by
    subst hs₁
    unfold Chip.resumeFront
    exact if_pos h
  have hf : s₁.copy.front = s.copy.front := by rw [hs₁]
  refine ⟨fun f p ps hfr hp hw => ?_, fun hn => ?_⟩
  · rw [he, hf, hfr]
    dsimp only
    rw [if_pos hp]
    exact Chip.startFrontWrite_started hw
  · rw [he, hf]
    cases hfr : s.copy.front with
    | none => rfl
    | some f =>
      dsimp only
      split
      · rename_i hp
        rcases hn f hfr with h' | h'
        · exact absurd hp h'
        · cases f
          simp only at h'
          subst h'
          rfl
      · rfl

/-- Lane `l` has a job with descriptor `d`, and the rollback that runs is its own. -/
def Chip.RunsRollback (s : Chip) (l : Lane) (addr : Word) (d : Descriptor) : Prop :=
  (∃ p q, (s.lane l).current = some { addr := addr, desc := some d, outcome := p, result := q }) ∧
    ∃ c, s.log.running = some { lane := l, stage := .rolling c }

theorem Chip.RunsRollback.of_blocks {s t : Chip} {l : Lane} {addr : Word} {d : Descriptor} (h : s.RunsRollback l addr d)
    (hl : t.lanes = s.lanes) (hr : t.log.running = s.log.running) : t.RunsRollback l addr d := by
  obtain ⟨⟨p, q, hc⟩, hd⟩ := h
  exact ⟨⟨p, q, by rw [Chip.lane_congr (s := s) (by rw [hl])]; exact hc⟩, by rw [hr]; exact hd⟩

/-- The end of another job leaves a lane its descriptor. -/
theorem Chip.RunsRollback.finishJob {s : Chip} {l : Lane} {addr : Word} {d : Descriptor} (h : s.RunsRollback l addr d)
    (m : Lane) (o : JobOutcome) (r : Word) : (s.finishJob m o r).RunsRollback l addr d := by
  obtain ⟨⟨p, q, hc⟩, hd⟩ := h
  refine ⟨?_, by rw [(s.finishJob_beside m o r).2.2]; exact hd⟩
  by_cases hm : l = m
  · subst hm
    obtain ⟨⟨⟨x, _⟩, _⟩, _⟩ := s.finishJob_spec (l := l) o r ⟨p, q, hc⟩
    exact ⟨_, _, by rw [x]⟩
  · unfold Chip.finishJob
    split
    · obtain ⟨_, _, _, ⟨_, e⟩, _⟩ := s.setLane_makeLaneAccess_spec m _ _ _
      exact ⟨p, q, by rw [e l hm]; exact hc⟩
    · exact ⟨p, q, hc⟩

theorem Chip.RunsRollback.endCancels {s : Chip} {l : Lane} {addr : Word} {d : Descriptor} (h : s.RunsRollback l addr d)
    (r : Word) (ls : List Lane) : (s.endCancels r ls).RunsRollback l addr d := by
  induction ls generalizing s with
  | nil => exact h
  | cons m ms ih => exact ih (h.finishJob m .done r)

/-- Dropping the Copy Engine's write keeps the rollback that waits for it (R60). -/
theorem LogState.clearDrainCopies_rolling {k : LogState} {l : Lane} (h : ∃ c, k.running = some { lane := l, stage := .rolling c })
    (a b : Bool) : ∃ c, (k.clearDrainCopies a b).running = some { lane := l, stage := .rolling c } := by
  obtain ⟨c, h⟩ := h
  unfold LogState.clearDrainCopies
  rw [h]
  exact ⟨_, rfl⟩

theorem Chip.RunsRollback.dropFront {s : Chip} {l : Lane} {addr : Word} {d : Descriptor} (h : s.RunsRollback l addr d) :
    s.dropFront.RunsRollback l addr d :=
  ⟨h.1, LogState.clearDrainCopies_rolling (k := s.log.withdrawCaptures _) h.2 _ _⟩

/-- So does leaving a write that it does not wait for. -/
theorem LogState.leaveLate_rolling {k : LogState} {l : Lane} (h : ∃ c, k.running = some { lane := l, stage := .rolling c })
    (left : List PortRequest) : ∃ c, (k.leaveLate left).running = some { lane := l, stage := .rolling c } := by
  obtain ⟨c, h⟩ := h
  unfold LogState.leaveLate
  rw [h]
  exact ⟨_, rfl⟩

theorem Chip.RunsRollback.dropAhead {s : Chip} {l : Lane} {addr : Word} {d : Descriptor} (h : s.RunsRollback l addr d) :
    s.dropAhead.RunsRollback l addr d :=
  ⟨h.1, LogState.clearDrainCopies_rolling (k := (s.log.leaveLate _).withdrawCaptures _) (LogState.leaveLate_rolling h.2 _) _ _⟩

theorem Chip.RunsRollback.endCopy {s : Chip} {l : Lane} {addr : Word} {d : Descriptor} (h : s.RunsRollback l addr d)
    (o : JobOutcome) : (s.endCopy o).RunsRollback l addr d := by
  unfold Chip.endCopy
  refine Chip.RunsRollback.endCancels (Chip.RunsRollback.finishJob ?_ _ _ _) _ _
  exact h.dropFront.dropAhead.of_blocks rfl rfl

theorem Chip.RunsRollback.issueFront {s : Chip} {l : Lane} {addr : Word} {d : Descriptor} (h : s.RunsRollback l addr d)
    (f : Front) (w : Bool) : (s.issueFront f w).RunsRollback l addr d := by
  unfold Chip.issueFront
  split
  · exact h.of_blocks (by simp) (by simp)
  · exact h

theorem Chip.RunsRollback.startFrontWrite {s : Chip} {l : Lane} {addr : Word} {d : Descriptor} (h : s.RunsRollback l addr d)
    (f : Front) : (s.startFrontWrite f).RunsRollback l addr d := by
  unfold Chip.startFrontWrite
  split
  · exact h
  · split
    · unfold Chip.failFront
      split
      · exact h.dropFront.of_blocks rfl rfl
      · exact h.endCopy _
    · split
      · split_ifs
        · exact h.of_blocks rfl rfl
        · exact h.of_blocks rfl rfl
        · exact h.issueFront _ _
      · exact h.issueFront _ _

/-- The end of a hold leaves the running rollback and its lane's descriptor. -/
theorem Chip.RunsRollback.resumeFront {s : Chip} {l : Lane} {addr : Word} {d : Descriptor} (h : s.RunsRollback l addr d) :
    s.resumeFront.RunsRollback l addr d := by
  have h' : Chip.RunsRollback { s with copy := { s.copy with state := .copying } } l addr d := h.of_blocks rfl rfl
  unfold Chip.resumeFront
  split
  · dsimp only
    split
    · split
      · exact h'.startFrontWrite _
      · exact h'
    · exact h'
  · exact h

theorem Chip.RunsRollback.endHold {s : Chip} {l : Lane} {addr : Word} {d : Descriptor} (h : s.RunsRollback l addr d) :
    s.endHold.RunsRollback l addr d := by
  unfold Chip.endHold
  refine h.resumeFront.of_blocks ?_ ?_ <;> rw [Chip.releaseHeld_rest]

/-! ## The ends of a rollback (R65, R67) -/

/-- A failed rollback does what R65 says. -/
theorem Chip.failRollback_failed {s : Chip} {l : Lane} {addr : Word} {d : Descriptor} (reason : Reason)
    (applied : Nat) (hb : s.log.state ≠ .broken) (hr : s.RunsRollback l addr d) :
    RollbackFailed s (s.failRollback reason applied) l addr d reason applied := by
  let v : Chip := { s with regions := s.regions.map Region.toFaulted }
  have hv : v.RunsRollback l addr d := hr.of_blocks rfl rfl
  obtain ⟨a, b, c, e⟩ := Chip.endHold_frame v
  have hb' : v.endHold.log.state ≠ .broken := by rw [e.1]; exact hb
  obtain ⟨hc, ctx, hrun⟩ := hv.endHold
  have hbr := Chip.breakLog_broke reason hb'
  obtain ⟨k₁, _, _, k₄, _⟩ := Chip.breakLog_spec (s := v.endHold) reason hb'
  have hrun' : (v.endHold.breakLog reason).log.running = some { lane := l, stage := .rolling ctx } := by
    rw [k₁]; exact hrun
  have hc' : ∃ p q, ((v.endHold.breakLog reason).lane l).current =
      some { addr := addr, desc := some d, outcome := p, result := q } := by
    rw [Chip.lane_congr (s := v.endHold) (by rw [k₄])]; exact hc
  obtain ⟨m₁, m₂, m₃, m₄⟩ := Chip.endLogJob_spec hrun' hc' .restoreFault (BitVec.ofNat 32 applied)
  refine ⟨v, v.resumeFront, v.endHold, v.endHold.breakLog reason, _, rfl, fun n => ?_, v.resumeFront_resumed,
    Chip.releaseHeld_released _, hbr, m₁, m₂, m₃, m₄, rfl⟩
  show (_ → (s.regions.map Region.toFaulted)[n] = _) ∧ (_ → (s.regions.map Region.toFaulted)[n] = _)
  simp only [Fin.getElem_fin, Vector.getElem_map, Region.toFaulted_eq]
  exact ⟨fun h => by simp [h], fun h => by simp [h]⟩

/-- One entry under the return request (R12). -/
theorem Region.returnToResume_returned (r : Region) : returned r r.returnToResume := by
  unfold Region.returnToResume returned
  cases r with
  | mk st b n re => cases st <;> cases re <;> simp

/-- One entry under the restore entry request (R12). -/
theorem Region.enterRestore_entered (r : Region) : restoreEntered r r.enterRestore := by
  unfold Region.enterRestore restoreEntered
  cases r with
  | mk st b n re => cases st <;> simp

/-- The trim and return do what R67 says. `s₁` is the part with the rollback's context brought up to date. -/
theorem Chip.trimAndReturn_returned {s s₁ : Chip} {l : Lane} {context : Rollback} {addr : Word} {d : Descriptor} {c : Rollback}
    {older newer : List Checkpoint} {e : Checkpoint} (b : Bool)
    (hs : s₁ = { s with log := { s.log with running := some { lane := l, stage := .rolling context } } })
    (hj : s.HasJob l .run addr d)
    (hsp : s.log.checkpoints = older ++ e :: newer) (he : e.number = c.target) (ho : ∀ k ∈ older, k.number ≠ c.target) :
    RollbackReturned s (s₁.trimAndReturn c b) l addr d c older e (if b then s.log.nextSeq + 1#32 else s.log.nextSeq) := by
  subst hs
  obtain ⟨f₁, f₂, _⟩ := LogState.find_of_split
    (l := { s.log with running := some { lane := l, stage := .rolling context } }) hsp he ho
  let v : Chip := { s with
    log := LogState.trimmed { s.log with running := some { lane := l, stage := .rolling context } } c b
    regions := s.regions.map Region.returnToResume }
  have hv : v.log = { s.log with
      lastSeq := if c.applied = 0 then s.log.lastSeq else c.lastPrevious
      nextSeq := if b then s.log.nextSeq + 1#32 else s.log.nextSeq
      tail := e.firstSlot, count := s.log.count - c.applied
      checkpoints := older ++ [{ e with records := 0, firstSequence := if b then s.log.nextSeq + 1#32 else s.log.nextSeq }]
      table := [], state := .attached, running := some { lane := l, stage := .rolling context } } := by
    show LogState.trimmed _ c b = _
    unfold LogState.trimmed
    rw [f₁]
    simp only [f₂]
  have hrun : v.RunsRollback l addr d := ⟨hj.2, context, by rw [hv]⟩
  obtain ⟨hc, ctx, hr⟩ := hrun.endHold
  obtain ⟨g₁, g₂, g₃, g₄⟩ := Chip.endLogJob_spec hr hc .done (BitVec.ofNat 32 c.applied)
  refine ⟨v, v.resumeFront, v.endHold, fun n => ?_, ?_, ⟨context, by rw [hv]⟩, v.resumeFront_resumed,
    Chip.releaseHeld_released _, g₁, g₂, g₃, g₄⟩
  · show returned s.regions[n] (s.regions.map Region.returnToResume)[n]
    simp only [Fin.getElem_fin, Vector.getElem_map]
    exact Region.returnToResume_returned _
  · refine Chip.eq_of_blocks rfl rfl rfl ?_ rfl rfl rfl rfl
    rw [hv]

end Sys2Proof.Machine
end

