-- ==== Sys2Proof/Laws/RegionLog.lean ====
section
/-! SUPPORT. The law of R14 between the regions and the log (`Chip.RegionLogLaw`) is kept by every operation. -/

namespace Sys2Proof.Machine
variable {s t : Chip}

namespace Chip.RegionLogLaw

theorem congr (h : s.RegionLogLaw) (hr : t.regions = s.regions) (hl : t.log.state = s.log.state) : t.RegionLogLaw := by
  intro n; rw [hr, hl]; exact h n

theorem lanes (h : s.RegionLogLaw) (k : SameBeyondLanes s t) : t.RegionLogLaw := congr h k.1 (by rw [k.2.1])

theorem copy (h : s.RegionLogLaw) (k : SameBeyondCopy s t) : t.RegionLogLaw := congr h k.1 (by rw [k.2.2.2.2.1])

theorem finishJob (h : s.RegionLogLaw) (l o r) : (s.finishJob l o r).RegionLogLaw := lanes h (s.finishJob_beyond l o r)

theorem endLogJob (h : s.RegionLogLaw) (o r) : (s.endLogJob o r).RegionLogLaw := by
  obtain ⟨_, a, b⟩ := s.endLogJob_frame o r
  exact congr h a (by rw [b])

theorem issueWrite (h : s.RegionLogLaw) (r) : (s.issueWrite r).RegionLogLaw := copy h (s.issueWrite_copyFrame r)

theorem answerGo (h : s.RegionLogLaw) (q) : (s.answerGo q).RegionLogLaw := by
  obtain ⟨a, b, _⟩ := s.answerGo_frame q
  exact congr h a (by rw [b])

theorem answerAll (h : s.RegionLogLaw) : s.answerAll.RegionLogLaw := by
  obtain ⟨a, b, _⟩ := s.answerAll_frame
  exact congr h a (by rw [b])

theorem endHold (h : s.RegionLogLaw) : s.endHold.RegionLogLaw := by
  obtain ⟨a, _, _, b⟩ := s.endHold_frame
  exact congr h a (by rw [b.1])
/-- No region is CAPTURING or RESTORING. -/
def Quiet (s : Chip) : Prop := ∀ n : Fin 16, s.regions[n].state ≠ .capturing ∧ s.regions[n].state ≠ .restoring

theorem of_quiet (h : Quiet s) : s.RegionLogLaw := fun n => ⟨fun x => absurd x (h n).1, fun x => absurd x (h n).2⟩

theorem of_quiet' (h : Quiet s) (hr : t.regions = s.regions) : t.RegionLogLaw := of_quiet (by intro n; rw [hr]; exact h n)

theorem quiet (h : s.RegionLogLaw) (h1 : s.log.state ≠ .attached) (h2 : s.log.state ≠ .rolling) : Quiet s :=
  fun n => ⟨fun x => h1 ((h n).1 x), fun x => h2 ((h n).2 x)⟩

theorem region_map (v : Vector Region 16) (f : Region → Region) (n : Fin 16) : (v.map f)[n] = f v[n] := by simp

theorem breakLog (h : s.RegionLogLaw) (h2 : ∀ n : Fin 16, s.regions[n].state ≠ .restoring) (r) :
    (s.breakLog r).RegionLogLaw := by
  by_cases hb : s.log.state = .broken
  · rw [Chip.breakLog_of_broken r hb]; exact h
  · obtain ⟨a, b, _⟩ := Chip.breakLog_spec r hb
    refine of_quiet fun n => ?_
    rw [b, region_map, Region.disarmed_eq]
    split_ifs with hc
    · exact ⟨(fun h => nomatch h), (fun h => nomatch h)⟩
    · exact ⟨hc, h2 n⟩

theorem notRestoring (h : s.RegionLogLaw) (h1 : s.log.state ≠ .rolling) (n : Fin 16) : s.regions[n].state ≠ .restoring :=
    fun x => h1 ((h n).2 x)

theorem failRollback (h : s.RegionLogLaw) (r n) : (s.failRollback r n).RegionLogLaw := by
  by_cases hb : s.log.state = .broken
  · unfold Chip.failRollback Chip.faultRequest
    obtain ⟨a, _, _, b⟩ := Chip.endHold_frame { s with regions := s.regions.map Region.toFaulted }
    have hb' : (Chip.endHold { s with regions := s.regions.map Region.toFaulted }).log.state = .broken := by rw [b.1]; exact hb
    rw [Chip.breakLog_of_broken r hb']
    have : (Chip.endHold { s with regions := s.regions.map Region.toFaulted }).RegionLogLaw := by
      refine of_quiet fun n => ?_
      rw [a]
      show ((s.regions.map Region.toFaulted)[n]).state ≠ _ ∧ _
      rw [region_map, Region.toFaulted_eq]
      have q := quiet h (by rw [hb]; decide) (by rw [hb]; decide) n
      rw [if_neg q.2]; exact q
    exact congr (endLogJob this _ _) rfl rfl
  · obtain ⟨a, _, b⟩ := Chip.failRollback_spec r n hb
    refine of_quiet fun n => ?_
    rw [a, region_map, region_map, Region.toFaulted_eq, Region.disarmed_eq]
    split_ifs with h1 h2 h2
    all_goals first | exact ⟨h2, h1⟩ | simp_all

theorem startCaptureOf (h : s.RegionLogLaw) (r) : (s.startCaptureOf r).RegionLogLaw := congr h rfl rfl

theorem stallRequest (h : s.RegionLogLaw) (r) : (s.stallRequest r).RegionLogLaw := by
  unfold Chip.stallRequest Chip.handLog; dsimp only; split
  · exact congr h rfl rfl
  · split <;> exact congr h rfl rfl

theorem takeCapture (h : s.RegionLogLaw) (r) : (s.takeCapture r).RegionLogLaw := by
  unfold Chip.takeCapture
  split_ifs
  · exact answerGo h _
  · exact answerGo h _
  · exact answerGo (failRollback h _ _) _
  · rename_i hr _; exact answerGo (breakLog h (notRestoring h hr) _) _
  · exact stallRequest h r
  · exact startCaptureOf h r

theorem retakeStalled (h : s.RegionLogLaw) (n : Nat) : (s.retakeStalled n).RegionLogLaw := by
  induction n generalizing s with
  | zero => exact h
  | succ n ih =>
    unfold Chip.retakeStalled
    split
    · exact h
    · split
      · exact h
      · split
        · exact h
        · exact ih (takeCapture (by exact congr h rfl rfl) _)

theorem retake (h : s.RegionLogLaw) : s.retake.RegionLogLaw := by
  unfold Chip.retake Chip.settleStall
  split
  · exact retakeStalled h _
  · exact congr (retakeStalled h _) rfl rfl

theorem issueRecordWrite (h : s.RegionLogLaw) (r) : (s.issueRecordWrite r).RegionLogLaw := by
  unfold Chip.issueRecordWrite
  split
  · exact copy (copy h (s.failAhead_frame _)) (Chip.request_copyFrame _ _)
  · exact issueWrite h r

theorem endCapture (h : s.RegionLogLaw) (c) : (s.endCapture c).RegionLogLaw := by
  unfold Chip.endCapture
  dsimp only
  split
  · exact answerGo (by exact congr h rfl rfl) _
  · exact congr h rfl rfl

theorem completeCapture (h : s.RegionLogLaw) (c) : (s.completeCapture c).RegionLogLaw := by
  unfold Chip.completeCapture
  dsimp only
  refine retake (endCapture ?_ c)
  split
  · exact congr h rfl rfl
  · exact h

theorem failShared (h : s.RegionLogLaw) : s.failShared.RegionLogLaw := by
  unfold Chip.failShared
  split
  · split
    · exact congr h rfl rfl
    · exact h
  · exact copy h (s.endCopy_frame _)

theorem captureFault (h : s.RegionLogLaw) : s.captureFault.RegionLogLaw := by
  unfold Chip.captureFault
  split
  · exact failRollback h _ _
  · split
    · rename_i ha; exact breakLog h (notRestoring h (by rw [ha]; decide)) _
    · exact h

theorem failCapture (h : s.RegionLogLaw) (c) : (s.failCapture c).RegionLogLaw := by
  unfold Chip.failCapture
  dsimp only
  refine retake ?_
  have h₁ : Chip.RegionLogLaw (Chip.captureFault { s with log := { s.log with capture := none } }) :=
      captureFault (by exact congr h rfl rfl)
  split <;> split
  · exact answerGo (failShared h₁) _
  · exact answerGo h₁ _
  · exact failShared h₁
  · exact h₁

theorem captureAnswered (h : s.RegionLogLaw) (a) : (s.captureAnswered a).RegionLogLaw := by
  unfold Chip.captureAnswered
  split
  · exact h
  · split
    · unfold Chip.advanceCapture
      dsimp only
      split
      · exact congr h rfl rfl
      · refine issueRecordWrite ?_ _
        unfold Chip.keepImage
        split <;> exact congr h rfl rfl
      · exact issueRecordWrite (by exact congr h rfl rfl) _
      · exact issueRecordWrite (by exact congr h rfl rfl) _
      · exact completeCapture h _
    · exact failCapture h _

theorem acceptLog {check : Descriptor → Chip → JobOutcome} {accept : Descriptor → Chip → Chip}
    (ha : ∀ d (u : Chip), u.RegionLogLaw → check d u = .done → (accept d u).RegionLogLaw) (l : Lane) (d : Descriptor) (u : Chip)
    (h : u.RegionLogLaw) : (Chip.acceptLog check accept l d u).RegionLogLaw := by
  unfold Chip.acceptLog
  split
  · rename_i hd; exact ha _ _ h hd
  · exact endLogJob h _ _

theorem grantLog (h : s.RegionLogLaw) (k check b) {act : Lane → Descriptor → Chip → Chip}
    (ha : ∀ l d (u : Chip), u.RegionLogLaw → (act l d u).RegionLogLaw) : (s.grantLog k check b act).RegionLogLaw := by
  unfold Chip.grantLog
  split
  · split
    · split
      · exact ha _ _ _ h
      · exact h
    · exact h
  · exact h
  split
  · exact h
  · split
    · exact h
    · split
      · exact h
      · dsimp only
        split
        · exact endLogJob (by exact congr h rfl rfl) _ _
        · split
          · exact ha _ _ _ (congr h rfl rfl)
          · exact congr h rfl rfl

theorem answered (h : s.RegionLogLaw) (p : Owner → Bool) {act} (ha : ∀ r (u : Chip), u.RegionLogLaw → (act r u).RegionLogLaw) :
    (s.answered p act).RegionLogLaw := by
  unfold Chip.answered
  split
  · split
    · split
      · exact congr h rfl rfl
      · exact ha _ _ (by exact congr h rfl rfl)
    · exact h
  · exact h

theorem path (h : s.RegionLogLaw) (p : PathState) : Chip.RegionLogLaw { s with path := p } := congr h rfl rfl

theorem classify (h : s.RegionLogLaw) (a p) : (s.classify a p).RegionLogLaw := by rw [s.classify_rest]; exact path h _

theorem leaveQueue (h : s.RegionLogLaw) (n) : (s.leaveQueue n).RegionLogLaw := by
  unfold Chip.leaveQueue; rw [Chip.serveQueueFull_rest]; exact congr h rfl rfl

theorem endStartUp (h : s.RegionLogLaw) : s.endStartUp.RegionLogLaw := by
  unfold Chip.endStartUp; dsimp only
  split
  · split
    · exact classify (by exact congr h rfl rfl) _ _
    · exact congr h rfl rfl
  · exact congr h rfl rfl

theorem hand (h : s.RegionLogLaw) (src r k) {act : Chip → Chip} (ha : ∀ u : Chip, u.RegionLogLaw → (act u).RegionLogLaw) :
    (s.hand src r k act).RegionLogLaw := by
  rcases s.hand_cases src r k act with ⟨_, e⟩ | ⟨_, _, e⟩ | ⟨_, _, e⟩ <;> rw [e]
  · exact ha _ h
  · exact congr h rfl rfl
  · exact ha _ (congr h rfl rfl)

theorem loseWrite (h : s.RegionLogLaw) (f) : (s.loseWrite f).RegionLogLaw := by
  unfold Chip.loseWrite
  exact hand (leaveQueue (by exact congr h rfl rfl) _) _ _ _ (fun u hu => congr hu rfl rfl)

theorem aheadAnswered (h : s.RegionLogLaw) (a) : (s.aheadAnswered a).RegionLogLaw := by
  unfold Chip.aheadAnswered
  split
  · exact h
  · split
    · exact copy h (s.advanceAhead_frame _ _)
    · exact copy h (s.failAhead_frame _)

theorem frontAnswered (h : s.RegionLogLaw) (a) : (s.frontAnswered a).RegionLogLaw := by
  unfold Chip.frontAnswered
  split
  · exact h
  · split
    · exact copy h (s.advanceFront_frame _ _)
    · exact copy h (s.failFront_frame _)

theorem dispatch (h : s.RegionLogLaw) (l d) : (s.dispatch l d).RegionLogLaw := by
  unfold Chip.dispatch
  split
  · exact finishJob h _ _ _
  · split <;> exact congr h rfl rfl

theorem endChain (h : s.RegionLogLaw) (l) : (s.endChain l).RegionLogLaw := lanes h (s.endChain_beyond l)

theorem decideChain (h : s.RegionLogLaw) (l) : (s.decideChain l).RegionLogLaw := lanes h (s.decideChain_beyond l)

theorem fetchAnswered (h : s.RegionLogLaw) (l a) : (s.fetchAnswered l a).RegionLogLaw := by
  unfold Chip.fetchAnswered
  split
  · exact h
  · split
    · exact hand h _ _ _ fun u hu => endChain hu l
    · dsimp only
      split
      · exact dispatch (by exact congr h rfl rfl) _ _
      · exact hand (by exact congr h rfl rfl) _ _ _ fun u hu => endChain hu l

theorem outcomeAnswered (h : s.RegionLogLaw) (l a) : (s.outcomeAnswered l a).RegionLogLaw := by
  unfold Chip.outcomeAnswered
  split
  · split
    · exact hand h _ _ _ fun u hu => endChain hu l
    · split_ifs
      · exact hand h _ _ _ fun u hu => decideChain hu l
      · exact decideChain h l
      · exact hand h _ _ _ fun u hu => decideChain hu l
  · exact h

theorem directAnswered (h : s.RegionLogLaw) (a) : (s.directAnswered a).RegionLogLaw := by
  unfold Chip.directAnswered
  split
  · exact hand h _ _ _ fun u hu => lanes hu u.nextDirect_beyond
  · exact h

theorem issuePosting (h : s.RegionLogLaw) (p) : (s.issuePosting p).RegionLogLaw := by
  unfold Chip.issuePosting; exact issueWrite (by exact congr h rfl rfl) _

theorem dropHandings (h : s.RegionLogLaw) : (s.dropHandings).RegionLogLaw := lanes h s.dropHandings_beyond

theorem takeConfigure (h : s.RegionLogLaw) (c) : (s.takeConfigure c).RegionLogLaw := by
  unfold Chip.takeConfigure
  split
  · exact finishJob (dropHandings (by exact congr h rfl rfl)) _ _ _
  · dsimp only
    refine finishJob (issuePosting ?_ _) _ _ _
    unfold Chip.reportConfigured; split <;> exact congr h rfl rfl

theorem deconfigure (h : s.RegionLogLaw) : (s.deconfigure).RegionLogLaw := by
  unfold Chip.deconfigure; exact dropHandings (by exact congr h rfl rfl)

theorem attentionAnswered (h : s.RegionLogLaw) (a) : (s.attentionAnswered a).RegionLogLaw := by
  unfold Chip.attentionAnswered
  split
  · exact h
  · split
    · exact deconfigure h
    · exact takeConfigure (deconfigure h) _
    · unfold Chip.advancePosting; split
      · exact issuePosting h _
      · unfold Chip.countPosting; dsimp only; split
        · exact issuePosting (by exact congr h rfl rfl) _
        · exact congr h rfl rfl
        · exact issuePosting (by exact congr h rfl rfl) _
        · exact issuePosting (by exact congr h rfl rfl) _
      · exact congr h rfl rfl
    · exact takeConfigure (by exact congr h rfl rfl) _

theorem toUnset (h : s.RegionLogLaw) (h1 : s.log.state ≠ .attached) (h2 : s.log.state ≠ .rolling) :
    Chip.RegionLogLaw { s with log := s.log.toUnset } :=
  of_quiet' (quiet h h1 h2) rfl

theorem logTo (h : s.RegionLogLaw) (h1 : s.log.state ≠ .attached) (h2 : s.log.state ≠ .rolling) (l) :
    Chip.RegionLogLaw { s with log := l } :=
  of_quiet' (quiet h h1 h2) rfl

theorem voidAnswered (h : s.RegionLogLaw) (a) : (s.voidAnswered a).RegionLogLaw := by
  unfold Chip.voidAnswered
  split
  · split
    · rename_i hp
      split
      · exact endLogJob (logTo h (by rw [hp]; decide) (by rw [hp]; decide) _) _ _
      · split
        · exact issueWrite (by exact congr h rfl rfl) _
        · exact endLogJob (logTo h (by rw [hp]; decide) (by rw [hp]; decide) _) _ _
    · exact h
  · exact h

theorem readScanSlot (h : s.RegionLogLaw) (c) : (s.readScanSlot c).RegionLogLaw := congr h rfl rfl

theorem endScan (h : s.RegionLogLaw) (hp : s.log.state = .scanning) (o n) : (s.endScan o n).RegionLogLaw :=
  endLogJob (logTo h (by rw [hp]; decide) (by rw [hp]; decide) _) _ _

theorem finishScan (h : s.RegionLogLaw) (hp : s.log.state = .scanning) (c n) : (s.finishScan c n).RegionLogLaw := by
  unfold Chip.finishScan; split
  · exact endScan h hp _ _
  · refine endLogJob ?_ _ _
    exact of_quiet' (quiet h (by rw [hp]; decide) (by rw [hp]; decide)) rfl

theorem walkOn (h : s.RegionLogLaw) (hp : s.log.state = .scanning) (c n) : (s.walkOn c n).RegionLogLaw := by
  unfold Chip.walkOn; split
  · exact finishScan h hp _ _
  · exact readScanSlot h _

theorem scanAnswered (h : s.RegionLogLaw) (a) : (s.scanAnswered a).RegionLogLaw := by
  unfold Chip.scanAnswered
  split
  · split
    · rename_i hp
      replace hp := hp.1
      split
      · exact endScan h hp _ _
      · dsimp only; split
        · exact congr h rfl rfl
        · exact congr h rfl rfl
        · unfold Chip.judgeSlot
          split
          · dsimp only; split
            · exact readScanSlot h _
            · unfold Chip.endSelect; split
              · exact endScan h hp _ _
              · exact walkOn h hp _ _
          · split
            · exact h
            · split
              · split
                · exact walkOn h hp _ _
                · exact finishScan h hp _ _
              · exact finishScan h hp _ _
    · exact h
  · exact h

theorem trimAndReturn (_h : s.RegionLogLaw) (_hp : s.log.state = .rolling) (c b) : (s.trimAndReturn c b).RegionLogLaw := by
  unfold Chip.trimAndReturn
  refine endLogJob (endHold ?_) _ _
  intro n
  show (((s.regions.map Region.returnToResume)[n]).state = _ → _) ∧ (((s.regions.map Region.returnToResume)[n]).state = _ → _)
  rw [region_map]
  have ha : (s.log.trimmed c b).state = .attached := by unfold LogState.trimmed; dsimp only; split <;> rfl
  refine ⟨fun _ => ha, fun x => ?_⟩
  exfalso
  obtain ⟨a, b', c'⟩ := Region.returnToResume_returned s.regions[n]
  by_cases hr : s.regions[n].state = .restoring
  · cases hres : s.regions[n].resume
    · rw [a hr hres] at x; cases x
    · rw [b' hr hres] at x; cases x
  · rw [c' hr] at x; exact hr x

theorem setRollback_kept (h : s.RegionLogLaw) (c) : (s.setRollback c).RegionLogLaw := congr h rfl rfl

theorem finishRollback (h : s.RegionLogLaw) (hp : s.log.state = .rolling) (c) : (s.finishRollback c).RegionLogLaw := by
  unfold Chip.finishRollback; dsimp only
  split
  · exact trimAndReturn (setRollback_kept h _) hp _ _
  · split
    · exact trimAndReturn (setRollback_kept h _) hp _ _
    · exact issueWrite (setRollback_kept h _) _

theorem restoreAnswered (h : s.RegionLogLaw) (a) : (s.restoreAnswered a).RegionLogLaw := by
  unfold Chip.restoreAnswered
  split
  · exact h
  · split
    · rename_i hp
      split
      · unfold Chip.advanceWalk; dsimp only; split
        · exact congr h rfl rfl
        · exact congr h rfl rfl
        · split
          · exact issueWrite (setRollback_kept h _) _
          · exact failRollback h _ _
        · exact issueWrite (setRollback_kept h _) _
        · split
          · exact finishRollback h hp.2 _
          · exact congr h rfl rfl
      · exact failRollback h _ _
    · exact h

theorem markerAnswered (h : s.RegionLogLaw) (a) : (s.markerAnswered a).RegionLogLaw := by
  unfold Chip.markerAnswered
  split
  · exact h
  · split
    · rename_i c _ hp
      split
      · exact trimAndReturn h hp.2 _ _
      · have h1 := trimAndReturn h hp.2 c true
        refine breakLog h1 (notRestoring h1 ?_) _
        unfold Chip.trimAndReturn
        have hs : ∀ u : Chip, (u.endHold.endLogJob .done (BitVec.ofNat 32 c.applied)).log.state = u.log.state := by
          intro u
          rw [(Chip.endLogJob_frame _ _ _).2.2]
          show u.endHold.log.state = _
          rw [u.endHold_frame.2.2.2.1]
        rw [hs]
        have ha : (s.log.trimmed c true).state = .attached := by unfold LogState.trimmed; dsimp only; split <;> rfl
        show (s.log.trimmed c true).state ≠ _
        rw [ha]; decide
    · exact h

theorem issueReport (h : s.RegionLogLaw) (r) : (s.issueReport r).RegionLogLaw := by
  unfold Chip.issueReport; exact issueWrite (by exact congr h rfl rfl) _

theorem reportAnswered (h : s.RegionLogLaw) (a) : (s.reportAnswered a).RegionLogLaw := by
  unfold Chip.reportAnswered
  split
  · split
    · exact endLogJob h _ _
    · dsimp only; split_ifs
      all_goals first | exact issueReport h _ | exact endLogJob h _ _
  · exact h

theorem accessOver (h : s.RegionLogLaw) (o) : (s.accessOver o).RegionLogLaw := by
  unfold Chip.accessOver
  split
  · exact h
  · split
    · exact h
    · obtain ⟨_, a, b, _⟩ := Chip.presentLane_spec { s with lanes := { s.lanes with
        accesses := s.lanes.accesses ++ [_], later := s.lanes.later.erase _ } }
      exact congr h a (by rw [b])

theorem ownerFault (h : s.RegionLogLaw) (r) : (s.ownerFault r).RegionLogLaw := by
  unfold Chip.ownerFault
  split
  · exact endStartUp h
  · exact congr h rfl rfl
  · exact h
  · split
    · exact loseWrite h _
    · exact h
  · exact captureAnswered h _
  · exact aheadAnswered h _
  · exact fetchAnswered (accessOver h _) _ _
  · exact outcomeAnswered (accessOver h _) _ _
  · exact directAnswered (accessOver h _) _
  · exact attentionAnswered h _
  · exact voidAnswered h _
  · exact scanAnswered h _
  · exact restoreAnswered h _
  · exact markerAnswered h _
  · exact reportAnswered h _
  · exact frontAnswered h _

theorem setRegion (h : s.RegionLogLaw) {n} (hn : n < 16) (r : Region) (h1 : r.state = .capturing → s.log.state = .attached)
    (h2 : r.state = .restoring → s.log.state = .rolling) : Chip.RegionLogLaw { s with regions := s.regions.set n r } := by
  intro m
  show (((s.regions.set n r)[m]).state = _ → s.log.state = _) ∧ (((s.regions.set n r)[m]).state = _ → s.log.state = _)
  by_cases hm : n = m.val
  · have : (s.regions.set n r)[m] = r := by subst hm; simp
    rw [this]; exact ⟨h1, h2⟩
  · have : (s.regions.set n r)[m] = s.regions[m] := by simp [hm]
    rw [this]; exact h m

theorem regionJob (h : s.RegionLogLaw) (l k) (j : Descriptor → Region → JobOutcome × Region)
   (hj : ∀ d (n : Nat) (hn : n < 16), ((j d s.regions[n]).2.state = .capturing → s.log.state = .attached) ∧
       ((j d s.regions[n]).2.state = .restoring → s.log.state = .rolling)) : (s.regionJob l k j).RegionLogLaw := by
  unfold Chip.regionJob
  split
  · exact h
  · rename_i d _
    split
    · rename_i hn; exact finishJob (setRegion h hn _ (hj d _ hn).1 (hj d _ hn).2) _ _ _
    · exact finishJob h _ _ _

theorem popWord (h : s.RegionLogLaw) (ws) : (s.popWord ws).RegionLogLaw := by
  unfold Chip.popWord; split
  · exact congr h rfl rfl
  · exact h

theorem mailboxFault (h : s.RegionLogLaw) (l) : (s.mailboxFault l).RegionLogLaw := by
  unfold Chip.mailboxFault; exact hand (by exact congr h rfl rfl) _ _ _ fun u hu => lanes hu u.nextDirect_beyond

theorem treatWrite (h : s.RegionLogLaw) (a n p) : (s.treatWrite a n p).RegionLogLaw := by
  unfold Chip.treatWrite
  split
  · exact h
  · dsimp only; split
    · split
      · exact congr h rfl rfl
      · exact issueWrite (by exact congr h rfl rfl) _
    · exact issueWrite (by exact congr h rfl rfl) _

theorem presentLane (h : s.RegionLogLaw) : s.presentLane.RegionLogLaw := by
  obtain ⟨_, a, b, _⟩ := s.presentLane_spec
  exact congr h a (by rw [b])

theorem grantTo (h : s.RegionLogLaw) (r) : (s.grantTo r).RegionLogLaw := by
  have hf : ∀ u : Chip, u.RegionLogLaw → u.reportForwarded.RegionLogLaw := by
    intro u hu
    unfold Chip.reportForwarded
    split
    · split
      · exact hu
      · exact congr hu rfl rfl
    · exact hu
  have hd : ∀ a b, Chip.RegionLogLaw { s with log := s.log.clearDrainCopies a b } := by
    intro a b; exact congr h rfl (by rw [s.log.clearDrainCopies_frame])
  have hl : s.grantLane.RegionLogLaw := by unfold Chip.grantLane; exact presentLane (by exact congr h rfl rfl)
  have hp : s.issueUpstream.RegionLogLaw := by unfold Chip.issueUpstream; exact congr h rfl rfl
  unfold Chip.grantTo
  split
  all_goals first | exact h | exact hl | exact hp | skip
  · split
    · exact hf _ h
    · exact hf _ hp
  · split
    · exact hd _ _
    · exact h
  · split
    · exact hd _ _
    · exact h

theorem stopWrite (h : s.RegionLogLaw) (r) : (s.stopWrite r).RegionLogLaw := by
  unfold Chip.stopWrite
  split
  all_goals first
    | exact h
    | exact congr h rfl rfl
    | (split; exact h; exact copy h (s.failFront_frame _))
    | (split; exact h; exact copy h (s.failAhead_frame _))

theorem beginSpan (h : s.RegionLogLaw) : s.beginSpan.RegionLogLaw := copy h s.beginSpan_frame

theorem copyAheadRequest (h : s.RegionLogLaw) : s.copyAheadRequest.RegionLogLaw := by
  unfold Chip.copyAheadRequest; split
  · exact h
  · split
    · exact h
    · dsimp only
      split
      · split <;> exact congr h rfl rfl
      · refine copy ?_ (Chip.startAhead_frame _ _ _ _)
        exact congr h rfl rfl

theorem takeAheads (h : s.RegionLogLaw) (n : Nat) : (s.takeAheads n).RegionLogLaw := by
  induction n generalizing s with
  | zero => exact h
  | succ n ih =>
    unfold Chip.takeAheads
    split
    · exact ih (copyAheadRequest h)
    · exact h

theorem cancelNow (h : s.RegionLogLaw) (l) : (s.cancelNow l).RegionLogLaw := by
  unfold Chip.cancelNow
  split
  · exact h
  · split_ifs
    · exact h
    · unfold Chip.cancelActive
      dsimp only
      have h₁ : Chip.RegionLogLaw { s with copy := { s.copy with cancels := s.copy.cancels ++ [l] } } := congr h rfl rfl
      split
      · exact congr (copy h₁ (Chip.dropFront_frame _)) rfl rfl
      · exact copy h₁ (Chip.endCopy_frame _ _)
    · exact finishJob h _ _ _

end Chip.RegionLogLaw

end Sys2Proof.Machine
end

