-- ==== Sys2Proof/Laws/RingLaw.lean ====
section
/-! SUPPORT. The law of R19 and R44 over the ring's indices and the checkpoint list (`LogState.RingLaw`) is kept by the Log Unit's
operations. -/

namespace Sys2Proof.Machine
variable {s t : Chip} {l m : LogState}

/-! ## Changes outside the law -/

/-- What the law is about. -/
def LogState.ringCore (l : LogState) : LogStatus × Nat × Nat × Nat × Nat × List Checkpoint × Option LogJob × Option Capture :=
  (l.state, l.capacity, l.head, l.tail, l.count, l.checkpoints, l.running, l.capture)

theorem LogState.RetainedLaw.congr (h : l.RetainedLaw) (hn : m.capacity = l.capacity) (hh : m.head = l.head)
    (ht : m.tail = l.tail) (hc : m.count = l.count) (hk : m.checkpoints = l.checkpoints) : m.RetainedLaw := by
  unfold LogState.RetainedLaw at *
  rw [hn, hh, ht, hc, hk]
  exact h

/-- A change of the running job and of the capture that keeps the contexts, or that drops them. -/
theorem LogState.RingLaw.drop (h : l.RingLaw) (hs : m.state = l.state) (hn : m.capacity = l.capacity) (hh : m.head = l.head)
    (ht : m.tail = l.tail) (hc : m.count = l.count) (hk : m.checkpoints = l.checkpoints)
    (hx : l.capture = none → m.capture = none)
    (hr : ∀ c, m.rollback = some c → ∃ c', l.rollback = some c' ∧ c'.phase = c.phase ∧ c'.span = c.span ∧
      c'.applied = c.applied ∧ c'.target = c.target)
    (ha : ∀ n c, m.running = some { lane := n, stage := .adopting c } → ∃ n', l.running = some { lane := n', stage := .adopting c }) :
    m.RingLaw := by
  obtain ⟨h₁, h₂, h₃, h₄, h₅, h₆⟩ := h
  unfold LogState.RingLaw
  rw [hs, hn, hh, ht, hc, hk]
  refine ⟨fun x => ?_, h₂, fun x => (h₃ x).congr hn hh ht hc hk, fun x y => h₄ x fun z => y (hx z), fun x c y => ?_, fun x n c y => ?_⟩
  · obtain ⟨a, b, d, e, f⟩ := h₁ x
    exact ⟨a, b, d, e, hx f⟩
  · obtain ⟨c', y', p, q, r, t⟩ := hr c y
    have := h₅ x c' y'
    unfold LogState.SpanLaw LogState.since at *
    rw [hk, ← p, ← q, ← r, ← t]
    exact this
  · obtain ⟨n', y'⟩ := ha n c y
    exact h₆ x n' c y'

theorem LogState.RingLaw.congr (h : l.RingLaw) (e : m.ringCore = l.ringCore) : m.RingLaw := by
  simp only [LogState.ringCore, Prod.mk.injEq] at e
  obtain ⟨a, b, c, d, f, g, i, j⟩ := e
  refine h.drop a b c d f g (fun x => by rw [j]; exact x) (fun x hx => ⟨x, ?_, rfl, rfl, rfl, rfl⟩) (fun n x hx => ⟨n, by rw [← i]; exact hx⟩)
  unfold LogState.rollback at *
  rw [← i]; exact hx

theorem LogState.RingLaw.beside (h : l.RingLaw) (k : LogBesideCopy l m) : m.RingLaw := by
  obtain ⟨e, ⟨a, b, ls, hr⟩, q, w, hc⟩ := k
  refine h.drop (by rw [e]) (by rw [e]) (by rw [e]) (by rw [e]) (by rw [e]) (by rw [e]) (fun x => by rw [hc, x]; rfl)
    (fun c hx => ?_) (fun n c hx => ?_)
  · unfold LogState.rollback at *
    rw [hr] at hx
    cases hj : l.running with
    | none => rw [hj] at hx; cases hx
    | some j =>
      obtain ⟨n, st⟩ := j
      rw [hj] at hx
      cases st <;> simp only [Option.map_some, LogJob.withDrainBits] at hx
      case rolling c' => cases hx; exact ⟨c', rfl, rfl, rfl, rfl, rfl⟩
      all_goals cases hx
  · rw [hr] at hx
    cases hj : l.running with
    | none => rw [hj] at hx; cases hx
    | some j =>
      obtain ⟨n, st⟩ := j
      rw [hj] at hx
      cases st <;> simp only [Option.map_some, LogJob.withDrainBits] at hx
      case adopting c' => cases hx; exact ⟨n, rfl⟩
      all_goals cases hx

/-- No job, or one without a context, runs. -/
theorem LogState.RingLaw.plain (h : l.RingLaw) (hs : m.state = l.state) (hn : m.capacity = l.capacity) (hh : m.head = l.head)
    (ht : m.tail = l.tail) (hc : m.count = l.count) (hk : m.checkpoints = l.checkpoints) (hx : l.capture = none → m.capture = none)
    (hr : ∀ j, m.running = some j → (∀ c, j.stage ≠ .rolling c) ∧ ∀ c, j.stage ≠ .adopting c) : m.RingLaw := by
  refine h.drop hs hn hh ht hc hk hx (fun c y => ?_) (fun n c y => absurd rfl ((hr _ y).2 c))
  unfold LogState.rollback at y
  split at y
  · rename_i hj; exact absurd rfl ((hr _ hj).1 _)
  · cases y

/-- A log with records outside ROLLING. -/
theorem LogState.RingLaw.of_retained (h : l.RetainedLaw) (hs : l.state = .attached ∨ l.state = .broken)
    (hc : l.state = .attached → l.capture ≠ none → l.count < l.capacity) : l.RingLaw := by
  refine ⟨?_, ?_, fun _ => h, ?_, ?_, ?_⟩
  · rintro (x | x | x) <;> rcases hs with y | y <;> rw [x] at y <;> cases y
  · rintro (x | x) <;> rcases hs with y | y <;> rw [x] at y <;> cases y
  · rintro (x | x) y
    · exact hc x y
    · rcases hs with z | z <;> rw [x] at z <;> cases z
  · intro x
    rcases hs with z | z <;> rw [x] at z <;> cases z
  · intro x
    rcases hs with z | z <;> rw [x] at z <;> cases z

/-- The log in BROKEN. -/
theorem LogState.RingLaw.broken (h : l.RingLaw) (hs : l.state = .attached ∨ l.state = .rolling ∨ l.state = .broken)
    (hm : m.state = .broken) (hn : m.capacity = l.capacity) (hh : m.head = l.head)
    (ht : m.tail = l.tail) (hc : m.count = l.count) (hk : m.checkpoints = l.checkpoints) : m.RingLaw :=
  .of_retained ((h.2.2.1 hs).congr hn hh ht hc hk) (.inr hm) (fun x => by rw [hm] at x; cases x)

/-- The log in UNSET. -/
theorem LogState.RingLaw.toUnset (l : LogState) (hc : l.capture = none) : l.toUnset.RingLaw := by
  refine ⟨fun _ => ⟨rfl, rfl, rfl, rfl, hc⟩, ?_, ?_, ?_, ?_, ?_⟩
  · rintro (x | x) <;> cases x
  · rintro (x | x | x) <;> cases x
  · rintro (x | x) <;> cases x
  · intro x; cases x
  · intro x; cases x

/-! ## The list and the indices -/

theorem recordsOf_append (a b : List Checkpoint) : recordsOf (a ++ b) = recordsOf a + recordsOf b := by
  simp [recordsOf]

/-- A retained list, entry by entry, from its head. -/
def SlotsFrom (n : Nat) : Nat → List Checkpoint → Prop
  | _, [] => True
  | h, e :: es => e.firstSlot = h % n ∧ SlotsFrom n (h + e.records) es

theorem slotsFrom_iff (n h : Nat) (cs : List Checkpoint) : SlotsFrom n h cs ↔
    ∀ older e newer, cs = older ++ e :: newer → e.firstSlot = (h + recordsOf older) % n := by
  induction cs generalizing h with
  | nil => simp [SlotsFrom]
  | cons c cs ih =>
    unfold SlotsFrom
    rw [ih]
    constructor
    · rintro ⟨a, b⟩ older e newer he
      cases older with
      | nil => cases he; exact a
      | cons x xs =>
        injection he with h₁ h₂
        subst h₁
        rw [b xs e newer h₂]
        simp only [recordsOf, List.map_cons, List.sum_cons]
        congr 1; omega
    · intro hall
      refine ⟨by simpa [recordsOf] using hall [] c cs rfl, fun older e newer he => ?_⟩
      rw [hall (c :: older) e newer (by rw [he]; rfl)]
      simp only [recordsOf, List.map_cons, List.sum_cons]
      congr 1; omega

theorem slotsFrom_append (n h : Nat) (a b : List Checkpoint) :
    SlotsFrom n h (a ++ b) ↔ SlotsFrom n h a ∧ SlotsFrom n (h + recordsOf a) b := by
  induction a generalizing h with
  | nil => simp [SlotsFrom, recordsOf]
  | cons c cs ih =>
    simp only [List.cons_append, SlotsFrom, ih, recordsOf, List.map_cons, List.sum_cons, Nat.add_assoc, and_assoc]

theorem slotsFrom_mod (n h : Nat) (cs : List Checkpoint) : SlotsFrom n (h % n) cs ↔ SlotsFrom n h cs := by
  induction cs generalizing h with
  | nil => simp [SlotsFrom]
  | cons c cs ih =>
    simp only [SlotsFrom, Nat.mod_mod]
    rw [← ih (h % n + c.records), ← ih (h + c.records)]
    simp [Nat.add_mod]

theorem LogState.retainedLaw_iff (l : LogState) : l.RetainedLaw ↔ l.count ≤ l.capacity ∧ l.head < l.capacity ∧
    l.tail = (l.head + l.count) % l.capacity ∧ l.checkpoints ≠ [] ∧ recordsOf l.checkpoints = l.count ∧
    SlotsFrom l.capacity l.head l.checkpoints := by
  unfold LogState.RetainedLaw
  rw [slotsFrom_iff]

theorem LogState.split_at (l : LogState) (k : Word) : l.checkpoints = l.older k ++ l.since k :=
  (List.takeWhile_append_dropWhile).symm

theorem LogState.find_split {k : Word} {e : Checkpoint} (h : l.find k = some e) :
    ∃ rest, l.since k = e :: rest ∧ e.number = k := by
  unfold LogState.find LogState.since at *
  generalize l.checkpoints = cs at h ⊢
  induction cs with
  | nil => cases h
  | cons c cs ih =>
    by_cases hc : c.number = k
    · simp [hc] at h ⊢; subst h; exact ⟨rfl, hc⟩
    · simp [hc] at h ⊢
      obtain ⟨r, a, b⟩ := ih h
      exact ⟨⟨r, a⟩, b⟩

/-- A capture's record (R25). -/
theorem LogState.RetainedLaw.recorded (h : l.RetainedLaw) (c : Capture) (hc : l.count < l.capacity) : (l.recorded c).RetainedLaw := by
  rw [LogState.retainedLaw_iff] at *
  obtain ⟨a, b, d, e, f, g⟩ := h
  obtain ⟨older, x, hx⟩ : ∃ older x, l.checkpoints = older ++ [x] := ⟨_, _, (List.dropLast_append_getLast e).symm⟩
  have hk : (l.recorded c).checkpoints = older ++ [{ x with records := x.records + 1 }] := by
    show countRecord l.checkpoints = _
    rw [hx, countRecord_append]
  rw [hk]
  rw [hx] at f g
  rw [slotsFrom_append] at g
  rw [recordsOf_append] at f
  refine ⟨hc, b, ?_, by simp, ?_, ?_⟩
  · show (l.tail + 1) % l.capacity = (l.head + (l.count + 1)) % l.capacity
    rw [d, Nat.mod_add_mod, Nat.add_assoc]
  · show recordsOf (older ++ [_]) = l.count + 1
    rw [recordsOf_append, ← f]
    simp [recordsOf, Nat.add_assoc]
  · rw [slotsFrom_append]
    exact ⟨g.1, g.2.1, trivial⟩

/-- The append of MARK (R49). -/
theorem LogState.RetainedLaw.appended (h : l.RetainedLaw) : l.appended.RetainedLaw := by
  rw [LogState.retainedLaw_iff] at *
  obtain ⟨a, b, d, e, f, g⟩ := h
  refine ⟨a, b, d, by simp [LogState.appended], ?_, ?_⟩
  · show recordsOf (l.checkpoints ++ [_]) = l.count
    rw [recordsOf_append, f]; rfl
  · show SlotsFrom l.capacity l.head (l.checkpoints ++ [_])
    rw [slotsFrom_append]
    refine ⟨g, ?_, trivial⟩
    show l.tail = _
    rw [d, f]

/-- The release of older checkpoints (R50). -/
theorem LogState.RetainedLaw.released (h : l.RetainedLaw) {k : Word} {e : Checkpoint} (he : l.find k = some e) :
    (l.released e).RetainedLaw := by
  obtain ⟨rest, hs, hk⟩ := LogState.find_split he
  subst hk
  have hsp := l.split_at e.number
  rw [LogState.retainedLaw_iff] at *
  obtain ⟨a, b, d, _, f, g⟩ := h
  rw [hsp, recordsOf_append] at f
  rw [hsp, slotsFrom_append, hs] at g
  have hpos : 0 < l.capacity := by omega
  have hfs : e.firstSlot = (l.head + recordsOf (l.older e.number)) % l.capacity := g.2.1
  refine ⟨?_, ?_, ?_, ?_, ?_, ?_⟩
  · show l.count - recordsOf (l.older e.number) ≤ l.capacity
    omega
  · show e.firstSlot < l.capacity
    rw [hfs]; exact Nat.mod_lt _ hpos
  · show l.tail = (e.firstSlot + (l.count - recordsOf (l.older e.number))) % l.capacity
    rw [d, hfs, Nat.mod_add_mod]
    congr 1; omega
  · show l.since e.number ≠ []
    rw [hs]; simp
  · show recordsOf (l.since e.number) = l.count - recordsOf (l.older e.number)
    omega
  · show SlotsFrom l.capacity e.firstSlot (l.since e.number)
    rw [hfs, slotsFrom_mod, hs]
    exact g.2

/-- The trim of a rollback (R67). -/
theorem LogState.RetainedLaw.trimmed (h : l.RetainedLaw) {c : Rollback} (ha : c.applied = recordsOf (l.since c.target)) (b : Bool) :
    (l.trimmed c b).RetainedLaw := by
  unfold LogState.trimmed
  dsimp only
  split
  · exact h.congr rfl rfl rfl rfl rfl
  · rename_i e he
    obtain ⟨rest, hs, hk⟩ := LogState.find_split he
    have hsp := l.split_at c.target
    rw [LogState.retainedLaw_iff] at *
    obtain ⟨a, b, d, _, f, g⟩ := h
    rw [hsp, recordsOf_append] at f
    rw [hsp, slotsFrom_append, hs] at g
    have hfs : e.firstSlot = (l.head + recordsOf (l.older c.target)) % l.capacity := g.2.1
    refine ⟨?_, b, ?_, by simp, ?_, ?_⟩
    · show l.count - c.applied ≤ l.capacity
      omega
    · show e.firstSlot = (l.head + (l.count - c.applied)) % l.capacity
      rw [hfs]; congr 1; omega
    · show recordsOf (l.older c.target ++ [_]) = l.count - c.applied
      rw [recordsOf_append]
      show recordsOf (l.older c.target) + 0 = _
      omega
    · rw [slotsFrom_append]
      exact ⟨g.1, hfs, trivial⟩

/-! ## The scan -/

theorem runRecords_append (a b : List Run) : runRecords (a ++ b) = runRecords a + runRecords b := by
  simp [runRecords]

/-- A walk that has one slot more takes it into its runs (R84). -/
theorem runs_take {n tail inc slot : Nat} {rs : List Run} {k q : Word} (ht : tail < n)
    (hs : slot = (tail + (n - 1) * (inc + 1)) % n)
    (h : ∀ older r newer, rs = older ++ r :: newer → r.oldest = (tail + (n - 1) * inc + runRecords older) % n) :
    ∀ older r newer, joinRun rs k slot q = older ++ r :: newer →
      r.oldest = (tail + (n - 1) * (inc + 1) + runRecords older) % n := by
  have step : ∀ x, (tail + (n - 1) * inc + x) % n = (tail + (n - 1) * (inc + 1) + (x + 1)) % n := by
    intro x
    obtain ⟨p, rfl⟩ : ∃ p, n = p + 1 := ⟨n - 1, by omega⟩
    have : tail + (p + 1 - 1) * (inc + 1) + (x + 1) = (tail + (p + 1 - 1) * inc + x) + (p + 1) := by
      simp only [Nat.add_sub_cancel, Nat.mul_add, Nat.mul_one]; omega
    rw [this, Nat.add_mod_right]
  intro older r newer he
  unfold joinRun at he
  split at he
  · rename_i x xs
    split at he
    · cases older with
      | nil => injection he with h₁ h₂; subst h₁; simpa [runRecords] using hs
      | cons y ys =>
        injection he with h₁ h₂
        rw [h (x :: ys) r newer (by rw [h₂]; rfl), step]
        subst h₁
        simp only [runRecords, List.map_cons, List.sum_cons]
        congr 1; omega
    · cases older with
      | nil => injection he with h₁ h₂; subst h₁; simpa [runRecords] using hs
      | cons y ys =>
        injection he with h₁ h₂
        rw [h ys r newer h₂, step]
        subst h₁
        simp only [runRecords, List.map_cons, List.sum_cons]
        congr 1; omega
  · cases older with
    | nil => injection he with h₁ h₂; subst h₁; simpa [runRecords] using hs
    | cons y ys =>
      injection he with h₁ h₂
      cases ys <;> cases h₂

theorem runRecords_joinRun (rs : List Run) (k : Word) (slot : Nat) (q : Word) :
    runRecords (joinRun rs k slot q) = runRecords rs + 1 := by
  unfold joinRun
  split
  · split
    · simp [runRecords]; omega
    · simp [runRecords]; omega
  · simp [runRecords]

/-- What the walk has found makes a log that keeps the law (R86, R88). -/
theorem LogState.adopted_retained (l : LogState) {c : Scan} {n : Newest} (q : Word) (ht : c.tail < l.capacity)
    (hi : c.included ≤ l.capacity) (hr : runRecords c.runs = c.included)
    (ho : ∀ older r newer, c.runs = older ++ r :: newer → r.oldest = (c.tail + (l.capacity - 1) * c.included + runRecords older) % l.capacity)
    (he : ¬(c.included = 0 ∧ n.isMarker = false)) : (l.adopted c n q).RetainedLaw := by
  have hcyc : ∀ x, x ≤ l.capacity → (c.tail + (l.capacity - 1) * x + x) % l.capacity = c.tail := by
    intro x _
    obtain ⟨p, hp⟩ : ∃ p, l.capacity = p + 1 := ⟨l.capacity - 1, by omega⟩
    rw [hp]
    have : c.tail + (p + 1 - 1) * x + x = c.tail + (p + 1) * x := by
      simp only [Nat.add_sub_cancel, Nat.add_mul, Nat.one_mul]; omega
    rw [this, Nat.add_mul_mod_self_left, Nat.mod_eq_of_lt (by omega)]
  have hhead : (l.adopted c n q).head = (c.tail + (l.capacity - 1) * c.included) % l.capacity := by
    show (match c.runs with | r :: _ => r.oldest | [] => c.tail) = _
    split
    · rename_i r rs hrs
      simpa [runRecords] using ho [] r rs hrs
    · rename_i hrs
      rw [hrs] at hr
      have : c.included = 0 := by rw [← hr]; rfl
      rw [this, Nat.mul_zero, Nat.add_zero, Nat.mod_eq_of_lt ht]
  have hruns : ∀ cs : List Checkpoint, cs = c.runs.map (fun r =>
      ({ number := r.number, firstSlot := r.oldest, firstSequence := r.sequence, records := r.records } : Checkpoint)) →
      recordsOf cs = c.included ∧ SlotsFrom l.capacity (c.tail + (l.capacity - 1) * c.included) cs := by
    rintro cs rfl
    refine ⟨by rw [← hr]; simp [recordsOf, runRecords, Function.comp_def], ?_⟩
    rw [slotsFrom_iff]
    intro older e newer hs
    obtain ⟨a, b, h₁, h₂, h₃⟩ := List.map_eq_append_iff.1 hs
    obtain ⟨r, b', rfl, h₄, h₅⟩ := List.map_eq_cons_iff.1 h₃
    have := ho a r b' h₁
    rw [← h₄, ← h₂]
    show r.oldest = _
    rw [this]
    simp [recordsOf, runRecords, Function.comp_def]
  rw [LogState.retainedLaw_iff]
  have hlist : (l.adopted c n q).checkpoints = c.list n q := rfl
  rw [hhead, hlist]
  have hpos : 0 < l.capacity := by omega
  refine ⟨hi, Nat.mod_lt _ hpos, ?_, ?_, ?_, ?_⟩
  · show c.tail = ((c.tail + (l.capacity - 1) * c.included) % l.capacity + c.included) % l.capacity
    rw [Nat.mod_add_mod, hcyc _ hi]
  · unfold Scan.list
    dsimp only
    split
    · simp
    · rename_i hm
      intro hn
      have hrn : c.runs = [] := by simpa using hn
      rw [hrn] at hr hm
      have hz : c.included = 0 := by rw [← hr]; rfl
      refine he ⟨hz, ?_⟩
      simpa using hm
  all_goals
    unfold Scan.list
    dsimp only
    obtain ⟨h₁, h₂⟩ := hruns _ rfl
    split
  · rw [recordsOf_append, h₁]; rfl
  · exact h₁
  · show SlotsFrom l.capacity _ _
    rw [slotsFrom_mod, slotsFrom_append]
    refine ⟨h₂, ?_, trivial⟩
    rw [h₁]
    exact (hcyc _ hi).symm
  · show SlotsFrom l.capacity _ _
    rw [slotsFrom_mod]
    exact h₂

/-! ## Operations of several blocks -/

namespace Chip.RingLaw

theorem of_log (h : s.log.RingLaw) (e : t.log = s.log) : t.log.RingLaw := by rw [e]; exact h

theorem lanes (h : s.log.RingLaw) (k : SameBeyondLanes s t) : t.log.RingLaw := of_log h k.2.1

theorem copy (h : s.log.RingLaw) (k : SameBeyondCopy s t) : t.log.RingLaw := h.beside k.2.2.2.2

theorem finishJob (h : s.log.RingLaw) (l o r) : (s.finishJob l o r).log.RingLaw := of_log h (s.finishJob_beside l o r).2.2

theorem endLogJob (h : s.log.RingLaw) (o r) : (s.endLogJob o r).log.RingLaw := by
  rw [(s.endLogJob_frame o r).2.2]
  exact h.plain rfl rfl rfl rfl rfl rfl id (fun j hj => nomatch hj)

theorem answerGo (h : s.log.RingLaw) (q) : (s.answerGo q).log.RingLaw := of_log h (s.answerGo_frame q).2.1

theorem answerAll (h : s.log.RingLaw) : s.answerAll.log.RingLaw := by
  rw [s.answerAll_frame.2.1]; exact h.congr rfl

theorem endHold (h : s.log.RingLaw) : s.endHold.log.RingLaw := h.beside s.endHold_frame.2.2.2

theorem breakLog (h : s.log.RingLaw) (hs : s.log.state = .attached ∨ s.log.state = .rolling ∨ s.log.state = .broken) (r) :
    (s.breakLog r).log.RingLaw := by
  by_cases hb : s.log.state = .broken
  · rw [Chip.breakLog_of_broken r hb]; exact h
  · rw [(Chip.breakLog_spec r hb).1]
    exact h.broken hs rfl rfl rfl rfl rfl rfl

theorem failRollback (h : s.log.RingLaw) (hs : s.log.state = .rolling) (r n) : (s.failRollback r n).log.RingLaw := by
  rw [(Chip.failRollback_spec r n (by rw [hs]; decide)).2.2]
  exact h.broken (.inr (.inl hs)) rfl rfl rfl rfl rfl rfl

/-! ## Captures -/

theorem startCaptureOf (h : s.log.RingLaw) (hs : s.log.state = .attached ∨ s.log.state = .rolling)
    (hc : s.log.count ≠ s.log.capacity) (r) : (s.startCaptureOf r).log.RingLaw := by
  obtain ⟨h₁, h₂, h₃, h₄, h₅, h₆⟩ := h
  have hr := h₃ (by tauto)
  refine ⟨fun x => ?_, h₂, h₃, fun _ _ => lt_of_le_of_ne hr.1 hc, h₅, h₆⟩
  have x' : s.log.state = .unset ∨ s.log.state = .preparing ∨ s.log.state = .scanning := x
  rcases hs with y | y <;> rw [y] at x' <;> simp at x'

theorem handLog (h : s.log.RingLaw) (src r) : (s.handLog src r).log.RingLaw := by
  rw [Chip.handLog_eq]; exact h

theorem stallRequest (h : s.log.RingLaw) (r) : (s.stallRequest r).log.RingLaw := by
  unfold Chip.stallRequest
  dsimp only
  split
  · exact h.congr rfl
  · refine handLog (s := { s with log := _ }) ?_ _ _
    exact h.congr rfl

theorem takeCapture (h : s.log.RingLaw) (r) : (s.takeCapture r).log.RingLaw := by
  unfold Chip.takeCapture
  split_ifs with h₁ h₂ h₃ h₄ h₅
  · exact answerGo h _
  · exact answerGo h _
  · exact answerGo (failRollback h h₄ _ _) _
  all_goals
    have hs : s.log.state = .attached ∨ s.log.state = .rolling := by
      simp only [Bool.not_eq_true', Bool.not_eq_false, Bool.or_eq_true, beq_iff_eq] at h₁
      rcases h₁ with x | x
      · exact .inl x
      · right; unfold LogState.draining at x; simp only [Bool.and_eq_true, beq_iff_eq] at x; exact x.1
  · exact answerGo (breakLog h (by tauto) _) _
  · exact stallRequest h r
  · exact startCaptureOf h hs (by tauto) r

theorem retakeStalled (h : s.log.RingLaw) (n : Nat) : (s.retakeStalled n).log.RingLaw := by
  induction n generalizing s with
  | zero => exact h
  | succ n ih =>
    unfold Chip.retakeStalled
    split
    · exact h
    · split
      · exact h
      · split
        · exact h
        · refine ih (takeCapture ?_ _)
          exact h.congr rfl

theorem retake (h : s.log.RingLaw) : s.retake.log.RingLaw := by
  unfold Chip.retake Chip.settleStall
  split
  · exact retakeStalled h _
  · exact (retakeStalled h _).congr rfl

theorem issueRecordWrite (h : s.log.RingLaw) (r) : (s.issueRecordWrite r).log.RingLaw := by
  unfold Chip.issueRecordWrite
  split
  · exact copy h (s.failAhead_frame _)
  · exact copy h (s.issueWrite_copyFrame r)

theorem stopWrite (h : s.log.RingLaw) (r) : (s.stopWrite r).log.RingLaw := by
  unfold Chip.stopWrite
  split
  all_goals first
    | exact h
    | (split; exact h; exact copy h (s.failFront_frame _))
    | (split; exact h; exact copy h (s.failAhead_frame _))

theorem endCapture (h : s.log.RingLaw) (c) : (s.endCapture c).log.RingLaw := by
  have h' : ({ s with log := { s.log with capture := none } } : Chip).log.RingLaw :=
    h.drop rfl rfl rfl rfl rfl rfl (fun _ => rfl) (fun c x => ⟨c, x, rfl, rfl, rfl, rfl⟩) (fun n c x => ⟨n, x⟩)
  unfold Chip.endCapture
  dsimp only
  split
  · exact answerGo h' _
  · exact h'

/-- A capture in progress records in an ATTACHED log and in a DRAIN (R25). -/
theorem recorded (h : s.log.RingLaw) {c : Capture} (hc : s.log.capture = some c)
    (hs : (s.log.state == .attached || s.log.draining) = true) :
    ((({ s with log := s.log.recorded c } : Chip).endCapture c).log.RingLaw) := by
  obtain ⟨_, _, h₃, h₄, h₅, _⟩ := h
  have hs' : s.log.state = .attached ∨ s.log.state = .rolling := by
    simp only [Bool.or_eq_true, beq_iff_eq] at hs
    rcases hs with x | x
    · exact .inl x
    · right; unfold LogState.draining at x; simp only [Bool.and_eq_true, beq_iff_eq] at x; exact x.1
  have hr := (h₃ (by tauto)).recorded c (h₄ hs' (by rw [hc]; simp))
  have key : ({ (s.log.recorded c) with capture := none } : LogState).RingLaw := by
    refine ⟨?_, ?_, fun _ => hr.congr rfl rfl rfl rfl rfl, fun _ x => absurd rfl x, fun x k hk => ?_, ?_⟩
    · intro x
      have x' : s.log.state = .unset ∨ s.log.state = .preparing ∨ s.log.state = .scanning := x
      rcases hs' with y | y <;> rw [y] at x' <;> simp at x'
    · intro x
      have x' : s.log.state = .preparing ∨ s.log.state = .scanning := x
      rcases hs' with y | y <;> rw [y] at x' <;> simp at x'
    · have x' : s.log.state = .rolling := x
      have hk' : s.log.rollback = some k := hk
      have hd : s.log.draining = true := by rw [x'] at hs; simpa using hs
      have hp : k.phase = .drain := by
        unfold LogState.draining at hd
        rw [hk'] at hd
        simpa using (Bool.and_eq_true_iff.1 hd).2
      exact ⟨(h₅ x' k hk').1, fun y => absurd hp y, fun y => by rw [hp] at y; cases y⟩
    · intro x
      have x' : s.log.state = .scanning := x
      rcases hs' with y | y <;> rw [y] at x' <;> cases x'
  unfold Chip.endCapture
  dsimp only
  split
  · exact of_log (s := { s with log := { (s.log.recorded c) with capture := none } }) key (Chip.answerGo_frame _ _).2.1
  · exact key

theorem completeCapture (h : s.log.RingLaw) {c : Capture} (hc : s.log.capture = some c) : (s.completeCapture c).log.RingLaw := by
  unfold Chip.completeCapture
  dsimp only
  split
  · rename_i hs; exact retake (recorded h hc hs)
  · exact retake (endCapture h c)

theorem failShared (h : s.log.RingLaw) : s.failShared.log.RingLaw := by
  unfold Chip.failShared
  split
  · split <;> exact h
  · exact copy h (s.endCopy_frame _)

theorem captureFault (h : s.log.RingLaw) : s.captureFault.log.RingLaw := by
  unfold Chip.captureFault
  split
  · rename_i hd
    refine failRollback h ?_ _ _
    unfold LogState.draining at hd
    simp only [Bool.and_eq_true, beq_iff_eq] at hd
    exact hd.1
  · split
    · rename_i ha; exact breakLog h (.inl ha) _
    · exact h

theorem failCapture (h : s.log.RingLaw) (c) : (s.failCapture c).log.RingLaw := by
  unfold Chip.failCapture
  dsimp only
  refine retake ?_
  have h₁ := captureFault (s := { s with log := { s.log with capture := none } })
    (h.drop rfl rfl rfl rfl rfl rfl (fun _ => rfl) (fun c x => ⟨c, x, rfl, rfl, rfl, rfl⟩) (fun n c x => ⟨n, x⟩))
  split <;> split
  · exact answerGo (failShared h₁) _
  · exact answerGo h₁ _
  · exact failShared h₁
  · exact h₁

/-- Another capture in the place of the one in progress. -/
theorem withCapture (h : s.log.RingLaw) {c : Capture} (hc : s.log.capture = some c) (c') :
    ({ s.log with capture := some c' } : LogState).RingLaw :=
  h.drop rfl rfl rfl rfl rfl rfl (fun x => by rw [hc] at x; cases x) (fun c x => ⟨c, x, rfl, rfl, rfl, rfl⟩) (fun n c x => ⟨n, x⟩)

theorem captureAnswered (h : s.log.RingLaw) (a) : (s.captureAnswered a).log.RingLaw := by
  unfold Chip.captureAnswered
  split
  · exact h
  · rename_i c hc
    split
    · unfold Chip.advanceCapture
      dsimp only
      split
      · exact withCapture h hc _
      · refine issueRecordWrite ?_ _
        unfold Chip.keepImage
        split <;> exact withCapture h hc _
      · exact issueRecordWrite (s := { s with log := _ }) (withCapture h hc _) _
      · exact issueRecordWrite (s := { s with log := _ }) (withCapture h hc _) _
      · exact completeCapture h hc
    · exact failCapture h _

/-! ## Log jobs -/

theorem acceptLog {check : Descriptor → Chip → JobOutcome} {accept : Descriptor → Chip → Chip}
    (ha : ∀ d (u : Chip), u.log.RingLaw → check d u = .done → (∃ j, u.log.running = some j) → u.log.capture = none →
      (accept d u).log.RingLaw) (l : Lane) (d : Descriptor) (u : Chip)
    (h : u.log.RingLaw) (hr : ∃ j, u.log.running = some j) (hc : u.log.capture = none) :
    (Chip.acceptLog check accept l d u).log.RingLaw := by
  unfold Chip.acceptLog
  split
  · rename_i hd; exact ha _ _ h hd hr hc
  · exact endLogJob h _ _

/-- A log job whose step is taken between captures. -/
theorem grantLog (h : s.log.RingLaw) (k check) {act : Lane → Descriptor → Chip → Chip}
    (ha : ∀ l d (u : Chip), u.log.RingLaw → (∃ j, u.log.running = some j) → u.log.capture = none → (act l d u).log.RingLaw) :
    (s.grantLog k check true act).log.RingLaw := by
  unfold Chip.grantLog
  split
  · rename_i hr
    split
    · split
      · rename_i hb
        exact ha _ _ _ h ⟨_, hr⟩ (by simpa [LogState.betweenCaptures] using hb)
      · exact h
    · exact h
  · exact h
  split
  · exact h
  · split
    · exact h
    · split
      · exact h
      · dsimp only
        have hg : ∀ w l, ({ s.log with waiting := w, running := some { lane := l, stage := .granted } } : LogState).RingLaw :=
          fun w l => h.plain rfl rfl rfl rfl rfl rfl id (fun j hj => by cases hj; exact ⟨fun c => nofun, fun c => nofun⟩)
        split
        · exact endLogJob (s := Chip.laneRuns { s with log := _ } _) (hg _ _) _ _
        · split
          · rename_i hb
            exact ha _ _ _ (hg _ _) ⟨_, rfl⟩ (by simpa [LogState.betweenCaptures] using hb)
          · exact hg _ _

/-- The ring is placed by ATTACH LOG (R37). -/
theorem attachAccept {d : Descriptor} (h : s.log.RingLaw) (hd : attachCheck d s = .done) :
    (Machine.attachAccept d s).log.RingLaw := by
  have hs : s.log.state = .unset ∧ ringOperandsOk d = true := by
    unfold attachCheck at hd
    split_ifs at hd with h₁ h₂ h₃
    simp only [Bool.or_eq_true, Bool.not_eq_true', not_or] at h₃
    exact ⟨by simpa using h₁, by simpa using h₃.1.1⟩
  obtain ⟨a, b, c, e, f⟩ := h.1 (.inl hs.1)
  have hN : 0 < d.b.toNat := by
    have := (ringOperandsOk_eq d).not.1 (by rw [hs.2]; decide)
    omega
  refine ⟨fun _ => ⟨a, b, c, e, f⟩, fun _ => hN, ?_, ?_, ?_, ?_⟩
  · rintro (x | x | x) <;> cases x
  · rintro (x | x) <;> cases x
  · intro x; cases x
  · intro x; cases x

/-- The ring is placed by ADOPT LOG (R80). -/
theorem adoptAccept {d : Descriptor} (h : s.log.RingLaw) (hd : adoptCheck d s = .done) (hr : ∃ j, s.log.running = some j) :
    (Machine.adoptAccept d s).log.RingLaw := by
  have hs : s.log.state = .unset ∧ ringOperandsOk d = true := by
    unfold adoptCheck at hd
    split_ifs at hd with h₁ h₂ h₃
    exact ⟨by simpa using h₁, by simpa using h₃⟩
  obtain ⟨a, b, c, e, f⟩ := h.1 (.inl hs.1)
  have hN : 0 < d.b.toNat := by
    have := (ringOperandsOk_eq d).not.1 (by rw [hs.2]; decide)
    omega
  obtain ⟨j, hj⟩ := hr
  refine ⟨fun _ => ⟨a, b, c, e, f⟩, fun _ => hN, ?_, ?_, ?_, ?_⟩
  · rintro (x | x | x) <;> cases x
  · rintro (x | x) <;> cases x
  · intro x; cases x
  · intro _ n k hk
    have hk' : (s.log.running.map fun j => ({ j with stage := .adopting (newScan d.d) } : LogJob)) =
        some { lane := n, stage := .adopting k } := hk
    rw [hj] at hk'
    cases hk'
    exact ⟨fun _ => rfl, fun _ => ⟨hN, rfl, rfl, fun x hx => nomatch hx⟩, fun x => nomatch x⟩

/-- A rollback is accepted (R58). -/
theorem rollbackAccept {d : Descriptor} (h : s.log.RingLaw) (hd : rollbackCheck d s = .done) :
    (Machine.rollbackAccept d s).log.RingLaw := by
  have hs : s.log.state = .attached := by
    unfold rollbackCheck at hd
    split_ifs at hd with h₁
    simpa using h₁
  obtain ⟨_, _, h₃, h₄, _, _⟩ := h
  refine ⟨?_, ?_, fun _ => (h₃ (.inl hs)).congr rfl rfl rfl rfl rfl, fun _ => h₄ (.inl hs), ?_, ?_⟩
  · rintro (x | x | x) <;> cases x
  · rintro (x | x) <;> cases x
  · intro _ c hc
    have hc' : (match (s.log.running.map fun j => ({ j with stage := .rolling (s.newRollback d.a) } : LogJob)) with
      | some { stage := .rolling c, .. } => some c
      | _ => none) = some c := hc
    cases hj : s.log.running with
    | none => rw [hj] at hc'; cases hc'
    | some j =>
      rw [hj] at hc'
      cases hc'
      exact ⟨fun _ => rfl, fun x => absurd rfl x, fun x => nomatch x⟩
  · intro x; cases x

/-- DETACH LOG (R39). -/
theorem detachAccept (d : Descriptor) (hc : s.log.capture = none) : (Machine.detachAccept d s).log.RingLaw := by
  unfold Machine.detachAccept
  dsimp only
  refine endLogJob (s := { (Chip.answerAll _) with log := _ }) ?_ _ _
  refine LogState.RingLaw.toUnset _ ?_
  rw [(Chip.answerAll_frame _).2.1]
  exact hc

/-- Another stage without a context of its own. -/
theorem setStage (h : s.log.RingLaw) {st : LogStage} (h₁ : ∀ c, st ≠ .rolling c) (h₂ : ∀ c, st ≠ .adopting c) :
    (s.setStage st).log.RingLaw := by
  refine h.plain rfl rfl rfl rfl rfl rfl id (fun j hj => ?_)
  obtain ⟨k, _, rfl⟩ := Option.map_eq_some_iff.1 hj
  exact ⟨h₁, h₂⟩

theorem releaseStep {f d} (h : s.log.RingLaw) (hf : ∀ o r (v : Chip), v.log.RingLaw → (f o r v).log.RingLaw) :
    (Chip.releaseStep f d s).log.RingLaw := by
  unfold Chip.releaseStep
  split
  · exact hf _ _ _ h
  · rename_i hs
    have hs' : s.log.state = .attached := by simpa using hs
    split
    · exact hf _ _ _ h
    · rename_i e he
      refine retake (hf _ _ _ ?_)
      have hr := (h.2.2.1 (.inl hs')).released he
      have hcap := h.2.2.2.1 (.inl hs')
      refine .of_retained hr (.inl hs') fun _ x => ?_
      have := hcap x
      show s.log.count - _ < s.log.capacity
      omega

theorem voidAnswered (h : s.log.RingLaw) (a) : (s.voidAnswered a).log.RingLaw := by
  unfold Chip.voidAnswered
  split
  · split
    · rename_i hp
      obtain ⟨_, _, _, _, hc⟩ := h.1 (.inr (.inl hp))
      have hN := h.2.1 (.inl hp)
      split
      · exact endLogJob (s := { s with log := _ }) (.toUnset _ hc) _ _
      · split
        · exact copy (setStage h (st := .voiding _ _) (fun _ x => nomatch x) (fun _ x => nomatch x)) (Chip.issueWrite_copyFrame _ _)
        · refine endLogJob (s := { s with log := _ }) ?_ _ _
          refine .of_retained ?_ (.inl rfl) (fun _ x => absurd hc x)
          rw [LogState.retainedLaw_iff]
          refine ⟨Nat.zero_le _, hN, ?_, ?_, rfl, ?_⟩
          · show 0 = (0 + 0) % s.log.capacity
            simp
          · show [_] ≠ []
            simp
          · show (0 : Nat) = 0 % s.log.capacity ∧ True
            simp
    · exact h
  · exact h

/-! ## Adopting a log -/

theorem endScan (h : s.log.RingLaw) (hp : s.log.state = .scanning) (o n) : (s.endScan o n).log.RingLaw :=
  endLogJob (s := { s with log := _ }) (.toUnset _ (h.1 (.inr (.inr hp))).2.2.2.2) _ _

theorem readScanSlot (h : s.log.RingLaw) {c : Scan} (hc : Scan.Law s.log.capacity { c with step := .readHeader }) :
    (s.readScanSlot c).log.RingLaw := by
  obtain ⟨h₁, h₂, h₃, h₄, h₅, h₆⟩ := h
  refine ⟨h₁, h₂, h₃, h₄, fun x k hk => ?_, fun _ m k hk => ?_⟩
  · exfalso
    have hk' : (match (s.log.running.map fun j => ({ j with stage := .adopting { c with step := .readHeader } } : LogJob)) with
      | some { stage := .rolling c, .. } => some c
      | _ => none) = some k := hk
    cases hj : s.log.running <;> rw [hj] at hk' <;> cases hk'
  · have hk' : (s.log.running.map fun j => ({ j with stage := .adopting { c with step := .readHeader } } : LogJob)) =
        some { lane := m, stage := .adopting k } := hk
    obtain ⟨j, _, e⟩ := Option.map_eq_some_iff.1 hk'
    cases e
    exact hc

theorem finishScan (h : s.log.RingLaw) (hp : s.log.state = .scanning) {c : Scan} {n : Newest} (ht : c.tail < s.log.capacity)
    (hi : c.included ≤ s.log.capacity) (hr : runRecords c.runs = c.included)
    (ho : ∀ older r newer, c.runs = older ++ r :: newer →
      r.oldest = (c.tail + (s.log.capacity - 1) * c.included + runRecords older) % s.log.capacity) :
    (s.finishScan c n).log.RingLaw := by
  unfold Chip.finishScan
  split
  · exact endScan h hp _ _
  · rename_i he
    refine endLogJob (s := { s with log := _, freeIndex := _ }) ?_ _ _
    exact .of_retained (LogState.adopted_retained _ _ ht hi hr ho he) (.inl rfl)
      (fun _ x => absurd (h.1 (.inr (.inr hp))).2.2.2.2 x)

theorem walkOn (h : s.log.RingLaw) (hp : s.log.state = .scanning) {c : Scan} {n : Newest} (hw : c.pass = .walk)
    (hst : c.started = true) (ht : c.tail < s.log.capacity)
    (hi : c.included ≤ s.log.capacity) (hr : runRecords c.runs = c.included)
    (ho : ∀ older r newer, c.runs = older ++ r :: newer →
      r.oldest = (c.tail + (s.log.capacity - 1) * c.included + runRecords older) % s.log.capacity) :
    (s.walkOn c n).log.RingLaw := by
  unfold Chip.walkOn
  split
  · exact finishScan h hp ht hi hr ho
  · rename_i hn
    refine readScanSlot h ⟨fun x => by simp [hst] at x, fun x => by simp [hw] at x, fun _ => ⟨ht, ?_, rfl, hr, ho⟩⟩
    simp only [not_or] at hn
    exact lt_of_le_of_ne hi hn.2

theorem scanAnswered (h : s.log.RingLaw) (a) : (s.scanAnswered a).log.RingLaw := by
  unfold Chip.scanAnswered
  split
  · rename_i m c hrun
    split
    · rename_i hp
      obtain ⟨hp, hst⟩ := hp
      have hlaw := h.2.2.2.2.2 hp _ _ hrun
      have hkeep : ∀ c' : Scan, Scan.Law s.log.capacity c' → (s.setStage (.adopting c')).log.RingLaw := by
        intro c' hc'
        obtain ⟨h₁, h₂, h₃, h₄, h₅, h₆⟩ := h
        refine ⟨h₁, h₂, h₃, h₄, fun x => ?_, fun _ m k hk => ?_⟩
        · have x' : s.log.state = .rolling := x
          rw [hp] at x'; cases x'
        · have hk' : (s.log.running.map fun j => ({ j with stage := .adopting c' } : LogJob)) =
              some { lane := m, stage := .adopting k } := hk
          rw [hrun] at hk'
          cases hk'
          exact hc'
      split
      · exact endScan h hp _ _
      · dsimp only
        split
        · exact hkeep _ hlaw
        · exact hkeep _ hlaw
        · obtain ⟨_, hsel, hwalk⟩ := hlaw
          unfold Chip.judgeSlot
          split
          · rename_i hpass
            obtain ⟨h₁, h₂, h₃, h₄⟩ := hsel hpass
            have hnew : ∀ data x, c.select data = some x → x.slot < s.log.capacity := by
              intro data x hx
              unfold Scan.select at hx
              dsimp only at hx
              split at hx
              · split at hx
                · cases hx; exact h₁
                · rename_i n hn
                  split at hx
                  · cases hx; exact h₁
                  · cases hx; exact h₄ _ hn
              · exact h₄ x hx
            dsimp only
            split
            · rename_i hlt
              exact readScanSlot h ⟨fun x => by simp [hst] at x, fun _ => ⟨hlt, h₂, h₃, hnew _⟩, fun x => by simp [hpass] at x⟩
            · unfold Chip.endSelect
              split
              · exact endScan h hp _ _
              · rename_i n hn
                have hpos : 0 < s.log.capacity := h.2.1 (.inr hp)
                refine walkOn h hp rfl hst ?_ ?_ ?_ ?_
                · show (if n.isMarker = true then n.slot else (n.slot + 1) % s.log.capacity) < s.log.capacity
                  split
                  · exact hnew _ n hn
                  · exact Nat.mod_lt _ hpos
                · show c.included ≤ _
                  omega
                · show runRecords c.runs = c.included
                  rw [h₂, h₃]; rfl
                · intro older r newer he
                  have he' : c.runs = older ++ r :: newer := he
                  rw [h₃] at he'
                  cases older <;> cases he'
          · rename_i hpass
            obtain ⟨h₁, h₂, h₃, h₄, h₅⟩ := hwalk hpass
            split
            · exact h
            · have htake := runs_take (k := headerCheckpoint c.header) (q := headerSequence c.header) h₁ h₃ h₅
              have hrec : runRecords c.take.runs = c.take.included := by
                show runRecords (joinRun _ _ _ _) = _ + 1
                rw [runRecords_joinRun, h₄]
              split
              · split
                · exact walkOn h hp hpass hst h₁ h₂ hrec htake
                · exact finishScan h hp h₁ h₂ hrec htake
              · exact finishScan h hp h₁ (le_of_lt h₂) h₄ h₅
    · exact h
  · exact h

/-! ## Rollback -/

/-- The rollback's context takes a value that keeps the span law. -/
theorem setRollback (h : s.log.RingLaw) (hp : s.log.state = .rolling) (c : Rollback) (hc : s.log.SpanLaw c) :
    (s.setRollback c).log.RingLaw := by
  obtain ⟨h₁, h₂, h₃, h₄, h₅, h₆⟩ := h
  refine ⟨h₁, h₂, h₃, h₄, fun x k hk => ?_, fun x => ?_⟩
  · have hk' : (match (s.log.running.map fun j => ({ j with stage := .rolling c } : LogJob)) with
      | some { stage := .rolling c, .. } => some c
      | _ => none) = some k := hk
    cases hj : s.log.running with
    | none => rw [hj] at hk'; cases hk'
    | some j => rw [hj] at hk'; cases hk'; exact hc
  · have x' : s.log.state = .scanning := x
    rw [hp] at x'; cases x'

theorem trimAndReturn (h : s.log.RingLaw) (hp : s.log.state = .rolling) {c : Rollback}
    (ha : c.applied = recordsOf (s.log.since c.target)) (b) : (s.trimAndReturn c b).log.RingLaw := by
  unfold Chip.trimAndReturn
  refine endLogJob (endHold (s := { s with log := s.log.trimmed c b, regions := _ }) ?_) _ _
  have hk : (s.log.trimmed c b).state = .attached ∧ (s.log.trimmed c b).capture = s.log.capture ∧
      (s.log.trimmed c b).count ≤ s.log.count ∧ (s.log.trimmed c b).capacity = s.log.capacity := by
    unfold LogState.trimmed
    dsimp only
    split <;> simp
  refine .of_retained ((h.2.2.1 (.inr (.inl hp))).trimmed ha b) (.inl hk.1) fun _ x => ?_
  rw [hk.2.1] at x
  have := h.2.2.2.1 (.inr hp) x
  rw [hk.2.2.2]
  exact lt_of_le_of_lt hk.2.2.1 this

theorem finishRollback (h : s.log.RingLaw) (hp : s.log.state = .rolling) {c : Rollback} (ha : c.applied = c.span)
    (hs : c.span = recordsOf (s.log.since c.target)) : (s.finishRollback c).log.RingLaw := by
  have h' : (s.setRollback { c with phase := .finish }).log.RingLaw :=
    setRollback h hp _ ⟨(fun x => nomatch x), fun _ => hs, fun _ => ha⟩
  unfold Chip.finishRollback
  dsimp only
  split
  · exact trimAndReturn h' hp (ha.trans hs) _
  · split
    · exact trimAndReturn h' hp (ha.trans hs) _
    · exact copy h' (Chip.issueWrite_copyFrame _ _)

theorem rollbackDrainEnd (h : s.log.RingLaw) : s.rollbackDrainEnd.log.RingLaw := by
  unfold Chip.rollbackDrainEnd
  split
  · exact h
  · rename_i c hc
    split
    · rename_i hd
      have hz := (h.2.2.2.2.1 hd.2.1 c hc).1 hd.1
      dsimp only
      split
      · rename_i h0
        exact finishRollback h hd.2.1 (hz.trans h0.symm) rfl
      · exact setRollback h hd.2.1 _ ⟨(fun x => nomatch x), fun _ => rfl, (fun x => nomatch x)⟩
    · exact h

theorem restoreAnswered (h : s.log.RingLaw) (a) : (s.restoreAnswered a).log.RingLaw := by
  unfold Chip.restoreAnswered
  split
  · exact h
  · rename_i c hc
    split
    · rename_i hp
      obtain ⟨hph, hp⟩ := hp
      have hspan : c.span = recordsOf (s.log.since c.target) := (h.2.2.2.2.1 hp c hc).2.1 (by rw [hph]; decide)
      have hset : ∀ c' : Rollback, c'.phase = .restore → c'.span = c.span → c'.target = c.target → (s.setRollback c').log.RingLaw := by
        intro c' h₁ h₂ h₃
        refine setRollback h hp _ ⟨(fun x => by rw [h₁] at x; cases x), fun _ => ?_, (fun x => by rw [h₁] at x; cases x)⟩
        rw [h₂, h₃]; exact hspan
      split
      · unfold Chip.advanceWalk
        dsimp only
        split
        · exact hset _ hph rfl rfl
        · exact hset _ hph rfl rfl
        · split
          · exact copy (hset { c with second := _, step := .writeFirst } hph rfl rfl) (Chip.issueWrite_copyFrame _ _)
          · exact failRollback h hp _ _
        · exact copy (hset { c with step := .writeSecond } hph rfl rfl) (Chip.issueWrite_copyFrame _ _)
        · split
          · rename_i hd; exact finishRollback h hp hd hspan
          · exact hset _ hph rfl rfl
      · exact failRollback h hp _ _
    · exact h

theorem markerAnswered (h : s.log.RingLaw) (a) : (s.markerAnswered a).log.RingLaw := by
  unfold Chip.markerAnswered
  split
  · exact h
  · rename_i c hc
    split
    · rename_i hp
      obtain ⟨hph, hp⟩ := hp
      obtain ⟨_, h₂, h₃⟩ := h.2.2.2.2.1 hp c hc
      have ha : c.applied = recordsOf (s.log.since c.target) := (h₃ hph).trans (h₂ (by rw [hph]; decide))
      have h' := trimAndReturn h hp ha true
      split
      · exact h'
      · refine breakLog h' (.inl ?_) _
        unfold Chip.trimAndReturn
        rw [(Chip.endLogJob_frame _ _ _).2.2]
        show (Chip.endHold _).log.state = _
        rw [(Chip.endHold_frame _).2.2.2.1]
        show (s.log.trimmed c true).state = _
        unfold LogState.trimmed
        dsimp only
        split <;> rfl
    · exact h

end Chip.RingLaw

end Sys2Proof.Machine
end

