-- ==== Sys2Proof/Laws/Step.lean ====
section
/-! SUPPORT. One command as a change of the part: every command that is not refused its shape changes the part by one function and
leaves the queue alone, so that a law of the part need be shown for that function only. -/

namespace Sys2Proof.Machine

/-- The part after a command (a malformed access apart). -/
def Chip.after (s : Chip) : Instr → Chip
  | .pinReset page => s.pinReset page
  | .resetPart => s.resetPart
  | .softResetPortIdle => s.softResetPortIdle
  | .startUp _answer => s.startUp
  | .statusWordWrite => s.statusWordWrite
  | .hostAccessArrival a => s.hostAccess a
  | .holdLimitExpiry => s.holdLimitExpiry
  | .forwardRead => s.forwardRead
  | .forwardWrite => s.forwardWrite
  | .orderedReadAnswer a => s.orderedReadAnswer a
  | .forwardedWriteAnswer a => s.forwardedWriteAnswer a
  | .submit => s.submit
  | .flush => s.flush
  | .noRequest => s.noRequest
  | .consumeWord => s.consumeWord
  | .memoryPortGrant => s.grantPort
  | .retryReissue => s.retryReissue
  | .retryLimitExhausted => s.retryExhausted
  | .configurePath l => s.configurePath l
  | .defineRegion l => s.regionJob l .defineRegion s.defineRegionJob
  | .startCapture l => s.regionJob l .startCapture fun _ r => s.startCaptureJob r
  | .stopCapture l => s.regionJob l .stopCapture fun _ r => stopCaptureJob r
  | .clearFault l => s.regionJob l .clearFault fun _ r => clearFaultJob r
  | .deleteRegion l => s.regionJob l .deleteRegion fun _ r => s.deleteRegionJob r
  | .captureRequest => s.captureRequest
  | .captureTransferAnswer a => s.answered (· == .capture) fun _ t => t.captureAnswered a
  | .stallTimerExpiry => s.stallTimerExpiry
  | .attachLog => s.grantLog .attachLog attachCheck true Chip.attachStep
  | .voidingStart => s.voidingStart
  | .voidWriteAnswer a => s.answered (· == .void) fun _ t => t.voidAnswered a
  | .detachLog => s.grantLog .detachLog detachCheck true Chip.detachStep
  | .mark => s.grantLog .mark markCheck false Chip.markStep
  | .markAppend => s.markAppend
  | .release => s.release
  | .reportLog => s.grantLog .reportLog reportCheck true Chip.reportStep
  | .reportWriteAnswer a => s.answered (· == .report) fun _ t => t.reportAnswered a
  | .rollback => s.grantLog .rollback (fun _ _ => .done) true Chip.rollbackStep
  | .rollbackDrainEnd => s.rollbackDrainEnd
  | .restoreAccessAnswer a => s.answered (· == .restore) fun _ t => t.restoreAnswered a
  | .markerWriteAnswer a => s.answered (· == .marker) fun _ t => t.markerAnswered a
  | .adoptLog => s.grantLog .adoptLog adoptCheck true Chip.adoptStep
  | .selectPassStart => s.selectPassStart
  | .scanReadAnswer a => s.answered (· == .scan) fun _ t => t.scanAnswered a
  | .copy => s.copyJob
  | .frontierTransferAnswer a => s.answered (· == .frontier) fun _ t => t.frontAnswered a
  | .pacingWindowExpiry => s.windowExpiry
  | .copyAheadRequest => s.copyAheadRequest
  | .copyAheadTransferAnswer a => s.answered (· == .copyAhead) fun _ t => t.aheadAnswered a
  | .cancelCopy l => s.cancelCopy l
  | .descriptorFetchAnswer a => s.answered Owner.isFetch fun r t => (t.accessOver r.owner).fetchOwnerAnswered r.owner a
  | .null l => s.nullJob l
  | .outcomeWriteAnswer a => s.outcomeWriteAnswer a
  | .directOutcomeWriteAnswer a => s.directWriteAnswer a
  | .configureAttention l => s.configureAttention l
  | .attentionPosting => s.attentionPosting
  | .attentionWriteAnswer a => s.answered (· == .attention) fun _ t => t.attentionAnswered a
  | .statusWordWriteAnswer _answer => s.statusWordWriteAnswer

/-- A command that goes on takes the part to `Chip.after`, and leaves the queue alone. -/
theorem exec_next {i : Instr} {s t : State} (h : exec i s = .next t) : t = { s with chip := s.chip.after i } := by
  cases i
  case hostAccessArrival a =>
    unfold exec execHostAccessArrival at h
    dsimp only at h
    split at h
    · cases h; rfl
    · cases h
  all_goals
    cases h
    rfl

/-- Every command but a malformed access goes on. -/
theorem exec_goes_on {i : Instr} (s : State) (h : ∀ a, i = .hostAccessArrival a → a.wf = true) :
    exec i s = .next { s with chip := s.chip.after i } := by
  cases i
  case hostAccessArrival a =>
    unfold exec execHostAccessArrival
    dsimp only
    rw [if_pos (h a rfl)]
    rfl
  all_goals rfl

/-- A law of the part that every command keeps is kept by every step. -/
theorem step_keeps {P : Chip → Prop} (h : ∀ i (s : Chip), P s → P (s.after i)) {s t : State} (hs : P s.chip)
    (ht : step s = .next t) : P t.chip := by
  unfold step at ht
  split at ht
  · cases ht; exact hs
  · rw [exec_next ht]; exact h _ _ hs

end Sys2Proof.Machine
end

