-- ==== Sys2Proof/Laws/WriteCheck.lean ====
section
/-! SUPPORT. The law of R106 (`Chip.WriteCheckLaw`) is kept by every operation. -/

namespace Sys2Proof.Machine

variable {s : Chip}

/-! ## Operations of several blocks -/

/-- Every write passes a write check with no active copy. -/
theorem CopyState.notCopied_idle {c : CopyState} (h : c.state = .idle) (a : Word) : c.notCopied a = none := by
  simp [CopyState.notCopied, CopyState.active, h]

/-- The law depends on the waiting requests, the Copy Engine and the upstream access. -/
theorem Chip.WriteCheckLaw.congr {t : Chip} (h : s.WriteCheckLaw) (ha : t.arbiter.requests = s.arbiter.requests)
    (hc : t.copy = s.copy) (hu : t.path.upstream = s.path.upstream) : t.WriteCheckLaw := by
  obtain ⟨h₁, h₂, h₃, h₄, h₅⟩ := h
  exact ⟨by rw [ha, hc]; exact h₁, by rw [hc]; exact h₂, by rw [hu]; exact h₃, by rw [hc]; exact h₄, by rw [hc]; exact h₅⟩

theorem Chip.WriteCheckLaw.request (h : s.WriteCheckLaw) {r : PortRequest}
    (hr : r.access.write = true → s.copy.notCopied r.access.addr = none) : (s.request r).WriteCheckLaw := by
  refine ⟨fun q hq hw => ?_, h.2⟩
  rcases List.mem_append.1 hq with hq | hq
  · exact h.1 q hq hw
  · rw [List.mem_singleton.1 hq] at hw ⊢
    exact hr hw

theorem Chip.WriteCheckLaw.requestRead (h : s.WriteCheckLaw) {r : PortRequest} (hr : r.access.write = false) :
    (s.request r).WriteCheckLaw := h.request fun x => by rw [hr] at x; cases x

theorem Chip.WriteCheckLaw.issueWrite (h : s.WriteCheckLaw) (r : PortRequest) : (s.issueWrite r).WriteCheckLaw := by
  unfold Chip.issueWrite
  split
  · exact ⟨h.1, h.2⟩
  · rename_i hn
    exact h.request fun _ => hn

/-- Fewer requests wait. -/
theorem Chip.WriteCheckLaw.fewer (h : s.WriteCheckLaw) {t : Chip} (ha : ∀ r ∈ t.arbiter.requests, r ∈ s.arbiter.requests)
    (hc : t.copy = s.copy) (hu : t.path.upstream = s.path.upstream) : t.WriteCheckLaw := by
  obtain ⟨h₁, h₂, h₃, h₄, h₅⟩ := h
  exact ⟨by rw [hc]; exact fun r hr => h₁ r (ha r hr), by rw [hc]; exact h₂, by rw [hu]; exact h₃, by rw [hc]; exact h₄,
    by rw [hc]; exact h₅⟩

/-- With no upstream access. -/
theorem Chip.WriteCheckLaw.noUpstream (h : s.WriteCheckLaw) {t : Chip} (ha : t.arbiter.requests = s.arbiter.requests)
    (hc : t.copy = s.copy) (hu : t.path.upstream = none) : t.WriteCheckLaw := by
  obtain ⟨h₁, h₂, h₃, h₄, h₅⟩ := h
  exact ⟨by rw [ha, hc]; exact h₁, by rw [hc]; exact h₂, by rw [hu]; exact (fun u hu => nomatch hu), by rw [hc]; exact h₄,
    by rw [hc]; exact h₅⟩

theorem Chip.WriteCheckLaw.setLane (h : s.WriteCheckLaw) (l : Lane) (r : LaneRec) : (s.setLane l r).WriteCheckLaw :=
  h.congr rfl rfl rfl

theorem Chip.WriteCheckLaw.presentLane (h : s.WriteCheckLaw) : s.presentLane.WriteCheckLaw := by
  unfold Chip.presentLane
  split_ifs
  · exact h
  · split
    · exact h
    · split_ifs
      · exact h.congr rfl rfl rfl
      · exact Chip.WriteCheckLaw.issueWrite (by exact h.congr rfl rfl rfl) _
      · rename_i hw
        exact Chip.WriteCheckLaw.requestRead (by exact h.congr rfl rfl rfl) (by simpa using hw)

theorem Chip.WriteCheckLaw.makeLaneAccess (h : s.WriteCheckLaw) (o : Owner) (a : Access) :
    (s.makeLaneAccess o a).WriteCheckLaw := by
  unfold Chip.makeLaneAccess
  dsimp only
  split
  · exact h.congr rfl rfl rfl
  · exact Chip.WriteCheckLaw.presentLane (by exact h.congr rfl rfl rfl)

theorem Chip.WriteCheckLaw.accessOver (h : s.WriteCheckLaw) (o : Owner) : (s.accessOver o).WriteCheckLaw := by
  unfold Chip.accessOver
  split
  · exact h
  · split
    · exact h
    · exact Chip.WriteCheckLaw.presentLane (by exact h.congr rfl rfl rfl)

theorem Chip.WriteCheckLaw.endChain (h : s.WriteCheckLaw) (l : Lane) : (s.endChain l).WriteCheckLaw := by
  unfold Chip.endChain
  split
  · exact h.setLane _ _
  · exact ((h.setLane _ _).setLane _ _).makeLaneAccess _ _

theorem Chip.WriteCheckLaw.finishJob (h : s.WriteCheckLaw) (l : Lane) (o : JobOutcome) (r : Word) :
    (s.finishJob l o r).WriteCheckLaw := by
  unfold Chip.finishJob
  split
  · exact (h.setLane _ _).makeLaneAccess _ _
  · exact h

theorem Chip.WriteCheckLaw.hand (h : s.WriteCheckLaw) (src : Source) (r : AttnRecord) (k : AfterHand) {act : Chip → Chip}
    (ha : ∀ u : Chip, u.WriteCheckLaw → (act u).WriteCheckLaw) : (s.hand src r k act).WriteCheckLaw := by
  rcases s.hand_cases src r k act with ⟨_, e⟩ | ⟨_, _, e⟩ | ⟨_, _, e⟩ <;> rw [e]
  · exact ha _ h
  · exact h.congr rfl rfl rfl
  · exact ha _ (by exact h.congr rfl rfl rfl)

theorem Chip.WriteCheckLaw.decideChain (h : s.WriteCheckLaw) (l : Lane) : (s.decideChain l).WriteCheckLaw := by
  have hc : ∀ o d, (s.cutChain l o d).WriteCheckLaw := fun o d => h.hand _ _ _ fun u hu => hu.endChain l
  unfold Chip.decideChain
  split
  · split_ifs
    · exact h.endChain l
    · exact hc _ _
    · unfold Chip.followNext
      split_ifs
      · exact (h.setLane _ _).makeLaneAccess _ _
      · exact h.hand _ _ _ fun u hu => hu.endChain l
    · exact hc _ _
  · exact h.endChain l

theorem Chip.WriteCheckLaw.endOrderedWrite (h : s.WriteCheckLaw) (r : Response) : (s.endOrderedWrite r).WriteCheckLaw := by
  unfold Chip.endOrderedWrite
  split
  · exact h.noUpstream rfl rfl rfl
  · exact h

theorem Chip.WriteCheckLaw.examineWords (h : s.WriteCheckLaw) (f : ForwardPoint) (ws : List PageWord) :
    (s.examineWords f ws).WriteCheckLaw := by
  induction ws generalizing s with
  | nil => exact h.endOrderedWrite _
  | cons w ws ih =>
    unfold Chip.examineWords
    split_ifs
    · exact h.congr rfl rfl rfl
    · exact ih h
    · exact h.congr rfl rfl rfl
    · exact ih (by exact h.congr rfl rfl rfl)

theorem Chip.WriteCheckLaw.nextWords (h : s.WriteCheckLaw) : s.nextWords.WriteCheckLaw := by
  unfold Chip.nextWords
  split
  · exact h.examineWords _ _
  · exact h

theorem Chip.WriteCheckLaw.continueTake (h : s.WriteCheckLaw) : s.continueTake.WriteCheckLaw := by
  unfold Chip.continueTake
  split
  · exact h
  · split
    · exact h.makeLaneAccess _ _
    · dsimp only
      split_ifs
      · exact (Chip.WriteCheckLaw.finishJob (by exact h.congr rfl rfl rfl) _ _ _).nextWords
      · exact Chip.WriteCheckLaw.nextWords (by exact h.congr rfl rfl rfl)

theorem Chip.WriteCheckLaw.nextDirect (h : s.WriteCheckLaw) : s.nextDirect.WriteCheckLaw := by
  unfold Chip.nextDirect
  split
  · exact h
  · exact Chip.WriteCheckLaw.continueTake (by exact h.congr rfl rfl rfl)

theorem Chip.WriteCheckLaw.afterHand (h : s.WriteCheckLaw) (k : AfterHand) : (k.run s).WriteCheckLaw := by
  cases k
  · exact h.decideChain _
  · exact h.endChain _
  · exact h.nextDirect
  · exact h.nextWords
  · exact h.congr rfl rfl rfl

theorem Chip.WriteCheckLaw.serveHanding (h : s.WriteCheckLaw) (src : Source) : (s.serveHanding src).WriteCheckLaw := by
  unfold Chip.serveHanding
  split
  · exact h
  split
  · exact h
  · exact Chip.WriteCheckLaw.afterHand (by exact h.congr rfl rfl rfl) _

theorem Chip.WriteCheckLaw.dropHandings (h : s.WriteCheckLaw) : s.dropHandings.WriteCheckLaw := by
  unfold Chip.dropHandings
  have : ∀ (hs : List Handing) (t : Chip), t.WriteCheckLaw → (hs.foldl (fun t h => h.after.run t) t).WriteCheckLaw := by
    intro hs
    induction hs with
    | nil => exact fun t ht => ht
    | cons x xs ih => exact fun t ht => ih _ (ht.afterHand _)
  exact this _ _ (by exact h.congr rfl rfl rfl)

/-! ## The Path Controller -/

theorem Chip.WriteCheckLaw.waitUpstream (h : s.WriteCheckLaw) (a : Access) {w : WaitState} (hw : w ≠ .orderedRead) (p : Bool) :
    (s.waitUpstream a w p).WriteCheckLaw :=
  ⟨h.1, h.2.1, (fun u hu ho => by cases hu; exact absurd ho hw), h.2.2.2⟩

theorem Chip.WriteCheckLaw.answerUpstream (h : s.WriteCheckLaw) (r : Response) : (s.answerUpstream r).WriteCheckLaw :=
  h.noUpstream rfl rfl rfl

theorem Chip.WriteCheckLaw.acceptAccess (h : s.WriteCheckLaw) (a : Access) (p : Bool) : (s.acceptAccess a p).WriteCheckLaw := by
  unfold Chip.acceptAccess
  split_ifs with hw
  · exact ⟨h.1, h.2.1, (fun u hu _ => by cases hu; simpa using hw), h.2.2.2⟩
  · exact h.noUpstream rfl rfl rfl
  · exact h.waitUpstream a (by decide) true
  · exact ⟨h.1, h.2.1, (fun u hu ho => by cases hu; cases ho), h.2.2.2⟩

theorem Chip.WriteCheckLaw.classifyHeld (h : s.WriteCheckLaw) (a : Access) (p : Bool) : (s.classifyHeld a p).WriteCheckLaw := by
  unfold Chip.classifyHeld
  split
  · split
    · exact h.waitUpstream a (by decide) p
    · exact h.answerUpstream _
  · exact h.acceptAccess a p

theorem Chip.WriteCheckLaw.classify (h : s.WriteCheckLaw) (a : Access) (p : Bool) : (s.classify a p).WriteCheckLaw := by
  unfold Chip.classify
  split_ifs
  · exact ⟨h.1, h.2.1, (fun u hu ho => by cases hu; cases ho), h.2.2.2⟩
  · exact h.acceptAccess a p
  · exact h.answerUpstream _
  · exact h.classifyHeld a p

theorem Chip.WriteCheckLaw.releaseHeld (h : s.WriteCheckLaw) : s.releaseHeld.WriteCheckLaw := by
  unfold Chip.releaseHeld
  split
  · split
    · exact h.classify _ _
    · exact h
  · exact h

theorem Chip.WriteCheckLaw.leaveQueue (h : s.WriteCheckLaw) (n : Nat) : (s.leaveQueue n).WriteCheckLaw := by
  unfold Chip.leaveQueue Chip.serveQueueFull
  split
  · split
    · exact Chip.WriteCheckLaw.classify (by exact h.congr rfl rfl rfl) _ _
    · exact h.congr rfl rfl rfl
  · exact h.congr rfl rfl rfl

/-! ## The Copy Engine -/

/-- The copy context keeps its write check when its STATE stays active or idle as it is, and its map, mode and range stay. -/
theorem CopyState.notCopied_congr {c d : CopyState} (hs : d.active = c.active) (hm : d.mode = c.mode) (ha : d.source = c.source)
    (hl : d.length = c.length) (hp : d.map = c.map) (a : Word) : d.notCopied a = c.notCopied a := by
  unfold CopyState.notCopied CopyState.spans CopyState.copied
  rw [hs, hm, ha, hl, hp]

/-- The law over a change of the Copy Engine that leaves its write check as it is. -/
theorem Chip.WriteCheckLaw.copyTo (h : s.WriteCheckLaw) {t : Chip} (hr : ∀ r ∈ t.arbiter.requests, r.access.write = true →
      s.copy.notCopied r.access.addr = none)
    (hu : t.path.upstream = s.path.upstream) (hs : t.copy.active = s.copy.active) (hm : t.copy.mode = s.copy.mode)
    (ha : t.copy.source = s.copy.source) (hl : t.copy.length = s.copy.length) (hp : t.copy.map = s.copy.map)
    (hh : ∀ a, t.copy.ahead = some a → ∀ r, a.trigger = some r → r.access.addr.toNat / 64 = s.copy.source.toNat / 64 + a.entry)
    (hf : t.copy.front.isSome = true → s.copy.active = true) : t.WriteCheckLaw := by
  refine ⟨fun r hq hw => ?_, fun a r h₁ h₂ => ?_, ?_, ?_, ?_⟩
  · rw [CopyState.notCopied_congr hs hm ha hl hp]
    exact hr r hq hw
  · rw [ha]
    exact hh a h₁ r h₂
  · rw [hu]
    exact h.2.2.1
  · unfold CopyState.spans
    rw [hm, ha, hl]
    exact h.2.2.2.1
  · rw [hs]
    exact hf

/-- Without an active copy nothing waits for copy-ahead. -/
theorem Chip.WriteCheckLaw.of_idle {t : Chip} (hs : t.copy.state = .idle) (ha : t.copy.ahead = none) (hf : t.copy.front = none)
    (hu : ∀ u, t.path.upstream = some u → u.wait = .orderedRead → u.access.write = false)
    (hm : t.copy.mode = .consistent → t.copy.spans ≤ 4096) : t.WriteCheckLaw :=
  ⟨fun r _ _ => CopyState.notCopied_idle hs _, (fun a r h => by rw [ha] at h; cases h), hu, hm, (fun h => by rw [hf] at h; cases h)⟩

theorem Chip.WriteCheckLaw.dropFront (h : s.WriteCheckLaw) : s.dropFront.WriteCheckLaw := by
  refine h.copyTo (fun r hr hw => ?_) rfl rfl rfl rfl rfl rfl (fun a ha r hr => h.2.1 a r ha hr) (fun hf => nomatch hf)
  rcases ArbiterState.mem_giveUp hr with hq | hl
  · exact h.1 r hq.1 hw
  · obtain ⟨q, hq, rfl⟩ := ArbiterState.mem_leaves hl
    exact h.1 q hq.1 hw

/-- A part in which a copy has just ended. -/
theorem Chip.WriteCheckLaw.endCopy (h : s.WriteCheckLaw) (o : JobOutcome) : (s.endCopy o).WriteCheckLaw := by
  obtain ⟨h₁, _, _, h₄, h₅, _⟩ := s.endCopy_ended o
  have hb := s.endCopy_frame o
  refine .of_idle h₁ h₅ h₄ (by rw [hb.2.1]; exact h.2.2.1) ?_
  have hc : (s.endCopy o).copy.mode = s.copy.mode ∧ (s.endCopy o).copy.source = s.copy.source ∧
      (s.endCopy o).copy.length = s.copy.length := by
    unfold Chip.endCopy
    dsimp only
    generalize hu : Chip.mk _ _ _ _ _ _ _ _ = u
    have hi : u.copy.state = .idle := by rw [← hu]
    obtain ⟨k, _⟩ := Chip.finishJob_idle hi s.copy.lane o (BitVec.ofNat 32 s.copy.result)
    obtain ⟨k', _⟩ := Chip.endCancels_spec (s := u.finishJob s.copy.lane o (BitVec.ofNat 32 s.copy.result))
      (by rw [k]; exact hi) (BitVec.ofNat 32 s.copy.result) s.copy.cancels
    rw [k', k, ← hu]
    exact ⟨rfl, rfl, rfl⟩
  unfold CopyState.spans
  rw [hc.1, hc.2.1, hc.2.2]
  exact h.2.2.2.1

theorem Chip.WriteCheckLaw.failAhead (h : s.WriteCheckLaw) (o : JobOutcome) : (s.failAhead o).WriteCheckLaw := by
  unfold Chip.failAhead
  split <;> exact h.endCopy _

theorem Chip.WriteCheckLaw.failFront (h : s.WriteCheckLaw) (o : JobOutcome) : (s.failFront o).WriteCheckLaw := by
  unfold Chip.failFront
  split
  · exact h.dropFront.copyTo h.dropFront.1 rfl rfl rfl rfl rfl rfl (fun a ha r hr => h.dropFront.2.1 a r ha hr)
      h.dropFront.2.2.2.2
  · exact h.endCopy o

theorem Chip.WriteCheckLaw.stopWrite (h : s.WriteCheckLaw) (r : PortRequest) : (s.stopWrite r).WriteCheckLaw := by
  unfold Chip.stopWrite
  split
  all_goals first
    | exact h
    | exact h.congr rfl rfl rfl
    | (split; exact h; exact h.failFront _)
    | (split; exact h; exact h.failAhead _)

/-- The frontier takes a new context while the copy stays active. -/
theorem Chip.WriteCheckLaw.front (h : s.WriteCheckLaw) (hs : s.copy.active = true) {t : Chip} (hr : t.arbiter.requests = s.arbiter.requests)
    (hu : t.path.upstream = s.path.upstream) {f : Option Front} {st : CopyStatus} (hst : st ≠ .idle) {b : Byte} {n : Nat} {i : Image}
    (hc : t.copy = { s.copy with state := st, front := f, budgetLeft := b, frontier := n, spanBuffer := i }) : t.WriteCheckLaw := by
  refine h.copyTo (by rw [hr]; exact h.1) hu ?_ (by rw [hc]) (by rw [hc]) (by rw [hc]) (by rw [hc])
    (by rw [hc]; exact fun a ha r hr => h.2.1 a r ha hr) (fun _ => hs)
  rw [hs, hc]
  simpa [CopyState.active] using hst

theorem Chip.WriteCheckLaw.beginSpan (h : s.WriteCheckLaw) (hs : s.copy.active = true) : s.beginSpan.WriteCheckLaw := by
  unfold Chip.beginSpan
  split
  · exact h
  · split
    · exact h.front (t := { s with copy := { s.copy with state := .pausedBudget, front := none } }) hs rfl rfl (by decide) rfl
    · dsimp only
      have hk := fun f b => h.front (t := { s with copy := { s.copy with state := .copying, budgetLeft := b, front := f } }) hs rfl
        rfl (by decide) rfl
      split
      · exact (hk _ _).requestRead rfl
      · exact hk _ _

theorem Chip.WriteCheckLaw.issueFront (h : s.WriteCheckLaw) (hs : s.copy.active = true) (f : Front) (went : Bool) :
    (s.issueFront f went).WriteCheckLaw := by
  unfold Chip.issueFront
  split
  · exact Chip.WriteCheckLaw.issueWrite (h.front (t := { s with copy := { s.copy with
      state := .copying, front := some { f with phase := .port, went := went } } }) hs rfl rfl (by decide) rfl) _
  · exact h

theorem Chip.WriteCheckLaw.startFrontWrite (h : s.WriteCheckLaw) (hs : s.copy.active = true) (f : Front) :
    (s.startFrontWrite f).WriteCheckLaw := by
  unfold Chip.startFrontWrite
  split
  · exact h
  · split
    · exact h.failFront _
    · split
      · split
        · exact h.front (t := { s with copy := { s.copy with
            state := .pausedRegion, front := some { f with phase := .paused, went := false } } }) hs rfl rfl (by decide) rfl
        · split
          · exact Chip.WriteCheckLaw.congr (h.front (t := { s with copy := { s.copy with
              state := .copying, front := some { f with phase := .capture, went := false } } }) hs rfl rfl (by decide) rfl) rfl rfl rfl
          · exact h.issueFront hs _ _
      · exact h.issueFront hs _ _

theorem Chip.WriteCheckLaw.resumeFront (h : s.WriteCheckLaw) : s.resumeFront.WriteCheckLaw := by
  unfold Chip.resumeFront
  split
  · rename_i hp
    have ha : s.copy.active = true := by simp [CopyState.active, hp]
    have hk := h.front (t := { s with copy := { s.copy with state := .copying } }) ha rfl rfl (st := .copying) (by decide) rfl
    dsimp only
    split
    · split
      · exact Chip.WriteCheckLaw.startFrontWrite hk rfl _
      · exact hk
    · exact hk
  · exact h

theorem Chip.WriteCheckLaw.nextSpan (h : s.WriteCheckLaw) (hs : s.copy.active = true) : s.nextSpan.WriteCheckLaw := by
  unfold Chip.nextSpan
  split
  · exact h.endCopy _
  · exact h.beginSpan hs

/-- Marking an entry COPIED only lets writes pass. -/
theorem CopyState.markCopied_notCopied {c : CopyState} {a : Word} (k : Nat) (h : c.notCopied a = none) :
    (c.markCopied k).notCopied a = none := by
  have hc : ∀ i, c.copied i = true → (c.markCopied k).copied i = true := by
    intro i hi
    unfold CopyState.copied at hi ⊢
    show (c.map ||| 1#4096 <<< k).getLsbD i = true
    rw [BitVec.getLsbD_or, hi, Bool.true_or]
  unfold CopyState.notCopied at h ⊢
  have e₁ : (c.markCopied k).active = c.active := rfl
  have e₂ : (c.markCopied k).mode = c.mode := rfl
  have e₃ : (c.markCopied k).source = c.source := rfl
  have e₄ : (c.markCopied k).spans = c.spans := rfl
  rw [e₁, e₂, e₃, e₄]
  split at h
  · rename_i hx
    rw [if_pos hx]
    dsimp only at h ⊢
    split at h
    · cases h
    · rename_i hy
      rw [if_neg]
      intro hz
      apply hy
      simp only [Bool.and_eq_true, Bool.not_eq_true'] at hz ⊢
      refine ⟨hz.1, ?_⟩
      by_contra hcc
      rw [hc _ (by simpa using hcc)] at hz
      cases hz.2
  · rename_i hx
    rw [if_neg hx]

theorem Chip.WriteCheckLaw.markCopied (h : s.WriteCheckLaw) {t : Chip} (k : Nat) (hr : t.arbiter.requests = s.arbiter.requests)
    (hu : t.path.upstream = s.path.upstream) (hc : t.copy = s.copy.markCopied k) : t.WriteCheckLaw := by
  obtain ⟨h₁, h₂, h₃, h₄, h₅⟩ := h
  refine ⟨fun r hq hw => ?_, ?_, by rw [hu]; exact h₃, by rw [hc]; exact h₄, by rw [hc]; exact h₅⟩
  · rw [hc]
    exact CopyState.markCopied_notCopied k (h₁ r (by rw [← hr]; exact hq) hw)
  · rw [hc]; exact h₂

theorem Chip.WriteCheckLaw.completeSpan (h : s.WriteCheckLaw) (hs : s.copy.active = true) (f : Front) :
    (s.completeSpan f).WriteCheckLaw := by
  unfold Chip.completeSpan
  dsimp only
  have hn : ({ s with copy := { s.copy with front := none } } : Chip).WriteCheckLaw :=
    h.copyTo h.1 rfl rfl rfl rfl rfl rfl (fun a ha r hr => h.2.1 a r ha hr) (fun _ => hs)
  split
  · rename_i hm
    refine Chip.WriteCheckLaw.nextSpan ?_ hs
    exact hn.copyTo hn.1 rfl rfl rfl rfl rfl rfl (fun a ha r hr => h.2.1 a r ha hr) (fun _ => hs)
  · refine Chip.WriteCheckLaw.nextSpan ?_ hs
    exact hn.markCopied (s.copy.spanAt f.start) rfl rfl rfl

theorem Chip.WriteCheckLaw.advanceFront (h : s.WriteCheckLaw) {f : Front} (hf : s.copy.front = some f) (data : Line) :
    (s.advanceFront f data).WriteCheckLaw := by
  have hs : s.copy.active = true := h.2.2.2.2 (by rw [hf]; rfl)
  unfold Chip.advanceFront
  split
  · refine Chip.WriteCheckLaw.nextSpan ?_ hs
    exact h.copyTo h.1 rfl rfl rfl rfl rfl rfl (fun a ha r hr => h.2.1 a r ha hr) (fun _ => hs)
  · split
    · split
      · dsimp only
        have hk : ∀ (b : Image) (g : Front), ({ s with copy := { s.copy with spanBuffer := b, front := some g } } : Chip).WriteCheckLaw :=
          fun b g => h.copyTo h.1 rfl rfl rfl rfl rfl rfl (fun a ha r hr => h.2.1 a r ha hr) (fun _ => hs)
        split
        · exact (hk _ _).requestRead rfl
        · exact (hk _ _).startFrontWrite hs _
      · exact h
    · split
      · exact h.completeSpan hs f
      · exact h.startFrontWrite hs _
      · exact h

/-- Copy-ahead takes a new context for the same entry and write. -/
theorem Chip.WriteCheckLaw.ahead (h : s.WriteCheckLaw) {t : Chip} {a b : Ahead} (ha : s.copy.ahead = some a)
    (he : b.entry = a.entry) (ht : b.trigger = a.trigger) (hr : t.arbiter.requests = s.arbiter.requests)
    (hu : t.path.upstream = s.path.upstream) {i : Image} (hc : t.copy = { s.copy with ahead := some b, aheadBuffer := i }) :
    t.WriteCheckLaw := by
  refine h.copyTo (by rw [hr]; exact h.1) hu (by rw [hc]; rfl) (by rw [hc]) (by rw [hc]) (by rw [hc]) (by rw [hc]) ?_
    (by rw [hc]; exact h.2.2.2.2)
  rw [hc]
  intro x hx r hr'
  cases hx
  rw [he]
  exact h.2.1 a r ha (by rw [← ht]; exact hr')

theorem Chip.WriteCheckLaw.issueAhead (h : s.WriteCheckLaw) {a : Ahead} {went : Bool}
    (ha : ∀ r, a.trigger = some r → r.access.addr.toNat / 64 = s.copy.source.toNat / 64 + a.entry) :
    (s.issueAhead a went).WriteCheckLaw := by
  unfold Chip.issueAhead
  split
  · refine Chip.WriteCheckLaw.issueWrite ?_ _
    exact h.copyTo h.1 rfl rfl rfl rfl rfl rfl (fun b hb r hr => by cases hb; exact ha r hr) h.2.2.2.2
  · exact h

theorem Chip.WriteCheckLaw.startAheadWrite (h : s.WriteCheckLaw) {a : Ahead}
    (ha : ∀ r, a.trigger = some r → r.access.addr.toNat / 64 = s.copy.source.toNat / 64 + a.entry) :
    (s.startAheadWrite a).WriteCheckLaw := by
  unfold Chip.startAheadWrite
  split
  · exact h
  · split
    · exact h.failAhead _
    · split
      · split
        · split
          · exact h.failAhead _
          · exact h.copyTo h.1 rfl rfl rfl rfl rfl rfl (fun b hb r hr => by cases hb; exact ha r hr) h.2.2.2.2
        · exact h.issueAhead ha
      · exact h.issueAhead ha

theorem Chip.WriteCheckLaw.coverFront (h : s.WriteCheckLaw) {f : Front} (hf : s.copy.front = some f) :
    (s.coverFront f).WriteCheckLaw := by
  have hs : s.copy.active = true := h.2.2.2.2 (by rw [hf]; rfl)
  unfold Chip.coverFront
  dsimp only
  split
  · exact h.copyTo h.1 rfl rfl rfl rfl rfl rfl (fun a ha r hr => h.2.1 a r ha hr) (fun _ => hs)
  · refine Chip.WriteCheckLaw.beginSpan ?_ rfl
    exact h.dropFront.copyTo h.dropFront.1 rfl hs.symm rfl rfl rfl rfl (fun a ha r hr => h.2.1 a r ha hr) (fun _ => hs)

theorem Chip.WriteCheckLaw.leaveFront (h : s.WriteCheckLaw) : s.leaveFront.WriteCheckLaw := by
  unfold Chip.leaveFront
  split
  · exact h.congr rfl rfl rfl
  · exact h

theorem Chip.WriteCheckLaw.afterAhead (h : s.WriteCheckLaw) (b : Bool) : (s.afterAhead b).WriteCheckLaw := by
  unfold Chip.afterAhead
  split
  · exact h.endCopy _
  · exact h.endCopy _
  · split
    · exact h.leaveFront.endCopy _
    · split
      · split
        · rename_i f hf
          exact h.coverFront hf
        · exact h
      · exact h

/-- A write in the granule of entry `k` passes the write check once `k` is COPIED. -/
theorem CopyState.markCopied_passes {c : CopyState} {a : Word} {k : Nat} (hm : c.mode = .consistent → c.spans ≤ 4096)
    (ha : a.toNat / 64 = c.source.toNat / 64 + k) : (c.markCopied k).notCopied a = none := by
  unfold CopyState.notCopied
  have e₁ : (c.markCopied k).active = c.active := rfl
  have e₂ : (c.markCopied k).mode = c.mode := rfl
  have e₃ : (c.markCopied k).source = c.source := rfl
  have e₄ : (c.markCopied k).spans = c.spans := rfl
  rw [e₁, e₂, e₃, e₄]
  split
  · rename_i hx
    simp only [Bool.and_eq_true, beq_iff_eq] at hx
    have hsp := hm hx.2
    dsimp only
    rw [if_neg]
    rw [ha, Nat.add_sub_cancel_left]
    intro hz
    simp only [Bool.and_eq_true, Bool.not_eq_true', decide_eq_true_eq] at hz
    have hk : k < 4096 := by omega
    have : (c.markCopied k).copied k = true := by
      show (c.map ||| 1#4096 <<< k).getLsbD k = true
      rw [BitVec.getLsbD_or, BitVec.getLsbD_shiftLeft]
      simp [hk]
    rw [this] at hz
    cases hz.2
  · rfl

theorem Chip.WriteCheckLaw.completeAhead (h : s.WriteCheckLaw) {a : Ahead} (ha : s.copy.ahead = some a) :
    (s.completeAhead a).WriteCheckLaw := by
  unfold Chip.completeAhead
  dsimp only
  have hk : ({ s with copy := { s.copy.markCopied a.entry with ahead := none } } : Chip).WriteCheckLaw := by
    have hm := h.markCopied (t := { s with copy := s.copy.markCopied a.entry }) a.entry rfl rfl rfl
    exact hm.copyTo hm.1 rfl rfl rfl rfl rfl rfl (fun b hb => nomatch hb) h.2.2.2.2
  split
  · rename_i r hr
    refine Chip.WriteCheckLaw.afterAhead (hk.request fun _ => ?_) _
    exact (CopyState.notCopied_congr (c := s.copy.markCopied a.entry) rfl rfl rfl rfl rfl _).trans
      (CopyState.markCopied_passes h.2.2.2.1 (h.2.1 a r ha hr))
  · exact hk.afterAhead _

theorem Chip.WriteCheckLaw.advanceAhead (h : s.WriteCheckLaw) {a : Ahead} (ha : s.copy.ahead = some a) (data : Line) :
    (s.advanceAhead a data).WriteCheckLaw := by
  have ht := fun r hr => h.2.1 a r ha hr
  unfold Chip.advanceAhead
  split
  · dsimp only
    have hk := fun (i : Image) (ls : List Word) => h.ahead (t := { s with copy := { s.copy with
      aheadBuffer := i, ahead := some { a with reads := ls } } }) (b := { a with reads := ls }) ha rfl rfl rfl rfl rfl
    split
    · exact (hk _ _).requestRead rfl
    · exact (hk _ _).startAheadWrite ht
  · split
    · exact h.completeAhead ha
    · rename_i rest _ _
      have hk := h.ahead (t := { s with copy := { s.copy with ahead := some { a with writes := rest, went := false } } })
        (b := { a with writes := rest, went := false }) ha rfl rfl rfl rfl (i := s.copy.aheadBuffer) rfl
      exact hk.startAheadWrite ht
    · exact h

theorem Chip.WriteCheckLaw.startAhead (h : s.WriteCheckLaw) {k : Nat} {r : PortRequest}
    (hk : s.copy.notCopied r.access.addr = some k) (image : SharedImage) : (s.startAhead k r image).WriteCheckLaw := by
  have ht : r.access.addr.toNat / 64 = s.copy.source.toNat / 64 + k := by
    unfold CopyState.notCopied at hk
    split at hk
    · dsimp only at hk
      split at hk
      · rename_i hx
        simp only [Bool.and_eq_true, decide_eq_true_eq] at hx
        cases hk
        omega
      · cases hk
    · cases hk
  unfold Chip.startAhead
  dsimp only
  have hc : ∀ (a : Ahead) (i : Image), a.entry = k → (∀ q, a.trigger = some q → q = r) →
      ({ s with copy := { s.copy with ahead := some a, aheadBuffer := i } } : Chip).WriteCheckLaw := by
    intro a i he hr
    refine h.copyTo h.1 rfl rfl rfl rfl rfl rfl (fun b hb q hq => ?_) h.2.2.2.2
    cases hb
    rw [hr q hq, he]
    exact ht
  have hw : ∀ q, (if r.withdrawn = true then none else some r) = some q → q = r := by
    intro q hq
    split at hq
    · cases hq
    · exact (Option.some.inj hq).symm
  split
  · exact Chip.WriteCheckLaw.failAhead (hc _ s.copy.aheadBuffer rfl hw) _
  · exact (hc _ _ rfl hw).startAheadWrite (fun q hq => by rw [hw q hq]; exact ht)
  all_goals
    split
    · exact Chip.WriteCheckLaw.requestRead (hc _ _ rfl hw) rfl
    · exact hc _ _ rfl hw

/-! ## The Log Unit -/

theorem Chip.WriteCheckLaw.endHold (h : s.WriteCheckLaw) : s.endHold.WriteCheckLaw := h.resumeFront.releaseHeld

theorem Chip.WriteCheckLaw.answerGo (h : s.WriteCheckLaw) (q : Requester) : (s.answerGo q).WriteCheckLaw := by
  unfold Chip.answerGo
  split
  · split
    · exact Chip.WriteCheckLaw.issueWrite (by exact h.congr rfl rfl rfl) _
    · exact h
  · split
    · rename_i f hf
      exact h.issueFront (h.2.2.2.2 (by rw [hf]; rfl)) _ _
    · exact h
  · split
    · rename_i a ha
      exact h.issueAhead (fun r hr => h.2.1 a r ha hr)
    · exact h
  · exact h.issueWrite _

theorem Chip.WriteCheckLaw.answerAll (h : s.WriteCheckLaw) : s.answerAll.WriteCheckLaw := by
  unfold Chip.answerAll
  have : ∀ (rs : List CaptureRequest) (t : Chip), t.WriteCheckLaw → (rs.foldl (fun t r => t.answerGo r.requester) t).WriteCheckLaw := by
    intro rs
    induction rs with
    | nil => exact fun t ht => ht
    | cons r rs ih => exact fun t ht => ih _ (ht.answerGo _)
  exact this _ _ (by exact h.congr rfl rfl rfl)

theorem Chip.WriteCheckLaw.handLog (h : s.WriteCheckLaw) (src : Source) (r : AttnRecord) : (s.handLog src r).WriteCheckLaw := by
  unfold Chip.handLog
  split
  · exact h.congr rfl rfl rfl
  · exact h

theorem Chip.WriteCheckLaw.breakLog (h : s.WriteCheckLaw) (r : Reason) : (s.breakLog r).WriteCheckLaw := by
  unfold Chip.breakLog
  split
  · exact h
  · exact Chip.WriteCheckLaw.answerAll (Chip.WriteCheckLaw.handLog (by exact h.congr rfl rfl rfl) _ _)

theorem Chip.WriteCheckLaw.endLogJob (h : s.WriteCheckLaw) (o : JobOutcome) (r : Word) : (s.endLogJob o r).WriteCheckLaw := by
  unfold Chip.endLogJob
  split
  · exact Chip.WriteCheckLaw.finishJob (by exact h.congr rfl rfl rfl) _ _ _
  · exact h

theorem Chip.WriteCheckLaw.failRollback (h : s.WriteCheckLaw) (r : Reason) (n : Nat) : (s.failRollback r n).WriteCheckLaw := by
  unfold Chip.failRollback Chip.faultRequest
  exact ((((h.congr rfl rfl rfl : Chip.WriteCheckLaw { s with regions := s.regions.map Region.toFaulted }).endHold).breakLog
    r).endLogJob _ _).congr rfl rfl rfl

theorem Chip.WriteCheckLaw.startCaptureOf (h : s.WriteCheckLaw) (r : CaptureRequest) : (s.startCaptureOf r).WriteCheckLaw :=
  Chip.WriteCheckLaw.requestRead (by exact h.congr rfl rfl rfl) rfl

theorem Chip.WriteCheckLaw.stallRequest (h : s.WriteCheckLaw) (r : CaptureRequest) : (s.stallRequest r).WriteCheckLaw := by
  unfold Chip.stallRequest
  dsimp only
  split
  · exact h.congr rfl rfl rfl
  · exact Chip.WriteCheckLaw.handLog (by exact h.congr rfl rfl rfl) _ _

theorem Chip.WriteCheckLaw.takeCapture (h : s.WriteCheckLaw) (r : CaptureRequest) : (s.takeCapture r).WriteCheckLaw := by
  unfold Chip.takeCapture
  split_ifs
  · exact h.answerGo _
  · exact h.answerGo _
  · exact (h.failRollback _ _).answerGo _
  · exact (h.breakLog _).answerGo _
  · exact h.stallRequest r
  · exact h.startCaptureOf r

theorem Chip.WriteCheckLaw.retakeStalled (h : s.WriteCheckLaw) (n : Nat) : (s.retakeStalled n).WriteCheckLaw := by
  induction n generalizing s with
  | zero => exact h
  | succ n ih =>
    unfold Chip.retakeStalled
    split
    · exact h
    · split
      · exact h
      · split
        · exact h
        · exact ih (Chip.WriteCheckLaw.takeCapture (by exact h.congr rfl rfl rfl) _)

theorem Chip.WriteCheckLaw.retake (h : s.WriteCheckLaw) : s.retake.WriteCheckLaw := by
  unfold Chip.retake Chip.settleStall
  split
  · exact h.retakeStalled _
  · exact (h.retakeStalled _).congr rfl rfl rfl

theorem Chip.WriteCheckLaw.issueRecordWrite (h : s.WriteCheckLaw) (r : PortRequest) : (s.issueRecordWrite r).WriteCheckLaw := by
  unfold Chip.issueRecordWrite
  split
  · refine (h.failAhead _).request fun _ => ?_
    have : (s.failAhead .destFault).copy.state = .idle := by
      unfold Chip.failAhead
      split <;> exact (s.endCopy_ended _).1
    exact CopyState.notCopied_idle this _
  · exact h.issueWrite r

theorem Chip.WriteCheckLaw.endCapture (h : s.WriteCheckLaw) (c : Capture) : (s.endCapture c).WriteCheckLaw := by
  unfold Chip.endCapture
  dsimp only
  split
  · exact Chip.WriteCheckLaw.answerGo (by exact h.congr rfl rfl rfl) _
  · exact h.congr rfl rfl rfl

theorem Chip.WriteCheckLaw.completeCapture (h : s.WriteCheckLaw) (c : Capture) : (s.completeCapture c).WriteCheckLaw := by
  unfold Chip.completeCapture
  dsimp only
  refine Chip.WriteCheckLaw.retake (Chip.WriteCheckLaw.endCapture ?_ c)
  split
  · exact h.congr rfl rfl rfl
  · exact h

theorem Chip.WriteCheckLaw.failShared (h : s.WriteCheckLaw) : s.failShared.WriteCheckLaw := by
  unfold Chip.failShared
  split
  · split
    · exact h.congr rfl rfl rfl
    · exact h
  · exact h.endCopy _

theorem Chip.WriteCheckLaw.captureFault (h : s.WriteCheckLaw) : s.captureFault.WriteCheckLaw := by
  unfold Chip.captureFault
  split
  · exact h.failRollback _ _
  · split
    · exact h.breakLog _
    · exact h

theorem Chip.WriteCheckLaw.failCapture (h : s.WriteCheckLaw) (c : Capture) : (s.failCapture c).WriteCheckLaw := by
  unfold Chip.failCapture
  dsimp only
  refine Chip.WriteCheckLaw.retake ?_
  have h₁ := Chip.WriteCheckLaw.captureFault (s := { s with log := { s.log with capture := none } }) (by exact h.congr rfl rfl rfl)
  split <;> split
  · exact h₁.failShared.answerGo _
  · exact h₁.answerGo _
  · exact h₁.failShared
  · exact h₁

theorem Chip.WriteCheckLaw.advanceCapture (h : s.WriteCheckLaw) (c : Capture) (data : Line) :
    (s.advanceCapture c data).WriteCheckLaw := by
  unfold Chip.advanceCapture
  dsimp only
  split
  · exact Chip.WriteCheckLaw.requestRead (by exact h.congr rfl rfl rfl) rfl
  · refine Chip.WriteCheckLaw.issueRecordWrite ?_ _
    unfold Chip.keepImage
    split
    · exact h.congr rfl rfl rfl
    · exact h.congr rfl rfl rfl
  · exact Chip.WriteCheckLaw.issueRecordWrite (by exact h.congr rfl rfl rfl) _
  · exact Chip.WriteCheckLaw.issueRecordWrite (by exact h.congr rfl rfl rfl) _
  · exact h.completeCapture c

theorem Chip.WriteCheckLaw.acceptLog {check : Descriptor → Chip → JobOutcome} {accept : Descriptor → Chip → Chip}
    (ha : ∀ d (u : Chip), u.WriteCheckLaw → (accept d u).WriteCheckLaw) (l : Lane) (d : Descriptor) (u : Chip)
    (h : u.WriteCheckLaw) : (Chip.acceptLog check accept l d u).WriteCheckLaw := by
  unfold Chip.acceptLog
  split
  · exact ha _ _ h
  · exact h.endLogJob _ _

theorem Chip.WriteCheckLaw.grantLog (h : s.WriteCheckLaw) (k : JobKind) (check : Descriptor → Chip → JobOutcome) (b : Bool) {act : Lane → Descriptor → Chip → Chip}
    (ha : ∀ l d (u : Chip), u.WriteCheckLaw → (act l d u).WriteCheckLaw) : (s.grantLog k check b act).WriteCheckLaw := by
  unfold Chip.grantLog
  split
  · split
    · split
      · exact ha _ _ _ h
      · exact h
    · exact h
  · exact h
  split
  · exact h
  · split
    · exact h
    · split
      · exact h
      · dsimp only
        have : ∀ (g : LogState) l r, (Chip.setLane { s with log := g } l r).WriteCheckLaw := fun g l r => h.congr rfl rfl rfl
        split
        · exact (this _ _ _).endLogJob _ _
        · split
          · exact ha _ _ _ (this _ _ _)
          · exact this _ _ _

end Sys2Proof.Machine
end

