-- ==== Sys2Proof/Tests/Slice0.lean ====
section
/-! SUPPORT. The model's own tests. The first part runs single commands on small states, with the results the manual states; the
second part shows, for each statement of Certificates/Slice0/Obligations.lean that has hypotheses, states and operands that
meet them, and for its clauses operands at the ends of their ranges. -/

namespace Sys2Proof.Tests
open Sys2Proof Sys2Proof.Machine

-- One theorem at a time: each one here waits for the kernel, and all of them at once need a thread each.
set_option Elab.async false

/-! ## Small states -/

/-- The part, READY, with the port free and the control page at 0x00010000. -/
def ready : Chip :=
  let c := Chip.atPinReset 1#16
  { c with arbiter := { c.arbiter with requests := [] }, path := { c.path with status := .ready } }

/-- The state with this part and no command waiting. -/
def st (c : Chip) : Machine.State := { chip := c, pending := [] }

/-- The part after a command that answers next. -/
def ran (i : Instr) (c : Chip) : Option Chip :=
  match exec i (st c) with
  | .next t => some t.chip
  | .fault _ => none
  | .refused _ => none

/-- A descriptor with TAG 7 and operands. -/
def op (code : Byte) (a b c d : Word) : Descriptor :=
  { code := code, flags := 0#8, next := 0#32, tag := 7#32, a := a, b := b, c := c, d := d }

/-- The descriptor address of every job here. -/
def jobAt : Word := 0x2000#32

/-- Lane `l` in a lane state with this descriptor as its current job. -/
def job (c : Chip) (l : Lane) (s : LaneStatus) (d : Descriptor) : Chip :=
  c.setLane l { state := s, queue := [], cutPending := false
                current := some { addr := jobAt, desc := some d, outcome := none, result := 0#32 } }

/-- The log job of lane 0 is the oldest that waits. -/
def logJob (c : Chip) (d : Descriptor) : Chip :=
  let c := job c 0 .wait d
  { c with log := { c.log with waiting := [0] } }

/-- The log job of lane 0 runs at this stage. -/
def logRuns (c : Chip) (stage : LogStage) (d : Descriptor) : Chip :=
  let c := job c 0 .run d
  { c with log := { c.log with running := some { lane := 0, stage := stage } } }

/-- A request for the port at class 1. -/
def ask (o : Owner) (a : Access) : PortRequest := { owner := o, cls := .path, access := a, stale := false }

/-- A transaction of this owner holds the port. -/
def flying (c : Chip) (o : Owner) : Chip :=
  { c with arbiter := { c.arbiter with inFlight := some (ask o (readLine 0x3000#32)) } }

/-- A write of the 4 bytes at an address. -/
def write4 (a v : Word) : Access :=
  { write := true, shape := .single, addr := a, mask := spanMask (a.toNat % 8) 4, data := place 256 v (a.toNat % 8) }

/-- A read of the 4 bytes at an address. -/
def read4 (a : Word) : Access := { write4 a 0#32 with write := false, data := 0#256 }

/-- An access that waits upstream. -/
def upstream (c : Chip) (a : Access) (w : WaitState) : Chip :=
  { c with path := { c.path with upstream := some { access := a, wait := w, toPost := false, accepted := 0 } } }

/-- The forward point holds this write. -/
def fwd (a : Access) (posted : Bool) (stage : ForwardStage) (ws : List PageWord) : ForwardPoint :=
  { access := a, accepted := 0, posted := posted, stage := stage, image := .absent, words := ws }

/-- The part with an access at the forward point. -/
def atPoint (c : Chip) (f : ForwardPoint) : Chip := { c with path := { c.path with forward := some f } }

/-- A control-page write whose one recognised word, for this target, is next to be taken. -/
def pageWrite (t : WordTarget) (v : Word) : ForwardPoint :=
  fwd (write4 0x10000#32 v) false .recognise [{ target := t, value := v, full := true }]

/-- Region 0 is one granule at 0x40000 in this state, with this RESUME. -/
def region (c : Chip) (s : RegionState) (r : Resume) : Chip :=
  { c with regions := c.regions.set 0 { state := s, base := 0x40000#32, length := 1, resume := r } }

/-- A log of 16 slots at 0x80000 with one checkpoint, number 1, of `n` records in the slots from 0. -/
def logIn (c : Chip) (s : LogStatus) (n : Nat) : Chip :=
  { c with log := { c.log with
    state := s, base := 0x80000#32, capacity := 16, tail := n % 16, count := n, nextSeq := BitVec.ofNat 32 (n + 1)
    lastSeq := BitVec.ofNat 32 n, highest := 1#32
    checkpoints := [{ number := 1#32, firstSlot := 0, firstSequence := 1#32, records := n }] } }

/-- An ATTACHED log and region 0 CAPTURING. -/
def captures (n : Nat) : Chip := region (logIn ready .attached n) .capturing .idle

/-- A capture request for region 0's granule. -/
def capReq (q : Requester) (stalled : Bool) : CaptureRequest :=
  { requester := q, granule := 0x40000#32, region := 0, cls := .path, stalled := stalled }

/-- A capture of region 0's granule at a step. -/
def capture (s : CaptureStep) : Capture :=
  { request := capReq .host false, slot := 0, sequence := 1#32, previous := 0#32, checkpoint := 1#32
    first := 0#256, second := 0#256, step := s, answer := true }

/-- A host write to region 0 at the forward point. -/
def hostWrite (s : ForwardStage) : ForwardPoint := fwd (write4 0x40000#32 5#32) true s []

/-- A configured attention ring of 8 records at 0x90000, `n` of them not consumed. -/
def ring (c : Chip) (n : Nat) : Chip :=
  { c with attention := { c.attention with
    configured := true, base := 0x90000#32, capacity := 8, lineEnable := true, produce := BitVec.ofNat 16 n
    sequence := BitVec.ofNat 32 n } }

/-- A listed JOB DONE record of lane 0. -/
def listed : Listed :=
  { source := .lane 0, record := { kind := .jobDone, lane := 0#8, outcome := 1#16, tag := 7#32, subject := jobAt } }

/-- A copy of 128 bytes from 0x50000 to 0x60000, of lane 1. -/
def copies (c : Chip) (m : CopyMode) : Chip :=
  let c := job c 1 .run (op 15#8 0x50000#32 0x60000#32 128#32 0#32)
  { c with copy := { c.copy with state := .copying, source := 0x50000#32, dest := 0x60000#32, length := 128, mode := m, lane := 1 } }

/-- The frontier on the first span of that copy. -/
def front (reads : List Word) (writes : List Piece) (p : FrontPhase) : Front :=
  { start := 0, length := 64, reads := reads, writes := writes, phase := p, went := false, covered := false }

/-- A line write of that copy. -/
def piece (a : Word) : Piece := { shape := .line, addr := a, length := 32 }

/-- The copy with the frontier at work. -/
def withFront (c : Chip) (f : Front) : Chip := { c with copy := { c.copy with front := some f } }

/-- A copy-ahead of the first span of that copy. -/
def ahead (reads : List Word) (writes : List Piece) : Ahead :=
  { entry := 0, cls := .path, trigger := some (ask (.forwardWrite true) (write4 0x50000#32 5#32)), reads := reads,
    writes := writes, waitsCap := false, went := false }

/-- The copy with a copy-ahead in progress. -/
def withAhead (c : Chip) (a : Ahead) : Chip := { c with copy := { c.copy with ahead := some a } }

theorem job_has (c : Chip) (l : Lane) (s : LaneStatus) (d : Descriptor) : (job c l s d).HasJob l s jobAt d := by
  constructor
  · simp [job, Chip.lane, Chip.setLane]
  · exact ⟨none, 0#32, by simp [job, Chip.lane, Chip.setLane]⟩

theorem flying_has (c : Chip) (o : Owner) : (flying c o).InFlight o := ⟨_, rfl, rfl, rfl⟩

theorem word_next (c : Chip) (t : WordTarget) (v : Word) (h : c.lanes.take = none) :
    (atPoint c (pageWrite t v)).WordNext (pageWrite t v) t v [] := ⟨h, rfl, rfl, rfl⟩

theorem grant_due (c : Chip) (d : Descriptor) (h : c.log.running = none) (hb : c.log.beside = none) :
    (logJob c d).GrantDue 0 jobAt d [] := ⟨h, hb, rfl, job_has c 0 .wait d⟩

/-! ## Formats -/

/-- R177: the nine bytes 0x31 to 0x39 give 0x29B1. -/
theorem test_crc_check_string :
    crc16 [0x31#8, 0x32#8, 0x33#8, 0x34#8, 0x35#8, 0x36#8, 0x37#8, 0x38#8, 0x39#8] = 0x29B1#16 := by decide +kernel

/-- Sixteen bytes: some bytes, then zeros. -/
def sixteen (bytes : List Byte) : List Byte := bytes ++ List.replicate (16 - bytes.length) 0#8

/-- The CRC of two runs of bytes is the second's, begun with the first's. -/
theorem crc16_append (a b : List Byte) : crc16 (a ++ b) = b.foldl crcByte (crc16 a) := List.foldl_append

/-- R177: CHECK of a RECORD, calculated apart from the model: region 0, SEQUENCE 1, CHECKPOINT 1, GRANULE 0x40000, image bytes 3 and 4 at
the start of its lines. -/
theorem test_record_check : recordCheck 0x400000000000100000000000000018CBB00C1#256 3#256 4#256 = 0x8CBB#16 := by
  have bytes : bytesOf (withoutCheck 0x400000000000100000000000000018CBB00C1#256) 32 ++ bytesOf 3#256 32 ++ bytesOf 4#256 32 =
      ((((sixteen [0xC1#8, 0#8, 0#8, 0#8, 1#8, 0#8, 0#8, 0#8, 0#8, 0#8, 0#8, 0#8, 1#8] ++ sixteen [0#8, 0#8, 4#8]) ++
        sixteen [3#8]) ++ sixteen []) ++ sixteen [4#8]) ++ sixteen [] := by decide +kernel
  have h1 : crc16 (sixteen [0xC1#8, 0#8, 0#8, 0#8, 1#8, 0#8, 0#8, 0#8, 0#8, 0#8, 0#8, 0#8, 1#8]) = 0x33B6#16 := by decide +kernel
  have h2 : (sixteen [0#8, 0#8, 4#8]).foldl crcByte 0x33B6#16 = 0x2111#16 := by decide +kernel
  have h3 : (sixteen [3#8]).foldl crcByte 0x2111#16 = 0xE60B#16 := by decide +kernel
  have h4 : (sixteen []).foldl crcByte 0xE60B#16 = 0xC696#16 := by decide +kernel
  have h5 : (sixteen [4#8]).foldl crcByte 0xC696#16 = 0x08C3#16 := by decide +kernel
  have h6 : (sixteen []).foldl crcByte 0x08C3#16 = 0x8CBB#16 := by decide +kernel
  rw [recordCheck, bytes]
  simp only [crc16_append, h1, h2, h3, h4, h5, h6]

/-- R177: CHECK of a MARKER, calculated apart from the model: SEQUENCE 3, CHECKPOINT 1. -/
theorem test_marker_check : markerCheck 0x100000000000000037E5600C2#256 = 0x7E56#16 := by
  have bytes : bytesOf (withoutCheck 0x100000000000000037E5600C2#256) 32 =
      sixteen [0xC2#8, 0#8, 0#8, 0#8, 3#8, 0#8, 0#8, 0#8, 0#8, 0#8, 0#8, 0#8, 1#8] ++ sixteen [] := by decide +kernel
  have h1 : crc16 (sixteen [0xC2#8, 0#8, 0#8, 0#8, 3#8, 0#8, 0#8, 0#8, 0#8, 0#8, 0#8, 0#8, 1#8]) = 0xDD11#16 := by decide +kernel
  have h2 : (sixteen []).foldl crcByte 0xDD11#16 = 0x7E56#16 := by decide +kernel
  rw [markerCheck, bytes]
  simp only [crc16_append, h1, h2]

/-! ## Ill-formed accesses (R120) -/

/-- A single crosses no aligned 8-byte word. -/
theorem test_wf_single_crosses : (Instr.hostAccessArrival
    { write := true, shape := .single, addr := 6#32, mask := spanMask 6 3, data := 0#256 }).wf = false := by decide +kernel

/-- A single's bytes are contiguous. -/
theorem test_wf_single_gap : (Instr.hostAccessArrival
    { write := true, shape := .single, addr := 0#32, mask := 0b101#32, data := 0#256 }).wf = false := by decide +kernel

/-- A single moves at least one byte. -/
theorem test_wf_single_empty : (Instr.hostAccessArrival
    { write := false, shape := .single, addr := 0#32, mask := 0#32, data := 0#256 }).wf = false := by decide +kernel

/-- A single's address is its first byte's. -/
theorem test_wf_single_address : (Instr.hostAccessArrival
    { write := false, shape := .single, addr := 1#32, mask := 1#32, data := 0#256 }).wf = false := by decide +kernel

/-- A line is 32-aligned. -/
theorem test_wf_line_aligned : (Instr.hostAccessArrival { readLine 0#32 with addr := 16#32 }).wf = false := by decide +kernel

/-- A line moves all its bytes. -/
theorem test_wf_line_full : (Instr.hostAccessArrival { readLine 32#32 with mask := 0xFF#32 }).wf = false := by decide +kernel

/-- No row of the table has bits. -/
theorem test_no_word_decodes : decodeTableWord 32 0 = none := by decide +kernel

/-! ## One command, one state

What each command does on a small state, by the rule it names. -/

/-- R139: the page base is PAGE × 65,536. -/
theorem test_pinReset_page : (ran (.pinReset 0x1234#16) (captures 3)).map (·.path.pageBase) = some 0x12340000#32 := by decide +kernel

/-- R140: STATE 1, CAUSE 1, LANES 6 and REVISION 1 at page + 0x20. -/
theorem test_pinReset_status : (ran (.pinReset 2#16) ready).map (fun t => t.arbiter.requests.map (·.access)) =
    some [{ write := true, shape := .single, addr := 0x20020#32, mask := 0xF#32, data := 0x01060101#256 }] := by decide +kernel

/-- R143: the Region Table is cleared at once, and the settings stay until the port is idle. -/
theorem test_resetPart : (ran .resetPart (atPoint (captures 0) (pageWrite (.submit 3) 2#32))).map
    (fun t => (t.path.status, t.regions[0].state, t.path.pageBase)) = some (.resetting, .free, 0x10000#32) := by decide +kernel

/-- R143: CAUSE 2 after a soft reset. -/
theorem test_softResetPortIdle : (ran .softResetPortIdle { ready with path := { ready.path with status := .resetting } }).map
    (fun t => t.arbiter.requests.map (·.access.data)) = some [0x01060201#256] := by decide +kernel

/-- R140: a FAULT ends start-up as DONE does. -/
theorem test_startUp_fault : (ran (.startUp .fault)
    (flying { ready with path := { ready.path with status := .starting } } .startUp)).map (·.path.status) = some .ready := by
  decide +kernel

/-- R141: STATE 2 for ATTENTION FAULT. -/
theorem test_statusWordWrite : (ran .statusWordWrite
    { ready with path := { ready.path with statusOwed := [.attentionFault] } }).map
      (fun t => t.arbiter.requests.map (·.access.data)) = some [0x01060102#256] := by decide +kernel

/-- R125: with POST off a write waits as an ORDERED WRITE. -/
theorem test_arrival_ordered : (ran (.hostAccessArrival (write4 0x40004#32 1#32)) ready).map
    (fun t => t.path.upstream.map (·.wait)) = some (some .orderedWrite) := by decide +kernel

/-- R36: a write whose granule holds a byte of the log ring is answered FAULT; 0x80600 is its last line's next. -/
theorem test_arrival_ring_guard : ((ran (.hostAccessArrival (write4 0x805FC#32 1#32)) (captures 0)).map (·.path.response),
    (ran (.hostAccessArrival (write4 0x80600#32 1#32)) (captures 0)).map (·.path.response)) = (some (some .fault), some none) := by
  decide +kernel

/-- R132: the access is answered RETRY. -/
theorem test_holdLimitExpiry : (ran .holdLimitExpiry { upstream ready (read4 0x40000#32) .held with
    path := { (upstream ready (read4 0x40000#32) .held).path with holdTimer := some 3#16 } }).map
      (fun t => (t.path.response, t.path.upstream.isNone)) = some (some .retry, true) := by decide +kernel

/-- R127: the read requests the port with the access as it is. -/
theorem test_forwardRead : (ran .forwardRead (upstream ready (read4 0x40004#32) .orderedRead)).map
    (fun t => t.arbiter.requests.map (·.access)) = some [read4 0x40004#32] := by decide +kernel

/-- R128: a write into a CAPTURING region makes a capture request for its granule and its region. -/
theorem test_forwardWrite_captures : (ran .forwardWrite (upstream (captures 0) (write4 0x40024#32 1#32) .orderedWrite)).map
    (fun t => t.log.requests.map fun q => (q.granule, q.region)) = some [(0x40000#32, 0)] := by decide +kernel

/-- R127: the data go upstream. -/
theorem test_orderedReadAnswer : (ran (.orderedReadAnswer (.done 9#256))
    (flying (atPoint (upstream ready (read4 0#32) .issued) (fwd (read4 0#32) false .port [])) .forwardRead)).map
      (·.path.response) = some (some (.data 9#256)) := by decide +kernel

/-- R129: the FAULT of a posted write is reported by WRITE LOST with the write's address. -/
theorem test_forwardedWriteAnswer_lost : (ran (.forwardedWriteAnswer .fault)
    (flying (atPoint (ring ready 0) (hostWrite .port)) (.forwardWrite true))).map
      (fun t => t.attention.posts.map fun p => (p.record.kind, p.record.subject)) =
    some [(.writeLost, 0x40000#32)] := by decide +kernel

/-- R147: an IDLE lane fetches the descriptor at once. -/
theorem test_submit_fetches : (ran .submit (atPoint ready (pageWrite (.submit 3) 0x2000#32))).map
    (fun t => ((t.lane 3).state, t.arbiter.requests.map (·.access))) = some (.fetch, [readLine 0x2000#32]) := by decide +kernel

/-- R159: the entry removed is owed OUTCOME 12 and RESULT 0 in its bytes 2 to 7. -/
theorem test_flush_cancels : (ran .flush (atPoint (ready.setLane 3 { LaneRec.atReset with queue := [0x2000#32] })
    (pageWrite (.submit 3) 1#32))).map (fun t => t.arbiter.requests.map (·.access)) =
    some [{ write := true, shape := .single, addr := 0x2002#32, mask := 0xFC#32, data := 0xC0000#256 }] := by decide +kernel

/-- R146: MAILBOX FAULT from the lane, with the submit word's address. -/
theorem test_noRequest : (ran .noRequest (atPoint (ring ready 0) (pageWrite (.submit 3) 0x2003#32))).map
    (fun t => t.attention.posts.map fun p => (p.record.kind, p.record.lane, p.record.subject)) =
    some [(.mailboxFault, 3#8, 0x1000C#32)] := by decide +kernel

/-- R172: the index moves on and the ATTN line follows the occupancy. -/
theorem test_consumeWord : (ran .consumeWord (atPoint (ring ready 2) (pageWrite .consume 2#32))).map
    (fun t => (t.attention.consume, t.attnLine)) = some (2#16, false) := by decide +kernel

/-- R135: the lanes' class goes before the frontier's. -/
theorem test_memoryPortGrant : (ran .memoryPortGrant { ready with arbiter := { ready.arbiter with
    requests := [{ ask .frontier (readLine 0#32) with cls := .frontier }, { ask (.laneFetch 0) (readLine 32#32) with cls := .lane }] } }).map
      (fun t => t.arbiter.inFlight.map (·.owner)) = some (some (.laneFetch 0)) := by decide +kernel

/-- R133: a RETRY is counted. -/
theorem test_retryReissue : (ran .retryReissue (flying ready .capture)).map (·.arbiter.retryCount) = some 1 := by decide +kernel

/-- R133, R140: the 17th RETRY counts as FAULT, which ends start-up. -/
theorem test_retryLimitExhausted : (ran .retryLimitExhausted
    { flying ready .startUp with
      path := { ready.path with status := .starting }
      arbiter := { (flying ready .startUp).arbiter with retryCount := 16 } }).map
    (fun t => (t.path.status, t.arbiter.inFlight.isNone)) = some (.ready, true) := by decide +kernel

/-- R138: A of 3 sets both settings. -/
theorem test_configurePath : (ran (.configurePath 2) (job ready 2 .run (op 1#8 3#32 0xFFFF#32 0#32 0#32))).map
    (fun t => (t.path.post, t.path.restoreResponse, t.path.holdLimit)) = some (true, .retry, 0xFFFF#16) := by decide +kernel

/-- R7: the entry takes BASE and LENGTH. -/
theorem test_defineRegion : (ran (.defineRegion 2) (job ready 2 .run (op 3#8 5#32 0x40000#32 16#32 0#32))).map
    (fun t => t.regions[5]) = some { state := .idle, base := 0x40000#32, length := 16, resume := .idle } := by decide +kernel

/-- R8: an IDLE entry becomes CAPTURING under an ATTACHED log. -/
theorem test_startCapture : (ran (.startCapture 2)
    (job (region (logIn ready .attached 0) .idle .idle) 2 .run (op 4#8 0#32 0#32 0#32 0#32))).map (fun t => t.regions[0].state) =
    some .capturing := by decide +kernel

/-- R9: a CAPTURING entry becomes IDLE. -/
theorem test_stopCapture : (ran (.stopCapture 2) (job (captures 0) 2 .run (op 5#8 0#32 0#32 0#32 0#32))).map
    (fun t => t.regions[0].state) = some .idle := by decide +kernel

/-- R10: a FAULTED entry becomes IDLE. -/
theorem test_clearFault : (ran (.clearFault 2) (job (region ready .faulted .idle) 2 .run (op 6#8 0#32 0#32 0#32 0#32))).map
    (fun t => t.regions[0].state) = some .idle := by decide +kernel

/-- R11: RECORDS HELD, code 10, while an ATTACHED log holds records. -/
theorem test_deleteRegion_held : (ran (.deleteRegion 2)
    (job (region (logIn ready .attached 1) .idle .idle) 2 .run (op 7#8 0#32 0#32 0#32 0#32))).map
      (fun t => t.arbiter.requests.map (·.access.data)) = some [0xA0007#256] := by decide +kernel

/-- R25: a capture reads the granule's first line at the request's class. -/
theorem test_captureRequest : (ran .captureRequest
    { captures 0 with log := { (captures 0).log with requests := [capReq .host false] } }).map
      (fun t => (t.arbiter.requests.map (·.access), t.log.capture.map (·.slot))) = some ([readLine 0x40000#32], some 0) := by
  decide +kernel

/-- R25: the header's DONE counts the record and sends the host's write on. -/
theorem test_captureTransferAnswer : (ran (.captureTransferAnswer (.done 0#256))
    (flying { atPoint (captures 0) (hostWrite .capture) with
      log := { (captures 0).log with capture := some (capture .writeHeader) } } .capture)).map
      (fun t => (t.log.count, t.log.nextSeq, t.log.table, t.arbiter.requests.map (·.owner))) =
    some (1, 2#32, [0x40000#32], [.forwardWrite true]) := by decide +kernel

/-- R31, R14: the log breaks and its regions become IDLE. -/
theorem test_stallTimerExpiry : (ran .stallTimerExpiry
    { captures 16 with log := { (captures 16).log with stallTimer := some 4#16 } }).map
      (fun t => (t.log.state, t.log.reason, t.regions[0].state)) = some (.broken, .overflow, .idle) := by decide +kernel

/-- R37: an accepted ATTACH LOG enters PREPARING. -/
theorem test_attachLog : (ran .attachLog (logJob ready (op 8#8 0x80000#32 16#32 0x10009#32 1#32))).map
    (fun t => (t.log.state, t.log.capacity, t.log.policy, t.log.stallLimit)) = some (.preparing, 16, .stall, 9#16) := by decide +kernel

/-- R38: the first VOID write is a line of zeros at the ring's base. -/
theorem test_voidingStart : (ran .voidingStart (logRuns (logIn ready .preparing 0) (.attachDrain 1#32) (op 8#8 0#32 0#32 0#32 1#32))).map
    (fun t => t.arbiter.requests.map (·.access)) = some [writeLine 0x80000#32 0#256] := by decide +kernel

/-- R38: after the last slot the log is ATTACHED with the checkpoint of operand D. -/
theorem test_voidWriteAnswer : (ran (.voidWriteAnswer (.done 0#256))
    (flying (logRuns (logIn ready .preparing 0) (.voiding 9#32 15) (op 8#8 0#32 0#32 0#32 9#32)) .void)).map
      (fun t => (t.log.state, t.log.highest, t.log.nextSeq)) = some (.attached, 9#32, 1#32) := by decide +kernel

/-- R39: the log is UNSET and its CAPTURING region IDLE. -/
theorem test_detachLog : (ran .detachLog (logJob (captures 2) (op 10#8 0#32 0#32 0#32 0#32))).map
    (fun t => (t.log.state, t.log.count, t.regions[0].state)) = some (.unset, 0, .idle) := by decide +kernel

/-- R46: LIST FULL, code 8, with 24 entries. -/
theorem test_mark_full : (ran .mark (logJob { captures 0 with log := { (captures 0).log with
    checkpoints := List.replicate 24 { number := 1#32, firstSlot := 0, firstSequence := 1#32, records := 0 } } }
      (op 11#8 0#32 0#32 0#32 0#32))).map (fun t => t.arbiter.requests.map (·.access.data)) = some [0x8000B#256] := by decide +kernel

/-- R49: the new checkpoint opens at tail. -/
theorem test_markAppend : (ran .markAppend (logRuns (captures 3) .markDrain (op 11#8 0#32 0#32 0#32 0#32))).map
    (fun t => t.log.checkpoints.getLast?) =
    some (some { number := 2#32, firstSlot := 3, firstSequence := 4#32, records := 0 }) := by decide +kernel

/-- A drained MARK of lane 0 beside which a RELEASE of lane 1 was granted that still waits for its step. -/
def markBesideRelease : Chip :=
  let c := logRuns (captures 3) .markDrain (op 11#8 0#32 0#32 0#32 0#32)
  { c with log := { c.log with beside := some 1 } }

/-- R51: the append waits for the RELEASE granted beside the MARK. -/
theorem test_markAppend_beside : (ran .markAppend markBesideRelease).map (fun t => (t.log.checkpoints.length, t.log.running.isSome)) =
    some (1, true) := by decide +kernel

/-- R50: the older entry and its records go. -/
theorem test_release : (ran .release (logJob { captures 3 with log := { (captures 3).log with checkpoints :=
    [{ number := 1#32, firstSlot := 0, firstSequence := 1#32, records := 2 },
     { number := 4#32, firstSlot := 2, firstSequence := 3#32, records := 1 }] } } (op 13#8 4#32 0#32 0#32 0#32))).map
      (fun t => (t.log.head, t.log.count, t.log.checkpoints.length)) = some (2, 1, 1) := by decide +kernel

/-- R54: an 8-byte single for a buffer that is not 32-aligned; STATE 2 first, then REASON, POLICY, 0 and BASE. -/
theorem test_reportLog : (ran .reportLog (logJob (captures 0) (op 14#8 0x7010#32 0#32 0#32 0#32))).map
    (fun t => t.arbiter.requests.map (·.access)) = some [writeSingle 0x7010#32 8 0x0008000000000002#256] := by decide +kernel

/-- R55: REPORT FAULT, code 19, with the bytes answered DONE. -/
theorem test_reportWriteAnswer_fault : (ran (.reportWriteAnswer .fault)
    (flying (logRuns (captures 0) (.reporting { addr := 0x7010#32, snapshot := 0#2048, written := 24 })
      (op 14#8 0x7010#32 0#32 0#32 0#32)) .report)).map (fun t => t.arbiter.requests.map (·.access.data)) =
    some [0x000000180013000E#256] := by decide +kernel

/-- R57, R12: the log is ROLLING and the CAPTURING region RESTORING with RESUME CAPTURING. -/
theorem test_rollback : (ran .rollback (logJob (captures 1) (op 12#8 1#32 0#32 0#32 0#32))).map
    (fun t => (t.log.state, t.regions[0].state, t.regions[0].resume)) = some (.rolling, .restoring, .capturing) := by decide +kernel

/-- A rollback context of checkpoint 1. -/
def context (p : Phase) (w : WalkStep) (applied : Nat) : Rollback :=
  { ready.newRollback 1#32 with phase := p, step := w, applied := applied, span := 2, walkSlot := 1, expected := 2#32 }

/-- R61: the walk begins at the slot before tail. -/
theorem test_rollbackDrainEnd : (ran .rollbackDrainEnd
    (logRuns (logIn ready .rolling 2) (.rolling (context .drain .readHeader 0)) (op 12#8 1#32 0#32 0#32 0#32))).map
      (fun t => t.arbiter.requests.map (·.access)) = some [readLine 0x80060#32] := by decide +kernel

/-- R65: a FAULT ends it RESTORE FAULT and breaks the log. -/
theorem test_restoreAccessAnswer_fault : (ran (.restoreAccessAnswer .fault) (flying (logRuns
    (region (logIn ready .rolling 2) .restoring .capturing) (.rolling (context .restore .readHeader 0))
      (op 12#8 1#32 0#32 0#32 0#32)) .restore)).map
      (fun t => (t.log.state, t.log.reason, t.regions[0].state, t.regions[0].resume)) =
    some (.broken, .restoreFault, .faulted, .idle) := by decide +kernel

/-- R67: the list is trimmed, the regions return, and next sequence has been used up by the MARKER. -/
theorem test_markerWriteAnswer : (ran (.markerWriteAnswer (.done 0#256)) (flying (logRuns
    (region (logIn ready .rolling 2) .restoring .capturing) (.rolling (context .finish .writeSecond 2))
      (op 12#8 1#32 0#32 0#32 0#32)) .marker)).map
      (fun t => (t.log.state, t.log.count, t.log.tail, t.log.nextSeq, t.regions[0].state)) =
    some (.attached, 0, 0, 4#32, .capturing) := by decide +kernel

/-- R79: an accepted ADOPT LOG enters SCANNING. -/
theorem test_adoptLog : (ran .adoptLog (logJob ready (op 9#8 0x80000#32 16#32 0#32 0#32))).map
    (fun t => (t.log.state, t.log.base)) = some (.scanning, 0x80000#32) := by decide +kernel

/-- R81: slot 0 is read first. -/
theorem test_selectPassStart : (ran .selectPassStart
    (logRuns (logIn ready .scanning 0) (.adopting (newScan 0#32)) (op 9#8 0#32 0#32 0#32 0#32))).map
      (fun t => t.arbiter.requests.map (·.access)) = some [readLine 0x80000#32] := by decide +kernel

/-- R89: SCAN FAULT, code 16, with the slot, and the log is UNSET again. -/
theorem test_scanReadAnswer_fault : (ran (.scanReadAnswer .fault) (flying (logRuns (logIn ready .scanning 0)
    (.adopting { newScan 0#32 with slot := 5, started := true }) (op 9#8 0#32 0#32 0#32 0#32)) .scan)).map
      (fun t => (t.log.state, t.arbiter.requests.map (·.access.data))) = some (.unset, [0x0000000500100009#256]) := by decide +kernel

/-- R99, R101: the copy reads the first source line. -/
theorem test_copy : (ran .copy (let c := job ready 1 .wait (op 15#8 0x50010#32 0x60000#32 128#32 0#32)
    { c with copy := { c.copy with waiting := [1] } })).map
      (fun t => (t.copy.state, t.arbiter.requests.map (·.access), t.copy.front.map (·.length))) =
    some (.copying, [readLine 0x50000#32], some 48) := by decide +kernel

/-- R101: after the read a whole destination line is written as a line. -/
theorem test_frontierTransferAnswer : (ran (.frontierTransferAnswer (.done 0xAB#256)) (flying (withFront (copies ready .plain)
    (front [0x50000#32] [piece 0x60000#32] .read)) .frontier)).map (fun t => t.arbiter.requests.map (·.access)) =
    some [writeLine 0x60000#32 0xAB#256] := by decide +kernel

/-- R104: the budget is filled again. -/
theorem test_pacingWindowExpiry : (ran .pacingWindowExpiry { ready with copy := { ready.copy with
    budget := 9#8, windowTimer := true } }).map (·.copy.budgetLeft) = some 9#8 := by decide +kernel

/-- R107: the copy-ahead reads the granule at the write's class. -/
theorem test_copyAheadRequest : (ran .copyAheadRequest (let c := copies ready .consistent
    { c with copy := { c.copy with queue := [ask (.forwardWrite true) (write4 0x50044#32 5#32)] } })).map
      (fun t => (t.copy.ahead.map (·.entry), t.arbiter.requests.map fun r => (r.cls, r.access))) =
    some (some 1, [(.path, readLine 0x50040#32)]) := by decide +kernel

/-- R109: the entry is COPIED, FRONTIER passes it, and the write that waited requests the port. -/
theorem test_copyAheadTransferAnswer : (ran (.copyAheadTransferAnswer (.done 0#256))
    (flying (withAhead (copies ready .consistent) (ahead [] [piece 0x60020#32])) .copyAhead)).map
      (fun t => (t.copy.copied 0, t.copy.frontier, t.arbiter.requests.map (·.owner))) =
    some (true, 64, [.forwardWrite true]) := by decide +kernel

/-- R117: the copy ends CANCELLED, code 12, and the cancelling job DONE, code 1, both with the bytes copied. -/
theorem test_cancelCopy : (ran (.cancelCopy 2) (job (let c := copies ready .plain
    { c with copy := { c.copy with frontier := 64 } }) 2 .run (op 16#8 0#32 0#32 0#32 0#32))).map
      (fun t => (t.lanes.accesses ++ t.arbiter.requests).map fun r => (r.owner, r.access.data)) =
    some [(.laneOutcome 2, 0x00000040_00010010#256), (.laneOutcome 1, 0x00000040_000C000F#256)] := by decide +kernel

/-- R150: a non-zero OUTCOME is DESCRIPTOR STALE with the OUTCOME read. -/
theorem test_descriptorFetchAnswer : (ran (.descriptorFetchAnswer (.done 0x10000#256)) (flying
    ((ring ready 0).setLane 2 { LaneRec.atReset with
      state := .fetch, current := some { addr := jobAt, desc := none, outcome := none, result := 0#32 } }) (.laneFetch 2))).map
      (fun t => ((t.lane 2).state, t.attention.posts.map fun p => (p.record.kind, p.record.outcome))) =
    some (.idle, [(.descriptorStale, 1#16)]) := by decide +kernel

/-- R152: DONE with result 0. -/
theorem test_null : (ran (.null 2) (job ready 2 .run (op 0#8 0#32 0#32 0#32 0#32))).map
    (fun t => t.arbiter.requests.map (·.access)) = some [writeSingle jobAt 8 0x10000#256] := by decide +kernel

/-- Lane 2 has written the outcome of its job, with these FLAGS and NEXT. -/
def finished (c : Chip) (flags : Byte) (next : Word) (o : JobOutcome) : Chip :=
  c.setLane 2 { state := .finish, queue := [], cutPending := false
                current := some { addr := jobAt, desc := some { op 0#8 0#32 0#32 0#32 0#32 with flags := flags, next := next }
                                  outcome := some o, result := 0#32 } }

/-- R156: a DONE job's NEXT is fetched. -/
theorem test_outcomeWriteAnswer : (ran (.outcomeWriteAnswer (.done 0#256))
    (flying (finished ready 0#8 0x2020#32 .done) (.laneOutcome 2))).map
      (fun t => ((t.lane 2).state, t.arbiter.requests.map (·.access))) = some (.fetch, [readLine 0x2020#32]) := by decide +kernel

/-- R148: DONE posts JOB FAILED with the QUEUE FULL code, 11. -/
theorem test_directOutcomeWriteAnswer : (ran (.directOutcomeWriteAnswer (.done 0#256)) (flying
    { ring (atPoint ready (pageWrite (.submit 3) 0x2000#32)) 0 with lanes := { ready.lanes with
      take := some { lane := 3, outcome := .queueFull, owed := [0x2000#32], finishAfter := false } } } (.laneDirect 3))).map
      (fun t => (t.lanes.take.isNone, t.attention.posts.map fun p => (p.record.kind, p.record.outcome, p.record.subject))) =
    some (true, [(.jobFailed, 11#16, 0x2000#32)]) := by decide +kernel

/-- R168: the produce word is written with 0 at page + 0x1C. -/
theorem test_configureAttention : (ran (.configureAttention 2) (job ready 2 .run (op 2#8 0x90000#32 8#32 1#32 0#32))).map
    (fun t => (t.attention.capacity, t.arbiter.requests.map fun r => r.access.addr)) =
    some (8, [0x1001C#32, jobAt]) := by decide +kernel

/-- R171: at capacity − 1 the OVERRUN record, kind 11, is written in the record's place. -/
theorem test_attentionPosting : (ran .attentionPosting { ring ready 7 with
    attention := { (ring ready 7).attention with posts := [listed] } }).map
      (fun t => t.arbiter.requests.map fun r => (r.access.addr, field r.access.data 0 8)) = some [(0x90070#32, 11#8)] := by decide +kernel

/-- R174: a FAULT deconfigures the ring. -/
theorem test_attentionWriteAnswer_fault : (ran (.attentionWriteAnswer .fault) (flying { ring ready 0 with
    attention := { (ring ready 0).attention with posting := some { kind := .record listed, sequence := 1#32, slot := 0, step := .low } } }
      .attention)).map (fun t => (t.path.status, t.attention.configured, t.path.statusOwed)) =
    some (.attentionFault, false, [.attentionFault]) := by decide +kernel

/-- R141: the write is over. -/
theorem test_statusWordWriteAnswer : (ran (.statusWordWriteAnswer .fault)
    (flying { ready with path := { ready.path with statusBusy := true } } .status)).map (·.path.statusBusy) = some false := by
  decide +kernel

/-- The front command runs and leaves the queue; with none waiting the block idles. -/
theorem test_step_takes_front : (match step { chip := ready, pending := [.noRequest, .mark] } with
    | .next t => some t.pending
    | _ => none) = some [.mark] := by decide +kernel

/-! ## The statements' hypotheses are met

One theorem for each statement: a state and operands that meet its hypotheses, and, clause by clause, operands at the ends of
the clause's range. -/

/-- StepRunsFront. -/
theorem test_meets_StepRunsFront : ({ chip := ready, pending := [.noRequest, .mark] } : Machine.State).pending =
    .noRequest :: [.mark] := rfl

/-- A part in another part status. -/
def inStatus (s : PartStatus) : Chip := { ready with path := { ready.path with status := s } }

/-- SoftReset: request code 2, alone and beside address bits; and an idle port while part status is RESETTING. -/
theorem test_meets_SoftReset :
    ((atPoint ready (pageWrite (.submit 0) 2#32)).WordNext (pageWrite (.submit 0) 2#32) (.submit 0) 2#32 [] ∧
      (2#32).toNat % 32 = 2) ∧
    ((atPoint ready (pageWrite (.submit 5) 0xFFFFFFE2#32)).WordNext (pageWrite (.submit 5) 0xFFFFFFE2#32) (.submit 5)
      0xFFFFFFE2#32 [] ∧ (0xFFFFFFE2#32).toNat % 32 = 2) ∧
    (inStatus .resetting).path.status = .resetting ∧ (inStatus .resetting).arbiter.inFlight = none :=
  ⟨⟨word_next _ _ _ rfl, by decide⟩, ⟨word_next _ _ _ rfl, by decide⟩, rfl, rfl⟩

/-- StartUpEnds: with no access upstream, and with one that waits in STARTING. -/
theorem test_meets_StartUpEnds : (flying (inStatus .starting) .startUp).InFlight .startUp ∧
    (∀ u, (flying (inStatus .starting) .startUp).path.upstream = some u → u.wait ≠ .starting) ∧
    (let c := flying (upstream (inStatus .starting) (read4 0#32) .starting) .startUp
     c.InFlight .startUp ∧ ∃ u, c.path.upstream = some u ∧ u.wait = .starting) :=
  ⟨flying_has _ _, (fun _ h => nomatch h), flying_has _ _, _, rfl, rfl⟩

/-- StatusWord: both statuses, after both causes, and the answer. -/
theorem test_meets_StatusWord :
    (∀ x ∈ [(PartStatus.ready, 1#8, ResetCause.pin), (.attentionFault, 2#8, .soft)],
      let c := { ready with path := { ready.path with statusOwed := [x.1], cause := x.2.2 } }
      c.path.statusOwed = [x.1] ++ [] ∧ c.path.statusBusy = false ∧
      (x.1 = .ready ∧ x.2.1 = 1#8 ∨ x.1 = .attentionFault ∧ x.2.1 = 2#8)) ∧
    (flying ready .status).InFlight .status := ⟨by decide +kernel, flying_has _ _⟩

/-- ArrivalClassified: an access and a part in each status, and an access of no shape. -/
theorem test_meets_ArrivalClassified :
    (write4 0x40000#32 1#32).wf = true ∧ (readLine 0xFFFFFFE0#32).wf = true ∧ ready.path.upstream = none ∧
    (∀ s ∈ [PartStatus.starting, .resetting, .ready, .attentionFault], (inStatus s).path.upstream = none ∧
      (inStatus s).path.status = s) ∧ { readLine 0#32 with addr := 16#32 }.wf = false := by decide +kernel

/-- The clauses of R123, which ArrivalClassified and the statements about a wait share: the ends of the control page, of the
guarded granules and of a held region. -/
theorem test_meets_Classified :
    (ready.onPage 0x10000#32 = true ∧ ready.onPage 0x100FF#32 = true ∧ ready.onPage 0xFFFF#32 = false ∧
      ready.onPage 0x10100#32 = false) ∧
    ((captures 0).ringGuard 0x80000#32 = true ∧ (captures 0).ringGuard 0x805FF#32 = true ∧
      (captures 0).ringGuard 0x7FFFF#32 = false ∧ (captures 0).ringGuard 0x80600#32 = false) ∧
    (let c := region ready .restoring .idle
     c.meetsHold (write4 0x40000#32 1#32) ∧ c.meetsHold (write4 0x4003C#32 1#32) ∧ ¬c.meetsHold (write4 0x40040#32 1#32)) := by
  refine ⟨by decide +kernel, by decide +kernel, ?_⟩
  unfold Chip.meetsHold
  decide +kernel

/-- A post queue of `n` entries, POST on. -/
def posted (n : Nat) : Chip := { ready with path := { ready.path with
  post := true, postQueue := List.replicate n { addr := 0#32, shape := .single, mask := 1#32, data := 0#256, accepted := 0 } } }

/-- The clauses of R125: a post queue with its last entry free, and a full one. -/
theorem test_meets_Classified_posting : (posted 3).path.postQueue.length < 4 ∧ 4 ≤ (posted 4).path.postQueue.length ∧
    ready.path.post = false := by decide +kernel

/-- The part with the hold-limit timer running. -/
def timed (c : Chip) : Chip := { c with path := { c.path with holdTimer := some 1#16 } }

/-- HoldLimitExpiry: each wait state, and an ORDERED READ at the forward point. -/
theorem test_meets_HoldLimitExpiry :
    (∀ w ∈ [WaitState.held, .queueFull, .orderedRead], (timed (upstream ready (read4 0#32) w)).path.holdTimer = some 1#16 ∧
      ((timed (upstream ready (read4 0#32) w)).path.upstream.map (·.wait)) = some w ∧
      (timed (upstream ready (read4 0#32) w)).path.forward = none) ∧
    (let c := timed (atPoint (upstream ready (read4 0#32) .orderedRead) (fwd (read4 0#32) false .port []))
     c.path.upstream.map (·.wait) = some .orderedRead ∧ c.path.forward.map (·.access.write) = some false) := by decide +kernel

/-- ForwardRead: outside a RESTORING region, and in one under both settings of RESTORE RESPONSE. -/
theorem test_meets_ForwardRead :
    (∀ c ∈ [upstream ready (read4 0x40000#32) .orderedRead, upstream (region ready .restoring .idle) (read4 0x40000#32) .orderedRead],
      c.path.forward = none ∧ c.path.postQueue = [] ∧ c.path.upstream.map (·.wait) = some .orderedRead) ∧
    ready.holdApplies 0x40000#32 = false ∧ (region ready .restoring .idle).holdApplies 0x4003F#32 = true ∧
    ready.path.restoreResponse = .hold ∧
    { region ready .restoring .idle with path := { ready.path with restoreResponse := .retry } }.path.restoreResponse = .retry := by
  decide +kernel

/-- ForwardWrite: the oldest write is posted, or ordered; the barrier stops it from its own place on, and not before; its granule is
CAPTURING, or untracked. -/
theorem test_meets_ForwardWrite :
    (posted 1).OldestWrite { write := true, shape := .single, addr := 0#32, mask := 1#32, data := 0#256 } 0 true ∧
    (upstream (captures 0) (write4 0x40000#32 1#32) .orderedWrite).OldestWrite (write4 0x40000#32 1#32) 0 false ∧
    (∃ b, { posted 1 with path := { (posted 1).path with barrier := some 0 } }.path.barrier = some b ∧ b ≤ 0) ∧
    (∀ b, { posted 1 with path := { (posted 1).path with barrier := some 1 } }.path.barrier = some b → 0 < b) ∧
    (∃ r, (captures 0).lookup 0x40000#32 = some (0, r) ∧ (captures 0).captureApplies r = true) ∧
    (∀ k r, (captures 0).lookup 0x40040#32 = some (k, r) → (captures 0).captureApplies r = false) := by
  refine ⟨.inl ⟨rfl, _, _, rfl, rfl, rfl⟩, .inr ⟨rfl, rfl, _, rfl, rfl, rfl, rfl⟩, ⟨0, rfl, le_refl _⟩, ?_, ⟨_, rfl, rfl⟩, ?_⟩
  · intro b h; cases h; decide
  · intro k r h
    have e : (captures 0).lookup 0x40040#32 = none := by decide +kernel
    rw [e] at h; cases h

/-- A MAILBOX FAULT record that takes a source's room. -/
def taken (c : Chip) (s : Source) : Chip :=
  { c with attention := { c.attention with posts := [{ source := s, record := mailboxRecord 0xFF#8 0#32 }] } }

/-- PostedWriteAnswer: unconfigured, with the Path Controller's room free, and with it taken. -/
theorem test_meets_PostedWriteAnswer :
    (∀ c ∈ [ready, ring ready 0, taken (ring ready 0) .path],
      (flying (atPoint c (hostWrite .port)) (.forwardWrite true)).path.forward = some (hostWrite .port)) ∧
    (flying (atPoint ready (hostWrite .port)) (.forwardWrite true)).InFlight (.forwardWrite true) ∧
    (hostWrite .port).posted = true ∧ ready.attention.configured = false ∧ (ring ready 0).attention.configured = true ∧
    (ring ready 0).attention.roomTaken .path = false ∧ (taken (ring ready 0) .path).attention.roomTaken .path = true :=
  ⟨by decide +kernel, flying_has _ _, rfl, rfl, rfl, rfl, rfl⟩

/-- OrderedAnswers: a read; a write off the control page, and one on it. -/
theorem test_meets_OrderedAnswers : (flying ready .forwardRead).InFlight .forwardRead ∧
    (∀ a ∈ [write4 0x100#32 1#32, write4 0x10000#32 1#32],
      (flying (atPoint ready (fwd a false .port [])) (.forwardWrite false)).path.forward = some (fwd a false .port [])) ∧
    (flying (atPoint ready (fwd (write4 0x100#32 1#32) false .port [])) (.forwardWrite false)).InFlight (.forwardWrite false) ∧
    ready.onPage 0x100#32 = false ∧ ready.onPage 0x10000#32 = true :=
  ⟨flying_has _ _, by decide +kernel, flying_has _ _, by decide +kernel, by decide +kernel⟩

/-- The words examined: none, one covered in part, two of them; the room of the Path Controller free or taken. -/
theorem test_meets_WordsExamined :
    pageWords 0x10000#32 (write4 0x10020#32 1#32) = [] ∧
    (pageWords 0x10000#32 { write4 0x10000#32 1#32 with mask := 0x3#32 }).map (·.full) = [false] ∧
    (pageWords 0x10000#32 { write4 0x10002#32 1#32 with mask := 0x3C#32 }).map (·.full) = [false, false] ∧
    (pageWords 0x10000#32 { write4 0x10002#32 1#32 with mask := 0xFC#32 }).map (·.full) = [false, true] := by decide +kernel

/-- ConfigurePath: the last good values of A and B, and the first bad ones. -/
theorem test_meets_ConfigurePath : (∀ d, (job ready 0 .run d).HasJob 0 .run jobAt d) ∧
    (3#32).toNat < 4 ∧ (0xFFFF#32).toNat ≤ 65535 ∧ 4 ≤ (4#32).toNat ∧ 65535 < (0x10000#32).toNat :=
  ⟨job_has _ _ _, by decide⟩

/-- Submit: address 0; a full queue; a queue with its last place free; a busy lane and an IDLE one. -/
theorem test_meets_Submit :
    (∀ v, (atPoint ready (pageWrite (.submit 0) v)).WordNext (pageWrite (.submit 0) v) (.submit 0) v []) ∧
    (0#32).toNat % 32 = 0 ∧ (0xFFFFFFE0#32).toNat % 32 = 0 ∧
    (let c := fun n => ready.setLane 0 { LaneRec.atReset with state := .fetch, queue := List.replicate n 0x2000#32 }
     6 ≤ ((c 6).lane 0).queue.length ∧ ((c 5).lane 0).queue.length < 6 ∧ ((c 5).lane 0).state ≠ .idle) ∧
    (ready.lane 0).state = .idle := ⟨fun _ => word_next _ _ _ rfl, by decide +kernel⟩

/-- Flush: entries to cancel; none; none, and a job that waits. -/
theorem test_meets_Flush :
    (atPoint ready (pageWrite (.submit 0) 1#32)).WordNext (pageWrite (.submit 0) 1#32) (.submit 0) 1#32 [] ∧
    (1#32).toNat % 32 = 1 ∧ ((ready.setLane 0 { LaneRec.atReset with queue := [0x2000#32] }).lane 0).queue = [0x2000#32] ∧
    (ready.lane 0).queue = [] ∧ (ready.lane 0).state ≠ .wait ∧
    (let d := op 11#8 0#32 0#32 0#32 0#32
     ((logJob ready d).lane 0).queue = [] ∧ (logJob ready d).HasJob 0 .wait jobAt d) :=
  ⟨word_next _ _ _ rfl, by decide, by decide +kernel, by decide +kernel, by decide +kernel, by decide +kernel, job_has _ _ _ _⟩

/-- NoRequest: the first and the last code that is no request; for the record's clauses the room of the lane is free or taken. -/
theorem test_meets_NoRequest :
    (∀ v, (atPoint ready (pageWrite (.submit 0) v)).WordNext (pageWrite (.submit 0) v) (.submit 0) v []) ∧
    3 ≤ (3#32).toNat % 32 ∧ 3 ≤ (31#32).toNat % 32 ∧ (ring ready 0).attention.roomTaken (.lane 0) = false ∧
    (taken (ring ready 0) (.lane 0)).attention.roomTaken (.lane 0) = true := ⟨fun _ => word_next _ _ _ rfl, by decide +kernel⟩

/-- ConsumeWord: with 2 records not consumed, the indices 0 to 2 are valid and 3 and 65,535 are not. -/
theorem test_meets_ConsumeWord :
    (∀ v, (atPoint (ring ready 2) (pageWrite .consume v)).WordNext (pageWrite .consume v) .consume v []) ∧
    (ring ready 2).attention.configured = true ∧ ready.attention.configured = false ∧
    (let valid := fun c : Half => ((ring ready 2).attention.produce - c).toNat ≤ (ring ready 2).attention.occupancy
     valid 0#16 ∧ valid 2#16 ∧ ¬valid 3#16 ∧ ¬valid 0xFFFF#16) ∧
    (ring ready 2).attention.roomTaken .attention = false ∧
    (taken (ring ready 2) .attention).attention.roomTaken .attention = true := ⟨fun _ => word_next _ _ _ rfl, by decide +kernel⟩

/-- The part with these requests for the port. -/
def asking (c : Chip) (rs : List PortRequest) : Chip := { c with arbiter := { c.arbiter with requests := rs } }

/-- The part during an adopt scan, with these requests for the port. -/
def stopping (c : Chip) (rs : List PortRequest) : Chip := asking (logIn c .scanning 0) rs

/-- PortGrant: each owner whose grant the statement tells of; a granule of the ring and the next one. -/
theorem test_meets_PortGrant :
    (∀ o ∈ [Owner.status, .forwardRead, .forwardWrite true, .forwardWrite false, .capture, .frontier, .copyAhead],
      let c := asking (atPoint ready (hostWrite .port)) [ask o (readLine 0#32)]
      c.arbiter.inFlight = none ∧ c.path.status ≠ .resetting ∧ c.arbiter.requests ≠ [] ∧
      (∀ q ∈ c.arbiter.requests, q.owner = .startUp ∨ q.owner = .status → q.cls = .path) ∧
      c.path.forward.map (fun f => c.onPage f.access.addr) = some false) ∧
    (atPoint ready (pageWrite .consume 0#32)).path.forward.map (fun f => ready.onPage f.access.addr) = some true ∧
    (∀ o ∈ [Owner.frontier, .copyAhead, .laneOutcome 0, .laneDirect 0], ∀ stale ∈ [true, false],
      let c := stopping ready [{ ask o (write4 0x805C0#32 1#32) with stale := stale }]
      c.arbiter.inFlight = none ∧ c.path.status ≠ .resetting ∧ c.arbiter.requests ≠ [] ∧ c.ringGuard 0x805C0#32 = true ∧
      c.ringGuard 0x80600#32 = false ∧ c.copy.ahead = none ∧ (withAhead c (ahead [] [])).copy.ahead ≠ none) := by
  decide +kernel

/-- R36, R91: a destination write that ADOPT LOG's ring has reached is not issued, and the copy ends DEST FAULT. -/
theorem test_memoryPortGrant_ring_copy :
    (ran .memoryPortGrant (stopping (withFront (copies ready .plain) (front [] [piece 0x80000#32] .port))
      [ask .frontier (write4 0x80000#32 1#32)])).map
      (fun t => (t.arbiter.inFlight, t.copy.state, (t.lane 1).current.bind (·.outcome))) =
    some (none, .idle, some .destFault) := by decide +kernel

/-- R154: nor is a lane's write, which counts as answered FAULT. -/
theorem test_memoryPortGrant_ring_lane :
    (ran .memoryPortGrant (stopping ready [ask (.laneOutcome 2) (write4 0x80000#32 1#32)])).map
      (fun t => (t.arbiter.inFlight, t.lanes.refused)) = some (none, some (ask (.laneOutcome 2) (write4 0x80000#32 1#32))) := by
  decide +kernel

/-- RetryRule: counts 15 and 16, a stale owner and one that is not, a soft reset, and an ORDERED access. -/
theorem test_meets_RetryRule :
    (∃ r, (flying ready .capture).arbiter.inFlight = some r ∧
      r.owner.finalAnswer .fault = some (.captureTransferAnswer .fault) ∧ r.stale = false) ∧
    (Owner.forwardWrite false).finalAnswer .fault = none ∧ Owner.forwardRead.finalAnswer .fault = none ∧
    (inStatus .resetting).path.status = .resetting ∧ ready.path.status ≠ .resetting ∧
    (∀ n ∈ [15, 16], { flying ready .capture with arbiter := { ready.arbiter with retryCount := n } }.arbiter.retryCount = n) ∧
    ∀ f, ready.path.forward = some f → f.posted = true :=
  ⟨⟨_, rfl, rfl, rfl⟩, rfl, rfl, rfl, by decide, by decide, fun _ h => nomatch h⟩

/-- DefineRegion: each check at the end of its range, and a region, a page, a log ring and an attention ring that the new one meets. -/
theorem test_meets_DefineRegion : (∀ d, (job ready 0 .run d).HasJob 0 .run jobAt d) ∧
    15 < (16#32).toNat ∧ (15#32).toNat = (15 : Fin 16).val ∧ (region ready .idle .idle).regions[0].state ≠ .free ∧
    ready.regions[0].state = .free ∧ (0x40020#32).toNat % 64 ≠ 0 ∧ (0xFFFFFFC0#32).toNat % 64 = 0 ∧
    (262144 < (0x40001#32).toNat ∧ 0xFFFFFFFF < (0xFFFFFFC0#32).toNat + 64 * (2#32).toNat - 1) ∧
    ((0x40000#32).toNat ≤ 262144 ∧ (0xFFFFFFC0#32).toNat + 64 * (1#32).toNat - 1 ≤ 0xFFFFFFFF) ∧
    ((region ready .faulted .idle).regionOverlaps 0x40000 64 = true ∧ (region ready .idle .idle).regionOverlaps 0x40040 64 = false) ∧
    (ready.pageOverlaps 0x100C0 64 = true ∧ ready.pageOverlaps 0x10100 64 = false) ∧
    ((captures 0).logRingOverlaps 0x805C0 64 = true ∧ (captures 0).logRingOverlaps 0x80600 64 = false) ∧
    ((ring ready 0).attnRingOverlaps 0x90040 64 = true ∧ (ring ready 0).attnRingOverlaps 0x90080 64 = false) :=
  ⟨job_has _ _ _, by decide +kernel⟩

/-- StartStopCapture, ClearFault and DeleteRegion: an entry in each state, the log in each state asked about, and its records. -/
theorem test_meets_region_jobs : (∀ d, (job ready 0 .run d).HasJob 0 .run jobAt d) ∧
    15 < (16#32).toNat ∧ (0#32).toNat = (0 : Fin 16).val ∧
    (∀ s ∈ [RegionState.free, .idle, .capturing, .restoring, .faulted], (region ready s .idle).regions[0].state = s) ∧
    (captures 0).log.state = .attached ∧ (captures 0).log.count = 0 ∧ 0 < (captures 1).log.count ∧ ready.log.state ≠ .attached ∧
    overlaps (region ready .faulted .idle).regions[0].base.toNat (64 * (region ready .faulted .idle).regions[0].length) 0x4003F 1 =
      true := ⟨job_has _ _ _, by decide +kernel⟩

/-! ### Captures -/

/-- The log with these capture requests. -/
def requests (c : Chip) (rs : List CaptureRequest) : Chip := { c with log := { c.log with requests := rs } }

/-- A rollback of checkpoint 1 runs, in this phase. -/
def rolls (c : Chip) (p : Phase) (w : WalkStep) (applied : Nat) : Chip :=
  logRuns c (.rolling (context p w applied)) (op 12#8 1#32 0#32 0#32 0#32)

/-- CaptureRequestTaken: a request that is alone, and one behind requests that wait for space. -/
theorem test_meets_CaptureRequestTaken :
    (let c := requests (captures 0) [capReq .host false]
     c.log.capture = none ∧ c.log.requests = [] ++ capReq .host false :: [] ∧ (capReq .host false).stalled = false) ∧
    (let c := requests (captures 16) [capReq .frontier true, capReq .host false]
     c.log.capture = none ∧ c.log.requests = [capReq .frontier true] ++ capReq .host false :: [] ∧
     ∀ q ∈ [capReq .frontier true], q.stalled = true) := by decide +kernel

/-- CaptureRequestTaken's clauses: the log not taking; the granule in the table; the last free slot and no free slot, under BREAK and
under STALL; the last SEQUENCE and none left; DRAIN. -/
theorem test_meets_CaptureRequestTaken_clauses :
    (ready.log.state ≠ .attached ∧ ready.log.draining = false) ∧ (captures 0).log.state = .attached ∧
    (0x40000#32 ∈ { (captures 0).log with table := [0x40000#32] }.table ∧ 0x40000#32 ∉ (captures 0).log.table) ∧
    ((captures 15).log.count ≠ (captures 15).log.capacity ∧ (captures 16).log.count = (captures 16).log.capacity) ∧
    (captures 0xFFFFFFFD).log.nextSeq ≠ 0xFFFFFFFF#32 ∧ (captures 0xFFFFFFFE).log.nextSeq = 0xFFFFFFFF#32 ∧
    (captures 16).log.policy = .break ∧ { (captures 16).log with policy := .stall }.policy = .stall ∧
    (rolls (logIn ready .rolling 16) .drain .readHeader 0).log.draining = true ∧
    (rolls (logIn ready .rolling 16) .drain .readHeader 0).log.state = .rolling ∧
    (rolls (region (logIn ready .rolling 16) .restoring .capturing) .drain .readHeader 0).regions[0].state = .restoring := by
  decide +kernel

/-- PortGrant and CaptureRequestTaken: a rollback in DRAIN, of lane 0, and one that waits for the Copy Engine's writes. -/
theorem test_meets_drain :
    (let c := rolls (logIn ready .rolling 16) .drain .readHeader 0
     c.log.running = some { lane := 0, stage := .rolling (context .drain .readHeader 0) } ∧
     c.HasJob 0 .run jobAt (op 12#8 1#32 0#32 0#32 0#32) ∧ c.log.draining = true) ∧
    (let k := { context .drain .readHeader 0 with drainFrontier := true, drainAhead := true }
     let c := logRuns (logIn ready .rolling 2) (.rolling k) (op 12#8 1#32 0#32 0#32 0#32)
     c.log.running = some { lane := 0, stage := .rolling k } ∧
     (asking c [ask .frontier (write4 0x60000#32 1#32)]).arbiter.requests = [ask .frontier (write4 0x60000#32 1#32)] ∧
     (write4 0x60000#32 1#32).write = true ∧ { ask .frontier (write4 0x60000#32 1#32) with stale := true }.stale = true ∧ ∀ l k, ready.log.running ≠ some { lane := l, stage := .rolling k }) :=
  ⟨⟨rfl, job_has _ _ _ _, rfl⟩, rfl, rfl, rfl, rfl, fun _ _ h => nomatch h⟩

/-- A requester's write for a go: at the forward point, of the frontier, of the copy-ahead. One that an ended copy has left holds its
own. -/
theorem test_meets_GoAnswered :
    (atPoint ready (hostWrite .capture)).path.forward = some (hostWrite .capture) ∧
    (withFront (copies ready .plain) (front [] [piece 0x60000#32] .capture)).copy.front.map (·.writes) = some [piece 0x60000#32] ∧
    (withAhead (copies ready .consistent) (ahead [] [piece 0x60000#32])).copy.ahead.map (·.writes) = some [piece 0x60000#32] := by
  decide +kernel

/-- CaptureTransferAnswer: each step, and the header write of a log whose table has its last place free or none. -/
theorem test_meets_CaptureTransferAnswer :
    (∀ s ∈ [CaptureStep.readFirst, .readSecond, .writeFirst, .writeSecond, .writeHeader],
      let c := flying { captures 0 with log := { (captures 0).log with capture := some (capture s) } } .capture
      c.log.capture = some (capture s) ∧ (capture s).step = s ∧ (capture s).answer = true ∧ c.log.state = .attached ∧
      c.log.checkpoints = [] ++ [{ number := 1#32, firstSlot := 0, firstSequence := 1#32, records := 0 }] ∧
      c.copy.notCopied 0x80000#32 = none) ∧
    (flying (captures 0) .capture).InFlight .capture ∧ (List.replicate 1023 0#32 : List Word).length < 1024 ∧
    ¬(List.replicate 1024 0#32 : List Word).length < 1024 := by
  refine ⟨by decide +kernel, flying_has _ _, ?_, ?_⟩ <;> rw [List.length_replicate] <;> decide

/-- A capture at a step, with a copy of the ring whose copy-ahead waits for a capture of its own. -/
def ringCopied (s : CaptureStep) : Chip :=
  let c := requests (withAhead (copies (captures 0) .consistent) { ahead [] [piece 0x40000#32] with waitsCap := true })
    [capReq .copyAhead false]
  flying { c with copy := { c.copy with source := 0x80000#32 }, log := { c.log with capture := some (capture s) } } .capture

/-- R111: a record write that needs a copy-ahead then ends that copy, whose request is withdrawn, and requests the port behind the
write that the copy-ahead held. -/
theorem test_captureTransferAnswer_ring_copied :
    (ran (.captureTransferAnswer (.done 0#256)) (ringCopied .writeFirst)).map
      (fun t => (t.copy.state, (t.lane 1).current.bind (·.outcome), t.log.requests, t.arbiter.requests.map (·.owner))) =
    some (.idle, some .destFault, [], [.forwardWrite true, .laneOutcome 1, .capture]) := by decide +kernel

/-- R108: the image read for a host write is kept for its copy-ahead, the second line above the first. -/
theorem test_captureTransferAnswer_image :
    (ran (.captureTransferAnswer (.done 7#256))
      (flying (atPoint { captures 0 with log := { (captures 0).log with capture := some { capture .readSecond with first := 3#256 } } }
        (hostWrite .capture)) .capture)).map (fun t => t.path.forward.map (·.image)) = some (some (.held (7#256 ++ 3#256))) := by
  decide +kernel

/-- R105, R108: an image whose first line was read before a COPY was accepted is not kept for it. -/
theorem test_captureTransferAnswer_unshared :
    (ran (.captureTransferAnswer (.done 7#256))
      (flying (atPoint { captures 0 with log := { (captures 0).log with capture := some { capture .readSecond with first := 3#256 } } }
        { hostWrite .capture with image := .unshared }) .capture)).map (fun t => t.path.forward.map (·.image)) =
    some (some .unshared) := by decide +kernel

/-- CaptureTransferAnswer with the log in DRAIN and in neither state that takes records; a request withdrawn; a log with a request that
waits for space and without; a read that a copy-ahead shares and one that it does not. -/
theorem test_meets_CaptureTransferAnswer_clauses :
    (let c := rolls (region (logIn ready .rolling 3) .restoring .capturing) .drain .readHeader 0
     let d := flying { c with log := { c.log with capture := some (capture .writeHeader) } } .capture
     d.InFlight .capture ∧ d.log.capture = some (capture .writeHeader) ∧ d.log.draining = true ∧ d.log.state = .rolling ∧
     d.log.running = some { lane := 0, stage := .rolling (context .drain .readHeader 0) } ∧
     d.HasJob 0 .run jobAt (op 12#8 1#32 0#32 0#32 0#32) ∧
     d.log.checkpoints = [] ++ [{ number := 1#32, firstSlot := 0, firstSequence := 1#32, records := 3 }]) ∧
    ((logIn ready .broken 3).log.state ≠ .attached ∧ (logIn ready .broken 3).log.draining = false) ∧
    { capture .readFirst with answer := false }.answer = false ∧
    (∀ q ∈ (captures 0).log.requests, q.stalled = false) ∧
    (let c := { copies ready .consistent with log := { ready.log with
       capture := some { capture .readSecond with request := { capReq .host false with granule := 0x50040#32 } } } }
     c.copy.notCopied 0x50040#32 ≠ none ∧ c.copy.notCopied 0x50080#32 = none ∧ c.copy.ahead = none ∧
     (withAhead c (ahead [] [])).copy.ahead ≠ none ∧
     (hostWrite .capture).image ≠ .unshared ∧ { hostWrite .capture with image := .unshared }.image = .unshared) :=
  ⟨⟨flying_has _ _, rfl, rfl, rfl, rfl, job_has _ _ _ _, rfl⟩, by decide +kernel⟩

/-- CaptureTransferAnswer: an image that is kept and one that is not, and each record write that meets the copy of the ring. -/
theorem test_meets_CaptureTransferAnswer_records :
    (capture .readSecond).request.requester = .host ∧ (capReq .frontier false).requester ≠ .host ∧
    (atPoint ready (hostWrite .capture)).path.forward = some (hostWrite .capture) ∧
    (ringCopied .writeFirst).copy.ahead.map (·.waitsCap) = some true ∧
    (ringCopied .readSecond).copy.notCopied 0x80020#32 ≠ none ∧ (ringCopied .writeFirst).copy.notCopied 0x80040#32 ≠ none ∧
    (ringCopied .writeSecond).copy.notCopied 0x80000#32 ≠ none := by decide +kernel

/-- StallTimerExpiry, with one request that waits, and with the timer stopped. -/
theorem test_meets_StallTimerExpiry :
    (let c := { requests (captures 16) [capReq .host true] with log := { (requests (captures 16) [capReq .host true]).log with
        stallTimer := some 4#16 } }
     c.log.state = .attached ∧ c.log.stallTimer = some 4#16 ∧ c.log.requests = [capReq .host true]) ∧
    (captures 16).log.stallTimer = none := by decide +kernel

/-! ### Log jobs -/

/-- The part with a capture in progress. -/
def capturing (c : Chip) : Chip := { c with log := { c.log with capture := some (capture .readFirst) } }

/-- A log job whose grant is due, between captures and beside one; one that was granted and whose step is due; and one whose step waits
for a capture. -/
theorem test_meets_LogJobDue (d : Descriptor) : (logJob ready d).LogJobDue 0 jobAt d [] ∧ (logJob ready d).log.capture = none ∧
    (capturing (logJob ready d)).LogJobDue 0 jobAt d [] ∧ (capturing (logJob ready d)).log.capture ≠ none ∧
    (logRuns ready .granted d).LogJobDue 0 jobAt d [] ∧
    (capturing (logRuns ready .granted d)).log.running = some { lane := 0, stage := .granted } ∧
    (capturing (logRuns ready .granted d)).log.capture ≠ none :=
  ⟨.inl (grant_due _ _ rfl rfl), rfl, .inl ⟨rfl, rfl, rfl, job_has _ _ _ _⟩, nofun, .inr ⟨rfl, rfl, job_has _ _ _ _, rfl⟩, rfl, nofun⟩

/-- AttachLog and AdoptLog: each check at the end of its range, for a ring at the top of the address space and one past it. -/
theorem test_meets_AttachLog_AdoptLog :
    (captures 0).log.state ≠ .unset ∧ ready.log.state = .unset ∧ (0x80010#32).toNat % 32 ≠ 0 ∧ (0x80020#32).toNat % 32 = 0 ∧
    ((15#32).toNat < 16 ∧ 65535 < (0x10000#32).toNat ∧ 1 < (0x20000#32).toNat / 65536 % 256 ∧
      0xFFFFFFFF < (0xFFFFFA20#32).toNat + 96 * (16#32).toNat - 1) ∧
    ¬((16#32).toNat < 16 ∨ 65535 < (0xFFFF#32).toNat ∨ 1 < (0x1FFFF#32).toNat / 65536 % 256 ∨ 1#32 = 0#32 ∨
      0xFFFFFFFE#32 = 0xFFFFFFFF#32 ∨ 0xFFFFFFFF < (0xFFFFFA00#32).toNat + 96 * (16#32).toNat - 1) ∧
    ((region ready .idle .idle).regionOverlaps 0x3FA40 1536 = true ∧ (region ready .idle .idle).regionOverlaps 0x3FA00 1536 = false) := by
  decide +kernel

/-- AttachLog and AdoptLog: a ring that meets the control page, and one that meets nothing. -/
theorem test_meets_RingMeets : ready.RingMeets (op 8#8 0x10000#32 16#32 0#32 1#32) ∧
    ¬ready.RingMeets (op 8#8 0x10100#32 16#32 0#32 1#32) := by
  unfold Chip.RingMeets
  decide +kernel

/-- DrainedScansBegin: drained, and not yet. -/
theorem test_meets_DrainedScansBegin :
    (let c := logRuns (logIn ready .preparing 0) (.attachDrain 1#32) (op 8#8 0#32 0#32 0#32 1#32)
     c.log.running = some { lane := 0, stage := .attachDrain 1#32 } ∧ c.log.state = .preparing ∧ c.path.watches.attach = none) ∧
    (let c := logRuns (logIn ready .scanning 0) (.adopting (newScan 0#32)) (op 9#8 0#32 0#32 0#32 0#32)
     c.log.running = some { lane := 0, stage := .adopting (newScan 0#32) } ∧ c.log.state = .scanning ∧
     (newScan 0#32).started = false ∧ c.path.watches.adopt = none) ∧
    { DrainWatches.none with attach := some 0 }.attach ≠ none ∧ { DrainWatches.none with adopt := some 0 }.adopt ≠ none := by
  decide +kernel

/-- VoidWriteAnswer: the last slot but one, and the last. -/
theorem test_meets_VoidWriteAnswer : ∀ n ∈ [14, 15],
    let c := flying (logRuns (logIn ready .preparing 0) (.voiding 1#32 n) (op 8#8 0#32 0#32 0#32 1#32)) .void
    c.InFlight .void ∧ c.log.running = some { lane := 0, stage := .voiding 1#32 n } ∧ c.log.state = .preparing ∧
    c.HasJob 0 .run jobAt (op 8#8 0#32 0#32 0#32 1#32) ∧ (n = 14 → n + 1 < c.log.capacity) ∧ (n = 15 → c.log.capacity ≤ n + 1) := by
  intro n hn
  refine ⟨flying_has _ _, rfl, rfl, job_has _ _ _ _, ?_, ?_⟩ <;> (intro h; subst h; decide)

/-- DetachLog: ATTACHED, BROKEN and another state, with no capture request and with one. -/
theorem test_meets_DetachLog :
    (∀ s ∈ [LogStatus.attached, .broken], (logIn ready s 0).log.state = .attached ∨ (logIn ready s 0).log.state = .broken) ∧
    ready.log.state ≠ .attached ∧ ready.log.state ≠ .broken ∧ (captures 0).log.requests = [] ∧
    (requests (captures 0) [capReq .host true]).log.requests = [capReq .host true] := by decide +kernel

/-- A log with `n` checkpoints. -/
def entries (n : Nat) : Chip := { captures 0 with log := { (captures 0).log with
  checkpoints := List.replicate n { number := 1#32, firstSlot := 0, firstSequence := 1#32, records := 0 } } }

/-- MarkAccepted: no ATTACHED log; 23 and 24 entries; the last number, and none left. -/
theorem test_meets_MarkAccepted :
    (let c := logJob ready (op 11#8 0#32 0#32 0#32 0#32)
     c.log.running = none ∧ c.log.beside = none ∧ c.log.waiting = [0] ∧ c.HasJob 0 .wait jobAt (op 11#8 0#32 0#32 0#32 0#32)) ∧
    ready.log.state ≠ .attached ∧ (entries 23).log.state = .attached ∧
    24 ≤ (entries 24).log.checkpoints.length ∧ (entries 23).log.checkpoints.length < 24 ∧
    { (entries 23).log with highest := 0xFFFFFFFF#32 }.highest = 0xFFFFFFFF#32 ∧
    { (entries 23).log with highest := 0xFFFFFFFE#32 }.highest ≠ 0xFFFFFFFF#32 :=
  ⟨⟨rfl, rfl, rfl, job_has _ _ _ _⟩, by decide +kernel⟩

/-- MarkAppend: drained, or with its watch, a capture or a RELEASE still open, of an ATTACHED log and of one that has broken. -/
theorem test_meets_MarkAppend :
    (∀ s ∈ [LogStatus.attached, .broken],
      let c := logRuns (logIn ready s 1) .markDrain (op 11#8 0#32 0#32 0#32 0#32)
      c.log.running = some { lane := 0, stage := .markDrain } ∧ c.log.state = s ∧ c.path.watches.mark = none ∧ c.log.capture = none ∧
      c.log.beside = none) ∧
    (logRuns (captures 1) .markDrain (op 11#8 0#32 0#32 0#32 0#32)).HasJob 0 .run jobAt (op 11#8 0#32 0#32 0#32 0#32) ∧
    { DrainWatches.none with mark := some 0 }.mark ≠ none ∧ some (capture .readFirst) ≠ none ∧
    markBesideRelease.log.beside ≠ none :=
  ⟨by decide +kernel, job_has _ _ _ _, by decide, by decide, by decide⟩

/-- ReleaseJob in its turn: no ATTACHED log; an unknown number; the oldest entry and a later one; a request that waits for space. -/
theorem test_meets_ReleaseJob :
    (logJob (captures 3) (op 13#8 1#32 0#32 0#32 0#32)).LogJobDue 0 jobAt (op 13#8 1#32 0#32 0#32 0#32) [] ∧
    (captures 3).log.state = .attached ∧ (captures 3).log.beside = none ∧ ready.log.state ≠ .attached ∧
    (∀ e ∈ (captures 3).log.checkpoints, e.number ≠ 9#32) ∧
    (captures 3).log.checkpoints = [] ++ { number := 1#32, firstSlot := 0, firstSequence := 1#32, records := 3 } :: [] ∧
    (∀ q ∈ (captures 3).log.requests, q.stalled = false) ∧
    (requests (captures 3) [capReq .host true]).log.requests = capReq .host true :: [] ∧ (capReq .host true).stalled = true ∧
    (captures 3).log.nextSeq ≠ 0xFFFFFFFF#32 ∧ (captures 3).log.count ≠ (captures 3).log.capacity ∧
    0x40000#32 ∉ (captures 3).log.table ∧
    (capturing (captures 3)).log.capture ≠ none ∧ (captures 3).log.capture = none ∧
    (∃ e ∈ (captures 3).log.checkpoints, e.number = 1#32) := ⟨.inl (grant_due _ _ rfl rfl), by decide +kernel⟩

/-- A MARK of lane 1 that drains while a stall lasts, with a RELEASE of lane 0 and, before it, another job that waits. -/
def stalledMark : Chip :=
  let c := job (job (requests (captures 16) [capReq .host true]) 0 .wait (op 13#8 1#32 0#32 0#32 0#32))
    2 .wait (op 14#8 0#32 0#32 0#32 0#32)
  { c with
    log := { c.log with running := some { lane := 1, stage := .markDrain }, waiting := [2, 0] }
    path := { c.path with watches := { c.path.watches with mark := some 0 } } }

/-- ReleaseJob beside a draining MARK. -/
theorem test_meets_ReleaseJob_beside :
    stalledMark.log.running = some { lane := 1, stage := .markDrain } ∧ stalledMark.path.watches.mark ≠ none ∧
    stalledMark.log.stalled = true ∧ stalledMark.log.capture = none ∧ stalledMark.log.beside = none ∧
    stalledMark.log.waiting = [2] ++ 0 :: [] ∧ (0 : Lane) ∉ ([2] : List Lane) ∧
    (∀ k ∈ ([2] : List Lane), ∀ a e, stalledMark.HasJob k .wait a e → e.code ≠ 13#8) ∧
    stalledMark.HasJob 0 .wait jobAt (op 13#8 1#32 0#32 0#32 0#32) := by
  refine ⟨rfl, by decide, rfl, rfl, rfl, rfl, by decide, ?_, by decide +kernel, none, 0#32, by decide +kernel⟩
  intro k hk a e h
  obtain ⟨_, o, r, hc⟩ := h
  rw [List.mem_singleton] at hk
  subst hk
  have hj : (stalledMark.lane 2).current =
      some { addr := jobAt, desc := some (op 14#8 0#32 0#32 0#32 0#32), outcome := none, result := 0#32 } := by decide +kernel
  rw [hj] at hc
  cases hc
  decide

/-- ReleaseJob granted beside a MARK: its step due, and waiting for a capture. -/
theorem test_meets_ReleaseJob_granted :
    (let c := job { captures 3 with log := { (captures 3).log with
       running := some { lane := 1, stage := .markDrain }, beside := some 0 } } 0 .run (op 13#8 1#32 0#32 0#32 0#32)
     c.log.beside = some 0 ∧ c.HasJob 0 .run jobAt (op 13#8 1#32 0#32 0#32 0#32) ∧ c.log.capture = none ∧
     (capturing c).log.beside = some 0 ∧ (capturing c).HasJob 0 .run jobAt (op 13#8 1#32 0#32 0#32 0#32) ∧
     (capturing c).log.capture ≠ none) :=
  ⟨rfl, job_has _ _ _ _, rfl, rfl, job_has _ _ _ _, nofun⟩

/-- ReportLog: a state in which it runs and one in which it does not; a buffer that is not 16-aligned; the last buffer and one past it; one
that meets the control page and one that meets nothing; a 32-aligned one and one that is not. -/
theorem test_meets_ReportLog :
    (ready.log.state = .unset ∧ (logIn ready .scanning 0).log.state = .scanning ∧ (0x7008#32).toNat % 16 ≠ 0 ∧
    (0xFFFFFF00#32).toNat % 16 = 0 ∧ (0xFFFFFF00#32).toNat + 255 ≤ 0xFFFFFFFF ∧ ¬(0xFFFFFF10#32).toNat + 255 ≤ 0xFFFFFFFF ∧
    ready.pageOverlaps 0x100F0 256 = true ∧ ready.pageOverlaps 0x10100 256 = false ∧
    ready.logRingOverlaps 0x10100 256 = false ∧ ready.attention.ringMeets 0x10100 256 = false ∧
    (ring ready 0).attention.ringMeets 0x9007F 256 = true ∧ (ring ready 0).attention.ringMeets 0x90080 256 = false ∧
    (0x7000#32).toNat % 32 = 0 ∧ (0x7010#32).toNat % 32 ≠ 0) ∧
    (let d := op 14#8 0x7010#32 0#32 0#32 0#32
     (logJob ready d).GrantDue 0 jobAt d [] ∧ (capturing (logJob ready d)).log.capture ≠ none ∧
     (logRuns (captures 0) .granted d).StepDue 0 jobAt d []) :=
  ⟨by decide +kernel, grant_due _ _ rfl rfl, nofun, rfl, rfl, job_has _ _ _ _, rfl⟩

/-- ReportWriteAnswer: the last write but one and the last, of lines and of singles. -/
theorem test_meets_ReportWriteAnswer : ∀ x ∈ [(0x7000#32, 192), (0x7000#32, 224), (0x7010#32, 240), (0x7010#32, 248)],
    let r : Report := { addr := x.1, snapshot := 0#2048, written := x.2 }
    let c := flying (logRuns (captures 0) (.reporting r) (op 14#8 x.1 0#32 0#32 0#32)) .report
    c.InFlight .report ∧ c.log.running = some { lane := 0, stage := .reporting r } ∧
    c.HasJob 0 .run jobAt (op 14#8 x.1 0#32 0#32 0#32) :=
  fun _ _ => ⟨flying_has _ _, rfl, job_has _ _ _ _⟩

/-! ### Rollback and adopt -/

/-- RollbackAccepted: a capture in progress; no ATTACHED log; a stall; an unknown checkpoint and a known one. -/
theorem test_meets_RollbackAccepted :
    (capturing (captures 1)).log.capture ≠ none ∧ (captures 1).log.capture = none ∧
    ready.log.state ≠ .attached ∧ (captures 1).log.state = .attached ∧
    (∃ q ∈ (requests (captures 16) [capReq .host true]).log.requests, q.stalled = true) ∧
    (∀ q ∈ (captures 1).log.requests, q.stalled = false) ∧ (∀ e ∈ (captures 1).log.checkpoints, e.number ≠ 2#32) ∧
    (∃ e ∈ (captures 1).log.checkpoints, e.number = 1#32) := by decide +kernel

/-- RollbackFailed and RollbackReturned: a copy that waits in PAUSED-REGION for the region of its next destination write, and a held
host access. -/
theorem test_meets_rollback_ends :
    (let c := withFront (copies (region (logIn ready .rolling 2) .restoring .capturing) .plain)
       (front [] [piece 0x40000#32] .paused)
     let d := { c with copy := { c.copy with state := .pausedRegion } }
     d.copy.state = .pausedRegion ∧ d.copy.front = some (front [] [piece 0x40000#32] .paused) ∧
     d.holdApplies 0x40000#32 = true) ∧
    (let c := upstream (region (logIn ready .rolling 2) .restoring .capturing) (write4 0x40000#32 1#32) .held
     c.path.upstream.map (·.wait) = some .held ∧ c.holdApplies 0x40000#32 = true) := by decide +kernel

/-- The one checkpoint of these logs. -/
def entry (n : Nat) : Checkpoint := { number := 1#32, firstSlot := 0, firstSequence := 1#32, records := n }

/-- A rollback in DRAIN, and a write that an ended copy has left: it waits for its grant, the frontier's or the copy-ahead's, behind a copy-ahead of a later copy, as the
write that has triggered one, or for its capture. -/
def leftWriteWaits : List Chip :=
  let w := { ask .frontier (write4 0x50000#32 1#32) with stale := true }
  let v := { ask .copyAhead (write4 0x50000#32 1#32) with stale := true }
  let c := copies (rolls (logIn ready .rolling 2) .drain .readHeader 0) .consistent
  [asking c [w], asking c [v], { c with copy := { c.copy with queue := [w] } }, withAhead c { ahead [] [] with trigger := some w },
    requests c [capReq (.left w.access) false]]

/-- R60: DRAIN does not wait for a left write that was looked up after the restore entry. -/
theorem test_rollbackDrainEnd_late :
    (let v := { ask .copyAhead (write4 0x50000#32 1#32) with stale := true }
     let k := { context .drain .readHeader 0 with late := [v] }
     let c := logRuns (logIn ready .rolling 2) (.rolling k) (op 12#8 1#32 0#32 0#32 0#32)
     ((asking c [v]).leftCopyWrite, (asking c [v, v]).leftCopyWrite)) = (false, true) := by decide +kernel

/-- R60: DRAIN waits for that write, wherever it is. -/
theorem test_rollbackDrainEnd_left : ∀ c ∈ leftWriteWaits, ran .rollbackDrainEnd c = some c := by decide +kernel

/-- RollbackDrainEnd: a span of records; an empty span with room, with a full ring and with no SEQUENCE left; and each wait. -/
theorem test_meets_RollbackDrainEnd :
    (∀ n ∈ [0, 2], let c := rolls (logIn ready .rolling n) .drain .readHeader 0
      c.log.running = some { lane := 0, stage := .rolling (context .drain .readHeader 0) } ∧ c.log.state = .rolling ∧
      (context .drain .readHeader 0).phase = .drain ∧ (context .drain .readHeader 0).applied = 0 ∧
      c.log.checkpoints = [] ++ entry n :: [] ∧ (entry n).number = (context .drain .readHeader 0).target ∧
      recordsOf [entry n] = n ∧ c.log.count ≠ c.log.capacity ∧ c.log.nextSeq ≠ 0xFFFFFFFF#32 ∧
      c.path.watches.rollback = none ∧ (context .drain .readHeader 0).drainFrontier = false ∧
      (context .drain .readHeader 0).drainAhead = false ∧ c.leftCopyWrite = false ∧ c.log.capture = none) ∧
    (∀ c ∈ leftWriteWaits, c.leftCopyWrite = true) ∧
    (rolls (logIn ready .rolling 0) .drain .readHeader 0).HasJob 0 .run jobAt (op 12#8 1#32 0#32 0#32 0#32) ∧
    (logIn ready .rolling 16).log.count = (logIn ready .rolling 16).log.capacity ∧
    (logIn ready .rolling 0xFFFFFFFE).log.nextSeq = 0xFFFFFFFF#32 ∧ { DrainWatches.none with rollback := some 0 }.rollback ≠ none :=
  ⟨by decide +kernel, by decide +kernel, job_has _ _ _ _, by decide +kernel⟩

/-- RestoreAccessAnswer: each access of the walk, the last record and one before it, the last SEQUENCE and none left. -/
theorem test_meets_RestoreAccessAnswer :
    (∀ w ∈ [WalkStep.readHeader, .readFirst, .readSecond, .writeFirst, .writeSecond], ∀ n ∈ [0, 1],
      let c := flying (rolls (logIn ready .rolling 2) .restore w n) .restore
      c.log.running = some { lane := 0, stage := .rolling (context .restore w n) } ∧ c.log.state = .rolling ∧
      (context .restore w n).phase = .restore ∧ (context .restore w n).step = w ∧
      c.log.checkpoints = [] ++ entry 2 :: [] ∧ (entry 2).number = (context .restore w n).target ∧
      (n = 1 ↔ (context .restore w n).applied + 1 = (context .restore w n).span) ∧ c.log.nextSeq ≠ 0xFFFFFFFF#32) ∧
    (flying (rolls (logIn ready .rolling 2) .restore .readHeader 0) .restore).InFlight .restore ∧
    (flying (rolls (logIn ready .rolling 2) .restore .readHeader 0) .restore).HasJob 0 .run jobAt (op 12#8 1#32 0#32 0#32 0#32) :=
  ⟨by decide +kernel, flying_has _ _, job_has _ _ _ _⟩

/-- RestoreAccessAnswer and ScanReadAnswer: a valid RECORD, with the FIRST SEQUENCE of the target, a valid MARKER, and zeros, which are
neither. -/
theorem test_meets_RestoreAccessAnswer_valid :
    ValidRecord 0x400000000000100000000000000018CBB00C1#256 3#256 4#256 ∧
    headerSequence 0x400000000000100000000000000018CBB00C1#256 = (entry 2).firstSequence ∧
    ValidMarker 0x100000000000000037E5600C2#256 ∧ ¬(ValidRecord 0#256 0#256 0#256 ∨ ValidMarker 0#256) ∧
    headerKind 0#256 ≠ 0xC1#8 := by
  have r : headerCheck 0x400000000000100000000000000018CBB00C1#256 = 0x8CBB#16 := by decide +kernel
  have m : headerCheck 0x100000000000000037E5600C2#256 = 0x7E56#16 := by decide +kernel
  have z : headerKind 0#256 ≠ 0xC1#8 ∧ headerKind 0#256 ≠ 0xC2#8 := by decide +kernel
  refine ⟨⟨by decide +kernel, r.trans test_record_check.symm, by decide +kernel, by decide +kernel, by decide +kernel, by decide +kernel⟩,
    by decide +kernel, ⟨by decide +kernel, m.trans test_marker_check.symm, by decide +kernel, by decide +kernel⟩, ?_, z.1⟩
  rintro (h | h)
  · exact z.1 h.1
  · exact z.2 h.1

/-- MarkerWriteAnswer: a walk that applied records and one that applied none. -/
theorem test_meets_MarkerWriteAnswer : ∀ n ∈ [0, 2],
    let c := flying (rolls (logIn ready .rolling 2) .finish .writeSecond n) .marker
    c.InFlight .marker ∧ c.log.running = some { lane := 0, stage := .rolling (context .finish .writeSecond n) } ∧
    c.log.state = .rolling ∧ c.HasJob 0 .run jobAt (op 12#8 1#32 0#32 0#32 0#32) ∧ (context .finish .writeSecond n).phase = .finish ∧
    c.log.checkpoints = [] ++ entry 2 :: [] ∧ (entry 2).number = (context .finish .writeSecond n).target :=
  fun _ _ => ⟨flying_has _ _, rfl, rfl, job_has _ _ _ _, rfl, rfl, rfl⟩

/-- A scan that has found a newest item in slot 3. -/
def scan (p : Pass) (w : ScanStep) (slot : Nat) : Scan :=
  { newScan 1#32 with
    pass := p, step := w, slot := slot, started := true
    newest := some { slot := 3, isMarker := false, sequence := 4#32, previous := 3#32, checkpoint := 1#32 } }

/-- ScanReadAnswer: each read in each pass, the last slot but one and the last. -/
theorem test_meets_ScanReadAnswer :
    (∀ p ∈ [Pass.select, .walk], ∀ w ∈ [ScanStep.readHeader, .readFirst, .readSecond], ∀ n ∈ [14, 15],
      let c := flying (logRuns (logIn ready .scanning 0) (.adopting (scan p w n)) (op 9#8 0#32 0#32 0#32 0#32)) .scan
      c.log.running = some { lane := 0, stage := .adopting (scan p w n) } ∧ c.log.state = .scanning ∧ (scan p w n).step = w ∧
      (scan p w n).pass = p ∧ (n = 14 ↔ (scan p w n).slot + 1 < c.log.capacity)) ∧
    (let c := flying (logRuns (logIn ready .scanning 0) (.adopting (scan .walk .readSecond 3)) (op 9#8 0#32 0#32 0#32 0#32)) .scan
     c.InFlight .scan ∧ c.HasJob 0 .run jobAt (op 9#8 0#32 0#32 0#32 0#32)) :=
  ⟨by decide +kernel, flying_has _ _, job_has _ _ _ _⟩

/-- ScanReadAnswer's chain: the floor itself, the bound itself, and the last and the first PREVIOUS of a record that ends the walk. -/
theorem test_meets_ScanReadAnswer_chain :
    (scan .walk .readSecond 3).floor.toNat ≤ (1#32).toNat ∧ (1#32).toNat ≤ (1#32).toNat ∧
    (scan .walk .readSecond 3).numbers.length < 24 ∧ (3#32).toNat < (4#32).toNat ∧ (4#32).toNat ≤ (4#32).toNat := by decide +kernel

/-! ### The Copy Engine -/

/-- A consistent copy with a host write that waits for copy-ahead of span 0. -/
def waits (image : SharedImage) : Chip :=
  let c := atPoint (copies ready .consistent) { fwd (write4 0x50000#32 5#32) true .port [] with image := image }
  { c with copy := { c.copy with queue := [ask (.forwardWrite true) (write4 0x50000#32 5#32)] } }

/-- A COPY that waits while the forward point has this image, of a capture that is over or at a step. -/
def copyDue (image : SharedImage) (capture : Option Capture) : Chip :=
  let c := atPoint (job ready 1 .wait (op 15#8 0x50000#32 0x60000#32 128#32 0#32)) { hostWrite .capture with image := image }
  { c with copy := { c.copy with waiting := [1] }, log := { c.log with capture := capture } }

/-- R105, R108: an accepted COPY drops an image read before it, and does not let the second half of a read be kept. -/
theorem test_copy_forgets_image :
    (ran .copy (copyDue (.held 9#512) none)).map (fun t => t.path.forward.map (·.image)) = some (some .absent) ∧
    (ran .copy (copyDue .absent (some (capture .readSecond)))).map (fun t => t.path.forward.map (·.image)) = some (some .unshared) := by
  decide +kernel

/-- CopyGranted: each check at the end of its range, for both modes. -/
theorem test_meets_CopyGranted :
    (let c := { job ready 1 .wait (op 15#8 0x50000#32 0x60000#32 128#32 0#32) with copy := { ready.copy with waiting := [1] } }
     c.copy.state = .idle ∧ c.copy.waiting = 1 :: [] ∧ c.HasJob 1 .wait jobAt (op 15#8 0x50000#32 0x60000#32 128#32 0#32)) ∧
    (16777216 < 16777217 ∧ 0xFFFFFFFF < 0xFFFFFFFF + 2 - 1 ∧ (0x50000 ≤ 0x50000 + 1 - 1 ∧ 1 < (0x200#32).toNat / 256 % 256)) ∧
    (4096 < (0x50001 + 262144 - 1) / 64 - 0x50001 / 64 + 1 ∧ ¬4096 < (0x50000 + 262144 - 1) / 64 - 0x50000 / 64 + 1) ∧
    ((waits .failed).path.forward.map (·.image)) = some .failed ∧ (capture .readSecond).request.requester = .host ∧
    (capture .readFirst).step ≠ .readSecond ∧
    (0x50000 / 64 ≤ (0x5003F + 1 - 1) / 64 ∧ ¬0x50000 / 64 ≤ (0x4FFFF + 1 - 1) / 64) ∧ (0x1FF#32).toNat / 256 % 256 = 1 :=
  ⟨⟨rfl, rfl, job_has _ _ _ _⟩, by decide +kernel⟩

/-- FrontierTransferAnswer: one read left and two; one write left and two; a span that copy-ahead has covered; both modes. -/
theorem test_meets_FrontierTransferAnswer :
    (∀ f ∈ [front [0x50000#32] [piece 0x60000#32] .read, front [0x50000#32, 0x50020#32] [piece 0x60000#32] .read,
        front [] [piece 0x60000#32] .port, front [] [piece 0x60000#32, piece 0x60020#32] .port,
        { front [] [piece 0x60000#32] .port with covered := true }],
      ∀ m ∈ [CopyMode.plain, .consistent], let c := flying (withFront (copies ready m) f) .frontier
      c.copy.front = some f ∧ c.copy.fix = none ∧ c.copy.mode = m) ∧
    (flying (withFront (copies ready .plain) (front [] [piece 0x60000#32] .port)) .frontier).InFlight .frontier :=
  ⟨by decide +kernel, flying_has _ _⟩

/-- FrontWriteStarted and AheadWriteStarted: a destination write in the log ring, in a RESTORING region, in a CAPTURING one, and in none. -/
theorem test_meets_destination_writes :
    (captures 0).ringGuard 0x80000#32 = true ∧ (captures 0).ringGuard 0x40000#32 = false ∧
    ((region ready .restoring .idle).lookup 0x40000#32).map (·.2.state) = some .restoring ∧
    ((captures 0).lookup 0x40000#32).map (fun x => (captures 0).captureApplies x.2) = some true ∧
    ready.lookup 0x60000#32 = none ∧ (copies ready .consistent).copy.recordWriteWaits (ahead [] [piece 0x60000#32]) = false := by
  decide +kernel

/-- PacingWindowExpiry: the timer stopped; running in a pause and outside one. -/
theorem test_meets_PacingWindowExpiry :
    ready.copy.windowTimer = false ∧ { ready.copy with windowTimer := true }.windowTimer = true ∧ ready.copy.state ≠ .pausedBudget ∧
    { ready.copy with state := .pausedBudget }.state = .pausedBudget ∧ ready.copy.fix = none := by decide

/-- CopyAheadRequest: no copy-ahead in progress and one; the first and the last byte of the copy's source, and the byte past it; no shared
image, one, and a failed one; a write that a configure has withdrawn and one that it has not. -/
theorem test_meets_CopyAheadRequest :
    ((waits .absent).copy.queue = [ask (.forwardWrite true) (write4 0x50000#32 5#32)] ∧ (waits .absent).copy.ahead = none ∧
      (withAhead (waits .absent) (ahead [] [])).copy.ahead ≠ none) ∧
    ((waits .absent).copy.notCopied 0x50000#32 = some 0 ∧ (waits .absent).copy.notCopied 0x5007F#32 = some 1 ∧
      (waits .absent).copy.notCopied 0x50080#32 = none ∧ (waits .absent).copy.notCopied 0x4FFFF#32 = none) ∧
    (let r := ask (.forwardWrite true) (write4 0x50000#32 5#32)
     (waits .absent).sharedImage r = .absent ∧ (waits (.held 9#512)).sharedImage r = .held 9#512 ∧
     (waits .failed).sharedImage r = .failed ∧ (waits .unshared).sharedImage r = .unshared) ∧
    (sourceLines 0x50000 64 = [0x50000#32, 0x50020#32] ∧
       (waits .absent).copy.pieces 0 64 = [piece 0x60000#32, piece 0x60020#32]) ∧
    ((ask .attention (write4 0x50000#32 5#32)).withdrawn = false ∧
      { ask .attention (write4 0x50000#32 5#32) with stale := true }.withdrawn = true) := by decide +kernel

/-- CopyAheadTransferAnswer: reads left, writes left, the last write; an outcome that is fixed and none; the last span and one before it; the
frontier elsewhere and on this span, in each of its waits. -/
theorem test_meets_CopyAheadTransferAnswer :
    (∀ a ∈ [ahead [0x50000#32, 0x50020#32] [piece 0x60000#32], ahead [0x50000#32] [piece 0x60000#32],
        ahead [] [piece 0x60000#32, piece 0x60020#32], ahead [] [piece 0x60020#32]],
      (flying (withAhead (copies ready .consistent) a) .copyAhead).copy.ahead = some a) ∧
    (flying (withAhead (copies ready .consistent) (ahead [] [])) .copyAhead).InFlight .copyAhead ∧
    (copies ready .consistent).copy.fix = none ∧
    (((copies ready .consistent).copy.markCopied 0).frontier ≠ 128 ∧
      ({ (copies ready .consistent).copy with map := 2#4096 }.markCopied 0).frontier = 128) ∧
    (∀ p ∈ [FrontPhase.read, .capture, .port, .paused], ∀ w ∈ [true, false],
      let c := withFront (copies ready .consistent) { front [] [piece 0x60000#32] p with went := w }
      c.copy.front.map (fun f => (c.copy.spanAt f.start, f.phase, f.went)) = some (0, p, w)) := by
  refine ⟨by decide +kernel, flying_has _ _, by decide +kernel⟩

/-- R109: the frontier's write of the last span, which waits for the answer to its capture request, is left to be issued. -/
theorem test_copyAheadTransferAnswer_leaves :
    (let c := withAhead (withFront (copies ready .consistent) (front [] [piece 0x60000#32] .capture)) (ahead [] [piece 0x60020#32])
     let d := requests { c with copy := { c.copy with map := 2#4096 } } [capReq .frontier false]
     (ran (.copyAheadTransferAnswer (.done 0#256)) (flying d .copyAhead)).map
       fun t => (t.copy.state, t.log.requests.map (·.requester))) =
    some (.idle, [.left (writeLine 0x60000#32 0#256)]) := by decide +kernel

/-- R26: the frontier ends the copy DONE while a copy-ahead of its last span is in progress. The copy-ahead's write that waits for
its grant stays when it was answered go, and is withdrawn when it made no capture request. -/
theorem test_frontierTransferAnswer_leaves_ahead :
    [true, false].map (fun w =>
      let c := withFront (copies ready .consistent) (front [] [piece 0x60020#32] .port)
      let d := withAhead { c with copy := { c.copy with map := 2#4096 } } { ahead [] [piece 0x60020#32] with went := w }
      (ran (.frontierTransferAnswer (.done 0#256)) (flying (asking d [ask .copyAhead (write4 0x60020#32 1#32)]) .frontier)).map
        fun t => (t.copy.state, t.arbiter.requests.map fun r => (r.owner, r.stale))) =
    [some (.idle, [(.copyAhead, true), (.forwardWrite true, false), (.laneOutcome 1, false)]),
      some (.idle, [(.forwardWrite true, false), (.laneOutcome 1, false)])] := by decide +kernel

/-- CancelCopy: no copy; a copy; a copy with a copy-ahead in progress. -/
theorem test_meets_CancelCopy :
    (job (copies ready .plain) 2 .run (op 16#8 0#32 0#32 0#32 0#32)).HasJob 2 .run jobAt (op 16#8 0#32 0#32 0#32 0#32) ∧
    (2 : Lane) ∉ (copies ready .plain).copy.cancels ∧ ready.copy.state = .idle ∧ (copies ready .plain).copy.state ≠ .idle ∧
    (copies ready .plain).copy.ahead = none ∧ (copies ready .plain).copy.queue = [] ∧
    (withAhead (copies ready .consistent) (ahead [] [])).copy.ahead ≠ none ∧
    (∀ c, c = job (waits .absent) 2 .run (op 16#8 0#32 0#32 0#32 0#32) →
      c.copy.state ≠ .idle ∧ c.copy.ahead = none ∧ c.copy.queue ≠ [] ∧ (2 : Lane) ∉ c.copy.cancels) :=
  ⟨job_has _ _ _ _, by decide +kernel, by decide +kernel, by decide +kernel, by decide +kernel, by decide +kernel,
    by decide +kernel, by rintro c rfl; decide +kernel⟩

/-! ### Lanes and attention -/

/-- Lane 2 fetches the descriptor at `jobAt`. -/
def fetching : Chip := ready.setLane 2 { LaneRec.atReset with
  state := .fetch, current := some { addr := jobAt, desc := none, outcome := none, result := 0#32 } }

/-- DescriptorFetchAnswer: an OUTCOME of 0 and not; the CODEs at the ends of each group. -/
theorem test_meets_DescriptorFetchAnswer :
    (flying fetching (.laneFetch 2)).InFlight (.laneFetch 2) ∧
    (fetching.lane 2).current = some { addr := jobAt, desc := none, outcome := none, result := 0#32 } ∧
    (field (0x10000#256) 2 16 ≠ 0#16 ∧ field (7#256) 2 16 = 0#16) ∧
    (∀ n ∈ [0, 7, 16], (field (BitVec.ofNat 256 n) 0 8).toNat ≤ 7 ∨ (field (BitVec.ofNat 256 n) 0 8).toNat = 16) ∧
    (∀ n ∈ [8, 14], 8 ≤ (field (BitVec.ofNat 256 n) 0 8).toNat ∧ (field (BitVec.ofNat 256 n) 0 8).toNat ≤ 14) ∧
    (field (15#256) 0 8).toNat = 15 ∧ 16 < (field (17#256) 0 8).toNat :=
  ⟨flying_has _ _, by decide +kernel⟩

/-- NextAccessMade: nothing that waits; an access of the same lane that waits, alone and with another lane's. -/
theorem test_meets_NextAccessMade :
    (∀ r ∈ fetching.lanes.later, r.owner.lane ≠ some 2) ∧
    (let d : PortRequest := { ask (.laneDirect 2) (writeSingle 0x2002#32 6 0#256) with cls := .lane }
     let e : PortRequest := { ask (.laneDirect 3) (writeSingle 0x2002#32 6 0#256) with cls := .lane }
     let c := { fetching with lanes := { fetching.lanes with later := [e, d] } }
     c.lanes.later = [e] ++ d :: [] ∧ (∀ q ∈ [e], q.owner.lane ≠ some 2) ∧ d.owner.lane = some 2 ∧
     (∀ q ∈ c.accessesInHand, q.owner.lane ≠ some 2)) := by decide +kernel

/-- R157: a lane in FETCH makes the direct outcome write of a FLUSH once its fetch has its answer. -/
theorem test_flush_waits_for_fetch :
    (let c := fetching.setLane 2 { fetching.lane 2 with queue := [0x2000#32] }
     let d := { c with arbiter := { c.arbiter with inFlight := some { ask (.laneFetch 2) (readLine jobAt) with cls := .lane } } }
     ((ran .flush (atPoint d (pageWrite (.submit 2) 1#32))).map fun t => (t.lanes.later.map (·.owner), t.arbiter.requests.map (·.owner)),
      ((ran .flush (atPoint d (pageWrite (.submit 2) 1#32))).bind (ran (.descriptorFetchAnswer (.done 0#256)))).map
        fun t => (t.lanes.later.map (·.owner), t.arbiter.requests.map (·.owner)))) =
    (some ([.laneDirect 2], []), some ([], [.laneDirect 2])) := by decide +kernel

/-- R149: the descriptor is kept before its OUTCOME is looked at. -/
theorem test_descriptorFetchAnswer_keeps :
    (ran (.descriptorFetchAnswer (.done 0x10003#256)) (flying (taken (ring fetching 0) (.lane 2)) (.laneFetch 2))).map
      (fun t => (t.lane 2).current.map fun c => c.desc.map (·.code)) = some (some (some 3#8)) := by decide +kernel

/-- NullJob. -/
theorem test_meets_NullJob : (job ready 5 .run (op 0#8 0#32 0#32 0#32 0#32)).HasJob 5 .run jobAt (op 0#8 0#32 0#32 0#32 0#32) :=
  job_has _ _ _ _

/-- OutcomeWriteAnswer: an outcome DONE with and without NOTIFY, one that is not DONE, and a write that the ring guard keeps back. -/
theorem test_meets_OutcomeWriteAnswer :
    (flying (finished ready 1#8 0#32 .done) (.laneOutcome 2)).InFlight (.laneOutcome 2) ∧
    (∀ x ∈ [(0#8, JobOutcome.done), (1#8, .done), (0#8, .listFull)], ((finished ready x.1 0#32 x.2).lane 2).current =
      some { addr := jobAt, desc := some { op 0#8 0#32 0#32 0#32 0#32 with flags := x.1 }, outcome := some x.2, result := 0#32 }) ∧
    (0#8).getLsbD 0 = false ∧ (1#8).getLsbD 0 = true ∧
    (let r : PortRequest := { ask (.laneOutcome 2) (writeSingle jobAt 8 0#256) with cls := .lane }
     { finished ready 1#8 0#32 .done with lanes := { (finished ready 1#8 0#32 .done).lanes with refused := some r } }.lanes.refused =
       some r ∧ r.owner = .laneOutcome 2) ∧
    ∀ m, ¬(finished ready 1#8 0#32 .done).InFlight (.laneOutcome m) :=
  ⟨flying_has _ _, by decide +kernel, by decide, by decide, ⟨rfl, rfl⟩, fun _ ⟨_, h, _⟩ => nomatch h⟩

/-- DirectOutcomeAnswer: one write owed and two, in flight and kept back by the ring guard. -/
theorem test_meets_DirectOutcomeAnswer :
    (∀ rest ∈ [[], [0x2020#32]],
      let take : Take := { lane := 3, outcome := .cancelled, owed := 0x2000#32 :: rest, finishAfter := rest.isEmpty }
      { ready with lanes := { ready.lanes with take := some take } }.lanes.take = some take) ∧
    (flying ready (.laneDirect 3)).InFlight (.laneDirect 3) ∧
    (let r : PortRequest := { ask (.laneDirect 3) (writeSingle 0x2002#32 6 0#256) with cls := .lane }
     { ready with lanes := { ready.lanes with refused := some r } }.lanes.refused = some r ∧ r.owner = .laneDirect 3) ∧
    ∀ m, ¬ready.InFlight (.laneDirect m) :=
  ⟨by decide +kernel, flying_has _ _, ⟨rfl, rfl⟩, fun _ ⟨_, h, _⟩ => nomatch h⟩

/-- ChainDecided: NEXT 0, aligned and not; CONTINUE off and on; CUT PENDING. -/
theorem test_meets_ChainDecided : ((finished ready 0#8 0x2020#32 .listFull).lane 2).cutPending = false ∧
    (0#8).getLsbD 1 = false ∧ (2#8).getLsbD 1 = true ∧ (0x2020#32).toNat % 32 = 0 ∧ (0x2021#32).toNat % 32 ≠ 0 ∧
    { (finished ready 0#8 0#32 .done).lane 2 with cutPending := true }.cutPending = true := by decide +kernel

/-- ConfigureAttention: operand A of 0; each check at the end of its range; no posting, one whose write waits, and one in flight. -/
theorem test_meets_ConfigureAttention :
    (∀ d, (job ready 2 .run d).HasJob 2 .run jobAt d) ∧ ready.attention.configure = none ∧
    ((0x90008#32).toNat % 16 ≠ 0 ∧ (7#32).toNat < 8 ∧ 1024 < (1025#32).toNat ∧ 1 < (2#32).toNat ∧
      0xFFFFFFFF < (0xFFFFFF90#32).toNat + 16 * (8#32).toNat - 1) ∧
    ¬((8#32).toNat < 8 ∨ 1024 < (1024#32).toNat ∨ 1 < (1#32).toNat ∨ 0xFFFFFFFF < (0xFFFFFF80#32).toNat + 16 * (8#32).toNat - 1) ∧
    ready.pageOverlaps 0x100F0 128 = true ∧ ready.pageOverlaps 0x10100 128 = false ∧
    (flying (ring ready 0) .attention).InFlight .attention ∧ ¬(ring ready 0).InFlight .attention ∧
    (∀ k ∈ [PostingStep.low, .high, .produce], let p : Posting := { kind := .record listed, sequence := 1#32, slot := 0, step := k }
      { (ring ready 0).attention with posting := some p }.posting = some p ∧ p.kind = .record listed ∧
      (k = .produce ↔ p.step = .produce)) :=
  ⟨job_has _ _ _, rfl, by decide, by decide, by decide +kernel, by decide +kernel, flying_has _ _,
    (fun ⟨_, h, _⟩ => nomatch h), by decide +kernel⟩

/-- R168, R110: the copy-ahead that a withdrawn attention write has asked for stays in the queue, and the write is not issued. -/
theorem test_configureAttention_copy_ahead :
    (let c := job (ring (copies ready .consistent) 0) 2 .run (op 2#8 0#32 0#32 0#32 0#32)
     let d := { c with
       copy := { c.copy with queue := [{ ask .attention (write4 0x50000#32 5#32) with cls := .attention }] }
       attention := { c.attention with posting := some { kind := .record listed, sequence := 1#32, slot := 0, step := .low } } }
     (ran (.configureAttention 2) d).map fun t => t.copy.queue.map fun r => (r.owner, r.withdrawn)) =
    some [(.attention, true)] := by decide +kernel

/-- A ring with one record listed. -/
def lists (n : Nat) : Chip := { ring ready n with attention := { (ring ready n).attention with posts := [listed] } }

/-- AttentionPosting: occupancies capacity − 2, capacity − 1 and capacity, the last with overrun in force; a source that waits and none. -/
theorem test_meets_AttentionPosting :
    (∀ n ∈ [6, 7, 8], (lists n).attention.configured = true ∧ (lists n).attention.posting = none ∧
      (lists n).attention.posts = [listed] ++ [] ∧ ((lists n).attention.produce - (lists n).attention.consume).toNat = n) ∧
    (lists 6).attention.capacity = 8 ∧
    (let o : Overrun := { slot := 7, dropped := 0xFFFFFFFF#32, sequence := 8#32 }
     { (lists 8).attention with overrun := some o }.overrun = some o) ∧ (lists 6).attention.handings = [] ∧
    (let h : Handing := { listed := listed, after := .laneEnd 2 }
     let c := { lists 6 with attention := { (lists 6).attention with handings := [h] } }
     ∃ u t, exec .attentionPosting (st c) = .next (st u) ∧ exec .attentionPosting (st (lists 6)) = .next (st t) ∧
       u.attention.handings = [] ∧ u.attention.posts = [listed] ∧ t.attention.posts = []) :=
  ⟨by decide +kernel, by decide +kernel, by decide +kernel, by decide +kernel, _, _, rfl, rfl, by decide +kernel⟩

/-- AttentionWriteAnswer: each kind of posting at each of its writes, with no configure that waits and with one. -/
theorem test_meets_AttentionWriteAnswer :
    (∀ k ∈ [PostingKind.record listed, .overrun, .rewrite 2#32, .configure], ∀ w ∈ [PostingStep.low, .high, .produce],
      let p : Posting := { kind := k, sequence := 1#32, slot := 0, step := w }
      { (ring ready 0).attention with posting := some p }.posting = some p) ∧
    (flying (ring ready 0) .attention).InFlight .attention ∧ (ring ready 0).attention.configure = none ∧
    (let c := job (ring ready 0) 2 .run (op 2#8 0x90000#32 8#32 1#32 0#32)
     let w : PendingConfigure := { lane := 2, base := 0x90000#32, capacity := 8, lineEnable := true }
     { c.attention with configure := some w }.configure = some w ∧
     c.HasJob w.lane .run jobAt (op 2#8 0x90000#32 8#32 1#32 0#32) ∧ c.attention.handings = []) :=
  ⟨by decide +kernel, flying_has _ _, rfl, rfl, job_has _ _ _ _, rfl⟩

/-- AttnLine: the second half of a record, of an OVERRUN and of a rewrite, with one record not consumed and none; a consume index that
leaves one and none; a configure that is accepted at once, that waits, and that is refused. -/
theorem test_meets_AttnLine :
    (∀ k ∈ [PostingKind.record listed, .overrun, .rewrite 2#32], ∀ n ∈ [0, 1],
      let p : Posting := { kind := k, sequence := 1#32, slot := 0, step := .high }
      let c := flying { ring ready n with attention := { (ring ready n).attention with posting := some p } } .attention
      c.InFlight .attention ∧ c.attention.posting = some p ∧ c.attention.configure = none) ∧
    (∀ v, (atPoint (ring ready 2) (pageWrite .consume v)).WordNext (pageWrite .consume v) .consume v []) ∧
    ((ring ready 2).attnLine = true ∧ (ring ready 0).attnLine = false ∧ ready.attnLine = false) ∧
    (let d := fun n => op 2#8 0x90000#32 n 1#32 0#32
     (job ready 2 .run (d 8#32)).HasJob 2 .run jobAt (d 8#32) ∧ ready.attention.configure = none ∧
     ready.configureCheck (d 8#32) = .done ∧ ready.configureCheck (d 7#32) = .badOperand) ∧
    ¬ready.InFlight .attention ∧ (flying ready .attention).InFlight .attention :=
  ⟨fun _ _ _ _ => ⟨flying_has _ _, rfl, rfl⟩, fun _ => word_next _ _ _ rfl, by decide +kernel, ⟨job_has _ _ _ _, rfl, by decide +kernel⟩,
    (fun ⟨_, h, _⟩ => nomatch h), flying_has _ _⟩

/-- R173: the line rises with the second half's DONE, before the produce word is written. -/
theorem test_attentionWriteAnswer_line :
    (let c := flying { ring ready 0 with attention := { (ring ready 0).attention with
       posting := some { kind := .record listed, sequence := 1#32, slot := 0, step := .high } } } .attention
     (c.attnLine, (ran (.attentionWriteAnswer (.done 0#256)) c).map (·.attnLine))) = (false, some true) := by decide +kernel

/-! ### Laws -/

/-- RegionLogLawKept: a state with a CAPTURING region meets the law, and a command answers next. -/
theorem test_meets_RegionLogLawKept : (captures 3).RegionLogLaw ∧
    ∃ t, step { chip := captures 3, pending := [.captureRequest] } = .next t := by
  refine ⟨?_, _, rfl⟩
  unfold Chip.RegionLogLaw
  decide +kernel

/-- RingLawKept: a full ring, a rollback's walk of two records, and a reset log meet the law, and a command answers next. -/
theorem test_meets_RingLawKept :
    (captures 16).log.RingLaw ∧ (rolls (logIn ready .rolling 2) .restore .readHeader 0).log.RingLaw ∧ ready.log.RingLaw ∧
    ∃ t, step { chip := captures 3, pending := [.captureRequest] } = .next t := by
  have one : ∀ (n : Nat) (older newer : List Checkpoint) (e : Checkpoint), [entry n] = older ++ e :: newer →
      older = [] ∧ e = entry n := by
    intro n older newer e h
    cases older with
    | nil => cases h; exact ⟨rfl, rfl⟩
    | cons a b => cases b <;> cases h
  have retained : ∀ l : LogState, l.head = 0 → l.capacity = 16 → l.count ≤ 16 → l.tail = l.count % 16 →
      l.checkpoints = [entry l.count] → l.RetainedLaw := by
    intro l h₁ h₂ h₃ h₄ h₅
    refine ⟨by omega, by omega, by rw [h₄, h₁, h₂, Nat.zero_add], by rw [h₅]; exact nofun, by rw [h₅]; rfl, fun older e newer h => ?_⟩
    rw [h₅] at h
    obtain ⟨rfl, rfl⟩ := one _ _ _ _ h
    rw [h₁]
    rfl
  refine ⟨⟨by decide, by decide, fun _ => retained _ rfl rfl (by decide) rfl rfl, by decide, (fun h => absurd h (by decide)), nofun⟩,
    ⟨by decide, by decide, fun _ => retained _ rfl rfl (by decide) rfl rfl, by decide, fun _ c hc => ?_, nofun⟩,
    ⟨fun _ => ⟨rfl, rfl, rfl, rfl, rfl⟩, by decide, (fun h => absurd h (by decide)), by decide, nofun, nofun⟩, _, rfl⟩
  cases hc
  exact ⟨nofun, fun _ => by decide, nofun⟩

/-- WithinCapacityKept: a full post queue and a full lane queue. -/
theorem test_meets_WithinCapacityKept :
    (let c := (posted 4).setLane 0 { LaneRec.atReset with state := .fetch, queue := List.replicate 6 0x2000#32 }
     c.WithinCapacity) ∧ ∃ t, step { chip := posted 4, pending := [.forwardWrite] } = .next t := by
  refine ⟨?_, _, rfl⟩
  unfold Chip.WithinCapacity
  decide +kernel

/-- WriteCheckLawKept: a CONSISTENT copy with a frontier transfer at work. -/
theorem test_meets_WriteCheckLawKept :
    (withFront (copies ready .consistent) (front [0x50000#32] [piece 0x60000#32] .read)).WriteCheckLaw ∧
    ∃ t, step { chip := copies ready .consistent, pending := [.copyAheadRequest] } = .next t := by
  refine ⟨⟨?_, ?_, ?_, ?_, ?_⟩, _, rfl⟩
  · decide +kernel
  · intro a r h; cases h
  · intro u h; cases h
  · decide +kernel
  · decide +kernel

end Sys2Proof.Tests
end

/-! PROOF. The law of R14 between the regions and the log is kept by every command (O56), from what Laws/RegionLog.lean says of
the operations the commands are made of. -/

namespace Sys2Proof.Machine
variable {s : Chip}

/-! ## What the checks of two log jobs have found -/

theorem unset_of_attachCheck {d : Descriptor} (h : attachCheck d s = .done) : s.log.state = .unset := by
  by_contra hn
  rw [attachCheck, if_pos hn] at h
  cases h

theorem unset_of_adoptCheck {d : Descriptor} (h : adoptCheck d s = .done) : s.log.state = .unset := by
  by_contra hn
  rw [adoptCheck, if_pos hn] at h
  cases h

namespace Chip.RegionLogLaw

/-! ## Resets and the Processor Port -/

theorem of_replicate_atReset (h : s.regions = Vector.replicate 16 Region.atReset) : s.RegionLogLaw :=
  of_quiet fun n => by rw [h]; simp [Region.atReset]

theorem resetPart (h : s.RegionLogLaw) : s.resetPart.RegionLogLaw := by
  unfold Chip.resetPart
  split
  · exact of_replicate_atReset rfl
  · exact h

theorem softResetPortIdle (h : s.RegionLogLaw) : s.softResetPortIdle.RegionLogLaw := by
  unfold Chip.softResetPortIdle
  split
  · exact issueWrite (by exact congr h rfl rfl) _
  · exact h

theorem statusWordWrite (h : s.RegionLogLaw) : s.statusWordWrite.RegionLogLaw := by
  unfold Chip.statusWordWrite
  split
  · exact h
  · split
    · exact h
    · exact issueWrite (path h _) _

theorem hostAccess (h : s.RegionLogLaw) (a) : (s.hostAccess a).RegionLogLaw := by
  unfold Chip.hostAccess
  split
  · exact h
  · dsimp only
    split
    · exact path h _
    · exact path h _
    all_goals exact classify (path h _) _ _

theorem holdLimitExpiry (h : s.RegionLogLaw) : s.holdLimitExpiry.RegionLogLaw := by
  unfold Chip.holdLimitExpiry
  split
  · split_ifs
    · split
      · split <;> exact congr h rfl rfl
      · exact path h _
    · exact path h _
    · exact h
  · exact h

theorem classifyHeld (h : s.RegionLogLaw) (a p) : (s.classifyHeld a p).RegionLogLaw := by
  unfold Chip.classifyHeld Chip.acceptAccess
  split_ifs
  · split <;> exact path h _
  all_goals exact path h _

theorem forwardRead (h : s.RegionLogLaw) : s.forwardRead.RegionLogLaw := by
  unfold Chip.forwardRead
  split
  · split_ifs
    · exact classifyHeld h _ _
    · exact congr h rfl rfl
    · exact h
  · exact h

theorem forwardWrite (h : s.RegionLogLaw) : s.forwardWrite.RegionLogLaw := by
  unfold Chip.forwardWrite
  split
  · exact treatWrite h _ _ _
  · split
    · exact treatWrite h _ _ _
    · exact h
  · exact h

theorem endOrdered (h : s.RegionLogLaw) (f a) : (s.endOrdered f a).RegionLogLaw := by
  unfold Chip.endOrdered
  split
  · split
    · exact lanes h (s.examineWords_beyond _ _)
    · exact lanes h (s.endOrderedWrite_beyond _)
  all_goals exact lanes h (s.endOrderedWrite_beyond _)

theorem forwardedWriteAnswer (h : s.RegionLogLaw) (a) : (s.forwardedWriteAnswer a).RegionLogLaw := by
  unfold Chip.forwardedWriteAnswer
  split
  · exact answered h _ fun _ _ hu => hu
  · split
    · split
      · exact answered h _ fun _ u hu => leaveQueue (s := u.freeForward) (path hu _) _
      · exact answered h _ fun _ _ hu => loseWrite hu _
      · exact h
    · exact answered h _ fun _ _ hu => endOrdered hu _ _

/-! ## The control page and the lanes -/

theorem submit (h : s.RegionLogLaw) : s.submit.RegionLogLaw := by
  unfold Chip.submit
  split
  · exact h
  · rename_i l v ws _
    have hp := popWord h ws
    dsimp only
    split_ifs
    · exact mailboxFault hp l
    · exact lanes (by exact congr hp rfl rfl) (Chip.continueTake_beyond _)
    · refine lanes ?_ (Chip.nextWords_beyond _)
      unfold Chip.queueDescriptor
      dsimp only
      split
      · exact endChain (by exact congr hp rfl rfl) l
      · exact congr hp rfl rfl

theorem flush (h : s.RegionLogLaw) : s.flush.RegionLogLaw := by
  unfold Chip.flush
  split
  · exact h
  · rename_i l v ws _
    have hp := popWord h ws
    refine lanes (congr hp ?_ ?_) (Chip.continueTake_beyond _)
    all_goals (split <;> rfl)

theorem noRequest (h : s.RegionLogLaw) : s.noRequest.RegionLogLaw := by
  unfold Chip.noRequest
  split
  · exact h
  · exact mailboxFault (popWord h _) _

theorem consumeWord (h : s.RegionLogLaw) : s.consumeWord.RegionLogLaw := by
  unfold Chip.consumeWord
  split
  · rename_i ws _
    have hp := popWord h ws
    dsimp only
    split
    · exact lanes hp (Chip.nextWords_beyond _)
    · split
      · exact lanes (by exact congr hp rfl rfl) (Chip.nextWords_beyond _)
      · split
        · exact hand (path hp _) _ _ _ fun u hu => lanes hu u.nextWords_beyond
        · exact h
  · exact h

theorem configurePath (h : s.RegionLogLaw) (l) : (s.configurePath l).RegionLogLaw := by
  unfold Chip.configurePath
  split
  · exact h
  · split
    · exact finishJob (path h _) _ _ _
    · exact finishJob h _ _ _

theorem nullJob (h : s.RegionLogLaw) (l) : (s.nullJob l).RegionLogLaw := by
  unfold Chip.nullJob
  split
  · exact finishJob h _ _ _
  · exact h

theorem fetchOwnerAnswered (h : s.RegionLogLaw) (o a) : (s.fetchOwnerAnswered o a).RegionLogLaw := by
  unfold Chip.fetchOwnerAnswered
  split
  · exact fetchAnswered h _ _
  · exact h

theorem outcomeOwnerAnswered (h : s.RegionLogLaw) (o a) : (s.outcomeOwnerAnswered o a).RegionLogLaw := by
  unfold Chip.outcomeOwnerAnswered
  split
  · exact outcomeAnswered h _ _
  · exact h

theorem refusedOver (h : s.RegionLogLaw) : s.refusedOver.RegionLogLaw := presentLane (by exact congr h rfl rfl)

theorem outcomeWriteAnswer (h : s.RegionLogLaw) (a) : (s.outcomeWriteAnswer a).RegionLogLaw := by
  unfold Chip.outcomeWriteAnswer
  split
  · exact answered h _ fun _ _ hu => outcomeOwnerAnswered (accessOver hu _) _ _
  · split
    · split
      · exact outcomeOwnerAnswered (accessOver (refusedOver h) _) _ _
      · exact h
    · exact answered h _ fun _ _ hu => hu

theorem directWriteAnswer (h : s.RegionLogLaw) (a) : (s.directWriteAnswer a).RegionLogLaw := by
  unfold Chip.directWriteAnswer
  split
  · exact answered h _ fun _ _ hu => directAnswered (accessOver hu _) _
  · split
    · split
      · exact directAnswered (accessOver (refusedOver h) _) _
      · exact h
    · exact answered h _ fun _ _ hu => hu

/-! ## The Memory Port -/

theorem grantPort (h : s.RegionLogLaw) : s.grantPort.RegionLogLaw := by
  unfold Chip.grantPort
  split
  · exact h
  · split
    · exact h
    · dsimp only
      split
      · exact stopWrite (by exact congr h rfl rfl) _
      · exact grantTo (by exact congr h rfl rfl) _

theorem retryReissue (h : s.RegionLogLaw) : s.retryReissue.RegionLogLaw := by
  unfold Chip.retryReissue
  split
  · exact h
  · split_ifs
    · exact h
    all_goals exact congr h rfl rfl

theorem retryExhausted (h : s.RegionLogLaw) : s.retryExhausted.RegionLogLaw := by
  unfold Chip.retryExhausted
  split
  · exact answered h _ fun _ _ hu => ownerFault hu _
  · exact h

/-! ## The region jobs (R6 to R11) -/

/-- A region job that gives its entry neither of the two states, or leaves it as it was, keeps the law. -/
theorem regionJob_of_plain (h : s.RegionLogLaw) (l k) {j : Descriptor → Region → JobOutcome × Region}
    (hj : ∀ d r, (j d r).2 = r ∨ ((j d r).2.state ≠ .capturing ∧ (j d r).2.state ≠ .restoring)) :
    (s.regionJob l k j).RegionLogLaw := by
  refine regionJob h l k j fun d n hn => ?_
  rcases hj d s.regions[n] with e | ⟨hc, hr⟩
  · rw [e]; exact h ⟨n, hn⟩
  · exact ⟨fun x => absurd x hc, fun x => absurd x hr⟩

theorem defineRegion (h : s.RegionLogLaw) (l) : (s.regionJob l .defineRegion s.defineRegionJob).RegionLogLaw := by
  refine regionJob_of_plain h l _ fun d r => ?_
  unfold Chip.defineRegionJob
  split_ifs
  case neg => exact .inr ⟨nofun, nofun⟩
  all_goals exact .inl rfl

theorem startCapture (h : s.RegionLogLaw) (l) :
    (s.regionJob l .startCapture fun _ r => s.startCaptureJob r).RegionLogLaw := by
  refine regionJob h l _ _ fun d n hn => ?_
  unfold Chip.startCaptureJob
  split
  case h_5 =>
    split
    case isTrue ha => exact ⟨fun _ => ha, nofun⟩
    case isFalse => exact h ⟨n, hn⟩
  all_goals exact h ⟨n, hn⟩

theorem stopCapture (h : s.RegionLogLaw) (l) : (s.regionJob l .stopCapture fun _ r => stopCaptureJob r).RegionLogLaw := by
  refine regionJob_of_plain h l _ fun d r => ?_
  unfold stopCaptureJob
  split
  case h_1 => exact .inr ⟨nofun, nofun⟩
  all_goals exact .inl rfl

theorem clearFault (h : s.RegionLogLaw) (l) : (s.regionJob l .clearFault fun _ r => clearFaultJob r).RegionLogLaw := by
  refine regionJob_of_plain h l _ fun d r => ?_
  unfold clearFaultJob
  split
  case h_1 => exact .inr ⟨nofun, nofun⟩
  all_goals exact .inl rfl

theorem deleteRegion (h : s.RegionLogLaw) (l) :
    (s.regionJob l .deleteRegion fun _ r => s.deleteRegionJob r).RegionLogLaw := by
  refine regionJob_of_plain h l _ fun d r => ?_
  unfold Chip.deleteRegionJob
  split
  case h_4 | h_5 =>
    split
    · exact .inl rfl
    · exact .inr ⟨nofun, nofun⟩
  all_goals exact .inl rfl

/-! ## Captures and log jobs -/

theorem captureRequest (h : s.RegionLogLaw) : s.captureRequest.RegionLogLaw := by
  unfold Chip.captureRequest
  split
  · exact h
  · split
    · exact h
    · dsimp only
      split
      · exact stallRequest (by exact congr h rfl rfl) _
      · exact takeCapture (by exact congr h rfl rfl) _

theorem stallTimerExpiry (h : s.RegionLogLaw) : s.stallTimerExpiry.RegionLogLaw := by
  unfold Chip.stallTimerExpiry
  split
  case isTrue ha => exact breakLog h (notRestoring h (by rw [ha.2]; decide)) _
  case isFalse => exact h

theorem attachAccept (h : s.RegionLogLaw) {d} (hd : attachCheck d s = .done) : (attachAccept d s).RegionLogLaw := by
  have hu := unset_of_attachCheck hd
  exact of_quiet' (quiet h (by rw [hu]; decide) (by rw [hu]; decide)) rfl

theorem adoptAccept (h : s.RegionLogLaw) {d} (hd : adoptCheck d s = .done) : (adoptAccept d s).RegionLogLaw := by
  have hu := unset_of_adoptCheck hd
  exact of_quiet' (quiet h (by rw [hu]; decide) (by rw [hu]; decide)) rfl

/-- The disarm request leaves no region CAPTURING, and with the log not ROLLING none is RESTORING (R14). -/
theorem quiet_disarm (h : s.RegionLogLaw) (hl : s.log.state ≠ .rolling) : Quiet s.disarm := fun n => by
  rw [Chip.disarm_regions, region_map, Region.disarmed_eq]
  split_ifs with hc
  · exact ⟨nofun, nofun⟩
  · exact ⟨hc, notRestoring h hl n⟩

theorem detachAccept (h : s.RegionLogLaw) {d} (hd : detachCheck d s = .done) : (detachAccept d s).RegionLogLaw := by
  have hl : s.log.state ≠ .rolling := fun hr => by
    simp [detachCheck, hr] at hd
  unfold Sys2Proof.Machine.detachAccept
  refine endLogJob (of_quiet' (s := s.disarm) (quiet_disarm h hl) ?_) _ _
  exact (Chip.answerAll_frame _).1

/-- The restore entry request leaves no region CAPTURING, and the log is ROLLING from then on (R12). -/
theorem rollbackAccept (d) : (rollbackAccept d s).RegionLogLaw := fun n => by
  refine ⟨fun hc => ?_, fun _ => rfl⟩
  have he : (Sys2Proof.Machine.rollbackAccept d s).regions[n] = s.regions[n].enterRestore := region_map _ _ n
  rw [he] at hc
  obtain ⟨hidle, hcap, hrest⟩ := Region.enterRestore_entered s.regions[n]
  cases hs : s.regions[n].state
  case idle => rw [hidle hs] at hc; cases hc
  case capturing => rw [hcap hs] at hc; cases hc
  case free => rw [hrest (.inl hs), hs] at hc; cases hc
  case restoring => rw [hrest (.inr (.inl hs)), hs] at hc; cases hc
  case faulted => rw [hrest (.inr (.inr hs)), hs] at hc; cases hc

theorem watch (h : s.RegionLogLaw) (set) : (s.watch set).RegionLogLaw := path h _

theorem voidingStart (h : s.RegionLogLaw) : s.voidingStart.RegionLogLaw := by
  unfold Chip.voidingStart
  split
  · split
    · exact issueWrite (by exact congr h rfl rfl) _
    · exact h
  · exact h

theorem markAppend (h : s.RegionLogLaw) : s.markAppend.RegionLogLaw := by
  unfold Chip.markAppend
  split
  · split
    · dsimp only
      split <;> exact endLogJob (by exact congr h rfl rfl) _ _
    · exact h
  · exact h

theorem endBeside (h : s.RegionLogLaw) (l o r) : (Chip.endBeside l o r s).RegionLogLaw :=
  finishJob (by exact congr h rfl rfl) _ _ _

theorem releaseStep (h : s.RegionLogLaw) {finish : JobOutcome → Word → Chip → Chip}
    (hf : ∀ o r (u : Chip), u.RegionLogLaw → (finish o r u).RegionLogLaw) (d) : (Chip.releaseStep finish d s).RegionLogLaw := by
  unfold Chip.releaseStep
  split
  · exact hf _ _ _ h
  · split
    · exact hf _ _ _ h
    · exact retake (hf _ _ _ (by exact congr h rfl rfl))

theorem release (h : s.RegionLogLaw) : s.release.RegionLogLaw := by
  unfold Chip.release
  split
  · split
    · split
      · exact releaseStep h (fun o r u hu => endBeside hu _ o r) _
      · exact h
    · exact h
  · split
    · split
      · exact h
      · split
        · exact h
        · dsimp only
          split
          · exact releaseStep (by exact congr h rfl rfl) (fun o r u hu => endBeside hu _ o r) _
          · exact congr h rfl rfl
    · exact grantLog h _ _ _ fun _ d u hu => releaseStep hu (fun o r v hv => endLogJob hv o r) d

theorem rollbackDrainEnd (h : s.RegionLogLaw) : s.rollbackDrainEnd.RegionLogLaw := by
  unfold Chip.rollbackDrainEnd
  split
  · exact h
  · split
    case isTrue hd =>
      obtain ⟨_, hr, _⟩ := hd
      dsimp only
      split
      · exact finishRollback h hr _
      · exact congr h rfl rfl
    case isFalse => exact h

theorem selectPassStart (h : s.RegionLogLaw) : s.selectPassStart.RegionLogLaw := by
  unfold Chip.selectPassStart
  split
  · split
    · exact readScanSlot h _
    · exact h
  · exact h

/-! ## The Copy Engine and the Attention Unit -/

theorem runCopy (h : s.RegionLogLaw) (l d) : (s.runCopy l d).RegionLogLaw := by
  unfold Chip.runCopy
  split
  · exact finishJob h _ _ _
  · exact beginSpan (by exact congr h rfl rfl)

theorem copyJob (h : s.RegionLogLaw) : s.copyJob.RegionLogLaw := by
  unfold Chip.copyJob
  split
  · exact h
  · split
    · exact h
    · split
      · exact h
      · exact runCopy (by exact congr h rfl rfl) _ _

theorem windowExpiry (h : s.RegionLogLaw) : s.windowExpiry.RegionLogLaw := by
  unfold Chip.windowExpiry
  split
  · dsimp only
    split
    · exact beginSpan (by exact congr h rfl rfl)
    · exact congr h rfl rfl
  · exact h

theorem cancelCopy (h : s.RegionLogLaw) (l) : (s.cancelCopy l).RegionLogLaw := by
  unfold Chip.cancelCopy
  split
  · exact h
  · split
    · exact h
    · exact cancelNow (takeAheads h _) _

theorem configureAttention (h : s.RegionLogLaw) (l) : (s.configureAttention l).RegionLogLaw := by
  unfold Chip.configureAttention
  split
  · exact h
  · dsimp only
    split_ifs
    · exact h
    · exact congr h rfl rfl
    · exact takeConfigure (by exact congr h rfl rfl) _
    · exact finishJob h _ _ _

theorem decidePosting (h : s.RegionLogLaw) (x) : (s.decidePosting x).RegionLogLaw := by
  unfold Chip.decidePosting
  dsimp only
  split
  · split <;> exact issuePosting (by exact congr h rfl rfl) _
  · split
    · exact issuePosting (by exact congr h rfl rfl) _
    · exact h

theorem attentionPosting (h : s.RegionLogLaw) : s.attentionPosting.RegionLogLaw := by
  unfold Chip.attentionPosting
  split
  · split
    · exact h
    · exact lanes (decidePosting (by exact congr h rfl rfl) _) (Chip.serveHanding_beyond _ _)
  · exact h

/-! ## Every command -/

theorem after (h : s.RegionLogLaw) (i : Instr) : (s.after i).RegionLogLaw := by
  cases i with
  | pinReset page => exact of_replicate_atReset rfl
  | resetPart => exact resetPart h
  | softResetPortIdle => exact softResetPortIdle h
  | startUp a => exact answered h _ fun _ _ hu => endStartUp hu
  | statusWordWrite => exact statusWordWrite h
  | hostAccessArrival a => exact hostAccess h a
  | holdLimitExpiry => exact holdLimitExpiry h
  | forwardRead => exact forwardRead h
  | forwardWrite => exact forwardWrite h
  | orderedReadAnswer a => exact answered h _ fun _ _ hu => path hu _
  | forwardedWriteAnswer a => exact forwardedWriteAnswer h a
  | submit => exact submit h
  | flush => exact flush h
  | noRequest => exact noRequest h
  | consumeWord => exact consumeWord h
  | memoryPortGrant => exact grantPort h
  | retryReissue => exact retryReissue h
  | retryLimitExhausted => exact retryExhausted h
  | configurePath l => exact configurePath h l
  | defineRegion l => exact defineRegion h l
  | startCapture l => exact startCapture h l
  | stopCapture l => exact stopCapture h l
  | clearFault l => exact clearFault h l
  | deleteRegion l => exact deleteRegion h l
  | captureRequest => exact captureRequest h
  | captureTransferAnswer a => exact answered h _ fun _ _ hu => captureAnswered hu a
  | stallTimerExpiry => exact stallTimerExpiry h
  | attachLog => exact grantLog h _ _ _ (acceptLog fun _ _ hu hd => attachAccept hu hd)
  | voidingStart => exact voidingStart h
  | voidWriteAnswer a => exact answered h _ fun _ _ hu => voidAnswered hu a
  | detachLog => exact grantLog h _ _ _ (acceptLog fun _ _ hu hd => detachAccept hu hd)
  | mark => exact grantLog h _ _ _ (acceptLog fun _ _ hu _ => congr hu rfl rfl)
  | markAppend => exact markAppend h
  | release => exact release h
  | reportLog => exact grantLog h _ _ _ fun _ _ _ hu => issueReport hu _
  | reportWriteAnswer a => exact answered h _ fun _ _ hu => reportAnswered hu a
  | rollback => exact grantLog h _ _ _ (acceptLog fun d _ _ _ => rollbackAccept d)
  | rollbackDrainEnd => exact rollbackDrainEnd h
  | restoreAccessAnswer a => exact answered h _ fun _ _ hu => restoreAnswered hu a
  | markerWriteAnswer a => exact answered h _ fun _ _ hu => markerAnswered hu a
  | adoptLog => exact grantLog h _ _ _ (acceptLog fun _ _ hu hd => adoptAccept hu hd)
  | selectPassStart => exact selectPassStart h
  | scanReadAnswer a => exact answered h _ fun _ _ hu => scanAnswered hu a
  | copy => exact copyJob h
  | frontierTransferAnswer a => exact answered h _ fun _ _ hu => frontAnswered hu a
  | pacingWindowExpiry => exact windowExpiry h
  | copyAheadRequest => exact copyAheadRequest h
  | copyAheadTransferAnswer a => exact answered h _ fun _ _ hu => aheadAnswered hu a
  | cancelCopy l => exact cancelCopy h l
  | descriptorFetchAnswer a => exact answered h _ fun _ _ hu => fetchOwnerAnswered (accessOver hu _) _ a
  | null l => exact nullJob h l
  | outcomeWriteAnswer a => exact outcomeWriteAnswer h a
  | directOutcomeWriteAnswer a => exact directWriteAnswer h a
  | configureAttention l => exact configureAttention h l
  | attentionPosting => exact attentionPosting h
  | attentionWriteAnswer a => exact answered h _ fun _ _ hu => attentionAnswered hu a
  | statusWordWriteAnswer a => exact answered h _ fun _ _ hu => path hu _

end Chip.RegionLogLaw

/-- Settles O56: every command keeps the law, by cases of the command. -/
theorem regionLogLawKept : Obligations.RegionLogLawKept :=
  fun _ _ h ht => step_keeps (P := Chip.RegionLogLaw) (fun i _ hs => hs.after i) h ht

end Sys2Proof.Machine

/-! PROOF. The region jobs (O20 to O23): what `Chip.regionJob` can do, and then each job as a function of its entry. -/

namespace Sys2Proof.Machine
variable {s : Chip} {l : Lane} {addr : Word} {d : Descriptor} {k : JobKind} {job : Descriptor → Region → JobOutcome × Region}
  {o : JobOutcome}

/-! ## A region job in two steps (R6) -/

/-- From `s` to `t` a region job ended with an outcome and result 0, and left this Region Table; of the rest only its lane and what
waits to be issued changed. -/
def RegionJobEnds (s t : Chip) (l : Lane) (addr : Word) (d : Descriptor) (o : JobOutcome) (regions : Vector Region 16) : Prop :=
  HandsBack s t l addr d o 0#32 ∧ t.regions = regions ∧ t.log = s.log ∧ SameBesideHandBack s t

/-- Handing back from a part that differs in its Region Table alone. -/
theorem Chip.finishJob_regionJobEnds (h : s.HasJob l .run addr d) (o : JobOutcome) (regions : Vector Region 16) :
    RegionJobEnds s (Chip.finishJob { s with regions := regions } l o 0#32) l addr d o regions := by
  obtain ⟨hback, hsame, hregions, hlog⟩ := Chip.finishJob_spec (s := { s with regions := regions }) o 0#32 h.2
  exact ⟨hback, hregions, hlog, hsame⟩

theorem Chip.regionJob_of_badNumber (h : s.HasJob l .run addr d) (hk : jobKind d.code = some k) (hn : 15 < d.a.toNat) :
    RegionJobEnds s (s.regionJob l k job) l addr d .badOperand s.regions := by
  unfold Chip.regionJob
  rw [h.jobIn hk]
  dsimp only
  rw [dif_neg (by omega)]
  exact Chip.finishJob_regionJobEnds h .badOperand s.regions

theorem Chip.regionJob_of_entry (h : s.HasJob l .run addr d) (hk : jobKind d.code = some k) {n : Fin 16} (hn : d.a.toNat = n.val)
    {r : Region} (hj : job d s.regions[n] = (o, r)) :
    RegionJobEnds s (s.regionJob l k job) l addr d o (s.regions.set n r) := by
  have hlt : d.a.toNat < 16 := hn ▸ n.isLt
  obtain rfl : n = ⟨d.a.toNat, hlt⟩ := Fin.ext hn.symm
  unfold Chip.regionJob
  rw [h.jobIn hk]
  dsimp only
  rw [dif_pos hlt]
  have hj' : job d s.regions[d.a.toNat] = (o, r) := hj
  rw [hj']
  exact Chip.finishJob_regionJobEnds h o _

/-- A job that leaves its entry as it was leaves the whole table. -/
theorem Chip.regionJob_of_kept (h : s.HasJob l .run addr d) (hk : jobKind d.code = some k) {n : Fin 16} (hn : d.a.toNat = n.val)
    (hj : job d s.regions[n] = (o, s.regions[n])) :
    RegionJobEnds s (s.regionJob l k job) l addr d o s.regions := by
  have he := Chip.regionJob_of_entry h hk hn hj
  rwa [show s.regions.set n s.regions[n] = s.regions from Vector.set_getElem_self _] at he

/-- Whatever the job decides, the log and everything else beside the hand-back stay. -/
theorem Chip.regionJob_frame (h : s.HasJob l .run addr d) (hk : jobKind d.code = some k) :
    (s.regionJob l k job).log = s.log ∧ SameBesideHandBack s (s.regionJob l k job) := by
  by_cases hn : d.a.toNat < 16
  · exact (Chip.regionJob_of_entry (job := job) (n := ⟨_, hn⟩) h hk rfl rfl).2.2
  · exact (Chip.regionJob_of_badNumber (job := job) h hk (by omega)).2.2

/-! ## DEFINE REGION (R7) -/

theorem Chip.defineRegionJob_of_taken {r : Region} (hr : r.state ≠ .free) : s.defineRegionJob d r = (.regionState, r) := by
  unfold Chip.defineRegionJob
  rw [if_pos hr]

theorem Chip.defineRegionJob_of_misaligned {r : Region} (hr : r.state = .free) (hb : d.b.toNat % 64 ≠ 0) :
    s.defineRegionJob d r = (.alignment, r) := by
  unfold Chip.defineRegionJob
  rw [if_neg (not_not.2 hr), if_pos hb]

/-- The range query of DEFINE REGION (R3, R4). -/
def Chip.DefineMeets (s : Chip) (d : Descriptor) : Prop :=
  s.regionOverlaps d.b.toNat (64 * d.c.toNat) = true ∨ s.pageOverlaps d.b.toNat (64 * d.c.toNat) = true ∨
    s.logRingOverlaps d.b.toNat (64 * d.c.toNat) = true ∨ s.attnRingOverlaps d.b.toNat (64 * d.c.toNat) = true

/-- LENGTH is in range and the last byte lies below 4 GiB (step 3 of R7). -/
def Descriptor.DefinesRange (d : Descriptor) : Prop :=
  0 < d.c.toNat ∧ d.c.toNat ≤ 262144 ∧ d.b.toNat + 64 * d.c.toNat - 1 ≤ 0xFFFFFFFF

theorem Descriptor.not_definesRange_iff :
    ¬d.DefinesRange ↔ d.c.toNat = 0 ∨ 262144 < d.c.toNat ∨ 0xFFFFFFFF < d.b.toNat + 64 * d.c.toNat - 1 := by
  unfold Descriptor.DefinesRange
  omega

/-- The operand check as `Chip.defineRegionJob` writes it. -/
theorem refusedRange_iff :
    (d.c.toNat = 0 ∨ 262144 < d.c.toNat ∨ passes4GiB d.b.toNat (64 * d.c.toNat) = true) ↔ ¬d.DefinesRange := by
  rw [Descriptor.not_definesRange_iff, passes4GiB, decide_eq_true_iff]
  omega

theorem Chip.defineRegionJob_of_badRange {r : Region} (hr : r.state = .free) (hb : d.b.toNat % 64 = 0) (hd : ¬d.DefinesRange) :
    s.defineRegionJob d r = (.badOperand, r) := by
  unfold Chip.defineRegionJob
  rw [if_neg (not_not.2 hr), if_neg (not_not.2 hb), if_pos (refusedRange_iff.2 hd)]

theorem Chip.defineRegionJob_of_meets {r : Region} (hr : r.state = .free) (hb : d.b.toNat % 64 = 0) (hd : d.DefinesRange)
    (hm : s.DefineMeets d) : s.defineRegionJob d r = (.overlap, r) := by
  unfold Chip.defineRegionJob
  rw [if_neg (not_not.2 hr), if_neg (not_not.2 hb), if_neg (mt refusedRange_iff.1 (not_not.2 hd)),
    if_pos (by simpa [Chip.DefineMeets, or_assoc] using hm)]

theorem Chip.defineRegionJob_of_clear {r : Region} (hr : r.state = .free) (hb : d.b.toNat % 64 = 0) (hd : d.DefinesRange)
    (hm : ¬s.DefineMeets d) :
    s.defineRegionJob d r = (.done, { state := .idle, base := d.b, length := d.c.toNat, resume := r.resume }) := by
  unfold Chip.defineRegionJob
  rw [if_neg (not_not.2 hr), if_neg (not_not.2 hb), if_neg (mt refusedRange_iff.1 (not_not.2 hd)),
    if_neg (by simpa [Chip.DefineMeets, or_assoc] using hm)]

/-- Settles O20: the branches of the job, in the order of its checks. -/
theorem defineRegion : Obligations.DefineRegion := by
  intro s l addr d h hcode
  have hk : jobKind d.code = some .defineRegion := by rw [hcode]; rfl
  obtain ⟨hlog, hsame⟩ := Chip.regionJob_frame (job := s.chip.defineRegionJob) h hk
  refine ⟨s.chip.regionJob l .defineRegion s.chip.defineRegionJob, rfl, hlog, hsame, ?_⟩
  rintro _ rfl
  have refused {n : Fin 16} (hn : d.a.toNat = n.val) {o : JobOutcome}
      (hj : s.chip.defineRegionJob d s.chip.regions[n] = (o, s.chip.regions[n])) :=
    And.imp_right (fun hr (_ : o ≠ .done) => hr.1) (Chip.regionJob_of_kept h hk hn hj)
  refine ⟨fun hn => ?_, fun n hn => ⟨fun hr => ?_, fun hr hb => ?_, fun hr hb => ⟨fun hd => ?_, fun h₁ h₂ h₃ => ?_⟩⟩⟩
  · exact (Chip.regionJob_of_badNumber h hk hn).imp_right fun hr _ => hr.1
  · exact refused hn (Chip.defineRegionJob_of_taken hr)
  · exact refused hn (Chip.defineRegionJob_of_misaligned hr hb)
  · exact refused hn (Chip.defineRegionJob_of_badRange hr hb (Descriptor.not_definesRange_iff.2 hd))
  · rintro _ rfl
    refine ⟨fun hm => refused hn (Chip.defineRegionJob_of_meets hr hb ⟨h₁, h₂, h₃⟩ hm), fun hm => ?_⟩
    obtain ⟨hback, hregions, _⟩ := Chip.regionJob_of_entry h hk hn (Chip.defineRegionJob_of_clear hr hb ⟨h₁, h₂, h₃⟩ hm)
    exact ⟨⟨hback, fun hne => absurd rfl hne⟩, hregions⟩

/-! ## START CAPTURE and STOP CAPTURE (R8, R9) -/

theorem Chip.startCaptureJob_of_unfit {r : Region} (hr : r.state = .free ∨ r.state = .restoring ∨ r.state = .faulted) :
    s.startCaptureJob r = (.regionState, r) := by
  unfold Chip.startCaptureJob
  rcases hr with hr | hr | hr <;> rw [hr]

theorem Chip.startCaptureJob_of_capturing {r : Region} (hr : r.state = .capturing) : s.startCaptureJob r = (.done, r) := by
  unfold Chip.startCaptureJob
  rw [hr]

theorem Chip.startCaptureJob_of_idle {r : Region} (hr : r.state = .idle) :
    s.startCaptureJob r = if s.log.state = .attached then (.done, { r with state := .capturing }) else (.logState, r) := by
  unfold Chip.startCaptureJob
  rw [hr]

theorem stopCaptureJob_of_unfit {r : Region} (hr : r.state = .free ∨ r.state = .restoring ∨ r.state = .faulted) :
    stopCaptureJob r = (.regionState, r) := by
  unfold stopCaptureJob
  rcases hr with hr | hr | hr <;> rw [hr]

theorem stopCaptureJob_of_idle {r : Region} (hr : r.state = .idle) : stopCaptureJob r = (.done, r) := by
  unfold stopCaptureJob
  rw [hr]

theorem stopCaptureJob_of_capturing {r : Region} (hr : r.state = .capturing) :
    stopCaptureJob r = (.done, { r with state := .idle }) := by
  unfold stopCaptureJob
  rw [hr]

/-- Settles O21: each job by the state of its entry. -/
theorem startStopCapture : Obligations.StartStopCapture := by
  rintro s l addr d h _ rfl
  refine ⟨fun hcode => ?_, fun hcode => ?_⟩
  · have hk : jobKind d.code = some .startCapture := by rw [hcode]; rfl
    refine ⟨s.chip.regionJob l .startCapture fun _ r => s.chip.startCaptureJob r, rfl, Chip.regionJob_of_badNumber h hk, ?_⟩
    rintro n hn _ rfl
    refine ⟨fun hr => ?_, fun hr => ?_, fun hr hl => ?_, fun hr hl => ?_⟩
    · exact Chip.regionJob_of_kept h hk hn (Chip.startCaptureJob_of_unfit hr)
    · exact Chip.regionJob_of_kept h hk hn (Chip.startCaptureJob_of_capturing hr)
    · exact Chip.regionJob_of_kept h hk hn ((Chip.startCaptureJob_of_idle hr).trans (if_neg hl))
    · exact Chip.regionJob_of_entry h hk hn ((Chip.startCaptureJob_of_idle hr).trans (if_pos hl))
  · have hk : jobKind d.code = some .stopCapture := by rw [hcode]; rfl
    refine ⟨s.chip.regionJob l .stopCapture fun _ r => stopCaptureJob r, rfl, Chip.regionJob_of_badNumber h hk, ?_⟩
    rintro n hn _ rfl
    refine ⟨fun hr => ?_, fun hr => ?_, fun hr => ?_⟩
    · exact Chip.regionJob_of_kept h hk hn (stopCaptureJob_of_unfit hr)
    · exact Chip.regionJob_of_kept h hk hn (stopCaptureJob_of_idle hr)
    · exact Chip.regionJob_of_entry h hk hn (stopCaptureJob_of_capturing hr)

/-! ## CLEAR FAULT (R10) -/

theorem clearFaultJob_of_faulted {r : Region} (hr : r.state = .faulted) : clearFaultJob r = (.done, { r with state := .idle }) := by
  unfold clearFaultJob
  rw [hr]

theorem clearFaultJob_of_not_faulted {r : Region} (hr : r.state ≠ .faulted) : clearFaultJob r = (.regionState, r) := by
  unfold clearFaultJob
  split
  case h_1 hf => exact absurd hf hr
  all_goals rfl

/-- Any non-FREE region counts in the range query of R3. -/
theorem Chip.regionOverlaps_of_entry {n : Fin 16} {base len : Nat} (hr : s.regions[n].state ≠ .free)
    (ho : overlaps s.regions[n].base.toNat (64 * s.regions[n].length) base len = true) : s.regionOverlaps base len = true := by
  unfold Chip.regionOverlaps
  refine List.any_eq_true.2 ⟨s.regions[n], Vector.mem_toList_iff.2 (Vector.getElem_mem _), ?_⟩
  rw [ho, Bool.and_true, bne_iff_ne]
  exact hr

/-- Settles O22: the job by whether its entry is FAULTED, and the range query by the entry. -/
theorem clearFault : Obligations.ClearFault := by
  refine ⟨fun s l addr d h hcode => ?_, fun c n base len hr ho => Chip.regionOverlaps_of_entry (by rw [hr]; decide) ho⟩
  have hk : jobKind d.code = some .clearFault := by rw [hcode]; rfl
  obtain ⟨hlog, hsame⟩ := Chip.regionJob_frame (job := fun _ r => clearFaultJob r) h hk
  refine ⟨s.chip.regionJob l .clearFault fun _ r => clearFaultJob r, rfl, hlog, hsame, fun hn => ?_, fun n hn =>
    ⟨fun hr => ?_, fun hr => ?_⟩⟩
  · exact (Chip.regionJob_of_badNumber h hk hn).imp_right And.left
  · exact (Chip.regionJob_of_entry h hk hn (clearFaultJob_of_faulted hr)).imp_right And.left
  · exact (Chip.regionJob_of_kept h hk hn (clearFaultJob_of_not_faulted hr)).imp_right And.left

/-! ## DELETE REGION (R11) -/

theorem Chip.deleteRegionJob_of_unfit {r : Region} (hr : r.state = .free ∨ r.state = .capturing ∨ r.state = .restoring) :
    s.deleteRegionJob r = (.regionState, r) := by
  unfold Chip.deleteRegionJob
  rcases hr with hr | hr | hr <;> rw [hr]

theorem Chip.deleteRegionJob_of_fit {r : Region} (hr : r.state = .idle ∨ r.state = .faulted) :
    s.deleteRegionJob r =
      if s.log.state = .attached ∧ 0 < s.log.count then (.recordsHeld, r) else (.done, { r with state := .free }) := by
  unfold Chip.deleteRegionJob
  rcases hr with hr | hr <;> rw [hr]

/-- Settles O23: the job by the state of its entry, and by whether an ATTACHED log holds records. -/
theorem deleteRegion : Obligations.DeleteRegion := by
  intro s l addr d h hcode
  have hk : jobKind d.code = some .deleteRegion := by rw [hcode]; rfl
  obtain ⟨hlog, hsame⟩ := Chip.regionJob_frame (job := fun _ r => s.chip.deleteRegionJob r) h hk
  refine ⟨s.chip.regionJob l .deleteRegion fun _ r => s.chip.deleteRegionJob r, rfl, hlog, hsame, fun hn => ?_, ?_⟩
  · exact (Chip.regionJob_of_badNumber h hk hn).imp_right And.left
  rintro n hn _ rfl
  refine ⟨fun hr => ?_, fun hr => ⟨fun ha hc => ?_, fun hc => ?_⟩⟩
  · exact (Chip.regionJob_of_kept h hk hn (Chip.deleteRegionJob_of_unfit hr)).imp_right And.left
  · exact (Chip.regionJob_of_kept h hk hn ((Chip.deleteRegionJob_of_fit hr).trans (if_pos ⟨ha, hc⟩))).imp_right And.left
  · have hnone : ¬(s.chip.log.state = .attached ∧ 0 < s.chip.log.count) := fun ⟨ha, hpos⟩ => by
      rw [hc ha] at hpos
      exact absurd hpos (lt_irrefl 0)
    exact (Chip.regionJob_of_entry h hk hn ((Chip.deleteRegionJob_of_fit hr).trans (if_neg hnone))).imp_right And.left

end Sys2Proof.Machine

/-! PROOF. What both resets leave (O60): a part whose Region Table, Log Unit, Copy Engine and Lane Unit hold their reset values holds
nothing, and the reset state meets the four laws. -/

namespace Sys2Proof.Machine
variable {s : Chip}

/-! ## A part at its reset values (R15) -/

/-- The blocks that hold regions and jobs have their reset values, no upstream access is outstanding, and only start-up's status word
write requests the port. -/
structure Chip.HoldsNothing (s : Chip) : Prop where
  regions : s.regions = Vector.replicate 16 Region.atReset
  log : s.log = LogState.atReset
  copy : s.copy = CopyState.atReset
  lanes : s.lanes = LaneUnit.atReset
  requests : ∀ r ∈ s.arbiter.requests, r.owner = .startUp
  upstream : s.path.upstream = none

theorem Chip.HoldsNothing.pinReset (page : Half) : (s.pinReset page).HoldsNothing where
  regions := rfl
  log := rfl
  copy := rfl
  lanes := rfl
  requests := fun _ hr => by
    rw [List.mem_singleton.1 hr]
    rfl
  upstream := rfl

theorem Chip.HoldsNothing.beginSoftReset : s.beginSoftReset.HoldsNothing where
  regions := rfl
  log := rfl
  copy := rfl
  lanes := rfl
  requests := fun _ hr => nomatch hr
  upstream := rfl

theorem Chip.HoldsNothing.region (h : s.HoldsNothing) (n : Fin 16) : s.regions[n] = Region.atReset := by
  rw [h.regions]
  exact Vector.getElem_replicate _

theorem Chip.HoldsNothing.lane (h : s.HoldsNothing) (l : Lane) : s.lane l = LaneRec.atReset := by
  rw [Chip.lane, h.lanes]
  exact Vector.getElem_replicate _

theorem Chip.HoldsNothing.owner (h : s.HoldsNothing) : ∀ r ∈ s.waitingAccesses, r.owner = .startUp := by
  intro r hr
  rw [Chip.waitingAccesses, h.lanes, h.copy] at hr
  exact h.requests r (by simpa [LaneUnit.atReset, CopyState.atReset] using hr)

/-- A lookup finds no FREE entry (R2). -/
theorem lookupIn_eq_none_of_free {rs : List Region} (h : ∀ r ∈ rs, r.state = .free) (g : Word) : lookupIn rs g = none := by
  unfold lookupIn
  rw [Option.map_eq_none_iff, List.find?_eq_none]
  rintro ⟨r, i⟩ hr
  rw [h r (List.fst_mem_of_mem_zipIdx hr)]
  exact Bool.false_ne_true

/-- Hold applies nowhere while no region is RESTORING (R5), and so not with every entry FREE. -/
theorem Chip.HoldsNothing.holdApplies (h : s.HoldsNothing) (a : Word) : s.holdApplies a = false := by
  have hfree : ∀ r ∈ s.regions.toList, r.state = .free := by
    rw [h.regions]
    intro r hr
    rw [Vector.toList_replicate] at hr
    rw [List.eq_of_mem_replicate hr]
    rfl
  unfold Chip.holdApplies Chip.lookup
  rw [lookupIn_eq_none_of_free hfree]

/-! ## The laws at reset -/

theorem ringLaw_of_unset {l : LogState} (h : l.state = .unset)
    (h0 : l.head = 0 ∧ l.tail = 0 ∧ l.count = 0 ∧ l.checkpoints = [] ∧ l.capture = none) : l.RingLaw := by
  unfold LogState.RingLaw
  rw [h]
  exact ⟨fun _ => h0, nofun, nofun, nofun, nofun, nofun⟩

/-- With no copy active nothing waits for a copy-ahead (R106). -/
theorem writeCheckLaw_of_idle (hc : s.copy.state = .idle) (ha : s.copy.ahead = none) (hf : s.copy.front = none)
    (hm : s.copy.mode = .plain) (hu : s.path.upstream = none) : s.WriteCheckLaw := by
  unfold Chip.WriteCheckLaw
  rw [ha, hf, hm, hu]
  exact ⟨fun _ _ _ => CopyState.notCopied_idle hc _, by simp, by simp, by simp, by simp⟩

theorem withinCapacity_reset : State.reset.chip.WithinCapacity := by
  refine ⟨Nat.zero_le 4, Nat.zero_le 1024, fun l => ?_⟩
  have hl : State.reset.chip.lane l = LaneRec.atReset := Vector.getElem_replicate _
  rw [hl]
  exact Nat.zero_le 6

/-- Settles O60: both resets leave a part that holds nothing, and what follows from that. -/
theorem resetFreesRegions : Obligations.ResetFreesRegions := by
  rintro _ rfl
  have released {t : Chip} (h : t.HoldsNothing) :
      (∀ n : Fin 16, t.regions[n] = { state := .free, base := 0#32, length := 0, resume := .idle }) ∧
      (∀ l, (t.lane l).current = none) ∧ t.log.running = none ∧ t.log.waiting = [] ∧ t.copy.waiting = [] ∧
      (∀ r ∈ t.waitingAccesses, r.owner = .startUp) ∧ (∀ a, t.holdApplies a = false) ∧ t.path.upstream = none :=
    ⟨h.region, fun l => by rw [h.lane]; rfl, by rw [h.log]; rfl, by rw [h.log]; rfl, by rw [h.copy]; rfl, h.owner,
      h.holdApplies, h.upstream⟩
  refine ⟨fun page s => ⟨s.chip.pinReset page, rfl, released (.pinReset page)⟩, fun s f l v ws hw hv =>
      ⟨s.chip.beginSoftReset, ?_, released .beginSoftReset⟩,
    Chip.RegionLogLaw.of_replicate_atReset rfl, withinCapacity_reset, writeCheckLaw_of_idle rfl rfl rfl rfl rfl,
    ringLaw_of_unset rfl ⟨rfl, rfl, rfl, rfl, rfl⟩⟩
  have hreq : requestOf v = .resetPart := by
    rw [requestOf_eq]
    simp [hv]
  show Host.Outcome.next { s with chip := s.chip.resetPart } = _
  rw [Chip.resetPart, hw.nextSubmit hreq]

end Sys2Proof.Machine

/-! PROOF. DETACH LOG (O30) and the acceptance of ROLLBACK (O36): each is a log job whose grant `Chip.grantLog_of_due` decides, and
whose step changes every region by one request to the Region Table. -/

namespace Sys2Proof.Machine
variable {s : Chip} {l : Lane} {addr : Word} {d : Descriptor} {rest : List Lane}

/-! ## Log jobs whose step waits for a capture (R26) -/

theorem waitsForCapture_of_grantLog {c : Instr} {k : JobKind} {check : Descriptor → Chip → JobOutcome}
    {act : Lane → Descriptor → Chip → Chip}
    (h : ∀ s : State, exec c s = .next { s with chip := s.chip.grantLog k check true act }) : WaitsForCapture c := by
  intro s l hr hc
  rw [h, Chip.grantLog_waits hr hc]

/-! ## DETACH LOG (R39) -/

theorem detachCheck_eq_done : detachCheck d s = .done ↔ s.log.state = .attached ∨ s.log.state = .broken := by
  unfold detachCheck
  split_ifs with h <;> simp [h]

theorem detachCheck_eq_logState (ha : s.log.state ≠ .attached) (hb : s.log.state ≠ .broken) : detachCheck d s = .logState :=
  if_neg (not_or.2 ⟨ha, hb⟩)

/-- A due DETACH_LOG is refused, steps, or is granted and waits (R39, R41). -/
theorem Chip.grantLog_detach (h : s.LogJobDue l addr d rest) (hk : jobKind d.code = some .detachLog) :
    s.grantLog .detachLog detachCheck true Chip.detachStep =
      if detachCheck d s ≠ .done then (s.granted l rest).endLogJob (detachCheck d s) 0#32
      else if s.log.capture = none then detachAccept d (s.granted l rest) else s.granted l rest := by
  have hcheck : detachCheck d (s.granted l rest) = detachCheck d s := rfl
  rw [Chip.grantLog_of_due h hk fun hd => by rw [Chip.detachStep, Chip.acceptLog, hcheck, if_neg hd]]
  split_ifs with hd
  · rfl
  · rw [Chip.detachStep, Chip.acceptLog, hcheck, if_pos (not_not.1 hd)]
  · rfl

/-- The part once DETACH LOG's requests to the timer and the Region Table are taken, its waiting capture requests not yet answered. -/
def Chip.detaching (s : Chip) : Chip := Chip.disarm { s with log := { s.log with stallTimer := none } }

theorem detachAccept_eq :
    detachAccept d s =
      Chip.endLogJob { s.detaching.answerAll with log := s.detaching.answerAll.log.toUnset } .done 0#32 := rfl

/-- The disarm request, entry by entry (R14). -/
theorem Chip.detaching_region (n : Fin 16) : s.detaching.regions[n] =
    if s.regions[n].state = .capturing then { s.regions[n] with state := .idle } else s.regions[n] := by
  rw [← Region.disarmed_eq]
  exact Chip.RegionLogLaw.region_map _ _ n

/-- What the answers to the waiting requests leave alone. -/
theorem Chip.answerAll_rest (s : Chip) : s.answerAll =
    { s with log := { s.log with requests := [] }, path := s.answerAll.path, arbiter := s.answerAll.arbiter
             copy := s.answerAll.copy } := by
  obtain ⟨hregions, hlog, hlanes, hattention, hfree⟩ := s.answerAll_frame
  exact Chip.eq_of_blocks hregions rfl rfl hlog rfl hlanes hattention hfree

/-- The step of a running DETACH LOG: the job ends DONE, and the log is UNSET. -/
theorem detachAccept_spec (hr : s.log.running = some { lane := l, stage := .granted })
    (hj : ∃ p q, (s.lane l).current = some { addr := addr, desc := some d, outcome := p, result := q }) :
    let u := s.detaching.answerAll
    let t := detachAccept d s
    HandsBack u t l addr d .done 0#32 ∧ SameBesideHandBack u t ∧ t.regions = s.detaching.regions ∧
      t.log = LogState.backToUnset { s.log with stallTimer := none, requests := [] } := by
  obtain ⟨hregions, hlog, hlanes, _⟩ := s.detaching.answerAll_frame
  have hrun : s.detaching.answerAll.log.toUnset.running = some { lane := l, stage := .granted } := by
    rw [hlog]
    exact hr
  have hcur : ∃ p q, (s.detaching.answerAll.lane l).current =
      some { addr := addr, desc := some d, outcome := p, result := q } := by
    rw [Chip.lane_congr (s := s.detaching) (by rw [hlanes])]
    exact hj
  obtain ⟨hback, hsame, htable, hend⟩ := Chip.endLogJob_spec
    (s := { s.detaching.answerAll with log := s.detaching.answerAll.log.toUnset }) hrun hcur .done 0#32
  refine ⟨hback, hsame, htable.trans hregions, ?_⟩
  rw [detachAccept_eq, hend, hlog]
  rfl

/-- Settles O30: a due job by its check and by whether a capture is in progress. -/
theorem detachLog : Obligations.DetachLog := by
  refine ⟨waitsForCapture_of_grantLog fun _ => rfl, fun s l addr d rest h hcode => ?_⟩
  have hk : jobKind d.code = some .detachLog := by rw [hcode]; rfl
  have hg := Chip.grantLog_detach h hk
  refine ⟨s.chip.grantLog .detachLog detachCheck true Chip.detachStep, rfl, fun ha hb => ?_, fun hs =>
    ⟨fun hc => ?_, fun hc => ?_⟩⟩
  · rw [hg, detachCheck_eq_logState ha hb, if_pos nofun]
    exact Chip.granted_refused h.current _
  · rw [hg, if_neg (not_not.2 (detachCheck_eq_done.2 hs)), if_neg hc]
    exact s.chip.granted_jobGranted l rest
  · rw [hg, if_neg (not_not.2 (detachCheck_eq_done.2 hs)), if_pos hc]
    obtain ⟨hlane, _, _⟩ := s.chip.granted_spec l rest
    obtain ⟨p, q, hcur⟩ := h.current
    have hgcur : ((s.chip.granted l rest).lane l).current =
        some { addr := addr, desc := some d, outcome := p, result := q } := by
      rw [hlane.1.1]
      exact hcur
    obtain ⟨hback, hsame, hregions, hlog⟩ := detachAccept_spec (s := s.chip.granted l rest) rfl ⟨p, q, hgcur⟩
    let w := (s.chip.granted l rest).detaching
    exact ⟨{ w with log := { w.log with requests := [] } }, w.answerAll, Chip.detaching_region (s := s.chip.granted l rest),
      hlane, rfl, w.answerAll_answered, w.answerAll_rest, hback, hsame, hregions, hlog⟩

/-! ## ROLLBACK (R57, R58) -/

theorem LogState.stalled_iff {k : LogState} : k.stalled = true ↔ ∃ q ∈ k.requests, q.stalled = true := List.any_eq_true

/-- A log not ATTACHED and a stall refuse alike. -/
theorem rollbackCheck_eq_logState (h : s.log.state ≠ .attached ∨ ∃ q ∈ s.log.requests, q.stalled = true) :
    rollbackCheck d s = .logState := by
  unfold rollbackCheck
  by_cases ha : s.log.state = .attached
  · rw [if_neg (not_not.2 ha), if_pos (LogState.stalled_iff.2 (h.resolve_left (not_not.2 ha)))]
  · rw [if_pos ha]

theorem rollbackCheck_of_attached (ha : s.log.state = .attached) (hs : ∀ q ∈ s.log.requests, q.stalled = false) :
    rollbackCheck d s = if (s.log.find d.a).isNone then .noSuchCheckpoint else .done := by
  have hst : ¬s.log.stalled = true := fun x => by
    obtain ⟨q, hq, hqs⟩ := LogState.stalled_iff.1 x
    exact Bool.false_ne_true ((hs q hq).symm.trans hqs)
  unfold rollbackCheck
  rw [if_neg (not_not.2 ha), if_neg hst]

/-- A due ROLLBACK waits for the capture in progress, and its step then takes its checks (R57). -/
theorem Chip.grantLog_rollback (h : s.LogJobDue l addr d rest) (hk : jobKind d.code = some .rollback) :
    s.grantLog .rollback (fun _ _ => .done) true Chip.rollbackStep =
      if s.log.capture = none then
        if rollbackCheck d s = .done then rollbackAccept d (s.granted l rest)
        else (s.granted l rest).endLogJob (rollbackCheck d s) 0#32
      else s.granted l rest := by
  rw [Chip.grantLog_of_due h hk fun hd => absurd rfl hd, if_neg (not_not.2 rfl)]
  rfl

theorem Chip.grantLog_rollback_refused (h : s.LogJobDue l addr d rest) (hk : jobKind d.code = some .rollback)
    (hc : s.log.capture = none) {o : JobOutcome} (ho : rollbackCheck d s = o) (hd : o ≠ .done) :
    LogJobRefused s (s.grantLog .rollback (fun _ _ => .done) true Chip.rollbackStep) l addr d rest o := by
  rw [Chip.grantLog_rollback h hk, if_pos hc, ho, if_neg hd]
  exact Chip.granted_refused h.current o

/-- The restore entry request, entry by entry (R12). -/
theorem rollbackAccept_region (n : Fin 16) : restoreEntered s.regions[n] (rollbackAccept d s).regions[n] := by
  have he : (rollbackAccept d s).regions[n] = s.regions[n].enterRestore := Chip.RegionLogLaw.region_map _ _ n
  rw [he]
  exact Region.enterRestore_entered _

/-- Settles O36: a due job by the capture in progress, and its step by the checks in their order. -/
theorem rollbackAccepted : Obligations.RollbackAccepted := by
  refine ⟨waitsForCapture_of_grantLog fun _ => rfl, fun s l addr d rest h hcode => ?_⟩
  have hk : jobKind d.code = some .rollback := by rw [hcode]; rfl
  refine ⟨s.chip.grantLog .rollback (fun _ _ => .done) true Chip.rollbackStep, rfl, fun hc => ?_, fun hc hno => ?_,
    fun hc ha hs => ⟨fun hn => ?_, fun hn => ?_⟩⟩
  · rw [Chip.grantLog_rollback h hk, if_neg hc]
    exact s.chip.granted_jobGranted l rest
  · exact Chip.grantLog_rollback_refused h hk hc (rollbackCheck_eq_logState hno) nofun
  · have hcheck : rollbackCheck d s.chip = .noSuchCheckpoint := by
      rw [rollbackCheck_of_attached ha hs, LogState.find_eq_none.2 hn]
      rfl
    exact Chip.grantLog_rollback_refused h hk hc hcheck nofun
  · have hfind : ¬(s.chip.log.find d.a).isNone = true := fun x => by
      obtain ⟨e, he, hen⟩ := hn
      exact LogState.find_eq_none.1 (Option.isNone_iff_eq_none.1 x) e he hen
    have hcheck : rollbackCheck d s.chip = .done := by rw [rollbackCheck_of_attached ha hs, if_neg hfind]
    rw [Chip.grantLog_rollback h hk, if_pos hc, if_pos hcheck]
    exact ⟨(s.chip.granted_spec l rest).1, rollbackAccept_region (s := s.chip.granted l rest), s.chip.newRollback d.a, rfl, rfl,
      rfl, rfl, rfl, rfl, rfl⟩

end Sys2Proof.Machine

/-! PROOF. The laws of the ring and of the checkpoint list are kept by every command (O59), from what Laws/RingLaw.lean says of the
Log Unit's operations and from what the other commands leave of the log. -/

namespace Sys2Proof.Machine
variable {s t u : Chip}

-- One theorem at a time: so many short ones that wait for each other's splitters would need a thread each.
set_option Elab.async false

/-! ## Commands of the other blocks leave what the law is about -/

/-- From `s` to `t` nothing changed that the laws of the ring are about. -/
def SameRing (s t : Chip) : Prop := t.log.ringCore = s.log.ringCore

theorem SameRing.of_log (h : t.log = s.log) : SameRing s t := congrArg LogState.ringCore h

theorem SameRing.refl (s : Chip) : SameRing s s := rfl

theorem SameRing.trans (h : SameRing s t) (k : SameRing t u) : SameRing s u := Eq.trans k h

/-- A frame seen from a part that differs from its own start in nothing of the kind. -/
theorem SameRing.of_start (k : SameRing t u) (h : SameRing s t := by exact rfl) : SameRing s u := h.trans k

theorem SameRing.ringLaw (h : SameRing s t) (hs : s.log.RingLaw) : t.log.RingLaw := hs.congr h

theorem SameBeyondLanes.sameRing (h : SameBeyondLanes s t) : SameRing s t := .of_log h.2.1

namespace Chip

theorem finishJob_sameRing (s : Chip) (l o r) : SameRing s (s.finishJob l o r) := .of_log (s.finishJob_beside l o r).2.2

theorem endChain_sameRing (s : Chip) (l) : SameRing s (s.endChain l) := (s.endChain_beyond l).sameRing

/-- The owner acts on an answer within its frame. -/
theorem answered_sameRing (s : Chip) (p : Owner → Bool) {act : PortRequest → Chip → Chip} (ha : ∀ r u, SameRing u (act r u)) :
    SameRing s (s.answered p act) := by
  unfold Chip.answered
  split
  · split_ifs
    · exact .refl s
    · exact ha _ s.endTransaction
    · exact .refl s
  · exact .refl s

theorem hand_sameRing (s : Chip) (src r k) {act : Chip → Chip} (ha : ∀ u, SameRing u (act u)) :
    SameRing s (s.hand src r k act) := by
  rcases s.hand_cases src r k act with ⟨_, e⟩ | ⟨_, _, e⟩ | ⟨_, _, e⟩ <;> rw [e]
  · exact ha s
  · exact .refl s
  · exact ha (s.listRecord src r)

/-! ### The Path Controller -/

theorem classify_sameRing (s : Chip) (a p) : SameRing s (s.classify a p) := by
  rw [s.classify_rest]; exact .refl s

theorem classifyHeld_sameRing (s : Chip) (a p) : SameRing s (s.classifyHeld a p) := by
  unfold Chip.classifyHeld Chip.acceptAccess
  split_ifs
  · split <;> exact .refl s
  all_goals exact .refl s

theorem endStartUp_sameRing (s : Chip) : SameRing s s.endStartUp := by
  unfold Chip.endStartUp
  dsimp only
  split
  · split_ifs
    · exact classify_sameRing _ _ _
    · exact .refl s
  · exact .refl s

theorem softResetPortIdle_sameRing (s : Chip) : SameRing s s.softResetPortIdle := by
  unfold Chip.softResetPortIdle
  split
  · exact .of_log (issueWrite_log _ _)
  · exact .refl s

theorem statusWordWrite_sameRing (s : Chip) : SameRing s s.statusWordWrite := by
  unfold Chip.statusWordWrite
  split
  · exact .refl s
  · split_ifs
    · exact .refl s
    · exact .of_log (issueWrite_log _ _)

theorem hostAccess_sameRing (s : Chip) (a) : SameRing s (s.hostAccess a) := by
  unfold Chip.hostAccess
  split
  · exact .refl s
  · dsimp only
    split
    · exact .refl s
    · exact .refl s
    all_goals exact classify_sameRing _ _ _

theorem holdLimitExpiry_sameRing (s : Chip) : SameRing s s.holdLimitExpiry := by
  unfold Chip.holdLimitExpiry
  split
  · split_ifs
    · split
      · split_ifs <;> exact .refl s
      · exact .refl s
    all_goals exact .refl s
  · exact .refl s

theorem forwardRead_sameRing (s : Chip) : SameRing s s.forwardRead := by
  unfold Chip.forwardRead
  split
  · split_ifs
    · exact classifyHeld_sameRing _ _ _
    all_goals exact .refl s
  · exact .refl s

theorem treatWrite_sameRing (s : Chip) (a n p) : SameRing s (s.treatWrite a n p) := by
  unfold Chip.treatWrite
  split_ifs
  · exact .refl s
  · dsimp only
    split
    · split_ifs
      · exact .refl s
      · exact .of_log (issueWrite_log _ _)
    · exact .of_log (issueWrite_log _ _)

theorem forwardWrite_sameRing (s : Chip) : SameRing s s.forwardWrite := by
  unfold Chip.forwardWrite
  split
  · exact s.treatWrite_sameRing _ _ _
  · split_ifs
    · exact s.treatWrite_sameRing _ _ _
    · exact .refl s
  · exact .refl s

theorem leaveQueue_sameRing (s : Chip) (n) : SameRing s (s.leaveQueue n) := by
  unfold Chip.leaveQueue
  rw [Chip.serveQueueFull_rest]
  exact .refl s

theorem loseWrite_sameRing (s : Chip) (f) : SameRing s (s.loseWrite f) := by
  unfold Chip.loseWrite
  refine SameRing.trans ?_ (hand_sameRing _ _ _ _ fun u => .refl u)
  exact leaveQueue_sameRing _ _

theorem endOrdered_sameRing (s : Chip) (f a) : SameRing s (s.endOrdered f a) := by
  unfold Chip.endOrdered
  split
  · split_ifs
    · exact (s.examineWords_beyond _ _).sameRing
    · exact (s.endOrderedWrite_beyond _).sameRing
  all_goals exact (s.endOrderedWrite_beyond _).sameRing

theorem forwardedWriteAnswer_sameRing (s : Chip) (a) : SameRing s (s.forwardedWriteAnswer a) := by
  unfold Chip.forwardedWriteAnswer
  split
  · exact s.answered_sameRing _ fun _ u => .refl u
  · split_ifs
    · split
      · exact s.answered_sameRing _ fun _ u => leaveQueue_sameRing u.freeForward _
      · exact s.answered_sameRing _ fun _ u => u.loseWrite_sameRing _
      · exact .refl s
    · exact s.answered_sameRing _ fun _ u => u.endOrdered_sameRing _ _

theorem configurePath_sameRing (s : Chip) (l) : SameRing s (s.configurePath l) := by
  unfold Chip.configurePath
  split
  · exact .refl s
  · split <;> exact finishJob_sameRing _ _ _ _

/-! ### The control page -/

theorem popWord_sameRing (s : Chip) (ws) : SameRing s (s.popWord ws) := by
  unfold Chip.popWord
  split <;> exact .refl s

theorem mailboxFault_sameRing (s : Chip) (l) : SameRing s (s.mailboxFault l) :=
  hand_sameRing (s.beginTake l .queueFull [] false) _ _ _ fun u => u.nextDirect_beyond.sameRing

theorem queueDescriptor_sameRing (s : Chip) (l a) : SameRing s (s.queueDescriptor l a) := by
  unfold Chip.queueDescriptor
  dsimp only
  split_ifs
  · exact endChain_sameRing _ _
  · exact .refl s

theorem submit_sameRing (s : Chip) : SameRing s s.submit := by
  unfold Chip.submit
  split
  · exact .refl s
  · rename_i l v ws _
    refine SameRing.trans (s.popWord_sameRing ws) ?_
    dsimp only
    split_ifs
    · exact mailboxFault_sameRing _ _
    · exact SameRing.of_log (continueTake_beyond _).2.1
    · exact (queueDescriptor_sameRing _ _ _).trans (nextWords_beyond _).sameRing

theorem flush_sameRing (s : Chip) : SameRing s s.flush := by
  unfold Chip.flush
  split
  · exact .refl s
  · rename_i l v ws _
    have hp := s.popWord_sameRing ws
    dsimp only
    split_ifs
    · exact hp.trans (continueTake_beyond _).sameRing.of_start
    · exact hp.trans (continueTake_beyond _).sameRing.of_start

theorem noRequest_sameRing (s : Chip) : SameRing s s.noRequest := by
  unfold Chip.noRequest
  split
  · exact .refl s
  · exact (s.popWord_sameRing _).trans (mailboxFault_sameRing _ _)

theorem consumeWord_sameRing (s : Chip) : SameRing s s.consumeWord := by
  unfold Chip.consumeWord
  split
  · rename_i ws _
    have hp := s.popWord_sameRing ws
    dsimp only
    split_ifs
    · exact hp.trans (nextWords_beyond _).sameRing
    · exact hp.trans (nextWords_beyond _).sameRing
    · split
      · exact hp.trans (hand_sameRing _ _ _ _ fun u => u.nextWords_beyond.sameRing)
      · exact .refl s
  · exact .refl s

/-! ### The lanes and the region jobs -/

theorem presentLane_sameRing (s : Chip) : SameRing s s.presentLane := .of_log s.presentLane_spec.2.2.1

theorem accessOver_sameRing (s : Chip) (o) : SameRing s (s.accessOver o) := by
  unfold Chip.accessOver
  split
  · exact .refl s
  · split_ifs
    · exact .refl s
    · exact presentLane_sameRing _

theorem dispatch_sameRing (s : Chip) (l d) : SameRing s (s.dispatch l d) := by
  unfold Chip.dispatch
  split
  · exact s.finishJob_sameRing _ _ _
  · split <;> exact .refl s

theorem fetchAnswered_sameRing (s : Chip) (l a) : SameRing s (s.fetchAnswered l a) := by
  unfold Chip.fetchAnswered
  split
  · exact .refl s
  · split
    · exact s.hand_sameRing _ _ _ fun u => u.endChain_sameRing l
    · dsimp only
      split_ifs
      · exact dispatch_sameRing _ _ _
      · exact hand_sameRing _ _ _ _ fun u => u.endChain_sameRing l

theorem fetchOwnerAnswered_sameRing (s : Chip) (o a) : SameRing s (s.fetchOwnerAnswered o a) := by
  unfold Chip.fetchOwnerAnswered
  split
  · exact s.fetchAnswered_sameRing _ _
  · exact .refl s

theorem nullJob_sameRing (s : Chip) (l) : SameRing s (s.nullJob l) := by
  unfold Chip.nullJob
  split
  · exact s.finishJob_sameRing _ _ _
  · exact .refl s

theorem outcomeAnswered_sameRing (s : Chip) (l a) : SameRing s (s.outcomeAnswered l a) := by
  have hd : ∀ u : Chip, SameRing u (u.decideChain l) := fun u => (u.decideChain_beyond l).sameRing
  unfold Chip.outcomeAnswered
  split
  · split
    · exact s.hand_sameRing _ _ _ fun u => u.endChain_sameRing l
    · split_ifs
      · exact s.hand_sameRing _ _ _ hd
      · exact hd s
      · exact s.hand_sameRing _ _ _ hd
  · exact .refl s

theorem outcomeOwnerAnswered_sameRing (s : Chip) (o a) : SameRing s (s.outcomeOwnerAnswered o a) := by
  unfold Chip.outcomeOwnerAnswered
  split
  · exact s.outcomeAnswered_sameRing _ _
  · exact .refl s

theorem directAnswered_sameRing (s : Chip) (a) : SameRing s (s.directAnswered a) := by
  unfold Chip.directAnswered
  split
  · exact s.hand_sameRing _ _ _ fun u => u.nextDirect_beyond.sameRing
  · exact .refl s

theorem refusedOver_sameRing (s : Chip) : SameRing s s.refusedOver := presentLane_sameRing _

theorem outcomeWriteAnswer_sameRing (s : Chip) (a) : SameRing s (s.outcomeWriteAnswer a) := by
  unfold Chip.outcomeWriteAnswer
  split_ifs
  · exact s.answered_sameRing _ fun _ u => (u.accessOver_sameRing _).trans (outcomeOwnerAnswered_sameRing _ _ _)
  · split
    · split_ifs
      · exact (s.refusedOver_sameRing.trans (accessOver_sameRing _ _)).trans (outcomeOwnerAnswered_sameRing _ _ _)
      · exact .refl s
    · exact s.answered_sameRing _ fun _ u => .refl u

theorem directWriteAnswer_sameRing (s : Chip) (a) : SameRing s (s.directWriteAnswer a) := by
  unfold Chip.directWriteAnswer
  split_ifs
  · exact s.answered_sameRing _ fun _ u => (u.accessOver_sameRing _).trans (directAnswered_sameRing _ _)
  · split
    · split_ifs
      · exact (s.refusedOver_sameRing.trans (accessOver_sameRing _ _)).trans (directAnswered_sameRing _ _)
      · exact .refl s
    · exact s.answered_sameRing _ fun _ u => .refl u

theorem regionJob_sameRing (s : Chip) (l k j) : SameRing s (s.regionJob l k j) := by
  unfold Chip.regionJob
  split
  · exact .refl s
  · split <;> exact finishJob_sameRing _ _ _ _

/-! ### The Attention Unit -/

theorem issuePosting_sameRing (s : Chip) (p) : SameRing s (s.issuePosting p) := .of_log (issueWrite_log _ _)

theorem writeRecord_sameRing (s : Chip) (k) : SameRing s (s.writeRecord k) := (issuePosting_sameRing _ _).of_start

theorem decidePosting_sameRing (s : Chip) (x) : SameRing s (s.decidePosting x) := by
  unfold Chip.decidePosting
  dsimp only
  split_ifs
  · exact (writeRecord_sameRing _ _).of_start
  · exact (writeRecord_sameRing _ _).of_start
  · split
    · exact (issuePosting_sameRing _ _).of_start
    · exact .refl s

theorem attentionPosting_sameRing (s : Chip) : SameRing s s.attentionPosting := by
  unfold Chip.attentionPosting
  split_ifs
  · split
    · exact .refl s
    · exact ((decidePosting_sameRing _ _).trans (serveHanding_beyond _ _).sameRing).of_start
  · exact .refl s

theorem takeConfigure_sameRing (s : Chip) (c) : SameRing s (s.takeConfigure c) := by
  unfold Chip.takeConfigure
  split_ifs
  · exact ((dropHandings_beyond _).sameRing.trans (finishJob_sameRing _ _ _ _)).of_start
  · refine SameRing.trans (SameRing.trans ?_ (issuePosting_sameRing _ _)) (finishJob_sameRing _ _ _ _)
    unfold Chip.reportConfigured
    split <;> exact .refl s

theorem configureAttention_sameRing (s : Chip) (l) : SameRing s (s.configureAttention l) := by
  unfold Chip.configureAttention
  split
  · exact .refl s
  · dsimp only
    split_ifs
    · exact .refl s
    · exact .refl s
    · exact (takeConfigure_sameRing _ _).of_start
    · exact s.finishJob_sameRing _ _ _

theorem deconfigure_sameRing (s : Chip) : SameRing s s.deconfigure := (dropHandings_beyond _).sameRing.of_start

theorem advancePosting_sameRing (s : Chip) (p) : SameRing s (s.advancePosting p) := by
  unfold Chip.advancePosting Chip.countPosting
  split
  · exact s.issuePosting_sameRing _
  · dsimp only
    split
    · exact (issuePosting_sameRing _ _).of_start
    · exact .refl s
    all_goals exact (issuePosting_sameRing _ _).of_start
  · exact .refl s

theorem attentionAnswered_sameRing (s : Chip) (a) : SameRing s (s.attentionAnswered a) := by
  unfold Chip.attentionAnswered
  split
  · exact .refl s
  · split
    · exact s.deconfigure_sameRing
    · exact s.deconfigure_sameRing.trans (takeConfigure_sameRing _ _)
    · exact s.advancePosting_sameRing _
    · exact (takeConfigure_sameRing _ _).of_start

/-! ### The Memory Port -/

theorem retryReissue_sameRing (s : Chip) : SameRing s s.retryReissue := by
  unfold Chip.retryReissue
  split
  · exact .refl s
  · split_ifs <;> exact .refl s

/-! ## Commands of the Copy Engine stay within its frame -/

theorem copyAheadRequest_frame (s : Chip) : SameBeyondCopy s s.copyAheadRequest := by
  unfold Chip.copyAheadRequest
  split_ifs
  · exact .refl s
  · split
    · exact .refl s
    · dsimp only
      split
      · split_ifs <;> exact .of_blocks rfl rfl rfl rfl rfl
      · refine SameBeyondCopy.trans ?_ (startAhead_frame _ _ _ _)
        exact .of_blocks rfl rfl rfl rfl rfl

theorem takeAheads_frame (n : Nat) (s : Chip) : SameBeyondCopy s (s.takeAheads n) := by
  induction n generalizing s with
  | zero => exact .refl s
  | succ n ih =>
    unfold Chip.takeAheads
    split_ifs
    · exact s.copyAheadRequest_frame.trans (ih _)
    · exact .refl s

theorem cancelActive_frame (s : Chip) (l) : SameBeyondCopy s (s.cancelActive l) := by
  have hl : SameBeyondCopy s { s with copy := { s.copy with cancels := s.copy.cancels ++ [l] } } := .of_blocks rfl rfl rfl rfl rfl
  unfold Chip.cancelActive
  dsimp only
  split_ifs
  · exact (hl.trans (dropFront_frame _)).trans (.of_blocks rfl rfl rfl rfl rfl)
  · exact hl.trans (endCopy_frame _ _)

theorem cancelNow_frame (s : Chip) (l) : SameBeyondCopy s (s.cancelNow l) := by
  unfold Chip.cancelNow
  split
  · exact .refl s
  · split_ifs
    · exact .refl s
    · exact s.cancelActive_frame l
    · exact s.finishJob_copyFrame _ _ _

theorem cancelCopy_frame (s : Chip) (l) : SameBeyondCopy s (s.cancelCopy l) := by
  unfold Chip.cancelCopy
  split
  · exact .refl s
  · split_ifs
    · exact .refl s
    · exact (takeAheads_frame _ s).trans (cancelNow_frame _ _)

theorem windowExpiry_frame (s : Chip) : SameBeyondCopy s s.windowExpiry := by
  unfold Chip.windowExpiry
  split
  · dsimp only
    split
    · exact SameBeyondCopy.trans (.of_blocks rfl rfl rfl rfl rfl) (beginSpan_frame _)
    · exact .of_blocks rfl rfl rfl rfl rfl
  · exact .refl s

theorem frontAnswered_frame (s : Chip) (a) : SameBeyondCopy s (s.frontAnswered a) := by
  unfold Chip.frontAnswered
  split
  · exact .refl s
  · split
    · exact s.advanceFront_frame _ _
    · exact s.failFront_frame _

theorem aheadAnswered_frame (s : Chip) (a) : SameBeyondCopy s (s.aheadAnswered a) := by
  unfold Chip.aheadAnswered
  split
  · exact .refl s
  · split
    · exact s.advanceAhead_frame _ _
    · exact s.failAhead_frame _

namespace RingLaw

theorem answered (h : s.log.RingLaw) (p : Owner → Bool) {act : PortRequest → Chip → Chip}
    (ha : ∀ r (u : Chip), u.log.RingLaw → (act r u).log.RingLaw) : (s.answered p act).log.RingLaw := by
  unfold Chip.answered
  split
  · split_ifs
    · exact h
    · exact ha _ s.endTransaction h
    · exact h
  · exact h

theorem copyJob (h : s.log.RingLaw) : s.copyJob.log.RingLaw := by
  unfold Chip.copyJob Chip.runCopy
  split_ifs
  · exact h
  · split
    · exact h
    · split
      · exact h
      · split_ifs
        · exact finishJob (by exact h) _ _ _
        · exact copy (by exact h) (beginSpan_frame _)

/-! ## Grants of the Memory Port -/

theorem grantTo (h : s.log.RingLaw) (r) : (s.grantTo r).log.RingLaw := by
  have hf : ∀ u : Chip, SameRing u u.reportForwarded := fun u => by
    unfold Chip.reportForwarded
    split
    · split_ifs <;> exact .refl u
    · exact .refl u
  have hd : ∀ a b, (s.log.clearDrainCopies a b).RingLaw := fun a b => h.beside (s.log.clearDrainCopies_beside a b)
  unfold Chip.grantTo
  split
  case h_1 => exact h
  case h_2 =>
    split_ifs
    · exact (hf s).ringLaw h
    · exact (hf s.issueUpstream).ringLaw h
  case h_3 | h_4 | h_5 => exact (presentLane_sameRing _).of_start.ringLaw h
  case h_6 =>
    split_ifs
    · exact hd _ _
    · exact h
  case h_7 =>
    split_ifs
    · exact hd _ _
    · exact h
  all_goals exact h

theorem grantPort (h : s.log.RingLaw) : s.grantPort.log.RingLaw := by
  unfold Chip.grantPort
  split_ifs
  · exact h
  · split
    · exact h
    · dsimp only
      split_ifs
      · exact stopWrite (by exact h) _
      · exact grantTo (by exact h) _

/-! ## Captures and log jobs -/

theorem captureRequest (h : s.log.RingLaw) : s.captureRequest.log.RingLaw := by
  unfold Chip.captureRequest
  split_ifs
  · exact h
  · split
    · exact h
    · rename_i r _
      have hr : ({ s.log with requests := s.log.requests.erase r } : LogState).RingLaw := h.congr rfl
      dsimp only
      split_ifs
      · exact stallRequest (by exact hr) _
      · exact takeCapture (by exact hr) _

theorem stallTimerExpiry (h : s.log.RingLaw) : s.stallTimerExpiry.log.RingLaw := by
  unfold Chip.stallTimerExpiry
  split_ifs with ha
  · exact breakLog h (.inl ha.2) _
  · exact h

/-- A log job whose step may be taken in the middle of a capture. -/
theorem grantLog_always (h : s.log.RingLaw) (k check b) {act : Lane → Descriptor → Chip → Chip}
    (ha : ∀ l d (u : Chip), u.log.RingLaw → (act l d u).log.RingLaw) : (s.grantLog k check b act).log.RingLaw := by
  have hg : ∀ w l, ({ s.log with waiting := w, running := some { lane := l, stage := .granted } } : LogState).RingLaw :=
    fun w l => h.plain rfl rfl rfl rfl rfl rfl id fun j hj => by cases hj; exact ⟨nofun, nofun⟩
  unfold Chip.grantLog
  split
  · split
    · split_ifs
      · exact ha _ _ _ h
      · exact h
    · exact h
  · exact h
  · split
    · exact h
    · split
      · exact h
      · split
        · exact h
        · dsimp only
          split
          · exact endLogJob (by exact hg _ _) _ _
          · split
            · exact ha _ _ _ (by exact hg _ _)
            · exact hg _ _

theorem markStep (h : s.log.RingLaw) (l d) : (Chip.markStep l d s).log.RingLaw := by
  unfold Chip.markStep Chip.acceptLog
  split_ifs
  · exact setStage h (st := .markDrain) nofun nofun
  · exact endLogJob h _ _

theorem markAppend (h : s.log.RingLaw) : s.markAppend.log.RingLaw := by
  unfold Chip.markAppend
  split
  · split
    · dsimp only
      split
      · rename_i ha
        refine endLogJob ?_ _ _
        exact .of_retained (h.2.2.1 (.inl ha)).appended (.inl ha) fun _ hc => h.2.2.2.1 (.inl ha) hc
      · exact endLogJob (by exact h) _ _
    · exact h
  · exact h

theorem endBeside (h : s.log.RingLaw) (l o r) : (Chip.endBeside l o r s).log.RingLaw :=
  finishJob (by exact h.congr rfl) _ _ _

theorem release (h : s.log.RingLaw) : s.release.log.RingLaw := by
  unfold Chip.release
  split
  · split
    · split_ifs
      · exact releaseStep h fun o r v hv => endBeside hv _ o r
      · exact h
    · exact h
  · split_ifs
    · split
      · exact h
      · split
        · exact h
        · rename_i l _ _ _ _
          have hl : ({ s.log with waiting := s.log.waiting.erase l, beside := some l } : LogState).RingLaw := h.congr rfl
          dsimp only
          split_ifs
          · exact releaseStep (by exact hl) fun o r v hv => endBeside hv _ o r
          · exact hl
    · exact grantLog_always h _ _ _ fun _ _ _ hu => releaseStep hu fun o r v hv => endLogJob hv o r

theorem issueReport (h : s.log.RingLaw) (r) : (s.issueReport r).log.RingLaw :=
  copy (setStage h (st := .reporting r) nofun nofun) (issueWrite_copyFrame _ _)

theorem reportAnswered (h : s.log.RingLaw) (a) : (s.reportAnswered a).log.RingLaw := by
  unfold Chip.reportAnswered
  split
  · split
    · exact endLogJob h _ _
    · dsimp only
      split_ifs
      · exact issueReport h _
      · exact endLogJob h _ _
      · exact issueReport h _
      · exact endLogJob h _ _
  · exact h

theorem voidingStart (h : s.log.RingLaw) : s.voidingStart.log.RingLaw := by
  unfold Chip.voidingStart
  split
  · split_ifs
    · exact copy (setStage h (st := .voiding _ 0) nofun nofun) (issueWrite_copyFrame _ _)
    · exact h
  · exact h

/-- The select pass starts at slot 0 with nothing taken (R81). -/
theorem selectPassStart (h : s.log.RingLaw) : s.selectPassStart.log.RingLaw := by
  unfold Chip.selectPassStart
  split
  case h_1 lane c hrun =>
    split_ifs with hd
    · obtain ⟨hscan, hnot, _⟩ := hd
      obtain ⟨hsel, hfound, _⟩ := h.2.2.2.2.2 hscan lane c hrun
      obtain ⟨_, hincluded, hruns, hnewest⟩ := hfound (hsel hnot)
      refine readScanSlot h ⟨fun _ => hsel hnot, fun _ => ⟨h.2.1 (.inr hscan), hincluded, hruns, hnewest⟩, fun hw => ?_⟩
      rw [show c.pass = .walk from hw] at hsel
      exact absurd (hsel hnot) (by decide)
    · exact h
  case h_2 => exact h

/-! ## Every command -/

theorem ownerFault (h : s.log.RingLaw) (r) : (s.ownerFault r).log.RingLaw := by
  unfold Chip.ownerFault
  split
  case h_1 => exact s.endStartUp_sameRing.ringLaw h
  case h_2 | h_3 => exact h
  case h_4 =>
    split
    · exact (s.loseWrite_sameRing _).ringLaw h
    · exact h
  case h_5 => exact captureAnswered h _
  case h_6 => exact copy h (s.aheadAnswered_frame _)
  case h_7 => exact ((s.accessOver_sameRing _).trans (fetchAnswered_sameRing _ _ _)).ringLaw h
  case h_8 => exact ((s.accessOver_sameRing _).trans (outcomeAnswered_sameRing _ _ _)).ringLaw h
  case h_9 => exact ((s.accessOver_sameRing _).trans (directAnswered_sameRing _ _)).ringLaw h
  case h_10 => exact (s.attentionAnswered_sameRing _).ringLaw h
  case h_11 => exact voidAnswered h _
  case h_12 => exact scanAnswered h _
  case h_13 => exact restoreAnswered h _
  case h_14 => exact markerAnswered h _
  case h_15 => exact reportAnswered h _
  case h_16 => exact copy h (s.frontAnswered_frame _)

theorem atReset : LogState.atReset.RingLaw := ringLaw_of_unset rfl ⟨rfl, rfl, rfl, rfl, rfl⟩

theorem resetPart (h : s.log.RingLaw) : s.resetPart.log.RingLaw := by
  unfold Chip.resetPart
  split
  · exact atReset
  · exact h

theorem retryExhausted (h : s.log.RingLaw) : s.retryExhausted.log.RingLaw := by
  unfold Chip.retryExhausted
  split
  · exact answered h _ fun r _ hu => ownerFault hu r
  · exact h

theorem after (h : s.log.RingLaw) (i : Instr) : (s.after i).log.RingLaw := by
  cases i with
  | pinReset page => exact atReset
  | resetPart => exact resetPart h
  | softResetPortIdle => exact s.softResetPortIdle_sameRing.ringLaw h
  | startUp a => exact (s.answered_sameRing _ fun _ u => u.endStartUp_sameRing).ringLaw h
  | statusWordWrite => exact s.statusWordWrite_sameRing.ringLaw h
  | hostAccessArrival a => exact (s.hostAccess_sameRing a).ringLaw h
  | holdLimitExpiry => exact s.holdLimitExpiry_sameRing.ringLaw h
  | forwardRead => exact s.forwardRead_sameRing.ringLaw h
  | forwardWrite => exact s.forwardWrite_sameRing.ringLaw h
  | orderedReadAnswer a => exact answered h _ fun _ _ hu => hu
  | forwardedWriteAnswer a => exact (s.forwardedWriteAnswer_sameRing a).ringLaw h
  | submit => exact s.submit_sameRing.ringLaw h
  | flush => exact s.flush_sameRing.ringLaw h
  | noRequest => exact s.noRequest_sameRing.ringLaw h
  | consumeWord => exact s.consumeWord_sameRing.ringLaw h
  | memoryPortGrant => exact grantPort h
  | retryReissue => exact s.retryReissue_sameRing.ringLaw h
  | retryLimitExhausted => exact retryExhausted h
  | configurePath l => exact (s.configurePath_sameRing l).ringLaw h
  | defineRegion l | startCapture l | stopCapture l | clearFault l | deleteRegion l =>
    exact (s.regionJob_sameRing l _ _).ringLaw h
  | captureRequest => exact captureRequest h
  | captureTransferAnswer a => exact answered h _ fun _ _ hu => captureAnswered hu a
  | stallTimerExpiry => exact stallTimerExpiry h
  | attachLog => exact grantLog h _ _ (acceptLog fun _ _ hu hd _ _ => attachAccept hu hd)
  | voidingStart => exact voidingStart h
  | voidWriteAnswer a => exact answered h _ fun _ _ hu => voidAnswered hu a
  | detachLog => exact grantLog h _ _ (acceptLog fun d _ _ _ _ hc => detachAccept d hc)
  | mark => exact grantLog_always h _ _ _ fun l d _ hu => markStep hu l d
  | markAppend => exact markAppend h
  | release => exact release h
  | reportLog => exact grantLog_always h _ _ _ fun _ _ _ hu => issueReport hu _
  | reportWriteAnswer a => exact answered h _ fun _ _ hu => reportAnswered hu a
  | rollback => exact grantLog h _ _ (acceptLog fun _ _ hu hd _ _ => rollbackAccept hu hd)
  | rollbackDrainEnd => exact rollbackDrainEnd h
  | restoreAccessAnswer a => exact answered h _ fun _ _ hu => restoreAnswered hu a
  | markerWriteAnswer a => exact answered h _ fun _ _ hu => markerAnswered hu a
  | adoptLog => exact grantLog h _ _ (acceptLog fun _ _ hu hd hr _ => adoptAccept hu hd hr)
  | selectPassStart => exact selectPassStart h
  | scanReadAnswer a => exact answered h _ fun _ _ hu => scanAnswered hu a
  | copy => exact copyJob h
  | frontierTransferAnswer a => exact answered h _ fun _ u hu => copy hu (u.frontAnswered_frame a)
  | pacingWindowExpiry => exact copy h s.windowExpiry_frame
  | copyAheadRequest => exact copy h s.copyAheadRequest_frame
  | copyAheadTransferAnswer a => exact answered h _ fun _ u hu => copy hu (u.aheadAnswered_frame a)
  | cancelCopy l => exact copy h (s.cancelCopy_frame l)
  | descriptorFetchAnswer a =>
    exact (s.answered_sameRing _ fun _ u => (u.accessOver_sameRing _).trans (fetchOwnerAnswered_sameRing _ _ a)).ringLaw h
  | null l => exact (s.nullJob_sameRing l).ringLaw h
  | outcomeWriteAnswer a => exact (s.outcomeWriteAnswer_sameRing a).ringLaw h
  | directOutcomeWriteAnswer a => exact (s.directWriteAnswer_sameRing a).ringLaw h
  | configureAttention l => exact (s.configureAttention_sameRing l).ringLaw h
  | attentionPosting => exact s.attentionPosting_sameRing.ringLaw h
  | attentionWriteAnswer a => exact (s.answered_sameRing _ fun _ u => u.attentionAnswered_sameRing a).ringLaw h
  | statusWordWriteAnswer a => exact answered h _ fun _ _ hu => hu

end RingLaw

end Chip

/-- Settles O59: every command keeps the laws, by cases of the command. -/
theorem ringLawKept : Obligations.RingLawKept :=
  fun _ _ h ht => step_keeps (P := fun c => c.log.RingLaw) (fun i _ hs => Chip.RingLaw.after hs i) h ht

end Sys2Proof.Machine

/-! PROOF. The stall timer (O26), the commands that begin once a drain is over (O28), and the answers to VOID writes (O29). -/

namespace Sys2Proof.Machine
variable {s : Chip} {l : Lane} {addr : Word} {d : Descriptor}

/-! ## STALL_TIMER_EXPIRY (R31, R34) -/

theorem Chip.stallTimerExpiry_of_running (ha : s.log.state = .attached) {limit : Half} (ht : s.log.stallTimer = some limit) :
    s.stallTimerExpiry = s.breakLog .overflow :=
  if_pos ⟨by rw [ht]; rfl, ha⟩

theorem Chip.stallTimerExpiry_of_stopped (ht : s.log.stallTimer = none) : s.stallTimerExpiry = s :=
  if_neg fun h => by
    rw [ht] at h
    exact Bool.false_ne_true h.1

/-- Settles O26: the timer runs or has stopped. -/
theorem stallTimerExpiry : Obligations.StallTimerExpiry := by
  refine fun s => ⟨fun limit ha ht => ⟨s.chip.breakLog .overflow, ?_, ?_⟩, fun ht => ?_⟩
  · show onChip (·.stallTimerExpiry) s = _
    rw [onChip, Chip.stallTimerExpiry_of_running ha ht]
  · exact Chip.breakLog_broke .overflow (by rw [ha]; decide)
  · show onChip (·.stallTimerExpiry) s = _
    rw [onChip, Chip.stallTimerExpiry_of_stopped ht]

/-! ## Slots and stages -/

@[simp] theorem LogState.slotAddress_zero (k : LogState) : k.slotAddress 0 = k.base := BitVec.add_zero _

/-- The running job, as its next stage finds it (R40). -/
theorem Chip.setStage_of_running {st : LogStage} (hr : s.log.running = some { lane := l, stage := st }) (st' : LogStage) :
    s.setStage st' = { s with log := { s.log with running := some { lane := l, stage := st' } } } := by
  unfold Chip.setStage
  rw [hr]
  rfl

/-- The VOID write of a slot (R38). -/
def voidWrite (k : LogState) (slot : Nat) : PortRequest :=
  { owner := .void, cls := .log, access := writeLine (k.slotAddress slot) 0#256, stale := false }

theorem Chip.issueVoid_eq (s : Chip) (slot : Nat) : s.issueVoid slot = s.issueWrite (voidWrite s.log slot) := rfl

/-! ## VOIDING_START and SELECT_PASS_START (R38, R81) -/

theorem Chip.voidingStart_of_attachDrain {first : Word} (hr : s.log.running = some { lane := l, stage := .attachDrain first })
    (hp : s.log.state = .preparing) :
    s.voidingStart = if s.path.watches.attach = none then (s.setStage (.voiding first 0)).issueVoid 0 else s := by
  unfold Chip.voidingStart
  rw [hr]
  simp only [hp, true_and]

theorem Chip.selectPassStart_of_adopting {c : Scan} (hr : s.log.running = some { lane := l, stage := .adopting c })
    (hp : s.log.state = .scanning) (hs : c.started = false) :
    s.selectPassStart =
      if s.path.watches.adopt = none then s.readScanSlot { c with started := true, slot := 0 } else s := by
  unfold Chip.selectPassStart
  rw [hr]
  simp only [hp, hs, true_and]

/-- Settles O28: each command by its drain watch. -/
theorem drainedScansBegin : Obligations.DrainedScansBegin := by
  refine ⟨fun s l first hr hp => ⟨fun hw => ?_, fun hw => ?_⟩, fun s l c hr hp hs => ⟨fun hw => ?_, fun hw => ?_⟩⟩
  · show onChip (·.voidingStart) s = _
    rw [onChip, Chip.voidingStart_of_attachDrain hr hp, if_neg hw]
  · refine ⟨s.chip.voidingStart, rfl, ?_⟩
    rintro s₁ hs₁
    rw [Chip.voidingStart_of_attachDrain hr hp, if_pos hw, Chip.setStage_of_running hr, ← hs₁, Chip.issueVoid_eq]
    have hwrite : voidWrite s₁.log 0 =
        { owner := .void, cls := .log, access := writeLine s.chip.log.base 0#256, stale := false } := by
      rw [voidWrite, LogState.slotAddress_zero, hs₁]
    rw [hwrite]
    exact ⟨Chip.issueWrite_rest _ _, Chip.issueWrite_issued _ _⟩
  · show onChip (·.selectPassStart) s = _
    rw [onChip, Chip.selectPassStart_of_adopting hr hp hs, if_neg hw]
  · show onChip (·.selectPassStart) s = _
    rw [onChip, Chip.selectPassStart_of_adopting hr hp hs, if_pos hw, Chip.readScanSlot, Chip.setStage_of_running hr,
      LogState.slotAddress_zero]
    rfl

/-! ## VOID_WRITE_ANSWER (R38) -/

/-- A FAULT to a VOID write of a ring that is being prepared. -/
theorem Chip.voidAnswered_fault {first : Word} {slot : Nat}
    (hr : s.log.running = some { lane := l, stage := .voiding first slot }) (hp : s.log.state = .preparing) :
    s.voidAnswered .fault = Chip.endLogJob { s with log := s.log.toUnset } .voidFault (BitVec.ofNat 32 slot) := by
  unfold Chip.voidAnswered
  rw [hr]
  dsimp only
  rw [if_pos hp]

/-- DONE to a VOID write of a ring that is being prepared. -/
theorem Chip.voidAnswered_done {first : Word} {slot : Nat}
    (hr : s.log.running = some { lane := l, stage := .voiding first slot }) (hp : s.log.state = .preparing) (data : Line) :
    s.voidAnswered (.done data) =
      if slot + 1 < s.log.capacity then (s.setStage (.voiding first (slot + 1))).issueVoid (slot + 1)
      else Chip.endLogJob { s with log := s.log.voided first } .done (BitVec.ofNat 32 s.log.capacity) := by
  unfold Chip.voidAnswered
  rw [hr]
  dsimp only
  rw [if_pos hp]

/-- The answer reaches the voiding once the port is free. -/
theorem exec_voidWriteAnswer {s : State} (hf : s.chip.InFlight .void) (a : FinalAnswer) :
    exec (.voidWriteAnswer a) s = .next { s with chip := s.chip.endTransaction.voidAnswered a } := by
  show onChip (·.answered (· == .void) fun _ t => t.voidAnswered a) s = _
  obtain ⟨_, _, _, he⟩ := Chip.answered_of_inFlight hf (· == .void) rfl fun _ t => t.voidAnswered a
  rw [onChip, he]

/-- Settles O29: memory's answer, and after DONE whether a slot is left. -/
theorem voidWriteAnswer : Obligations.VoidWriteAnswer := by
  rintro s l addr d first slot hf hr hp hj s₁ rfl
  have hr₁ : s.chip.endTransaction.log.running = some { lane := l, stage := .voiding first slot } := hr
  refine ⟨fun data => ⟨_, exec_voidWriteAnswer hf _, fun hlt => ?_, fun hle => ?_⟩, ⟨_, exec_voidWriteAnswer hf _, ?_⟩⟩
  · rintro s₂ rfl
    rw [Chip.voidAnswered_done hr₁ hp, if_pos (by exact hlt), Chip.setStage_of_running hr₁, Chip.issueVoid_eq]
    exact ⟨Chip.issueWrite_rest _ _, Chip.issueWrite_issued _ _⟩
  · rw [Chip.voidAnswered_done hr₁ hp, if_neg (by exact hle.not_gt)]
    obtain ⟨hback, hsame, hregions, hlog⟩ := Chip.endLogJob_spec
      (s := { s.chip.endTransaction with log := s.chip.log.voided first }) hr hj.2 .done (BitVec.ofNat 32 s.chip.log.capacity)
    exact ⟨hlog, hback, hsame, hregions⟩
  · rw [Chip.voidAnswered_fault hr₁ hp]
    obtain ⟨hback, hsame, hregions, hlog⟩ := Chip.endLogJob_spec
      (s := { s.chip.endTransaction with log := s.chip.log.toUnset }) hr hj.2 .voidFault (BitVec.ofNat 32 slot)
    exact ⟨hlog, hback, hsame, hregions⟩

end Sys2Proof.Machine

/-! PROOF. ATTACH LOG (O27) and ADOPT LOG (O40), which meet the same checks and place the ring. -/

namespace Sys2Proof.Machine
variable {s : Chip} {l : Lane} {addr : Word} {d : Descriptor} {rest : List Lane}

/-- A log job of the kind that meets its checks at the grant and again at its step, which its grant leaves alone. -/
theorem Chip.grantLog_acceptLog (h : s.LogJobDue l addr d rest) {k : JobKind} (hk : jobKind d.code = some k)
    {check : Descriptor → Chip → JobOutcome} (accept : Descriptor → Chip → Chip)
    (hcheck : check d (s.granted l rest) = check d s) :
    s.grantLog k check true (Chip.acceptLog check accept) =
      if check d s ≠ .done then (s.granted l rest).endLogJob (check d s) 0#32
      else if s.log.capture = none then accept d (s.granted l rest) else s.granted l rest := by
  rw [Chip.grantLog_of_due h hk fun hd => by rw [Chip.acceptLog, hcheck, if_neg hd]]
  split_ifs with hd
  · rfl
  · rw [Chip.acceptLog, hcheck, if_pos (not_not.1 hd)]
  · rfl

/-- The checks of a command that places the ring, in order (R37, R79), by whether an operand is bad. -/
def ringCheck (bad : Bool) (d : Descriptor) (s : Chip) : JobOutcome :=
  if s.log.state ≠ .unset then .logState
  else if d.a.toNat % 32 ≠ 0 then .alignment
  else if bad then .badOperand
  else if s.ringRangeOverlaps d then .overlap
  else .done

/-- What becomes of a job that places the ring: refused by its checks in order, granted beside a capture, or accepted. -/
theorem Chip.ringJob_outcomes (h : s.LogJobDue l addr d rest) {k : JobKind} (hk : jobKind d.code = some k)
    {check : Descriptor → Chip → JobOutcome} {accept : Descriptor → Chip → Chip} {b : Bool} {bad : Prop}
    (hcheck : ∀ t, check d t = ringCheck b d t) (hb : b = true ↔ bad) {t : Chip}
    (ht : t = s.grantLog k check true (Chip.acceptLog check accept)) :
    (s.log.state ≠ .unset → LogJobRefused s t l addr d rest .logState) ∧
    (s.log.state = .unset →
      (d.a.toNat % 32 ≠ 0 → LogJobRefused s t l addr d rest .alignment) ∧
      (d.a.toNat % 32 = 0 → bad → LogJobRefused s t l addr d rest .badOperand) ∧
      (d.a.toNat % 32 = 0 → ¬bad → s.RingMeets d → LogJobRefused s t l addr d rest .overlap) ∧
      (d.a.toNat % 32 = 0 → ¬bad → ¬s.RingMeets d → s.log.capture ≠ none → JobGranted s t l rest) ∧
      (d.a.toNat % 32 = 0 → ¬bad → ¬s.RingMeets d → s.log.capture = none → t = accept d (s.granted l rest))) := by
  rw [Chip.grantLog_acceptLog h hk accept (by rw [hcheck, hcheck]; rfl), hcheck] at ht
  have refused : ∀ o, ringCheck b d s = o → o ≠ .done → LogJobRefused s t l addr d rest o := fun o ho hn => by
    rw [ht, ho, if_pos hn]
    exact Chip.granted_refused h.current o
  refine ⟨fun hs => refused _ (if_pos hs) nofun, fun hs => ⟨fun ha => ?_, fun ha hbad => ?_, fun ha hbad ho => ?_,
    fun ha hbad ho hc => ?_, fun ha hbad ho hc => ?_⟩⟩
  all_goals rw [ringCheck, if_neg (not_not.2 hs)] at refused ht
  · exact refused _ (if_pos ha) nofun
  · rw [if_neg (not_not.2 ha), if_pos (hb.2 hbad)] at refused
    exact refused _ rfl nofun
  · rw [if_neg (not_not.2 ha), if_neg (hb.not.2 hbad), if_pos ((ringRangeOverlaps_eq s d).2 ho)] at refused
    exact refused _ rfl nofun
  all_goals rw [if_neg (not_not.2 ha), if_neg (hb.not.2 hbad), if_neg ((ringRangeOverlaps_eq s d).not.2 ho),
    if_neg (not_not.2 rfl)] at ht
  · rw [ht, if_neg hc]
    exact s.granted_jobGranted l rest
  · rw [ht, if_pos hc]

/-! ## ATTACH LOG (R37) -/

theorem attachBad_iff (d : Descriptor) :
    (!ringOperandsOk d || d.d == 0#32 || d.d == 0xFFFFFFFF#32) = true ↔
      (d.b.toNat < 16 ∨ 65535 < d.b.toNat ∨ 0xFFFFFFFF < d.a.toNat + 96 * d.b.toNat - 1 ∨
        1 < d.c.toNat / 65536 % 256 ∨ d.d = 0#32 ∨ d.d = 0xFFFFFFFF#32) := by
  simp [ringOperandsOk_eq, or_assoc]

/-- Settles O27: the checks that place a ring, and what an accepted ATTACH LOG leaves. -/
theorem attachLog : Obligations.AttachLog := by
  refine ⟨waitsForCapture_of_grantLog fun _ => rfl, fun s l addr d rest h hcode => ?_⟩
  have hk : jobKind d.code = some .attachLog := by rw [hcode]; rfl
  refine ⟨s.chip.grantLog .attachLog attachCheck true Chip.attachStep, rfl, ?_⟩
  rintro bad rfl
  obtain ⟨hstate, hunset⟩ := Chip.ringJob_outcomes h hk (check := attachCheck) (accept := attachAccept) (fun _ => rfl) (attachBad_iff d) rfl
  refine ⟨hstate, fun hs => ?_⟩
  obtain ⟨halign, hbad, hmeets, hgranted, haccept⟩ := hunset hs
  refine ⟨halign, hbad, hmeets, hgranted, fun ha hb ho hc => ?_⟩
  have hpolicy : d.c.toNat / 65536 % 256 ≤ 1 := by
    by_contra hn
    exact hb (.inr (.inr (.inr (.inl (not_le.1 hn)))))
  have ht : s.chip.grantLog .attachLog attachCheck true Chip.attachStep = attachAccept d (s.chip.granted l rest) := haccept ha hb ho hc
  rw [ht]
  exact ⟨ringOperands_of_ok s.chip.log hpolicy .preparing, (s.chip.granted_spec l rest).1, rfl⟩

/-! ## ADOPT LOG (R79, R80) -/

/-- Settles O40: the checks that place a ring, and what an accepted ADOPT LOG leaves. -/
theorem adoptLog : Obligations.AdoptLog := by
  refine ⟨waitsForCapture_of_grantLog fun _ => rfl, fun s l addr d rest h hcode => ?_⟩
  have hk : jobKind d.code = some .adoptLog := by rw [hcode]; rfl
  refine ⟨s.chip.grantLog .adoptLog adoptCheck true Chip.adoptStep, rfl, ?_⟩
  rintro bad rfl
  obtain ⟨hstate, hunset⟩ := Chip.ringJob_outcomes h hk (check := adoptCheck) (accept := adoptAccept) (b := !ringOperandsOk d) (fun _ => rfl)
    (by rw [Bool.not_eq_true', ringOperandsOk_eq]) rfl
  refine ⟨hstate, fun hs => ?_⟩
  obtain ⟨halign, hbad, hmeets, hgranted, haccept⟩ := hunset hs
  refine ⟨halign, hbad, hmeets, hgranted, fun ha hb ho hc => ?_⟩
  have hpolicy : d.c.toNat / 65536 % 256 ≤ 1 := by
    by_contra hn
    exact hb (.inr (.inr (.inr (not_le.1 hn))))
  have ht : s.chip.grantLog .adoptLog adoptCheck true Chip.adoptStep = adoptAccept d (s.chip.granted l rest) := haccept ha hb ho hc
  rw [ht]
  exact ⟨ringOperands_of_ok s.chip.log hpolicy .scanning, (s.chip.granted_spec l rest).1, newScan d.d, rfl, rfl, rfl, rfl, rfl, rfl, rfl⟩

end Sys2Proof.Machine

/-! PROOF. REPORT LOG (O34). -/

namespace Sys2Proof.Machine
variable {s : Chip} {l : Lane} {addr : Word} {d : Descriptor} {rest : List Lane}

/-! ## The checks (R41, R53) -/

theorem reportCheck_eq_logState (h : ¬(s.log.state = .unset ∨ s.log.state = .attached ∨ s.log.state = .broken)) :
    reportCheck d s = .logState :=
  if_pos h

/-- The checks of the buffer, in a state whose log can be reported (R53). -/
theorem reportCheck_of_known (h : s.log.state = .unset ∨ s.log.state = .attached ∨ s.log.state = .broken) :
    reportCheck d s =
      if d.a.toNat % 16 ≠ 0 then .alignment
      else if ¬d.a.toNat + 255 ≤ 0xFFFFFFFF then .badOperand
      else if s.pageOverlaps d.a.toNat 256 = true ∨ s.logRingOverlaps d.a.toNat 256 = true ∨
        s.attention.ringMeets d.a.toNat 256 = true then .overlap
      else .done := by
  have hpasses : passes4GiB d.a.toNat 256 = true ↔ ¬d.a.toNat + 255 ≤ 0xFFFFFFFF := by
    unfold passes4GiB
    rw [decide_eq_true_iff]
    omega
  rw [reportCheck, if_neg (not_not.2 h)]
  simp only [hpasses, Bool.or_eq_true, or_assoc]

/-! ## The step (R54) -/

/-- The access of a report's first write: a line for a 32-aligned buffer, else a single of 8 bytes. -/
def reportFirstAccess (a : Word) (snapshot : BitVec 2048) : Access :=
  if a.toNat % 32 = 0 then writeLine a (field snapshot 0 256) else writeSingle a 8 ((field snapshot 0 64).setWidth 256)

/-- The machine as a granted report has fixed its snapshot. -/
def Chip.reportBegun (s : Chip) (l : Lane) (rest : List Lane) (d : Descriptor) : Chip :=
  { s.granted l rest with log := { s.log with
      waiting := rest
      running := some { lane := l, stage := .reporting { addr := d.a, snapshot := reportSnapshot s.log, written := 0 } } } }

/-- The report of a granted job begins with the snapshot of the log as it is. -/
theorem Chip.reportStep_granted (s : Chip) (l : Lane) (rest : List Lane) (d : Descriptor) :
    Chip.reportStep l d (s.granted l rest) =
      (s.reportBegun l rest d).issueWrite
        { owner := .report, cls := .log, access := reportFirstAccess d.a (reportSnapshot s.log), stale := false } := by
  unfold Chip.reportStep Chip.issueReport reportFirstAccess
  rw [Chip.setStage_of_running (s := s.granted l rest) rfl]
  simp only [BitVec.add_zero]
  rfl

/-- Settles O34: the checks at the grant, and the first write of the step, at the grant or later. -/
theorem reportLog : Obligations.ReportLog := by
  refine ⟨waitsForCapture_of_grantLog fun _ => rfl, ?_⟩
  intro s l addr d rest hcode write hwrite begins hbegins
  have hk : jobKind d.code = some .reportLog := by rw [hcode]; rfl
  have hstep : begins (Chip.reportStep l d (s.chip.granted l rest)) := by
    rw [hbegins, hwrite, Chip.reportStep_granted]
    refine ⟨s.chip.reportBegun l rest d, (s.chip.granted_spec l rest).1, rfl, Chip.issueWrite_rest _ _, fun ha => ?_, fun ha => ?_⟩
    · rw [reportFirstAccess, if_pos ha]
      exact Chip.issueWrite_issued _ _
    · rw [reportFirstAccess, if_neg ha]
      exact Chip.issueWrite_issued _ _
  refine ⟨fun h => ⟨s.chip.grantLog .reportLog reportCheck true Chip.reportStep, rfl, ?_⟩,
    fun h => ⟨s.chip.grantLog .reportLog reportCheck true Chip.reportStep, rfl, ?_⟩⟩
  · rintro known rfl fits rfl meets rfl
    rw [Chip.grantLog_of_grant h hk]
    have refused : ∀ o, reportCheck d s.chip = o → o ≠ .done → LogJobRefused s.chip
        (if reportCheck d s.chip ≠ .done then (s.chip.granted l rest).endLogJob (reportCheck d s.chip) 0#32
          else if s.chip.log.capture = none ∨ true = false then Chip.reportStep l d (s.chip.granted l rest)
          else s.chip.granted l rest) l addr d rest o := fun o ho hn => by
      rw [ho, if_pos hn]
      exact Chip.granted_refused (Chip.LogJobDue.current (.inl h)) o
    refine ⟨fun hn => refused _ (reportCheck_eq_logState hn) nofun, fun hn ha => refused _ ?_ nofun,
      fun hn ha hf => refused _ ?_ nofun, fun hn ha hf ho => refused _ ?_ nofun, fun hn ha hf ho => ?_⟩
    all_goals rw [reportCheck_of_known hn]
    · rw [if_pos ha]
    · rw [if_neg (not_not.2 ha), if_pos hf]
    · rw [if_neg (not_not.2 ha), if_neg (not_not.2 hf), if_pos ho]
    · rw [if_neg (not_not.2 ha), if_neg (not_not.2 hf), if_neg ho, if_neg (not_not.2 rfl)]
      refine ⟨fun hc => ?_, fun hc => ?_⟩
      · rw [if_pos (.inl hc)]
        exact hstep
      · rw [if_neg (by simp [hc])]
        exact s.chip.granted_jobGranted l rest
  · rw [Chip.grantLog_of_step h hk, ← h.granted]
    exact hstep

end Sys2Proof.Machine

/-! PROOF. RELEASE (O33): in its turn, beside a draining MARK, and its step. -/

namespace Sys2Proof.Machine
variable {s w : Chip} {l : Lane} {addr : Word} {d : Descriptor} {waiting rest : List Lane} {running : Option LogJob}
  {finish : JobOutcome → Word → Chip → Chip}

/-! ## Jobs at a lane -/

/-- A job found at a lane is there, with a code of its kind. -/
theorem Chip.hasJob_of_jobIn {st : LaneStatus} {k : JobKind} (h : s.jobIn l st k = some d) :
    ∃ addr, s.HasJob l st addr d ∧ jobKind d.code = some k := by
  unfold Chip.jobIn at h
  split at h
  next a e o r hcur =>
    split at h
    next hst =>
      cases h
      exact ⟨a, ⟨hst.1, o, r, hcur⟩, hst.2⟩
    next => cases h
  next => cases h

theorem code_of_jobKind_release {c : Byte} (h : jobKind c = some .release) : c = 13#8 := by
  unfold jobKind at h
  split at h
  case h_14 hn => exact BitVec.eq_of_toNat_eq hn
  all_goals cases h

/-- A lane that enters RUN. -/
theorem Chip.laneRuns_spec (s : Chip) (l : Lane) : LaneRuns s (s.laneRuns l) l :=
  ⟨⟨by simp [Chip.laneRuns, Chip.lane, Chip.setLane], fun _ hm => Chip.lane_setLane_of_ne _ _ hm⟩, rfl⟩

/-- A lane in RUN stays there. -/
theorem LaneRuns.of_run (h : (s.lane l).state = .run) : LaneRuns s s l :=
  ⟨⟨by rw [← h], fun _ _ => rfl⟩, rfl⟩

/-! ## The checks (R50) -/

theorem releaseCheck_eq_logState (h : s.log.state ≠ .attached) : releaseCheck d s = .logState := if_pos h

theorem releaseCheck_eq_noSuchCheckpoint (h : s.log.state = .attached) (hn : ∀ e ∈ s.log.checkpoints, e.number ≠ d.a) :
    releaseCheck d s = .noSuchCheckpoint := by
  rw [releaseCheck, if_neg (not_not.2 h), LogState.find_eq_none.2 hn]

theorem releaseCheck_eq_done {c : Checkpoint} (h : s.log.state = .attached) (hf : s.log.find d.a = some c) :
    releaseCheck d s = .done := by
  rw [releaseCheck, if_neg (not_not.2 h), hf]

/-- A log that is ATTACHED and whose list holds the named checkpoint passes. -/
theorem releaseCheck_of_passes (h : s.log.state = .attached) (he : ∃ e ∈ s.log.checkpoints, e.number = d.a) :
    releaseCheck d s = .done := by
  obtain ⟨c, hc⟩ := Option.ne_none_iff_exists'.1 fun hn => by
    obtain ⟨e, hm, hd⟩ := he
    exact LogState.find_eq_none.1 hn e hm hd
  exact releaseCheck_eq_done h hc

/-! ## The step (R50, R51) -/

/-- A release that does not pass at its step ends with its check's outcome. -/
theorem Chip.releaseStep_refused (h : releaseCheck d s ≠ .done) :
    Chip.releaseStep finish d s = finish (releaseCheck d s) 0#32 s := by
  unfold Chip.releaseStep releaseCheck at *
  split
  · rfl
  next hs =>
    rw [if_neg hs] at h
    cases hf : s.log.find d.a with
    | none => rfl
    | some c => rw [hf] at h; exact absurd rfl h

theorem Chip.releaseStep_found {c : Checkpoint} (h : s.log.state = .attached) (hf : s.log.find d.a = some c) :
    Chip.releaseStep finish d s =
      Chip.retake (finish .done (BitVec.ofNat 32 (recordsOf (s.log.older d.a))) { s with log := s.log.released c }) := by
  rw [Chip.releaseStep, if_neg (not_not.2 h), hf]

/-- What `w`'s release does at its end: lane `l` hands its job back, and the log keeps `running` and nothing beside it. -/
def FinishesRelease (finish : JobOutcome → Word → Chip → Chip) (w : Chip) (l : Lane) (running : Option LogJob) : Prop :=
  ∀ (k : LogState) (o : JobOutcome) (r : Word), k.running = w.log.running → k.beside = w.log.beside →
    finish o r { w with log := k } = Chip.finishJob { w with log := { k with running := running, beside := none } } l o r

/-- From `s` to `w` lane `l` runs its RELEASE, which leaves `waiting` behind it. -/
def ReleaseRuns (s w : Chip) (l : Lane) (waiting : List Lane) : Prop :=
  LaneRuns s w l ∧
  w = { s with lanes := w.lanes, log := { s.log with waiting := waiting, running := w.log.running, beside := w.log.beside } }

/-- From `s` to `t` the RELEASE of lane `l` ended with an outcome, and the log is `k`. -/
def ReleaseEnds (s t : Chip) (l : Lane) (addr : Word) (d : Descriptor) (o : JobOutcome) (r : Word) (k : LogState) : Prop :=
  HandsBack s t l addr d o r ∧ SameBesideHandBack s t ∧ t.regions = s.regions ∧ t.log = k

/-- The end of a RELEASE that runs, seen from the machine before it ran. -/
theorem ReleaseRuns.ends (h : ReleaseRuns s w l waiting)
    (hcur : ∃ p q, (s.lane l).current = some { addr := addr, desc := some d, outcome := p, result := q })
    (k : LogState) (o : JobOutcome) (r : Word) :
    ReleaseEnds s (Chip.finishJob { w with log := k } l o r) l addr d o r k := by
  obtain ⟨⟨hlane, hlanes⟩, hw⟩ := h
  have hself : ({ w with log := k } : Chip).lane l = { s.lane l with state := .run } := hlane.1
  obtain ⟨p, q, hcur⟩ := hcur
  obtain ⟨hback, hsame, hregions, hlog⟩ := Chip.finishJob_spec (s := { w with log := k }) (l := l) (addr := addr) (d := d) o r
    ⟨p, q, by rw [hself]; exact hcur⟩
  have hwait : ({ w with log := k } : Chip).waitingAccesses = s.waitingAccesses := by
    show w.lanes.later ++ w.lanes.accesses ++ w.lanes.refused.toList ++ w.arbiter.requests ++ w.copy.queue = _
    rw [hlanes, hw]
    rfl
  have hbeside : SameBesideHandBack s { w with log := k } := by
    have htake : w.lanes.take = s.lanes.take := by rw [hlanes]
    rw [hw]
    exact ⟨rfl, rfl, rfl, htake, rfl, rfl, rfl⟩
  have hsregions : w.regions = s.regions := by rw [hw]
  exact ⟨HandsBack.of_lane hback hlane.2 (by rw [hself]) hwait, hbeside.trans hsame, hregions.trans hsregions, hlog⟩

/-- The log as a RELEASE that runs finds it. -/
theorem ReleaseRuns.log (h : ReleaseRuns s w l waiting) :
    w.log = { s.log with waiting := waiting, running := w.log.running, beside := w.log.beside } := by
  conv_lhs => rw [h.2]

/-- What a release that its check refuses leaves (R50). -/
def ReleaseRefused (s : Chip) (l : Lane) (addr : Word) (d : Descriptor) (waiting : List Lane) (running : Option LogJob)
    (t : Chip) : Prop :=
  ∀ ends : JobOutcome → Prop, ends = (fun o => HandsBack s t l addr d o 0#32 ∧ SameBesideHandBack s t ∧
    t.regions = s.regions ∧ t.log = { s.log with waiting := waiting, running := running, beside := none }) →
  (s.log.state ≠ .attached → ends .logState) ∧
  (s.log.state = .attached → (∀ e ∈ s.log.checkpoints, e.number ≠ d.a) → ends .noSuchCheckpoint)

/-- What a release of the checkpoints before `c` leaves (R50, R51). -/
def ReleaseEffect (s : Chip) (l : Lane) (addr : Word) (d : Descriptor) (waiting : List Lane) (running : Option LogJob)
    (t : Chip) : Prop :=
  s.log.state = .attached → ∀ older c newer, s.log.checkpoints = older ++ c :: newer → c.number = d.a →
    (∀ e ∈ older, e.number ≠ d.a) →
    ∃ u, HandsBack s u l addr d .done (BitVec.ofNat 32 (recordsOf older)) ∧ u.regions = s.regions ∧
      SameBesideHandBack s u ∧
      u.log = { s.log with
        checkpoints := c :: newer, head := c.firstSlot, count := s.log.count - recordsOf older
        waiting := waiting, running := running, beside := none } ∧
      t = u.retake ∧
      ((∀ q ∈ s.log.requests, q.stalled = false) → t = { u with log := { u.log with stallTimer := none } }) ∧
      (∀ q qs, s.log.requests = q :: qs → q.stalled = true → s.log.nextSeq ≠ 0xFFFFFFFF#32 →
        u.log.count ≠ s.log.capacity → q.granule ∉ s.log.table →
        t = { u with
          log := { u.log with
            requests := qs
            stallTimer := if qs.any (·.stalled) then u.log.stallTimer else none
            capture := some { request := q, slot := u.log.tail, sequence := u.log.nextSeq, previous := u.log.lastSeq
                              checkpoint := u.log.newestNumber, first := 0#256, second := 0#256
                              step := .readFirst, answer := true } }
          arbiter := { u.arbiter with requests := u.arbiter.requests ++
            [{ owner := .capture, cls := q.cls, access := readLine q.granule, stale := false }] } })

/-- A RELEASE that its check refuses, at the grant or at its step. -/
theorem ReleaseRuns.refused (h : ReleaseRuns s w l waiting)
    (hcur : ∃ p q, (s.lane l).current = some { addr := addr, desc := some d, outcome := p, result := q })
    (hfin : FinishesRelease finish w l running) (t : Chip)
    (ht : releaseCheck d s ≠ .done → t = finish (releaseCheck d s) 0#32 w) :
    ReleaseRefused s l addr d waiting running t := by
  have ends : ∀ o, releaseCheck d s = o → o ≠ .done →
      ReleaseEnds s t l addr d o 0#32 { s.log with waiting := waiting, running := running, beside := none } := fun o ho hn => by
    have hfinal := hfin w.log o 0#32 rfl rfl
    rw [ht (ho ▸ hn), ho]
    refine hfinal.symm ▸ ?_
    rw [h.log]
    exact h.ends hcur _ o 0#32
  rintro _ rfl
  exact ⟨fun hs => ends _ (releaseCheck_eq_logState hs) nofun,
    fun hs hn => ends _ (releaseCheck_eq_noSuchCheckpoint hs hn) nofun⟩

/-- A RELEASE whose step is taken with no capture in progress. -/
theorem ReleaseRuns.effect (h : ReleaseRuns s w l waiting)
    (hcur : ∃ p q, (s.lane l).current = some { addr := addr, desc := some d, outcome := p, result := q })
    (hfin : FinishesRelease finish w l running) (hc : s.log.capture = none) (t : Chip)
    (ht : releaseCheck d s = .done → t = Chip.releaseStep finish d w) : ReleaseEffect s l addr d waiting running t := by
  intro hs older c newer hsplit hnum hold
  have hlog := h.log
  obtain ⟨hfind, holder, _⟩ := LogState.find_of_split (l := s.log) hsplit hnum hold
  obtain ⟨hfindw, holderw, hsincew⟩ := LogState.find_of_split (l := w.log) (by rw [hlog]; exact hsplit) hnum hold
  have hattached : w.log.state = .attached := by rw [hlog]; exact hs
  have hreleased : { w.log.released c with running := running, beside := none } =
      { s.log with
        checkpoints := c :: newer, head := c.firstSlot, count := s.log.count - recordsOf older
        waiting := waiting, running := running, beside := none } := by
    rw [LogState.released, hnum, holderw, hsincew, hlog]
  obtain ⟨hback, hsame, hregions, hulog⟩ := h.ends hcur { w.log.released c with running := running, beside := none } .done
    (BitVec.ofNat 32 (recordsOf older))
  rw [ht (releaseCheck_eq_done hs hfind), Chip.releaseStep_found hattached hfindw, holderw,
    hfin (w.log.released c) _ _ rfl rfl]
  rw [hreleased] at *
  refine ⟨_, hback, hregions, hsame, hulog, rfl, fun hq => ?_, fun q qs hq hstalled hseq hroom htable => ?_⟩
  · exact Chip.retake_of_none (by rw [hulog]; exact hq)
  · refine Chip.retake_of_space ?_ hstalled ?_ ?_ ?_ ?_ ?_
    all_goals rw [hulog]
    · exact hq
    · exact hs
    · exact hc
    · exact hseq
    · rw [hulog] at hroom
      exact hroom
    · exact htable

/-! ## RELEASE in its turn (R40) -/

theorem Chip.granted_releaseRuns (s : Chip) (l : Lane) (rest : List Lane) :
    ReleaseRuns s (s.granted l rest) l rest := by
  refine ⟨(s.granted_spec l rest).1, ?_⟩
  show _ = { s with lanes := (s.granted l rest).lanes, log := { s.log with
    waiting := rest, running := some { lane := l, stage := .granted }, beside := s.log.beside } }
  exact (s.granted_spec l rest).2.2

/-- A RELEASE granted in its turn ends as the running log job does. -/
theorem Chip.granted_finishesRelease (hb : s.log.beside = none) :
    FinishesRelease (fun o r u => u.endLogJob o r) (s.granted l rest) l none := by
  intro k o r hr hk
  have hkb : k.beside = none := hk.trans hb
  refine (Chip.endLogJob_of_running (s := { s.granted l rest with log := k }) hr o r).trans ?_
  rw [← hkb]

/-- The exception of R40 is for a MARK that runs. -/
theorem Chip.LogJobDue.markStalled (h : s.LogJobDue l addr d rest) : s.markStalled = false := by
  have hr : s.log.running = none ∨ s.log.running = some { lane := l, stage := .granted } := h.imp (·.1) (·.1)
  unfold Chip.markStalled
  rcases hr with hr | hr <;> rw [hr] <;> rfl

/-- RELEASE in its turn: refused, held behind a capture, or its step. -/
theorem Chip.release_of_due (h : s.LogJobDue l addr d rest) (hb : s.log.beside = none) (hk : jobKind d.code = some .release) :
    s.release =
      if releaseCheck d s ≠ .done then (s.granted l rest).endLogJob (releaseCheck d s) 0#32
      else if s.log.capture = none then Chip.releaseStep (fun o r u => u.endLogJob o r) d (s.granted l rest)
      else s.granted l rest := by
  have hcheck : releaseCheck d (s.granted l rest) = releaseCheck d s := rfl
  unfold Chip.release
  rw [hb]
  dsimp only
  rw [h.markStalled, if_neg Bool.false_ne_true, Chip.grantLog_of_due h hk fun hd => by
    rw [Chip.releaseStep_refused (hcheck ▸ hd), hcheck]]

/-! ## RELEASE beside a MARK (R40) -/

/-- The machine once a RELEASE is granted beside the running MARK. -/
def Chip.grantedBeside (s : Chip) (l : Lane) (waiting : List Lane) : Chip :=
  Chip.laneRuns { s with log := { s.log with waiting := waiting, beside := some l } } l

theorem Chip.grantedBeside_releaseRuns (s : Chip) (l : Lane) (waiting : List Lane) :
    ReleaseRuns s (s.grantedBeside l waiting) l waiting :=
  ⟨Chip.laneRuns_spec { s with log := { s.log with waiting := waiting, beside := some l } } l, rfl⟩

theorem Chip.endBeside_finishesRelease (w : Chip) (l : Lane) : FinishesRelease (Chip.endBeside l) w l w.log.running := by
  intro k o r hr _
  rw [← hr]
  rfl

theorem Chip.markStalled_of_drain {m : Lane} (hr : s.log.running = some { lane := m, stage := .markDrain })
    (hw : s.path.watches.mark ≠ none) (hs : s.log.stalled = true) : s.markStalled = true := by
  unfold Chip.markStalled
  rw [hr, hs, Option.isSome_iff_ne_none.2 hw]
  rfl

/-- The oldest waiting RELEASE is the one granted beside the MARK. -/
theorem Chip.find_release {before : List Lane} (hw : s.log.waiting = before ++ l :: rest)
    (ho : ∀ k ∈ before, ∀ a e, s.HasJob k .wait a e → e.code ≠ 13#8) (hj : s.jobIn l .wait .release = some d) :
    (s.log.waiting.find? fun k => (s.jobIn k .wait .release).isSome) = some l := by
  rw [hw, List.find?_eq_some_iff_append]
  refine ⟨by rw [hj]; rfl, before, rest, rfl, fun k hk => ?_⟩
  cases hf : s.jobIn k .wait .release with
  | none => rfl
  | some e =>
    obtain ⟨a, hjob, hkind⟩ := Chip.hasJob_of_jobIn hf
    exact absurd (code_of_jobKind_release hkind) (ho k hk a e hjob)

/-- RELEASE beside a MARK: its step at once, unless it passes beside a capture. -/
theorem Chip.release_beside {before : List Lane} (hb : s.log.beside = none) (hm : s.markStalled = true)
    (hw : s.log.waiting = before ++ l :: rest) (hl : l ∉ before)
    (hf : (s.log.waiting.find? fun k => (s.jobIn k .wait .release).isSome) = some l)
    (hj : s.jobIn l .wait .release = some d) :
    s.release =
      if s.log.capture = none ∨ releaseCheck d s ≠ .done then
        Chip.releaseStep (Chip.endBeside l) d (s.grantedBeside l (before ++ rest))
      else s.grantedBeside l (before ++ rest) := by
  have herase : s.log.waiting.erase l = before ++ rest := by
    rw [hw, List.erase_append_right _ hl, List.erase_cons_head]
  unfold Chip.release
  rw [hb]
  dsimp only
  rw [if_pos hm, hf]
  dsimp only
  rw [hj]
  dsimp only
  rw [herase]
  simp only [LogState.betweenCaptures, Bool.or_eq_true, Option.isNone_iff_eq_none, bne_iff_ne]
  rfl

/-- A RELEASE that was granted beside a MARK takes its step between captures. -/
theorem Chip.release_step_beside (hb : s.log.beside = some l) (hj : s.jobIn l .run .release = some d) :
    s.release = if s.log.capture = none then Chip.releaseStep (Chip.endBeside l) d s else s := by
  unfold Chip.release
  rw [hb]
  dsimp only
  rw [hj]
  simp only [LogState.betweenCaptures, Option.isNone_iff_eq_none]

/-- A RELEASE that has been granted waits for the capture in progress. -/
theorem waitsForCapture_release : WaitsForCapture .release := by
  intro s l hr hc
  show onChip (·.release) s = _
  have hrest : s.chip.release = s.chip := by
    unfold Chip.release
    have hstalled : s.chip.markStalled = false := by rw [Chip.markStalled, hr]; rfl
    split
    · split
      · rw [if_neg (by simpa [LogState.betweenCaptures] using hc)]
      · rfl
    · rw [hstalled, if_neg Bool.false_ne_true, Chip.grantLog_waits hr hc]
  rw [onChip, hrest]

/-- Settles O33: RELEASE in its turn, beside a MARK at its grant, and beside a MARK at its step. -/
theorem releaseJob : Obligations.ReleaseJob := by
  refine ⟨waitsForCapture_release, ?_⟩
  rintro s l addr d hcode _ rfl _ rfl passes rfl
  have hk : jobKind d.code = some .release := by rw [hcode]; rfl
  refine ⟨fun rest h hb => ?_, fun m before rest hr hw hst hb hwait hl ho hj => ?_, fun hb hj => ?_⟩
  · have hrel := Chip.release_of_due h hb hk
    have hruns := s.chip.granted_releaseRuns l rest
    refine ⟨s.chip.release, rfl, ?_, fun hc => ?_, fun hc hp => ?_⟩
    · refine hruns.refused h.current (Chip.granted_finishesRelease hb) _ fun hn => ?_
      rw [hrel, if_pos hn]
    · refine hruns.effect h.current (Chip.granted_finishesRelease hb) hc _ fun hd => ?_
      rw [hrel, if_neg (not_not.2 hd), if_pos hc]
    · rw [hrel, if_neg (not_not.2 (releaseCheck_of_passes hp.1 hp.2)), if_neg hc]
      exact s.chip.granted_jobGranted l rest
  · have hjob := hj.jobIn hk
    have hrel := Chip.release_beside hb (Chip.markStalled_of_drain hr hw hst) hwait hl (Chip.find_release hwait ho hjob) hjob
    have hruns := s.chip.grantedBeside_releaseRuns l (before ++ rest)
    refine ⟨s.chip.release, rfl, ?_, fun hc => ?_, fun hc hp => ?_⟩
    · refine hruns.refused hj.2 (Chip.endBeside_finishesRelease _ l) _ fun hn => ?_
      rw [hrel, if_pos (.inr hn)]
      exact Chip.releaseStep_refused (s := s.chip.grantedBeside l (before ++ rest)) hn
    · refine hruns.effect hj.2 (Chip.endBeside_finishesRelease _ l) hc _ fun _ => ?_
      rw [hrel, if_pos (.inl hc)]
    · rw [hrel, if_neg (by simp [hc, releaseCheck_of_passes hp.1 hp.2])]
      exact ⟨hruns.1, rfl⟩
  · have hrel := Chip.release_step_beside hb (hj.jobIn hk)
    have hruns : ReleaseRuns s.chip s.chip l s.chip.log.waiting := ⟨.of_run hj.1, rfl⟩
    refine ⟨fun hc => ?_, fun hc => ⟨s.chip.release, rfl, ?_, ?_⟩⟩
    · show onChip (·.release) s = _
      rw [onChip, hrel, if_neg hc]
    · exact hruns.refused hj.2 (Chip.endBeside_finishesRelease _ l) _ fun hn => by
        rw [hrel, if_pos hc, Chip.releaseStep_refused hn]
    · exact hruns.effect hj.2 (Chip.endBeside_finishesRelease _ l) hc _ fun _ => by rw [hrel, if_pos hc]

end Sys2Proof.Machine

/-! PROOF. MEMORY_PORT_GRANT (O18): the arbiter's choice, the ring guard's stop, and what the grant means to the owner. -/

namespace Sys2Proof.Machine
variable {s t : Chip} {r : PortRequest} {rs older newer : List PortRequest}

/-! ## The arbiter's choice (R135) -/

/-- `r` goes first of `older ++ r :: newer`: it has the highest class, the status word write goes before all others, and within its
class it is otherwise the oldest. -/
structure GoesFirst (r : PortRequest) (older newer : List PortRequest) : Prop where
  highest : ∀ q ∈ older ++ r :: newer, r.cls.number ≤ q.cls.number
  status : (∃ q ∈ older ++ r :: newer, q.isStatusWord) → r.isStatusWord
  oldest : ∀ q ∈ older, q.cls = r.cls → r.isStatusWord ∧ ¬q.isStatusWord

theorem PortRequest.isStatusWord_iff (r : PortRequest) :
    (r.owner == .status || r.owner == .startUp) = true ↔ r.isStatusWord := by
  simp [PortRequest.isStatusWord, or_comm]

theorem PortClass.one_le_number (c : PortClass) : 1 ≤ c.number := by cases c <;> decide

/-- With a status word write waiting, the oldest of them is chosen. -/
theorem ArbiterState.choice_of_status {a : ArbiterState}
    (h : a.requests.find? (fun r => r.owner == .status || r.owner == .startUp) = some r) : a.choice = some r := by
  rw [ArbiterState.choice, h]
  rfl

/-- Without one, the oldest request of the highest class that has one is chosen. -/
theorem ArbiterState.choice_of_class {a : ArbiterState} (c : PortClass)
    (hs : a.requests.find? (fun r => r.owner == .status || r.owner == .startUp) = none)
    (hbelow : ∀ c' : PortClass, c'.number < c.number → a.requests.find? (fun r => r.cls == c') = none)
    (h : a.requests.find? (fun r => r.cls == c) = some r) : a.choice = some r := by
  unfold ArbiterState.choice
  rw [hs]
  cases c with
  | path => rw [h]; rfl
  | lane => rw [hbelow .path (by decide), h]; rfl
  | attention => rw [hbelow .path (by decide), hbelow .lane (by decide), h]; rfl
  | log => rw [hbelow .path (by decide), hbelow .lane (by decide), hbelow .attention (by decide), h]; rfl
  | frontier =>
    rw [hbelow .path (by decide), hbelow .lane (by decide), hbelow .attention (by decide), hbelow .log (by decide), h]; rfl

/-- A waiting request is always chosen, and the chosen one goes first. -/
theorem ArbiterState.choice_goesFirst {a : ArbiterState} (hne : a.requests ≠ [])
    (hpath : ∀ q ∈ a.requests, q.isStatusWord → q.cls = .path) :
    ∃ r older newer, a.choice = some r ∧ a.requests = older ++ r :: newer ∧ r ∉ older ∧ GoesFirst r older newer := by
  cases hs : a.requests.find? (fun r => r.owner == .status || r.owner == .startUp) with
  | some r =>
    obtain ⟨hr, older, newer, hsplit, holder⟩ := List.find?_eq_some_iff_append.1 hs
    have hstatus : r.isStatusWord := (PortRequest.isStatusWord_iff r).1 hr
    have hold : ∀ q ∈ older, ¬q.isStatusWord := fun q hq hqs => by
      have := holder q hq
      rw [(PortRequest.isStatusWord_iff q).2 hqs] at this
      cases this
    refine ⟨r, older, newer, ArbiterState.choice_of_status hs, hsplit, fun hm => hold r hm hstatus, fun q _ => ?_,
      fun _ => hstatus, fun q hq _ => ⟨hstatus, hold q hq⟩⟩
    rw [hpath r (by rw [hsplit]; simp) hstatus]
    exact q.cls.one_le_number
  | none =>
    have hnone : ∀ q ∈ a.requests, ¬q.isStatusWord := fun q hq hqs =>
      List.find?_eq_none.1 hs q hq ((PortRequest.isStatusWord_iff q).2 hqs)
    obtain ⟨m, hm, hmin⟩ := Multiset.exists_min_image (s := (a.requests : Multiset PortRequest)) (fun q => q.cls.number) (by simpa using hne)
    obtain ⟨r, hr⟩ : ∃ r, a.requests.find? (fun r => r.cls == m.cls) = some r :=
      Option.ne_none_iff_exists'.1 fun hn => List.find?_eq_none.1 hn m hm (beq_self_eq_true _)
    have hbelow : ∀ c' : PortClass, c'.number < m.cls.number → a.requests.find? (fun r => r.cls == c') = none := fun c' hc =>
      List.find?_eq_none.2 fun q hq he => by
        rw [← eq_of_beq he] at hc
        exact absurd (hmin q hq) hc.not_ge
    obtain ⟨hcls, older, newer, hsplit, holder⟩ := List.find?_eq_some_iff_append.1 hr
    have hrm : r.cls = m.cls := eq_of_beq hcls
    have hold : ∀ q ∈ older, q.cls ≠ r.cls := fun q hq he => by
      have := holder q hq
      rw [he, hcls] at this
      cases this
    rw [hsplit] at hmin hnone
    exact ⟨r, older, newer, ArbiterState.choice_of_class m.cls hs hbelow hr, hsplit, fun hm => hold r hm rfl,
      fun q hq => hrm ▸ hmin q hq, fun ⟨q, hq, hqs⟩ => absurd hqs (hnone q hq), fun q hq he => absurd he (hold q hq)⟩

/-! ## The grant, by its owner (R60, R127, R131, R157) -/

/-- What no owner's grant touches: the transaction and what waits, but for its order, and every block but for the upstream path,
the Lane Unit's presentation, the writes that wait for copy-ahead and the log. -/
structure GrantFrame (s t : Chip) : Prop where
  inFlight : t.arbiter.inFlight = s.arbiter.inFlight
  retryCount : t.arbiter.retryCount = s.arbiter.retryCount
  waiting : t.waitingAccesses.Perm s.waitingAccesses
  regions : t.regions = s.regions
  attention : t.attention = s.attention
  freeIndex : t.freeIndex = s.freeIndex
  lane : ∀ l, t.lane l = s.lane l
  take : t.lanes.take = s.lanes.take
  copy : t.copy = { s.copy with queue := t.copy.queue }

/-- A change of the path or of the log stays within the frame. -/
theorem GrantFrame.of_path_log (p : PathState) (k : LogState) : GrantFrame s { s with path := p, log := k } :=
  ⟨rfl, rfl, .refl _, rfl, rfl, rfl, fun _ => rfl, rfl, rfl⟩

theorem Chip.grantLane_spec (s : Chip) : GrantFrame s s.grantLane ∧ s.grantLane.log = s.log ∧ s.grantLane.path = s.path := by
  obtain ⟨⟨hpath, hattention, hfree, htake, hflight, hretry, hcopy⟩, hregions, hlog, hlane, hwaiting⟩ :=
    Chip.presentLane_spec { s with lanes := { s.lanes with presented := false } }
  exact ⟨⟨hflight, hretry, hwaiting, hregions, hattention, hfree, hlane, htake, hcopy⟩, hlog, hpath⟩

theorem Chip.reportForwarded_frame (s : Chip) : s.reportForwarded = { s with path := s.reportForwarded.path } := by
  unfold Chip.reportForwarded
  split
  · split <;> rfl
  · rfl

/-- A grant keeps its frame; it touches the log for the Copy Engine's writes alone, and the path for the forwarded accesses alone. -/
theorem Chip.grantTo_frame (s : Chip) (r : PortRequest) :
    GrantFrame s (s.grantTo r) ∧
    (r.access.write = false ∨ ¬(r.owner = .frontier ∨ r.owner = .copyAhead) → (s.grantTo r).log = s.log) ∧
    (r.owner ≠ .forwardRead → (∀ p, r.owner ≠ .forwardWrite p) → (s.grantTo r).path = s.path) := by
  have same : GrantFrame s s := .of_path_log s.path s.log
  have lane := s.grantLane_spec
  unfold Chip.grantTo
  split
  case h_1 ho => exact ⟨.of_path_log _ s.log, fun _ => rfl, fun hn => absurd ho hn⟩
  case h_2 posted ho =>
    have forwarded : ∀ u : Chip, u = { s with path := u.path } →
        GrantFrame s u.reportForwarded ∧ u.reportForwarded.log = s.log := fun u hu => by
      rw [u.reportForwarded_frame, hu]
      exact ⟨.of_path_log _ s.log, rfl⟩
    obtain ⟨hframe, hlog⟩ := forwarded (if posted then s else s.issueUpstream) (by split <;> rfl)
    rw [← apply_ite Chip.reportForwarded]
    exact ⟨hframe, fun _ => hlog, fun _ hn => absurd ho (hn posted)⟩
  case h_3 | h_4 | h_5 => exact ⟨lane.1, fun _ => lane.2.1, fun _ _ => lane.2.2⟩
  case h_6 ho | h_7 ho =>
    split
    next hw => exact ⟨.of_path_log s.path _, fun hn => by simp [hw, ho] at hn, fun _ _ => rfl⟩
    next => exact ⟨same, fun _ => rfl, fun _ _ => rfl⟩
  all_goals exact ⟨same, fun _ => rfl, fun _ _ => rfl⟩

/-! ### The rollback's drain (R60) -/

theorem LogState.clearDrainCopies_of_rolling {k : LogState} {l : Lane} {c : Rollback}
    (h : k.running = some { lane := l, stage := .rolling c }) (a b : Bool) :
    k.clearDrainCopies a b = { k with running := some { lane := l, stage := .rolling { c with
      drainFrontier := c.drainFrontier && !a, drainAhead := c.drainAhead && !b } } } := by
  unfold LogState.clearDrainCopies
  rw [h]

/-- With no rollback there is no drain to end. -/
theorem LogState.clearDrainCopies_of_not_rolling {k : LogState}
    (h : ∀ l c, k.running ≠ some { lane := l, stage := .rolling c }) (a b : Bool) : k.clearDrainCopies a b = k := by
  unfold LogState.clearDrainCopies
  split
  next l c hr => exact absurd hr (h l c)
  next => rfl

/-- The log at a grant to the frontier. -/
theorem Chip.grantTo_frontier (ho : r.owner = .frontier) (hw : r.access.write = true) :
    (s.grantTo r).log = s.log.clearDrainCopies (!r.stale) false := by
  unfold Chip.grantTo
  rw [ho]
  dsimp only
  rw [if_pos hw]

/-- The log at a grant to the copy-ahead. -/
theorem Chip.grantTo_copyAhead (ho : r.owner = .copyAhead) (hw : r.access.write = true) :
    (s.grantTo r).log = s.log.clearDrainCopies false (!r.stale) := by
  unfold Chip.grantTo
  rw [ho]
  dsimp only
  rw [if_pos hw]

/-- With no rollback the log is untouched, whoever is granted. -/
theorem Chip.grantTo_log_of_not_rolling (h : ∀ l c, s.log.running ≠ some { lane := l, stage := .rolling c }) (r : PortRequest) :
    (s.grantTo r).log = s.log := by
  by_cases hn : r.access.write = false ∨ ¬(r.owner = .frontier ∨ r.owner = .copyAhead)
  · exact (s.grantTo_frame r).2.1 hn
  · obtain ⟨hw, ho⟩ := not_or.1 hn
    rcases not_not.1 ho with ho | ho
    · rw [Chip.grantTo_frontier ho (Bool.not_eq_false _ ▸ hw), LogState.clearDrainCopies_of_not_rolling h]
    · rw [Chip.grantTo_copyAhead ho (Bool.not_eq_false _ ▸ hw), LogState.clearDrainCopies_of_not_rolling h]

/-! ### The forward point (R127, R131) -/

theorem Chip.grantTo_forwardRead (ho : r.owner = .forwardRead) : s.grantTo r = s.issueUpstream := by
  unfold Chip.grantTo
  rw [ho]

theorem Chip.grantTo_forwardWrite {posted : Bool} (ho : r.owner = .forwardWrite posted) :
    s.grantTo r = if posted then s.reportForwarded else s.issueUpstream.reportForwarded := by
  unfold Chip.grantTo
  rw [ho]

/-- A forwarded control-page write answers no watch yet. -/
theorem Chip.reportForwarded_of_page {f : ForwardPoint} (hf : s.path.forward = some f) (hp : s.onPage f.access.addr = true) :
    s.reportForwarded = s := by
  unfold Chip.reportForwarded
  rw [hf]
  exact if_pos hp

theorem Chip.reportForwarded_beside_page {f : ForwardPoint} (hf : s.path.forward = some f) (hp : s.onPage f.access.addr = false) :
    s.reportForwarded = s.reportIssued f.accepted := by
  unfold Chip.reportForwarded
  rw [hf]
  exact if_neg (Bool.eq_false_iff.1 hp)

/-! ## MEMORY_PORT_GRANT -/

/-- The writes that the ring guard stops at their grant (R36, R148, R154). -/
theorem Chip.guardStops_iff (s : Chip) (r : PortRequest) :
    s.guardStops r = true ↔ ((∃ l, r.owner = .laneOutcome l ∨ r.owner = .laneDirect l) ∨
      (r.owner = .frontier ∨ r.owner = .copyAhead)) ∧ r.access.write = true ∧ s.ringGuard r.access.addr = true := by
  have hguarded : r.owner.guarded = true ↔ (∃ l, r.owner = .laneOutcome l ∨ r.owner = .laneDirect l) ∨
      (r.owner = .frontier ∨ r.owner = .copyAhead) := by
    cases r.owner <;> simp [Owner.guarded]
  rw [Chip.guardStops, Bool.and_eq_true, Bool.and_eq_true, hguarded, and_assoc]

/-- The request becomes the transaction (R135); `waiting` is left. -/
def Chip.holding (s : Chip) (waiting : List PortRequest) (r : PortRequest) : Chip :=
  { s with arbiter := { requests := waiting, inFlight := some r, retryCount := 0 } }

/-- The transaction waits no more, and every other access goes on waiting. -/
theorem Chip.holding_waiting (hsplit : s.arbiter.requests = older ++ r :: newer) :
    (r :: (s.holding (older ++ newer) r).waitingAccesses).Perm s.waitingAccesses := by
  unfold Chip.waitingAccesses
  rw [hsplit]
  simpa [Chip.holding] using (List.perm_middle (a := r)
    (l₁ := s.lanes.later ++ (s.lanes.accesses ++ (s.lanes.refused.toList ++ older))) (l₂ := newer ++ s.copy.queue)).symm

/-- The grant of the chosen request. -/
theorem Chip.grantPort_of_choice (hfree : s.arbiter.inFlight = none) (hreset : s.path.status ≠ .resetting)
    (hc : s.arbiter.choice = some r) (hsplit : s.arbiter.requests = older ++ r :: newer) (hold : r ∉ older) :
    s.grantPort =
      if s.guardStops r then Chip.stopWrite { s with arbiter := { s.arbiter with requests := older ++ newer } } r
      else (s.holding (older ++ newer) r).grantTo r := by
  have herase : s.arbiter.requests.erase r = older ++ newer := by
    rw [hsplit, List.erase_append_right _ hold, List.erase_cons_head]
  unfold Chip.grantPort
  rw [if_neg (by simp [hfree, hreset]), hc]
  dsimp only
  rw [herase]
  rfl

/-- Settles O18: the choice, the guard's stop, and the grant by its owner. -/
theorem portGrant : Obligations.PortGrant := by
  intro s hfree hreset hne hpath
  obtain ⟨r, older, newer, hc, hsplit, hold, hfirst⟩ := ArbiterState.choice_goesFirst hne hpath
  have hg := Chip.grantPort_of_choice hfree hreset hc hsplit hold
  refine ⟨s.chip.grantPort, r, older, newer, rfl, hsplit, hsplit ▸ hfirst.highest, hsplit ▸ hfirst.status, hfirst.oldest, ?_⟩
  rintro lane copying stopped rfl rfl rfl
  refine ⟨fun hst => ?_, fun hst => ?_⟩
  · rintro s₁ rfl
    rw [hg, if_pos ((s.chip.guardStops_iff r).2 hst)]
    exact Chip.stopWrite_stopped { s.chip with arbiter := { s.chip.arbiter with requests := older ++ newer } } r
  · rw [hg, if_neg ((s.chip.guardStops_iff r).not.2 hst)]
    let w := s.chip.holding (older ++ newer) r
    obtain ⟨hframe, hlog, hpathKept⟩ := w.grantTo_frame r
    refine ⟨hframe.inFlight, hframe.retryCount, (hframe.waiting.cons r).trans (Chip.holding_waiting hsplit), hframe.regions,
      hframe.attention, hframe.freeIndex, hframe.lane, hframe.take, hframe.copy, hlog,
      fun hn => Chip.grantTo_log_of_not_rolling (s := w) hn r, fun l c hr hw => ⟨fun ho => ?_, fun ho => ?_⟩,
      fun ho => ?_, fun f ho hf hp => ?_, fun f ho hf => ⟨fun hp => ?_, fun hp => ?_⟩, hpathKept⟩
    · rw [Chip.grantTo_frontier ho hw, LogState.clearDrainCopies_of_rolling (by exact hr), Bool.not_not, Bool.not_false,
        Bool.and_true]
      rfl
    · rw [Chip.grantTo_copyAhead ho hw, LogState.clearDrainCopies_of_rolling (by exact hr), Bool.not_not, Bool.not_false,
        Bool.and_true]
      rfl
    · rw [Chip.grantTo_forwardRead ho]
      rfl
    · rw [Chip.grantTo_forwardWrite ho, if_pos rfl, Chip.reportForwarded_beside_page (s := w) hf hp]
      rfl
    all_goals rw [Chip.grantTo_forwardWrite ho, if_neg Bool.false_ne_true]
    · rw [Chip.reportForwarded_of_page (s := w.issueUpstream) hf hp]
      rfl
    · rw [Chip.reportForwarded_beside_page (s := w.issueUpstream) hf hp]
      rfl

end Sys2Proof.Machine

/-! PROOF. CAPTURE_REQUEST (O24): the request that is taken, and what becomes of it. -/

namespace Sys2Proof.Machine
variable {s : Chip} {r : CaptureRequest} {older newer : List CaptureRequest}

/-! ## The requests (R26, R30) -/

/-- The oldest request not yet taken, behind those that wait for space. -/
theorem LogState.untaken_of_split {k : LogState} (h : k.requests = older ++ r :: newer) (hold : ∀ q ∈ older, q.stalled = true)
    (hr : r.stalled = false) : k.untaken = some r := by
  rw [LogState.untaken, h, List.find?_eq_some_iff_append]
  exact ⟨by rw [hr]; rfl, older, newer, rfl, fun q hq => by rw [hold q hq]; rfl⟩

theorem LogState.erase_of_split {k : LogState} (h : k.requests = older ++ r :: newer) (hold : ∀ q ∈ older, q.stalled = true)
    (hr : r.stalled = false) : k.requests.erase r = older ++ newer := by
  have hnot : r ∉ older := fun hm => Bool.false_ne_true (hr.symm.trans (hold r hm))
  rw [h, List.erase_append_right _ hnot, List.erase_cons_head]

/-- The machine with the request taken out of those that wait. -/
def Chip.withRequests (s : Chip) (requests : List CaptureRequest) : Chip :=
  { s with log := { s.log with requests := requests } }

/-- CAPTURE_REQUEST with a request to take and no capture in progress. -/
theorem Chip.captureRequest_of_split (hc : s.log.capture = none) (h : s.log.requests = older ++ r :: newer)
    (hold : ∀ q ∈ older, q.stalled = true) (hr : r.stalled = false) :
    s.captureRequest =
      if s.log.stalled = true ∧ s.log.state = .attached ∧ r.granule ∉ s.log.table then
        (s.withRequests (older ++ newer)).stallRequest r
      else (s.withRequests (older ++ newer)).takeCapture r := by
  unfold Chip.captureRequest
  rw [if_neg (by simp [hc]), LogState.untaken_of_split h hold hr]
  dsimp only
  rw [LogState.erase_of_split h hold hr]
  simp only [List.contains_eq_mem, decide_eq_false_iff_not]
  rfl

/-! ## What becomes of a request that is taken (R24, R29, R33) -/

/-- Where no record is due the request is answered go. -/
theorem Chip.takeCapture_unrecorded (h : ¬(s.log.state = .attached ∨ s.log.draining = true) ∨ r.granule ∈ s.log.table) :
    s.takeCapture r = s.answerGo r.requester := by
  unfold Chip.takeCapture
  split
  · rfl
  next ht =>
    have ht' : s.log.state = .attached ∨ s.log.draining = true := by simpa [or_iff_not_imp_left] using ht
    rw [if_pos (by simpa using h.resolve_left (not_not.2 ht'))]

/-- Where a record is due the request starts its capture or finds the ring full. -/
theorem Chip.takeCapture_recorded (ht : s.log.state = .attached ∨ s.log.draining = true) (hh : r.granule ∉ s.log.table) :
    s.takeCapture r =
      if s.log.nextSeq = 0xFFFFFFFF#32 ∨ s.log.count = s.log.capacity then
        if s.log.state = .rolling then (s.failRollback .overflow 0).answerGo r.requester
        else if s.log.nextSeq = 0xFFFFFFFF#32 ∨ s.log.policy = .break then (s.breakLog .overflow).answerGo r.requester
        else s.stallRequest r
      else s.startCaptureOf r := by
  unfold Chip.takeCapture
  rw [if_neg (by simpa [or_iff_not_imp_left] using ht), if_neg (by simpa using hh)]
  rfl

/-! ## The stall (R30) -/

theorem filter_stalled (hold : ∀ q ∈ older, q.stalled = true) (hnew : ∀ q ∈ newer, q.stalled = false) :
    (older ++ newer).filter (·.stalled) = older ∧ (older ++ newer).filter (!·.stalled) = newer := by
  rw [List.filter_append, List.filter_append, List.filter_eq_self.2 hold,
    List.filter_eq_nil_iff.2 (fun q hq => by simp [hnew q hq] : ∀ q ∈ newer, ¬q.stalled = true),
    List.filter_eq_nil_iff.2 (fun q hq => by simp [hold q hq] : ∀ q ∈ older, ¬(!q.stalled) = true),
    List.filter_eq_self.2 (fun q hq => by simp [hnew q hq] : ∀ q ∈ newer, (!q.stalled) = true)]
  exact ⟨List.append_nil _, List.nil_append _⟩

/-- During a stall the request joins those that wait for space. -/
theorem Chip.stallRequest_joins (hne : older ≠ []) (hold : ∀ q ∈ older, q.stalled = true) (hnew : ∀ q ∈ newer, q.stalled = false) :
    (s.withRequests (older ++ newer)).stallRequest r = s.withRequests (older ++ [{ r with stalled := true }] ++ newer) := by
  have hstalled : (s.withRequests (older ++ newer)).log.stalled = true := by
    obtain ⟨q, hq⟩ := List.exists_mem_of_ne_nil older hne
    exact LogState.stalled_iff.2 ⟨q, List.mem_append_left _ hq, hold q hq⟩
  obtain ⟨hf, hf'⟩ := filter_stalled hold hnew
  unfold Chip.stallRequest
  rw [if_pos hstalled]
  show s.withRequests ((older ++ newer).filter (·.stalled) ++ [{ r with stalled := true }] ++
    (older ++ newer).filter (!·.stalled)) = _
  rw [hf, hf']

/-- The first request that waits for space begins the stall, with its timer and LOG STALLED. -/
theorem Chip.stallRequest_begins (hnew : ∀ q ∈ newer, q.stalled = false) :
    (s.withRequests newer).stallRequest r =
      Chip.handLog
        { s with log := { s.log with
            requests := [{ r with stalled := true }] ++ newer
            stallTimer := if s.log.stallLimit = 0#16 then none else some s.log.stallLimit } }
        .logStalled (plainRecord .logStalled (BitVec.ofNat 32 s.log.tail)) := by
  have hstalled : ¬(s.withRequests newer).log.stalled = true := fun h => by
    obtain ⟨q, hq, hs⟩ := LogState.stalled_iff.1 h
    exact Bool.false_ne_true ((hnew q hq).symm.trans hs)
  obtain ⟨hf, hf'⟩ := filter_stalled (older := []) nofun hnew
  unfold Chip.stallRequest
  rw [if_neg hstalled]
  show Chip.handLog
    { s with log := { s.log with
        requests := newer.filter (·.stalled) ++ [{ r with stalled := true }] ++ newer.filter (!·.stalled)
        stallTimer := if s.log.stallLimit = 0#16 then none else some s.log.stallLimit } } _ _ = _
  rw [List.nil_append] at hf hf'
  rw [hf, hf', List.nil_append]
  rfl

/-- Settles O24: the branches of the request that is taken. -/
theorem captureRequestTaken : Obligations.CaptureRequestTaken := by
  intro s older newer r hc hsplit hold hr
  have htake := Chip.captureRequest_of_split hc hsplit hold hr
  refine ⟨s.chip.captureRequest, rfl, ?_⟩
  rintro s₁ rfl hit rfl taking rfl space rfl
  refine ⟨fun hno => ?_, fun ht hh hfirst => ?_, fun ha hh hne hnew => ?_⟩
  · have hjoin : ¬(s.chip.log.stalled = true ∧ s.chip.log.state = .attached ∧ r.granule ∉ s.chip.log.table) :=
      fun ⟨_, ha, hn⟩ => hno.elim (fun h => h (.inl ha)) hn
    rw [htake, if_neg hjoin, Chip.takeCapture_unrecorded (s := s.chip.withRequests (older ++ newer)) hno]
    exact Chip.answerGo_answered _ _
  · have hjoin : ¬(s.chip.log.stalled = true ∧ s.chip.log.state = .attached ∧ r.granule ∉ s.chip.log.table) := fun ⟨hs, ha, _⟩ => by
      obtain ⟨rfl, hnew⟩ := hfirst ha
      obtain ⟨q, hq, hqs⟩ := LogState.stalled_iff.1 hs
      rw [hsplit, List.nil_append, List.mem_cons] at hq
      rcases hq with rfl | hq
      · exact Bool.false_ne_true (hr.symm.trans hqs)
      · exact Bool.false_ne_true ((hnew q hq).symm.trans hqs)
    rw [htake, if_neg hjoin, Chip.takeCapture_recorded (s := s.chip.withRequests (older ++ newer)) ht hh]
    refine ⟨fun hspace => ?_, fun hfull ha => ?_, fun hfull hroll l c addr d hrun hjob => ?_⟩
    · rintro c rfl
      rw [if_neg (by exact not_or.2 hspace)]
      rfl
    all_goals rw [if_pos (by exact (not_and_or.1 hfull).imp not_not.1 not_not.1)]
    · rw [if_neg (by rw [show (s.chip.withRequests (older ++ newer)).log.state = _ from ha]; decide)]
      refine ⟨fun hbreak => ?_, fun hseq hpolicy => ?_⟩
      · rw [if_pos (by exact hbreak)]
        exact ⟨_, Chip.breakLog_broke .overflow (by rw [ha]; decide), Chip.answerGo_answered _ _⟩
      · obtain ⟨rfl, hnew⟩ := hfirst ha
        rw [if_neg (by exact not_or.2 ⟨hseq, fun hb => nomatch hb.symm.trans hpolicy⟩), List.nil_append,
          Chip.stallRequest_begins hnew, Chip.handLog_eq]
        refine ⟨rfl, rfl, ?_⟩
        rintro record rfl
        rfl
    · rw [if_pos (by exact hroll)]
      exact ⟨_, Chip.failRollback_failed .overflow 0 (by rw [hroll]; decide) ⟨hjob.2, c, hrun⟩, Chip.answerGo_answered _ _⟩
  · have hjoin : s.chip.log.stalled = true ∧ s.chip.log.state = .attached ∧ r.granule ∉ s.chip.log.table := by
      obtain ⟨q, hq⟩ := List.exists_mem_of_ne_nil older hne
      exact ⟨LogState.stalled_iff.2 ⟨q, by rw [hsplit]; exact List.mem_append_left _ hq, hold q hq⟩, ha, hh⟩
    rw [htake, if_pos hjoin, Chip.stallRequest_joins hne hold hnew]
    rfl

end Sys2Proof.Machine

/-! PROOF. CAPTURE_TRANSFER_ANSWER (O25): the reads and writes of a capture, its end, and its FAULT. -/

namespace Sys2Proof.Machine
variable {s : Chip} {c : Capture} {data : Line}

/-! ## The transfers of a capture (R25) -/

/-- The capture in progress, as its next transfer finds it. -/
def Chip.withCapture (s : Chip) (c : Capture) : Chip := { s with log := { s.log with capture := some c } }

theorem Chip.advanceCapture_readFirst (h : c.step = .readFirst) :
    s.advanceCapture c data = (s.withCapture { c with first := data, step := .readSecond }).request
      (captureAccess c.request.cls (readLine (c.request.granule + 0x20#32))) := by
  unfold Chip.advanceCapture
  rw [h]
  rfl

theorem Chip.advanceCapture_readSecond (h : c.step = .readSecond) :
    s.advanceCapture c data =
      ((s.withCapture { c with second := data, step := .writeFirst }).keepImage
        { c with second := data, step := .writeFirst }).issueRecordWrite
        (captureAccess c.request.cls (writeLine (s.log.slotAddress c.slot + 0x20#32) c.first)) := by
  unfold Chip.advanceCapture
  rw [h]
  rfl

theorem Chip.advanceCapture_writeFirst (h : c.step = .writeFirst) :
    s.advanceCapture c data = (s.withCapture { c with step := .writeSecond }).issueRecordWrite
      (captureAccess c.request.cls (writeLine (s.log.slotAddress c.slot + 0x40#32) c.second)) := by
  unfold Chip.advanceCapture
  rw [h]
  rfl

theorem Chip.advanceCapture_writeSecond (h : c.step = .writeSecond) :
    s.advanceCapture c data = (s.withCapture { c with step := .writeHeader }).issueRecordWrite
      (captureAccess c.request.cls (writeLine (s.log.slotAddress c.slot)
        (recordHeader c.request.region c.sequence c.previous c.checkpoint c.request.granule c.first c.second))) := by
  unfold Chip.advanceCapture
  rw [h]
  rfl

theorem Chip.advanceCapture_writeHeader (h : c.step = .writeHeader) : s.advanceCapture c data = s.completeCapture c := by
  unfold Chip.advanceCapture
  rw [h]

/-! ### The image for a copy-ahead (R108) -/

theorem Chip.keepImage_of_host {f : ForwardPoint} (hr : c.request.requester = .host) (hf : s.path.forward = some f)
    (hi : f.image ≠ .unshared) :
    s.keepImage c = { s with path := { s.path with forward := some { f with image := .held (c.second ++ c.first) } } } := by
  unfold Chip.keepImage
  rw [hr, hf]
  dsimp only
  rw [if_neg hi]

/-- For another requester, and for a read that is not shared, nothing is kept. -/
theorem Chip.keepImage_of_unshared
    (h : c.request.requester ≠ .host ∨ ∀ f, s.path.forward = some f → f.image = .unshared) : s.keepImage c = s := by
  unfold Chip.keepImage
  split
  next f hr hf =>
    have hi : f.image = .unshared := h.resolve_left (not_not.2 hr) f hf
    rw [if_pos hi, ← hi]
    show { s with path := { s.path with forward := some f } } = s
    rw [← hf]
  next => rfl

/-! ### The record's writes (R106, R111) -/

/-- A record write is issued through the write check, or ends the copy whose copy-ahead waits for its own capture. -/
theorem Chip.issueRecordWrite_cases (v : Chip) (r : PortRequest) (meets : Prop)
    (hm : meets = (v.copy.notCopied r.access.addr ≠ none ∧ ∃ h, v.copy.ahead = some h ∧ h.waitsCap = true)) :
    (¬meets → WriteIssued v (v.issueRecordWrite r) r ∧
      v.issueRecordWrite r = { v with arbiter := (v.issueRecordWrite r).arbiter, copy := (v.issueRecordWrite r).copy }) ∧
    (meets → ∃ u, AheadFailed v u .destFault ∧
      u.log.requests = (v.log.requests.filter fun q => q.requester != .frontier && q.requester != .copyAhead) ∧
      v.issueRecordWrite r = { u with arbiter := { u.arbiter with requests := u.arbiter.requests ++ [r] } }) := by
  subst hm
  refine ⟨fun hn => ?_, fun ⟨hcopied, hahead⟩ => ?_⟩
  · have hcheck : v.copy.notCopied r.access.addr = none ∨ ∀ a, v.copy.ahead = some a → a.waitsCap = false :=
      (not_and_or.1 hn).imp not_not.1 fun h a ha => Bool.eq_false_iff.2 fun hw => h ⟨a, ha, hw⟩
    rw [Chip.issueRecordWrite_eq hcheck]
    exact ⟨Chip.issueWrite_issued v r, Chip.issueWrite_rest v r⟩
  · exact ⟨v.failAhead .destFault, v.failAhead_failed _, v.failAhead_requests _, Chip.issueRecordWrite_met hcopied hahead⟩

/-! ## The end of a capture (R25, R26) -/

/-- The log with the capture in progress over, its record counted or not. -/
def LogState.captureOver (k : LogState) (c : Capture) : LogState :=
  { (if k.state == .attached || k.draining then k.recorded c else k) with capture := none }

theorem Chip.completeCapture_eq (s : Chip) (c : Capture) :
    s.completeCapture c = Chip.retake (if c.answer then Chip.answerGo { s with log := s.log.captureOver c } c.request.requester
      else { s with log := s.log.captureOver c }) := by
  unfold Chip.completeCapture Chip.endCapture LogState.captureOver
  split <;> rfl

theorem LogState.captureOver_of_taking {k : LogState} (h : k.state = .attached ∨ k.draining = true) {older : List Checkpoint}
    {e : Checkpoint} (he : k.checkpoints = older ++ [e]) :
    k.captureOver c = { k with
      capture := none, tail := (k.tail + 1) % k.capacity, count := k.count + 1, lastSeq := c.sequence
      nextSeq := k.nextSeq + 1#32, checkpoints := older ++ [{ e with records := e.records + 1 }]
      table := if k.table.length < 1024 ∧ c.request.granule ∉ k.table then k.table ++ [c.request.granule] else k.table } := by
  have htable : k.enterTable c.request.granule =
      if k.table.length < 1024 ∧ c.request.granule ∉ k.table then k.table ++ [c.request.granule] else k.table := by
    simp only [LogState.enterTable, Config.tableMax, List.contains_eq_mem, decide_eq_false_iff_not]
  unfold LogState.captureOver
  rw [if_pos (by rw [Bool.or_eq_true, beq_iff_eq]; exact h), LogState.recorded, he, countRecord_append, htable]

theorem LogState.captureOver_of_not_taking {k : LogState} (h : ¬(k.state = .attached ∨ k.draining = true)) :
    k.captureOver c = { k with capture := none } := by
  unfold LogState.captureOver
  rw [if_neg (by rw [Bool.or_eq_true, beq_iff_eq]; exact h)]

/-! ## A FAULT (R32, R33, R108) -/

/-- The rollback's DRAIN is a phase of ROLLING. -/
theorem LogState.rolling_of_draining {k : LogState} (h : k.draining = true) : k.state = .rolling :=
  eq_of_beq (Bool.and_eq_true_iff.1 h).1

theorem LogState.not_draining_of_attached {k : LogState} (h : k.state = .attached) : ¬k.draining = true := fun hd =>
  nomatch h.symm.trans (LogState.rolling_of_draining hd)

theorem Chip.captureFault_of_attached (h : s.log.state = .attached) : s.captureFault = s.breakLog .captureFault := by
  rw [Chip.captureFault, if_neg (LogState.not_draining_of_attached h), if_pos h]

theorem Chip.captureFault_of_draining (h : s.log.draining = true) : s.captureFault = s.failRollback .captureFault 0 :=
  if_pos h

/-- No request waits and no stall lasts, as in a log that has broken. -/
def LogState.NoneWait (k : LogState) : Prop := k.requests = [] ∧ k.stallTimer = none

/-- With no request waiting and no stall, there is nothing to take again. -/
theorem Chip.retake_of_noneWait (h : s.log.NoneWait) : s.retake = s := by
  obtain ⟨hr, ht⟩ := h
  rw [Chip.retake_of_none (by rw [hr]; nofun), ← ht]

theorem Chip.breakLog_noneWait (r : Reason) (h : s.log.state ≠ .broken) : (s.breakLog r).log.NoneWait := by
  rw [LogState.NoneWait, (Chip.breakLog_spec r h).1]
  exact ⟨rfl, rfl⟩

theorem Chip.failRollback_noneWait (r : Reason) (n : Nat) (h : s.log.state ≠ .broken) : (s.failRollback r n).log.NoneWait := by
  have hf : s.faultRequest.log.state ≠ .broken := by
    have hlog : LogBesideCopy s.log s.faultRequest.log := (Chip.endHold_frame { s with regions := s.regions.map Region.toFaulted }).2.2.2
    rw [hlog.1]
    exact h
  have hbroke := Chip.breakLog_noneWait r hf
  have hlog : (s.failRollback r n).log = { (s.faultRequest.breakLog r).log with running := none } :=
    (Chip.endLogJob_frame _ .restoreFault (BitVec.ofNat 32 n)).2.2
  rw [hlog]
  exact hbroke

/-- After a capture's FAULT no request waits. -/
theorem Chip.captureFault_noneWait (h : s.log.state = .attached ∨ s.log.draining = true) : s.captureFault.log.NoneWait := by
  rcases h with h | h
  · rw [Chip.captureFault_of_attached h]
    exact Chip.breakLog_noneWait _ (by rw [h]; decide)
  · rw [Chip.captureFault_of_draining h]
    exact Chip.failRollback_noneWait _ _ (by rw [LogState.rolling_of_draining h]; decide)

theorem LogState.NoneWait.withdrawCaptures {k : LogState} (h : k.NoneWait) (p : Requester → Bool) (a b : Bool) :
    ((k.withdrawCaptures p).clearDrainCopies a b).NoneWait := by
  rw [LogState.NoneWait, LogState.clearDrainCopies_frame, LogState.withdrawCaptures, h.1]
  exact ⟨rfl, rfl⟩

/-- The end of a copy makes no request wait. -/
theorem Chip.endCopy_noneWait (h : s.log.NoneWait) (o : JobOutcome) : (s.endCopy o).log.NoneWait := by
  have hlate : (s.dropFront.log.leaveLate (s.dropFront.arbiter.leaves .copyAhead s.dropFront.copy.aheadWent)).NoneWait := by
    rw [LogState.leaveLate_frame]
    exact h.withdrawCaptures (· == .frontier) true false
  rw [s.endCopy_log o]
  exact hlate.withdrawCaptures (· == .copyAhead) false true

theorem Chip.failShared_noneWait (h : s.log.NoneWait) : s.failShared.log.NoneWait := by
  unfold Chip.failShared
  split
  · split <;> exact h
  · exact Chip.endCopy_noneWait h _

/-- The read that a copy-ahead shares has failed. -/
theorem Chip.failShared_failed (s : Chip) : SharedReadFailed s s.failShared := by
  refine ⟨fun h => ?_, fun h => ?_⟩
  · rw [Chip.failShared, if_neg (by simp [h])]
    exact s.endCopy_ended _
  · rw [Chip.failShared, if_pos (Option.isSome_iff_ne_none.2 h)]
    cases hf : s.path.forward with
    | some f => rfl
    | none =>
      show s = { s with path := { s.path with forward := none } }
      rw [← hf]

theorem Chip.sharesRead_iff (s : Chip) (c : Capture) :
    s.sharesRead c = true ↔ (c.step = .readFirst ∨ c.step = .readSecond) ∧ c.request.requester = .host ∧
      s.copy.notCopied c.request.granule ≠ none ∧ ∀ f, s.path.forward = some f → f.image ≠ .unshared := by
  have himage : s.imageUnshared = false ↔ ∀ f, s.path.forward = some f → f.image ≠ .unshared := by
    unfold Chip.imageUnshared
    cases s.path.forward with
    | none => simp
    | some f => simp
  rw [← himage]
  simp [Chip.sharesRead, Option.isSome_iff_ne_none, and_assoc]

/-- The machine after a capture's FAULT, before its copy's part. -/
def Chip.captureLost (s : Chip) : Chip := Chip.captureFault { s with log := { s.log with capture := none } }

/-- The copy's part of a capture's FAULT. -/
def Chip.sharedLost (s : Chip) (c : Capture) : Chip := if s.sharesRead c then s.failShared else s

theorem Chip.sharedLost_noneWait (h : s.log.NoneWait) (c : Capture) : (s.sharedLost c).log.NoneWait := by
  unfold Chip.sharedLost
  split
  · exact Chip.failShared_noneWait h
  · exact h

/-- In a log that takes records, a capture's FAULT ends with the answer to its request. -/
theorem Chip.failCapture_of_taking (h : s.log.state = .attached ∨ s.log.draining = true) (c : Capture) :
    s.failCapture c = if c.answer then (s.captureLost.sharedLost c).answerGo c.request.requester
      else s.captureLost.sharedLost c := by
  have hnone : (s.captureLost.sharedLost c).log.NoneWait :=
    Chip.sharedLost_noneWait (Chip.captureFault_noneWait (by exact h)) c
  show Chip.retake (if c.answer then (s.captureLost.sharedLost c).answerGo c.request.requester
    else s.captureLost.sharedLost c) = _
  refine Chip.retake_of_noneWait ?_
  split
  · rw [(Chip.answerGo_frame _ _).2.1]
    exact hnone
  · exact hnone

/-! ## CAPTURE_TRANSFER_ANSWER -/

/-- The answer reaches the capture once the port is free. -/
theorem exec_captureTransferAnswer {s : State} (hf : s.chip.InFlight .capture) (a : FinalAnswer) :
    exec (.captureTransferAnswer a) s = .next { s with chip := s.chip.endTransaction.captureAnswered a } := by
  show onChip (·.answered (· == .capture) fun _ t => t.captureAnswered a) s = _
  obtain ⟨_, _, _, he⟩ := Chip.answered_of_inFlight hf (· == .capture) rfl fun _ t => t.captureAnswered a
  rw [onChip, he]

theorem Chip.captureAnswered_done (h : s.log.capture = some c) (data : Line) :
    s.captureAnswered (.done data) = s.advanceCapture c data := by
  unfold Chip.captureAnswered
  rw [h]

theorem Chip.captureAnswered_fault (h : s.log.capture = some c) : s.captureAnswered .fault = s.failCapture c := by
  unfold Chip.captureAnswered
  rw [h]

/-- Settles O25: DONE by the step of the capture, and FAULT. -/
theorem captureTransferAnswer : Obligations.CaptureTransferAnswer := by
  rintro s c hflight hcap _ rfl _ rfl _ rfl _ rfl
  let w := s.chip.endTransaction
  refine ⟨fun data => ⟨w.advanceCapture c data, ?_, fun hstep => ?_, fun hstep => ?_, fun hstep => ?_, fun hstep => ?_,
    fun hstep => ?_⟩, w.captureLost, w.captureLost.sharedLost c, w.failCapture c, ?_, ?_⟩
  · rw [exec_captureTransferAnswer hflight, Chip.captureAnswered_done (s := w) hcap]
  · rintro v rfl
    rw [Chip.advanceCapture_readFirst hstep]
    rfl
  · rintro v rfl
    rw [Chip.advanceCapture_readSecond hstep]
    refine ⟨fun f hr hf hi => ?_, fun hr => ?_⟩
    · rw [Chip.keepImage_of_host (by exact hr) (by exact hf) hi]
      exact fun meets hm => Chip.issueRecordWrite_cases _ _ meets hm
    · rw [Chip.keepImage_of_unshared (by exact hr)]
      exact fun meets hm => Chip.issueRecordWrite_cases _ _ meets hm
  · rw [Chip.advanceCapture_writeFirst hstep]
    exact fun meets hm => Chip.issueRecordWrite_cases _ _ meets hm
  · rw [Chip.advanceCapture_writeSecond hstep]
    exact fun meets hm => Chip.issueRecordWrite_cases _ _ meets hm
  · let v : Chip := { w with log := s.chip.log.captureOver c }
    refine ⟨if c.answer then v.answerGo c.request.requester else v, v, ?_⟩
    rintro taking rfl
    have hretake : w.advanceCapture c data = Chip.retake (if c.answer then v.answerGo c.request.requester else v) := by
      rw [Chip.advanceCapture_writeHeader hstep, Chip.completeCapture_eq]
      rfl
    refine ⟨fun ht older e he => ?_, fun ht => ?_, fun ha => ?_, fun ha => ?_, hretake, fun hq => ?_⟩
    · show { w with log := s.chip.log.captureOver c } = _
      rw [LogState.captureOver_of_taking ht he]
      rfl
    · show { w with log := s.chip.log.captureOver c } = _
      rw [LogState.captureOver_of_not_taking ht]
      rfl
    · rw [if_pos ha]
      exact Chip.answerGo_answered _ _
    · rw [if_neg (by simp [ha])]
    · rw [hretake]
      exact Chip.retake_of_none hq
  · rw [exec_captureTransferAnswer hflight, Chip.captureAnswered_fault (s := w) hcap]
  · rintro s₀ rfl
    refine ⟨fun ha => ?_, fun hd l r addr d hrun hjob => ?_, ?_, fun ht => ?_⟩
    · rw [Chip.captureLost, Chip.captureFault_of_attached (by exact ha)]
      exact Chip.breakLog_broke _ (by rw [ha]; decide)
    · rw [Chip.captureLost, Chip.captureFault_of_draining (by exact hd)]
      exact Chip.failRollback_failed _ _ (by rw [LogState.rolling_of_draining hd]; decide) ⟨hjob.2, r, hrun⟩
    · rintro shares rfl
      rw [← Chip.sharesRead_iff]
      refine ⟨fun hs => ?_, fun hs => if_neg hs⟩
      rw [Chip.sharedLost, if_pos hs]
      exact Chip.failShared_failed _
    · rw [Chip.failCapture_of_taking (by exact ht)]
      refine ⟨fun ha => ?_, fun ha => if_neg (by simp [ha])⟩
      rw [if_pos ha]
      exact Chip.answerGo_answered _ _

end Sys2Proof.Machine

/-! PROOF. MARK (O31), its append once the drain is over (O32), and the answers to a report's writes (O35). -/

namespace Sys2Proof.Machine
variable {s : Chip} {l : Lane} {addr : Word} {d : Descriptor} {rest : List Lane}

/-! ## MARK (R46, R47) -/

theorem markCheck_eq_logState (hs : s.log.state ≠ .attached) : markCheck d s = .logState := if_pos hs

/-- The checks of an ATTACHED log: room in the list, and a number left to give (R46). -/
theorem markCheck_of_attached (hs : s.log.state = .attached) :
    markCheck d s =
      if 24 ≤ s.log.checkpoints.length then .listFull
      else if s.log.highest = 0xFFFFFFFF#32 then .numberExhausted
      else .done :=
  if_neg (not_not.2 hs)

/-- A MARK whose grant is due is refused or accepted at once, whether a capture is in progress or not (R26, R46). -/
theorem Chip.grantLog_mark (h : s.GrantDue l addr d rest) (hk : jobKind d.code = some .mark) :
    s.grantLog .mark markCheck false Chip.markStep =
      if markCheck d s = .done then markAccept d (s.granted l rest)
      else (s.granted l rest).endLogJob (markCheck d s) 0#32 := by
  have hcheck : markCheck d (s.granted l rest) = markCheck d s := rfl
  rw [Chip.grantLog_of_grant h hk, ite_not, if_pos (c := s.log.capture = none ∨ false = false) (.inr rfl)]
  by_cases hd : markCheck d s = .done
  · rw [if_pos hd, if_pos hd, Chip.markStep, Chip.acceptLog, hcheck, if_pos hd]
  · rw [if_neg hd, if_neg hd]

/-- Settles O31: the checks in their order, and what an accepted MARK sets. -/
theorem markAccepted : Obligations.MarkAccepted := by
  intro s l addr d rest hrun hbeside hwait hjob hcode
  have hdue : s.chip.GrantDue l addr d rest := ⟨hrun, hbeside, hwait, hjob⟩
  have hgrant := Chip.grantLog_mark hdue (by rw [hcode]; rfl)
  have refused : ∀ o, markCheck d s.chip = o → o ≠ .done →
      LogJobRefused s.chip (s.chip.grantLog .mark markCheck false Chip.markStep) l addr d rest o := fun o ho hn => by
    rw [hgrant, ho, if_neg hn]
    exact Chip.granted_refused hjob.2 o
  refine ⟨s.chip.grantLog .mark markCheck false Chip.markStep, rfl,
    fun hs => refused _ (markCheck_eq_logState hs) nofun, fun hs => ⟨fun hfull => ?_, fun hroom hlast => ?_,
    fun hroom hleft => ?_⟩⟩
  all_goals have hcheck := markCheck_of_attached (d := d) hs
  · exact refused _ (hcheck.trans (if_pos hfull)) nofun
  · rw [if_neg hroom.not_ge, if_pos hlast] at hcheck
    exact refused _ hcheck nofun
  · rw [if_neg hroom.not_ge, if_neg hleft] at hcheck
    rw [hgrant, if_pos hcheck]
    exact ⟨(s.chip.granted_spec l rest).1, rfl⟩

/-! ## MARK_APPEND (R49, R51) -/

/-- The part as the barrier of a MARK is lifted, with its log changed to `k`. -/
def Chip.unbarred (s : Chip) (k : LogState) : Chip := { s with path := { s.path with barrier := none }, log := k }

/-- MARK_APPEND of a draining MARK, by whether its time has come and whether the log still takes an append. -/
theorem Chip.markAppend_of_drain (hr : s.log.running = some { lane := l, stage := .markDrain }) :
    s.markAppend =
      if s.path.watches.mark = none ∧ s.log.capture = none ∧ s.log.beside = none then
        if s.log.state = .attached then (s.unbarred s.log.appended).endLogJob .done (s.log.highest + 1#32)
        else (s.unbarred s.log).endLogJob .logState 0#32
      else s := by
  unfold Chip.markAppend
  rw [hr]
  simp only [LogState.betweenCaptures, Option.isNone_iff_eq_none]
  rfl

/-- The MARK's end, whatever its append has made of the log. -/
theorem Chip.unbarred_ends {k : LogState} (hr : k.running = some { lane := l, stage := .markDrain })
    (hj : s.HasJob l .run addr d) (o : JobOutcome) (r : Word) :
    ∀ t, t = (s.unbarred k).endLogJob o r →
      t.regions = s.regions ∧ SameBesideHandBack { s with path := { s.path with barrier := none } } t ∧
        t.log = { k with running := none } ∧ HandsBack s t l addr d o r := by
  rintro t rfl
  obtain ⟨hback, hsame, hregions, hlog⟩ := Chip.endLogJob_spec (s := s.unbarred k) hr hj.2 o r
  exact ⟨hregions, hsame, hlog, hback⟩

/-- Settles O32: a MARK that still waits, and the append of an ATTACHED log and of one that has broken. -/
theorem markAppend : Obligations.MarkAppend := by
  intro s l addr d hr hj
  have hstep := Chip.markAppend_of_drain hr
  refine ⟨fun hwaits => ?_, fun hw hc hb => ⟨s.chip.markAppend, rfl, ?_⟩⟩
  · have hnot : ¬(s.chip.path.watches.mark = none ∧ s.chip.log.capture = none ∧ s.chip.log.beside = none) := by
      rintro ⟨hw, hc, hb⟩
      exact hwaits.elim (· hw) (Or.elim · (· hc) (· hb))
    show onChip (·.markAppend) s = _
    rw [onChip, hstep, if_neg hnot]
  · rw [if_pos ⟨hw, hc, hb⟩] at hstep
    by_cases hs : s.chip.log.state = .attached
    · rw [if_pos hs] at hstep
      obtain ⟨hregions, hsame, hlog, hback⟩ := Chip.unbarred_ends (k := s.chip.log.appended) hr hj .done _ _ hstep
      exact ⟨hregions, hsame, fun _ => ⟨hlog, hback⟩, fun hn => absurd hs hn⟩
    · rw [if_neg hs] at hstep
      obtain ⟨hregions, hsame, hlog, hback⟩ := Chip.unbarred_ends hr hj .logState _ _ hstep
      exact ⟨hregions, hsame, fun ha => absurd ha hs, fun _ => ⟨hlog, hback⟩⟩

/-! ## REPORT_WRITE_ANSWER (R55) -/

/-- The access of a report's next write: a line for a 32-aligned buffer, else a single of 8 bytes. -/
def Report.access (r : Report) : Access :=
  if r.addr.toNat % 32 = 0 then writeLine (r.addr + BitVec.ofNat 32 r.written) (field r.snapshot r.written 256)
  else writeSingle (r.addr + BitVec.ofNat 32 r.written) 8 ((field r.snapshot r.written 64).setWidth 256)

/-- The bytes of a report that are in memory once its write in flight is. -/
def Report.next (r : Report) : Nat := r.written + (if r.addr.toNat % 32 = 0 then 32 else 8)

theorem Report.access_of_line {r : Report} (h : r.addr.toNat % 32 = 0) :
    r.access = writeLine (r.addr + BitVec.ofNat 32 r.written) (field r.snapshot r.written 256) := if_pos h

theorem Report.access_of_single {r : Report} (h : r.addr.toNat % 32 ≠ 0) :
    r.access = writeSingle (r.addr + BitVec.ofNat 32 r.written) 8 ((field r.snapshot r.written 64).setWidth 256) := if_neg h

theorem Chip.issueReport_eq (s : Chip) (r : Report) :
    s.issueReport r =
      (s.setStage (.reporting r)).issueWrite { owner := .report, cls := .log, access := r.access, stale := false } := rfl

theorem Chip.reportAnswered_fault {r : Report} (hr : s.log.running = some { lane := l, stage := .reporting r }) :
    s.reportAnswered .fault = s.endLogJob .reportFault (BitVec.ofNat 32 r.written) := by
  unfold Chip.reportAnswered
  rw [hr]

theorem Chip.reportAnswered_done {r : Report} (hr : s.log.running = some { lane := l, stage := .reporting r }) (data : Line) :
    s.reportAnswered (.done data) =
      if r.next < 256 then s.issueReport { r with written := r.next } else s.endLogJob .done 256#32 := by
  unfold Chip.reportAnswered
  rw [hr]
  rfl

/-- The answer reaches the report once the port is free. -/
theorem exec_reportWriteAnswer {s : State} (hf : s.chip.InFlight .report) (a : FinalAnswer) :
    exec (.reportWriteAnswer a) s = .next { s with chip := s.chip.endTransaction.reportAnswered a } := by
  show onChip (·.answered (· == .report) fun _ t => t.reportAnswered a) s = _
  obtain ⟨_, _, _, hanswered⟩ := Chip.answered_of_inFlight hf (· == .report) rfl fun _ t => t.reportAnswered a
  rw [onChip, hanswered]

/-- Settles O35: memory's answer, and after DONE whether a write is left. -/
theorem reportWriteAnswer : Obligations.ReportWriteAnswer := by
  rintro s l addr d r hf hr hj s₁ rfl write rfl n hn
  obtain rfl : n = r.next := hn
  have hr₁ : s.chip.endTransaction.log.running = some { lane := l, stage := .reporting r } := hr
  refine ⟨fun data => ⟨_, exec_reportWriteAnswer hf _, fun hlt => ?_, fun hle => ?_⟩, ⟨_, exec_reportWriteAnswer hf _, ?_⟩⟩
  · rintro u rfl
    rw [Chip.reportAnswered_done hr₁, if_pos (by exact hlt), Chip.issueReport_eq, Chip.setStage_of_running hr₁]
    refine ⟨Chip.issueWrite_rest _ _, fun ha => ?_, fun ha => ?_⟩
    · rw [Report.access_of_line (r := { r with written := r.next }) ha]
      exact Chip.issueWrite_issued _ _
    · rw [Report.access_of_single (r := { r with written := r.next }) ha]
      exact Chip.issueWrite_issued _ _
  · rw [Chip.reportAnswered_done hr₁, if_neg (by exact hle.not_gt)]
    obtain ⟨hback, hsame, hregions, hlog⟩ := Chip.endLogJob_spec hr₁ hj.2 .done 256#32
    exact ⟨hback, hlog, hregions, hsame⟩
  · rw [Chip.reportAnswered_fault hr₁]
    obtain ⟨hback, hsame, hregions, hlog⟩ := Chip.endLogJob_spec hr₁ hj.2 .reportFault (BitVec.ofNat 32 r.written)
    exact ⟨hback, hlog, hregions, hsame⟩

end Sys2Proof.Machine

/-! PROOF. The rollback after its acceptance: the end of its drain (O37), its walk (O38), and the answer to its MARKER write (O39). -/

namespace Sys2Proof.Machine
variable {s : Chip} {l : Lane} {addr : Word} {d : Descriptor} {c k : Rollback} {older newer : List Checkpoint} {e : Checkpoint}

/-! ## The rollback context -/

theorem LogState.rollback_of_running {log : LogState} (hr : log.running = some { lane := l, stage := .rolling c }) :
    log.rollback = some c := by
  unfold LogState.rollback
  rw [hr]

theorem Chip.setRollback_of_running (hr : s.log.running = some { lane := l, stage := .rolling c }) (k : Rollback) :
    s.setRollback k = { s with log := { s.log with running := some { lane := l, stage := .rolling k } } } :=
  Chip.setStage_of_running hr _

/-- A write that goes with a new value of the context (R106). -/
theorem Chip.setRollback_issueWrite (hr : s.log.running = some { lane := l, stage := .rolling c }) (k : Rollback)
    (r : PortRequest) :
    ∀ u : Chip, u = { s with log := { s.log with running := some { lane := l, stage := .rolling k } } } →
      ∀ t, t = (s.setRollback k).issueWrite r → t = { u with arbiter := t.arbiter, copy := t.copy } ∧ WriteIssued u t r := by
  rintro u rfl t rfl
  rw [Chip.setRollback_of_running hr]
  exact ⟨Chip.issueWrite_rest _ _, Chip.issueWrite_issued _ _⟩

/-! ## FINISH (R66) -/

/-- Neither the ring nor the sequence forbids the MARKER: it is issued. -/
theorem Chip.finishRollback_issued (hr : s.log.running = some { lane := l, stage := .rolling c })
    (hf : s.log.find k.target = some e) (hroom : k.span = 0 → s.log.count ≠ s.log.capacity)
    (hseq : s.log.nextSeq ≠ 0xFFFFFFFF#32) :
    ∀ u : Chip, u = { s with
        log := { s.log with running := some { lane := l, stage := .rolling { k with phase := .finish } } } } →
      s.finishRollback k = { u with arbiter := (s.finishRollback k).arbiter, copy := (s.finishRollback k).copy } ∧
        WriteIssued u (s.finishRollback k) (markerWrite s k e.firstSlot) := by
  have hgo : ¬((k.span = 0 ∧ s.log.count = s.log.capacity) ∨ s.log.nextSeq = Config.seqMax) := by
    rintro (⟨hz, hfull⟩ | hmax)
    · exact hroom hz hfull
    · exact hseq hmax
  have hissue : s.finishRollback k =
      (s.setRollback { k with phase := .finish }).issueWrite (markerWrite s k e.firstSlot) := by
    unfold Chip.finishRollback
    dsimp only
    rw [if_neg hgo, hf]
    rfl
  exact fun u hu => Chip.setRollback_issueWrite hr _ _ u hu _ hissue

/-- With the ring full over an empty span, or with no SEQUENCE left, the trim is taken at once. -/
theorem Chip.finishRollback_returned (hr : s.log.running = some { lane := l, stage := .rolling c })
    (hj : s.HasJob l .run addr d) (hsp : s.log.checkpoints = older ++ e :: newer) (he : e.number = k.target)
    (ho : ∀ q ∈ older, q.number ≠ k.target)
    (hstop : (k.span = 0 ∧ s.log.count = s.log.capacity) ∨ s.log.nextSeq = 0xFFFFFFFF#32) :
    RollbackReturned s (s.finishRollback k) l addr d k older e s.log.nextSeq := by
  have htrim : s.finishRollback k =
      (s.setRollback { k with phase := .finish }).trimAndReturn { k with phase := .finish } false := if_pos hstop
  rw [htrim]
  exact Chip.trimAndReturn_returned (c := { k with phase := .finish }) false (Chip.setRollback_of_running hr _) hj hsp he ho

/-! ## ROLLBACK_DRAIN_END (R60, R61) -/

/-- What DRAIN still waits for: its drain point, a write of the Copy Engine, or a capture (R60). -/
def Chip.DrainWaits (s : Chip) (c : Rollback) : Prop :=
  s.path.watches.rollback ≠ none ∨ c.drainFrontier = true ∨ c.drainAhead = true ∨ s.leftCopyWrite = true ∨
    s.log.capture ≠ none

/-- The context as DRAIN ends: the span, and the walk's first slot with its SEQUENCE (R61). -/
def Chip.spanned (s : Chip) (c : Rollback) : Rollback :=
  { c with phase := .restore, span := recordsOf (s.log.since c.target)
           walkSlot := s.log.slotBefore s.log.tail, expected := s.log.lastSeq }

theorem Chip.rollbackDrainEnd_of_waits (hr : s.log.running = some { lane := l, stage := .rolling c }) (h : s.DrainWaits c) :
    s.rollbackDrainEnd = s := by
  unfold Chip.rollbackDrainEnd
  rw [LogState.rollback_of_running hr]
  refine if_neg ?_
  rintro ⟨-, -, hw, hfront, hahead, hleft, hcap⟩
  rcases h with h | h | h | h | h
  · exact h hw
  · simp [hfront] at h
  · simp [hahead] at h
  · simp [hleft] at h
  · exact h (Option.isNone_iff_eq_none.1 hcap)

theorem Chip.rollbackDrainEnd_of_drained (hr : s.log.running = some { lane := l, stage := .rolling c })
    (hs : s.log.state = .rolling) (hp : c.phase = .drain) (h : ¬s.DrainWaits c) :
    s.rollbackDrainEnd =
      if recordsOf (s.log.since c.target) = 0 then s.finishRollback (s.spanned c) else s.readWalkSlot (s.spanned c) := by
  simp only [Chip.DrainWaits, not_or, not_not, Bool.not_eq_true] at h
  obtain ⟨hw, hfront, hahead, hleft, hcap⟩ := h
  unfold Chip.rollbackDrainEnd
  rw [LogState.rollback_of_running hr]
  exact if_pos ⟨hp, hs, hw, hfront, hahead, hleft, Option.isNone_iff_eq_none.2 hcap⟩

/-- Settles O37: the waits, and after them the span with records and without. -/
theorem rollbackDrainEnd : Obligations.RollbackDrainEnd := by
  rintro s l addr d c older e newer hr hs hj hp ha hsp he ho waits rfl n rfl slot rfl
  obtain ⟨hfind, _, hsince⟩ := LogState.find_of_split hsp he ho
  refine ⟨fun hw => ?_, fun hw => ⟨s.chip.rollbackDrainEnd, rfl, ?_⟩⟩
  · show onChip (·.rollbackDrainEnd) s = _
    rw [onChip, Chip.rollbackDrainEnd_of_waits hr hw]
  rintro _ rfl
  have hend := Chip.rollbackDrainEnd_of_drained hr hs hp hw
  rw [hsince] at hend
  have hspan : (s.chip.spanned c).span = recordsOf (e :: newer) := congrArg recordsOf hsince
  have hctx : s.chip.spanned c = { c with
      phase := .restore, span := recordsOf (e :: newer), expected := s.chip.log.lastSeq
      walkSlot := (s.chip.log.tail + s.chip.log.capacity - 1) % s.chip.log.capacity } := by
    rw [← hsince]
    rfl
  refine ⟨fun hn => ?_, fun hn hroom hseq => ?_, fun hn hstop => ?_⟩
  · rw [hend, if_neg hn, Chip.readWalkSlot, Chip.setRollback_of_running hr, hctx]
    rfl
  · rintro u rfl
    rw [hend, if_pos hn]
    have hissued := Chip.finishRollback_issued (k := s.chip.spanned c) hr hfind (fun _ => hroom) hseq _ rfl
    rw [hctx] at hissued ⊢
    exact hissued
  · rw [hend, if_pos hn]
    exact Chip.finishRollback_returned (k := s.chip.spanned c) hr hj hsp he ho (hstop.imp_left fun h => ⟨hspan.trans hn, h⟩)

/-! ## RESTORE_ACCESS_ANSWER (R62 to R65) -/

/-- An answer reaches its owner once the port is free (R121, R133). -/
theorem onChip_answered {s : State} {o : Owner} (hf : s.chip.InFlight o) (act : Chip → Chip) :
    onChip (·.answered (· == o) fun _ t => act t) s = .next { s with chip := act s.chip.endTransaction } := by
  obtain ⟨_, _, _, hanswered⟩ := Chip.answered_of_inFlight hf (· == o) (beq_self_eq_true o) fun _ t => act t
  rw [onChip, hanswered]

/-- The validation of R63 for the rollback's target `e`. -/
theorem LogState.validSlot_iff {log : LogState} (hf : log.find k.target = some e) :
    log.validSlot k = true ↔
      headerKind k.header = 0xC1#8 ∧ headerCheck k.header = recordCheck k.header k.first k.second ∧
        headerSequence k.header = k.expected ∧ (headerGranule k.header).toNat % 64 = 0 ∧
        (k.walkSlot = e.firstSlot → 0 < e.records → headerSequence k.header = e.firstSequence) := by
  unfold LogState.validSlot
  rw [hf]
  simp only [Bool.and_eq_true, beq_iff_eq, and_assoc, kindRecord]
  by_cases h : k.walkSlot = e.firstSlot ∧ 0 < e.records
  · simp [h]
  · rw [if_neg h]
    simp only [← and_imp, h, false_imp_iff]

theorem Chip.restoreAnswered_done (hr : s.log.running = some { lane := l, stage := .rolling c }) (hs : s.log.state = .rolling)
    (hp : c.phase = .restore) (data : Line) : s.restoreAnswered (.done data) = s.advanceWalk c data := by
  unfold Chip.restoreAnswered
  rw [LogState.rollback_of_running hr]
  exact if_pos ⟨hp, hs⟩

theorem Chip.restoreAnswered_fault (hr : s.log.running = some { lane := l, stage := .rolling c }) (hs : s.log.state = .rolling)
    (hp : c.phase = .restore) : s.restoreAnswered .fault = s.failRollback .restoreFault c.applied := by
  unfold Chip.restoreAnswered
  rw [LogState.rollback_of_running hr]
  exact if_pos ⟨hp, hs⟩

theorem Chip.advanceWalk_readHeader (h : c.step = .readHeader) (data : Line) :
    s.advanceWalk c data = (s.setRollback { c with header := data, step := .readFirst }).request
      (restoreRequest (readLine (s.log.slotAddress c.walkSlot + 0x20#32))) := by
  unfold Chip.advanceWalk
  rw [h]

theorem Chip.advanceWalk_readFirst (h : c.step = .readFirst) (data : Line) :
    s.advanceWalk c data = (s.setRollback { c with first := data, step := .readSecond }).request
      (restoreRequest (readLine (s.log.slotAddress c.walkSlot + 0x40#32))) := by
  unfold Chip.advanceWalk
  rw [h]

theorem Chip.advanceWalk_readSecond (h : c.step = .readSecond) (data : Line) :
    s.advanceWalk c data =
      if s.log.validSlot { c with second := data } then
        (s.setRollback { c with second := data, step := .writeFirst }).issueWrite
          (restoreRequest (writeLine (headerGranule c.header) c.first))
      else s.failRollback .restoreFault c.applied := by
  unfold Chip.advanceWalk
  rw [h]

theorem Chip.advanceWalk_writeFirst (h : c.step = .writeFirst) (data : Line) :
    s.advanceWalk c data = (s.setRollback { c with step := .writeSecond }).issueWrite
      (restoreRequest (writeLine (headerGranule c.header + 0x20#32) c.second)) := by
  unfold Chip.advanceWalk
  rw [h]

/-- The context once the image of its slot is back in memory (R64). -/
def Rollback.restored (c : Rollback) : Rollback :=
  { c with applied := c.applied + 1, lastPrevious := headerPrevious c.header }

theorem Chip.advanceWalk_writeSecond (h : c.step = .writeSecond) (data : Line) :
    s.advanceWalk c data =
      if c.applied + 1 = c.span then s.finishRollback c.restored
      else s.readWalkSlot { c.restored with
        expected := headerPrevious c.header, walkSlot := s.log.slotBefore c.walkSlot } := by
  cases c
  cases h
  rfl

/-- Settles O38: DONE by the step of the walk, and FAULT. -/
theorem restoreAccessAnswer : Obligations.RestoreAccessAnswer := by
  rintro s l addr d c older e newer hflight hr hs hj hp hsp he ho s₁ rfl slot rfl reads rfl writes rfl
  let w := s.chip.endTransaction
  have hrun : w.log.running = some { lane := l, stage := .rolling c } := hr
  have hbroken : w.log.state ≠ .broken := by
    rw [show w.log.state = .rolling from hs]
    nofun
  have hfailed : RollbackFailed w (w.failRollback .restoreFault c.applied) l addr d .restoreFault c.applied :=
    Chip.failRollback_failed _ _ hbroken ⟨hj.2, c, hrun⟩
  obtain ⟨hfind, _, _⟩ := LogState.find_of_split hsp he ho
  refine ⟨fun data => ⟨w.advanceWalk c data, ?_, fun hstep => ?_, fun hstep => ?_, fun hstep => ?_, fun hstep => ?_,
    fun hstep => ?_⟩, w.failRollback .restoreFault c.applied, ?_, hfailed⟩
  · rw [← Chip.restoreAnswered_done hrun hs hp]
    exact onChip_answered hflight (·.restoreAnswered (.done data))
  · rw [Chip.advanceWalk_readHeader hstep, Chip.setRollback_of_running hrun]
    rfl
  · rw [Chip.advanceWalk_readFirst hstep, Chip.setRollback_of_running hrun]
    rfl
  · rintro valid rfl
    rw [Chip.advanceWalk_readSecond hstep]
    have hvalid := LogState.validSlot_iff (log := w.log) (k := { c with second := data }) hfind
    refine ⟨fun hv => ?_, fun hv => ?_⟩
    · rw [if_pos (hvalid.2 hv)]
      exact Chip.setRollback_issueWrite hrun _ _ _ rfl _ rfl
    · rw [if_neg (mt hvalid.1 hv)]
      exact hfailed
  · rw [Chip.advanceWalk_writeFirst hstep]
    exact Chip.setRollback_issueWrite hrun _ _ _ rfl _ rfl
  · rintro _ rfl
    rw [Chip.advanceWalk_writeSecond hstep]
    refine ⟨fun hmore => ?_, fun hlast hseq => ?_, fun hlast hseq => ?_⟩
    · rintro i rfl
      rw [if_neg hmore, Chip.readWalkSlot, Chip.setRollback_of_running hrun]
      rfl
    · rw [if_pos hlast]
      have hspan : c.span ≠ 0 := by omega
      exact Chip.finishRollback_issued (k := c.restored) hrun hfind (fun hz => absurd hz hspan) hseq _ rfl
    · rw [if_pos hlast]
      exact Chip.finishRollback_returned (k := c.restored) hrun hj hsp he ho (.inr hseq)
  · rw [← Chip.restoreAnswered_fault hrun hs hp]
    exact onChip_answered hflight (·.restoreAnswered .fault)

/-! ## MARKER_WRITE_ANSWER (R67, R68) -/

/-- The trim leaves the log ATTACHED (R67). -/
theorem Chip.trimAndReturn_attached (s : Chip) (c : Rollback) (b : Bool) : (s.trimAndReturn c b).log.state = .attached := by
  let v : Chip := { s with log := s.log.trimmed c b, regions := s.regions.map Region.returnToResume }
  have hend : (s.trimAndReturn c b).log = { v.endHold.log with running := none } :=
    (Chip.endLogJob_frame v.endHold .done (BitVec.ofNat 32 c.applied)).2.2
  obtain ⟨_, _, _, hlog, _⟩ := v.endHold_frame
  rw [hend, hlog]
  show (s.log.trimmed c b).state = .attached
  unfold LogState.trimmed
  dsimp only
  split <;> rfl

/-- The answer to the MARKER write: the trim, and after a FAULT the break. -/
theorem Chip.markerAnswered_eq (hr : s.log.running = some { lane := l, stage := .rolling c }) (hs : s.log.state = .rolling)
    (hp : c.phase = .finish) :
    (∀ data, s.markerAnswered (.done data) = s.trimAndReturn c true) ∧
      s.markerAnswered .fault = (s.trimAndReturn c true).breakLog .restoreFault := by
  unfold Chip.markerAnswered
  rw [LogState.rollback_of_running hr]
  exact ⟨fun _ => if_pos ⟨hp, hs⟩, if_pos ⟨hp, hs⟩⟩

/-- Settles O39: the trim, and the break that follows it after a FAULT. -/
theorem markerWriteAnswer : Obligations.MarkerWriteAnswer := by
  rintro s l addr d c older e newer hflight hr hs hj hp hsp he ho returns rfl
  let w := s.chip.endTransaction
  obtain ⟨hdone, hfault⟩ := Chip.markerAnswered_eq (s := w) hr hs hp
  have hself : w = { w with log := { w.log with running := some { lane := l, stage := .rolling c } } } := by
    rw [← hr]
    rfl
  have hreturned : RollbackReturned w (w.trimAndReturn c true) l addr d c older e (s.chip.log.nextSeq + 1#32) :=
    Chip.trimAndReturn_returned true hself hj hsp he ho
  refine ⟨fun data => ⟨w.trimAndReturn c true, ?_, hreturned⟩,
    w.trimAndReturn c true, (w.trimAndReturn c true).breakLog .restoreFault, ?_, hreturned, ?_⟩
  · rw [← hdone data]
    exact onChip_answered hflight (·.markerAnswered (.done data))
  · rw [← hfault]
    exact onChip_answered hflight (·.markerAnswered .fault)
  · refine Chip.breakLog_broke _ ?_
    rw [Chip.trimAndReturn_attached]
    nofun

end Sys2Proof.Machine

/-! PROOF. An answer to a read of the adopt scan (O41): the slot's reads, the judgement of a slot in each pass, and the scan's
end. -/

namespace Sys2Proof.Machine
variable {s : Chip} {l : Lane} {addr : Word} {d : Descriptor} {c : Scan} {n : Newest} {data : Line}

/-! ## Slots as the scan judges them (R82 to R84) -/

theorem validRecord_iff {header first second : Line} :
    validRecord header first second = true ↔ ValidRecord header first second := by
  simp only [validRecord, ValidRecord, Bool.and_eq_true, beq_iff_eq, bne_iff_ne, decide_eq_true_eq, and_assoc]
  rfl

theorem validMarker_iff {header : Line} : validMarker header = true ↔ ValidMarker header := by
  simp only [validMarker, ValidMarker, Bool.and_eq_true, beq_iff_eq, bne_iff_ne, and_assoc]
  rfl

/-- The newest item, were it the slot being read (R83). -/
def Scan.candidate (c : Scan) : Newest :=
  { slot := c.slot, isMarker := headerKind c.header == kindMarker, sequence := headerSequence c.header
    previous := headerPrevious c.header, checkpoint := headerCheckpoint c.header }

theorem Scan.select_of_invalid (h : ¬(ValidRecord c.header c.first data ∨ ValidMarker c.header)) : c.select data = c.newest := by
  rw [← validRecord_iff, ← validMarker_iff, ← Bool.or_eq_true] at h
  exact if_neg h

/-- A valid slot is compared with the newest one before it. -/
theorem Scan.select_of_valid (h : ValidRecord c.header c.first data ∨ ValidMarker c.header) :
    c.select data = match c.newest with
      | none => some c.candidate
      | some n => if n.sequence.toNat < (headerSequence c.header).toNat then some c.candidate else some n := by
  rw [← validRecord_iff, ← validMarker_iff, ← Bool.or_eq_true] at h
  exact if_pos h

theorem Scan.select_of_older (h : ValidRecord c.header c.first data ∨ ValidMarker c.header) (hn : c.newest = some n)
    (hle : (headerSequence c.header).toNat ≤ n.sequence.toNat) : c.select data = some n := by
  rw [Scan.select_of_valid h, hn]
  exact if_neg hle.not_gt

theorem Scan.select_of_newer (h : ValidRecord c.header c.first data ∨ ValidMarker c.header)
    (hlt : ∀ n, c.newest = some n → n.sequence.toNat < (headerSequence c.header).toNat) : c.select data = some c.candidate := by
  rw [Scan.select_of_valid h]
  cases hn : c.newest with
  | none => rfl
  | some n => exact if_pos (hlt n hn)

/-- The conditions of R84. -/
theorem Scan.takes_iff :
    c.takes data = true ↔ ValidRecord c.header c.first data ∧ headerSequence c.header = c.expected ∧
      c.floor.toNat ≤ (headerCheckpoint c.header).toNat ∧
      (∀ b, c.bound = some b → (headerCheckpoint c.header).toNat ≤ b.toNat) ∧
      (headerCheckpoint c.header ∈ c.numbers ∨ c.numbers.length < 24) := by
  simp only [Scan.takes, Bool.and_eq_true, Bool.or_eq_true, validRecord_iff, beq_iff_eq, decide_eq_true_eq, List.contains_iff_mem,
    and_assoc]
  have hmax : Config.listMax = 24 := rfl
  cases c.bound with
  | none => simp [hmax]
  | some b => simp [hmax]

/-! ## The list of a rebuilt log (R86) -/

/-- The entry of a run (R86). -/
def Run.entry (r : Run) : Checkpoint :=
  { number := r.number, firstSlot := r.oldest, firstSequence := r.sequence, records := r.records }

/-- A MARKER whose checkpoint no run carries adds an empty entry. -/
theorem Scan.list_of_marker (hm : n.isMarker = true) (hno : ∀ r ∈ c.runs, r.number ≠ n.checkpoint) (q : Word) :
    c.list n q = c.runs.map Run.entry ++ [{ number := n.checkpoint, firstSlot := c.tail, firstSequence := q, records := 0 }] :=
  if_pos (by simpa [hm] using hno)

theorem Scan.list_of_runs (h : n.isMarker = false ∨ ∃ r ∈ c.runs, r.number = n.checkpoint) (q : Word) :
    c.list n q = c.runs.map Run.entry :=
  if_neg (by rcases h with h | h <;> simp [h])

/-! ## The end of a scan (R85 to R90) -/

section
variable (hr : s.log.running = some { lane := l, stage := .adopting c }) (hj : s.HasJob l .run addr d)
include hr hj

/-- A scan without a log leaves the Log Unit UNSET (R89, R90). -/
theorem Chip.endScan_spec (o : JobOutcome) (i : Nat) :
    (s.endScan o i).log = s.log.backToUnset ∧ HandsBack s (s.endScan o i) l addr d o (BitVec.ofNat 32 i) ∧
      SameBesideHandBack s (s.endScan o i) ∧ (s.endScan o i).regions = s.regions := by
  obtain ⟨hback, hsame, hregions, hlog⟩ :=
    Chip.endLogJob_spec (s := { s with log := s.log.toUnset }) hr hj.2 o (BitVec.ofNat 32 i)
  exact ⟨hlog, hback, hsame, hregions⟩

/-- A walk that has taken a record, or that began at a MARKER, rebuilds the log (R85, R88). -/
theorem Chip.finishScan_adopted {k : Scan} (h : k.included ≠ 0 ∨ n.isMarker = true) (hmax : n.sequence ≠ 0xFFFFFFFF#32) :
    (s.finishScan k n).log = { s.log.adopted k n (n.sequence + 1#32) with running := none } ∧
      HandsBack s (s.finishScan k n) l addr d .done (BitVec.ofNat 32 k.included) ∧ SameBesideHandBack s (s.finishScan k n) ∧
      (s.finishScan k n).regions = s.regions := by
  have hgo : ¬(k.included = 0 ∧ n.isMarker = false) := by
    rintro ⟨hz, hm⟩
    simp [hz, hm] at h
  have heq : s.finishScan k n =
      Chip.endLogJob { s with log := s.log.adopted k n (n.sequence + 1#32) } .done (BitVec.ofNat 32 k.included) := by
    simp [Chip.finishScan, hgo, hmax]
  rw [heq]
  obtain ⟨hback, hsame, hregions, hlog⟩ :=
    Chip.endLogJob_spec (s := { s with log := s.log.adopted k n (n.sequence + 1#32) }) hr hj.2 .done (BitVec.ofNat 32 k.included)
  exact ⟨hlog, hback, hsame, hregions⟩

end

/-- With no record taken, and a RECORD newest, the scan is empty (R85). -/
theorem Chip.finishScan_of_empty (hz : c.included = 0) (hm : n.isMarker = false) :
    s.finishScan c n = s.endScan .scanEmpty 0 := if_pos ⟨hz, hm⟩

/-! ## The steps of a scan (R81, R84) -/

/-- The part as the scan, with context `k`, reads the line at `a` in its slot. -/
def Chip.scanReads (s : Chip) (l : Lane) (k : Scan) (a : Word) : Chip :=
  { s with
    log := { s.log with running := some { lane := l, stage := .adopting k } }
    arbiter := { s.arbiter with requests := s.arbiter.requests ++ [scanRequest (s.log.slotAddress k.slot + a)] } }

theorem Chip.readScanSlot_eq (hr : s.log.running = some { lane := l, stage := .adopting c }) (k : Scan) :
    s.readScanSlot k = s.scanReads l { k with step := .readHeader } 0#32 := by
  rw [Chip.readScanSlot, Chip.setStage_of_running hr, Chip.scanReads, BitVec.add_zero]
  rfl

theorem Chip.walkOn_of_stop (h : c.expected = 0#32 ∨ c.included = s.log.capacity) : s.walkOn c n = s.finishScan c n := if_pos h

theorem Chip.walkOn_of_more (he : c.expected ≠ 0#32) (hi : c.included ≠ s.log.capacity) :
    s.walkOn c n =
      s.readScanSlot { c with slot := (c.tail + (s.log.capacity - 1) * (c.included + 1)) % s.log.capacity } :=
  if_neg (by simp [he, hi])

theorem Chip.endSelect_of_none (hn : c.newest = none) : s.endSelect c = s.endScan .scanEmpty 0 := by
  unfold Chip.endSelect
  rw [hn]

/-- A MARKER fixes the log's end in its own slot (R83). -/
theorem Chip.endSelect_of_marker (hn : c.newest = some n) (hm : n.isMarker = true) :
    s.endSelect c = s.walkOn { c with
      pass := .walk, tail := n.slot, expected := n.previous, bound := some n.checkpoint } n := by
  unfold Chip.endSelect
  rw [hn]
  simp [hm]

/-- A RECORD fixes the log's end in the slot after it (R83). -/
theorem Chip.endSelect_of_record (hn : c.newest = some n) (hm : n.isMarker = false) :
    s.endSelect c = s.walkOn { c with
      pass := .walk, tail := (n.slot + 1) % s.log.capacity, expected := n.sequence, bound := none } n := by
  unfold Chip.endSelect
  rw [hn]
  simp [hm]

theorem Chip.judgeSlot_of_select (hp : c.pass = .select) :
    s.judgeSlot c data =
      if c.slot + 1 < s.log.capacity then s.readScanSlot { c with newest := c.select data, slot := c.slot + 1 }
      else s.endSelect { c with newest := c.select data } := by
  unfold Chip.judgeSlot
  rw [hp]

theorem Chip.judgeSlot_of_walk (hp : c.pass = .walk) (hn : c.newest = some n) :
    s.judgeSlot c data =
      if c.takes data then
        if (headerPrevious c.header).toNat < (headerSequence c.header).toNat then s.walkOn c.take n else s.finishScan c.take n
      else s.finishScan c n := by
  unfold Chip.judgeSlot
  rw [hp, hn]

/-! ## SCAN_READ_ANSWER -/

section
variable (hr : s.log.running = some { lane := l, stage := .adopting c }) (hs : s.log.state = .scanning) (hb : c.started = true)
include hr hs hb

theorem Chip.scanAnswered_fault : s.scanAnswered .fault = s.endScan .scanFault c.slot := by
  unfold Chip.scanAnswered
  rw [hr]
  exact if_pos ⟨hs, hb⟩

/-- DONE to a scan read, by the line of the slot. -/
theorem Chip.scanAnswered_done (data : Line) :
    s.scanAnswered (.done data) = match c.step with
      | .readHeader => s.scanReads l { c with header := data, step := .readFirst } 0x20#32
      | .readFirst => s.scanReads l { c with first := data, step := .readSecond } 0x40#32
      | .readSecond => s.judgeSlot c data := by
  unfold Chip.scanAnswered
  rw [hr]
  dsimp only
  rw [if_pos ⟨hs, hb⟩, Chip.setStage_of_running hr, Chip.setStage_of_running hr]
  cases c.step <;> rfl

end

/-- Settles O41: DONE by the line of the slot and by the pass, and FAULT. -/
theorem scanReadAnswer : Obligations.ScanReadAnswer := by
  rintro s l addr d c hflight hr hs hb hj s₀ rfl cap rfl reads hreads empty hempty rebuilt hrebuilt walks hwalks
  let w := s.chip.endTransaction
  have hrun : w.log.running = some { lane := l, stage := .adopting c } := hr
  have hdone := Chip.scanAnswered_done (s := w) hrun hs hb
  have judged : ∀ data, c.step = .readSecond → w.scanAnswered (.done data) = w.judgeSlot c data := fun data hstep => by
    rw [hdone, hstep]
  have reading : ∀ k a, reads (w.scanReads l k a) k a := fun k a => by
    rw [hreads]
    rfl
  have headerRead : ∀ k, reads (w.readScanSlot k) { k with step := .readHeader } 0#32 := fun k => by
    rw [Chip.readScanSlot_eq hrun]
    exact reading _ _
  have ended : ∀ o i, empty (w.endScan o i) o i := fun o i => by
    rw [hempty]
    exact Chip.endScan_spec hrun hj o i
  have finished : ∀ k n, rebuilt (w.finishScan k n) k n := fun k n => by
    rw [hrebuilt]
    refine ⟨fun hz hm => ?_, fun h hmax => ?_⟩
    · rw [Chip.finishScan_of_empty hz hm]
      exact ended _ _
    · obtain ⟨hlog, hback, hsame, hregions⟩ := Chip.finishScan_adopted hrun hj h hmax
      have hlist : (w.finishScan k n).log.checkpoints = k.list n (n.sequence + 1#32) := by
        rw [hlog]
        rfl
      refine ⟨?_, ?_, hback, hsame, hregions⟩
      · rw [hlist, hlog]
        rfl
      · rintro _ rfl
        exact ⟨fun hm hno => hlist.trans (Scan.list_of_marker hm hno _), fun h => hlist.trans (Scan.list_of_runs h _)⟩
  have walked : ∀ k n, walks (w.walkOn k n) k n := fun k n => by
    rw [hwalks]
    refine ⟨fun hstop => ?_, fun he hi => ?_⟩
    · rw [Chip.walkOn_of_stop (s := w) hstop]
      exact finished k n
    · rw [Chip.walkOn_of_more (s := w) he hi]
      exact headerRead _
  refine ⟨fun data => ⟨w.scanAnswered (.done data), onChip_answered hflight (·.scanAnswered (.done data)), fun hstep => ?_,
    fun hstep => ?_, fun hstep hpass => ?_, fun hstep hpass n hn => ?_⟩, w.scanAnswered .fault,
    onChip_answered hflight (·.scanAnswered .fault), ?_⟩
  · rw [hdone, hstep]
    exact reading _ _
  · rw [hdone, hstep]
    exact reading _ _
  · rw [judged data hstep, Chip.judgeSlot_of_select hpass]
    refine ⟨c.select data, Scan.select_of_invalid,
      fun hv => ⟨fun n hn hle => Scan.select_of_older hv hn hle, Scan.select_of_newer hv⟩, fun hmore => ?_, fun hlast => ?_⟩
    · rw [if_pos (by exact hmore)]
      exact headerRead _
    · rw [if_neg (by exact hlast.not_gt)]
      refine ⟨fun hnone => ?_, fun n hn => ⟨fun hm => ?_, fun hm => ?_⟩⟩
      · rw [Chip.endSelect_of_none hnone]
        exact ended _ _
      · rw [Chip.endSelect_of_marker (by exact hn) hm]
        exact walked _ _
      · rw [Chip.endSelect_of_record (by exact hn) hm]
        exact walked _ _
  · rintro _ rfl takes rfl
    rw [judged data hstep, Chip.judgeSlot_of_walk hpass hn, ← Scan.takes_iff]
    refine ⟨fun hno => ?_, ?_⟩
    · rw [if_neg hno]
      exact finished c n
    · rintro htake _ rfl
      rw [if_pos htake]
      refine ⟨fun hlt => ?_, fun hle => ?_⟩
      · rw [if_pos hlt]
        exact walked c.take n
      · rw [if_neg hle.not_gt]
        exact finished c.take n
  · rw [Chip.scanAnswered_fault hrun hs hb]
    exact ended _ _

end Sys2Proof.Machine

/-! PROOF. The law of the write check (R106) is kept by every command (O58), from what Laws/WriteCheck.lean says of the operations
the commands are made of. -/

namespace Sys2Proof.Machine
variable {s : Chip}

namespace Chip.WriteCheckLaw

/-! ## What many commands share -/

/-- The owner of a transaction acts on a part that keeps the law. -/
theorem answered (h : s.WriteCheckLaw) (p : Owner → Bool) {act : PortRequest → Chip → Chip}
    (ha : ∀ r (u : Chip), u.WriteCheckLaw → (act r u).WriteCheckLaw) : (s.answered p act).WriteCheckLaw := by
  unfold Chip.answered
  split
  · split_ifs
    · exact h.congr rfl rfl rfl
    · exact ha _ _ (h.congr rfl rfl rfl)
    · exact h
  · exact h

/-- The Copy Engine's other fields are not part of the law. -/
theorem besideCheck (h : s.WriteCheckLaw) {b : Byte} {w : List Lane} {q : List PortRequest} {x : Option CopyFix} {ls : List Lane}
    {p : Bool} {t : Chip} (ha : t.arbiter.requests = s.arbiter.requests) (hu : t.path.upstream = s.path.upstream)
    (hc : t.copy = { s.copy with
      budgetLeft := b, waiting := w, queue := q, fix := x, cancels := ls, cancelPend := p }) : t.WriteCheckLaw := by
  obtain ⟨h₁, h₂, h₃, h₄, h₅⟩ := h
  exact ⟨by rw [ha, hc]; exact h₁, by rw [hc]; exact h₂, by rw [hu]; exact h₃, by rw [hc]; exact h₄, by rw [hc]; exact h₅⟩

/-! ## Resets and start-up -/

theorem pinReset (s : Chip) (page : Half) : (s.pinReset page).WriteCheckLaw :=
  of_idle rfl rfl rfl nofun nofun

theorem resetPart (h : s.WriteCheckLaw) : s.resetPart.WriteCheckLaw := by
  unfold Chip.resetPart
  split
  · exact of_idle rfl rfl rfl nofun nofun
  · exact h

theorem softResetPortIdle (h : s.WriteCheckLaw) : s.softResetPortIdle.WriteCheckLaw := by
  unfold Chip.softResetPortIdle
  split
  · refine issueWrite ?_ _
    exact ⟨fun r hr => absurd hr List.not_mem_nil, h.2.1, fun u hu => absurd hu.symm (Option.some_ne_none u), h.2.2.2⟩
  · exact h

theorem endStartUp (h : s.WriteCheckLaw) : s.endStartUp.WriteCheckLaw := by
  unfold Chip.endStartUp
  dsimp only
  split
  · split_ifs
    · exact classify (by exact h.congr rfl rfl rfl) _ _
    · exact h.congr rfl rfl rfl
  · exact h.congr rfl rfl rfl

theorem statusWordWrite (h : s.WriteCheckLaw) : s.statusWordWrite.WriteCheckLaw := by
  unfold Chip.statusWordWrite
  split
  · exact h
  · split_ifs
    · exact h
    · exact issueWrite (by exact h.congr rfl rfl rfl) _

/-! ## The Processor Port -/

theorem hostAccess (h : s.WriteCheckLaw) (a : Access) : (s.hostAccess a).WriteCheckLaw := by
  unfold Chip.hostAccess
  split
  · exact h
  · dsimp only
    have hk : ∀ p : PathState, p.upstream = s.path.upstream → Chip.WriteCheckLaw { s with path := p } :=
      fun p hp => h.congr rfl rfl hp
    split
    · exact waitUpstream (hk _ rfl) a (by decide) false
    · exact answerUpstream (hk _ rfl) _
    all_goals exact classify (by exact hk _ rfl) a false

/-- A request that its owner takes back waits no more. -/
theorem withdraw (h : s.WriteCheckLaw) (p : Owner → Bool) : (s.withdraw p).WriteCheckLaw :=
  h.fewer (fun _ hr => (List.mem_filter.1 hr).1) rfl rfl

theorem holdLimitExpiry (h : s.WriteCheckLaw) : s.holdLimitExpiry.WriteCheckLaw := by
  unfold Chip.holdLimitExpiry
  split
  · split_ifs
    · split
      · split_ifs
        · exact h.answerUpstream _
        · exact answerUpstream (s := (s.withdraw (· == .forwardRead)).freeForward) ((h.withdraw _).congr rfl rfl rfl) _
      · exact h.answerUpstream _
    · exact h.answerUpstream _
    · exact h
  · exact h

/-- The access that requests the port as an ORDERED READ is a read. -/
theorem forwardRead (h : s.WriteCheckLaw) : s.forwardRead.WriteCheckLaw := by
  unfold Chip.forwardRead
  split
  · rename_i u _ _ hu
    split_ifs with hw
    · exact h.classifyHeld _ _
    · exact requestRead (by exact h.congr rfl rfl rfl) (h.2.2.1 u hu hw)
    · exact h
  · exact h

theorem treatWrite (h : s.WriteCheckLaw) (a : Access) (n : Nat) (posted : Bool) : (s.treatWrite a n posted).WriteCheckLaw := by
  unfold Chip.treatWrite
  split_ifs
  · exact h
  · dsimp only
    split
    · split_ifs
      · exact h.congr rfl rfl rfl
      · exact issueWrite (by exact h.congr rfl rfl rfl) _
    · exact issueWrite (by exact h.congr rfl rfl rfl) _

theorem forwardWrite (h : s.WriteCheckLaw) : s.forwardWrite.WriteCheckLaw := by
  unfold Chip.forwardWrite
  split
  · exact h.treatWrite _ _ _
  · split_ifs
    · exact h.treatWrite _ _ _
    · exact h
  · exact h

theorem loseWrite (h : s.WriteCheckLaw) (f : ForwardPoint) : (s.loseWrite f).WriteCheckLaw :=
  hand (leaveQueue (by exact h.congr rfl rfl rfl) _) _ _ _ fun _ hu => hu.congr rfl rfl rfl

theorem endOrdered (h : s.WriteCheckLaw) (f : ForwardPoint) (a : Answer) : (s.endOrdered f a).WriteCheckLaw := by
  unfold Chip.endOrdered
  split
  · split_ifs
    · exact h.examineWords _ _
    · exact h.endOrderedWrite _
  all_goals exact h.endOrderedWrite _

theorem forwardedWriteAnswer (h : s.WriteCheckLaw) (a : Answer) : (s.forwardedWriteAnswer a).WriteCheckLaw := by
  unfold Chip.forwardedWriteAnswer
  split
  · exact h.answered _ fun _ _ hu => hu
  · split_ifs
    · split
      · exact h.answered _ fun _ u hu => leaveQueue (s := u.freeForward) (hu.congr rfl rfl rfl) _
      · exact h.answered _ fun _ _ hu => hu.loseWrite _
      · exact h
    · exact h.answered _ fun _ _ hu => hu.endOrdered _ _

theorem orderedReadAnswer (h : s.WriteCheckLaw) (a : Answer) : (s.orderedReadAnswer a).WriteCheckLaw :=
  h.answered _ fun _ u hu => answerUpstream (s := u.freeForward) (hu.congr rfl rfl rfl) _

theorem configurePath (h : s.WriteCheckLaw) (l : Lane) : (s.configurePath l).WriteCheckLaw := by
  unfold Chip.configurePath
  split
  · exact h
  · split
    · exact finishJob (by exact h.congr rfl rfl rfl) _ _ _
    · exact h.finishJob _ _ _

/-! ## The control page -/

theorem popWord (h : s.WriteCheckLaw) (ws : List PageWord) : (s.popWord ws).WriteCheckLaw := by
  unfold Chip.popWord
  split
  · exact h.congr rfl rfl rfl
  · exact h

theorem mailboxFault (h : s.WriteCheckLaw) (l : Lane) : (s.mailboxFault l).WriteCheckLaw :=
  hand (by exact h.congr rfl rfl rfl) _ _ _ fun _ hu => hu.nextDirect

theorem queueDescriptor (h : s.WriteCheckLaw) (l : Lane) (a : Word) : (s.queueDescriptor l a).WriteCheckLaw := by
  unfold Chip.queueDescriptor
  dsimp only
  split_ifs
  · exact (h.setLane _ _).endChain l
  · exact h.setLane _ _

theorem submit (h : s.WriteCheckLaw) : s.submit.WriteCheckLaw := by
  unfold Chip.submit
  split
  · exact h
  · rename_i l v ws _
    have hp := h.popWord ws
    dsimp only
    split_ifs
    · exact hp.mailboxFault l
    · exact continueTake (by exact hp.congr rfl rfl rfl)
    · exact (hp.queueDescriptor _ _).nextWords

theorem flush (h : s.WriteCheckLaw) : s.flush.WriteCheckLaw := by
  unfold Chip.flush
  split
  · exact h
  · rename_i l _ ws _
    have hp := h.popWord ws
    refine continueTake ?_
    split_ifs
    · exact hp.besideCheck rfl rfl rfl
    · exact hp.congr rfl rfl rfl

theorem noRequest (h : s.WriteCheckLaw) : s.noRequest.WriteCheckLaw := by
  unfold Chip.noRequest
  split
  · exact h
  · exact (h.popWord _).mailboxFault _

theorem consumeWord (h : s.WriteCheckLaw) : s.consumeWord.WriteCheckLaw := by
  unfold Chip.consumeWord
  split
  · rename_i ws _
    have hp := h.popWord ws
    dsimp only
    split_ifs
    · exact hp.nextWords
    · exact nextWords (by exact hp.congr rfl rfl rfl)
    · split
      · exact hand (by exact hp.congr rfl rfl rfl) _ _ _ fun _ hu => hu.nextWords
      · exact h
  · exact h

/-! ## The lanes and the region jobs -/

theorem dispatch (h : s.WriteCheckLaw) (l : Lane) (d : Descriptor) : (s.dispatch l d).WriteCheckLaw := by
  unfold Chip.dispatch
  split
  · exact h.finishJob _ _ _
  · split
    · exact h.setLane _ _
    · exact h.congr rfl rfl rfl
    · exact h.besideCheck rfl rfl rfl

theorem fetchAnswered (h : s.WriteCheckLaw) (l : Lane) (a : FinalAnswer) : (s.fetchAnswered l a).WriteCheckLaw := by
  unfold Chip.fetchAnswered
  split
  · exact h
  · split
    · exact h.hand _ _ _ fun _ hu => hu.endChain l
    · dsimp only
      split_ifs
      · exact (h.setLane _ _).dispatch _ _
      · exact (h.setLane _ _).hand _ _ _ fun _ hu => hu.endChain l

theorem fetchOwnerAnswered (h : s.WriteCheckLaw) (o : Owner) (a : FinalAnswer) : (s.fetchOwnerAnswered o a).WriteCheckLaw := by
  unfold Chip.fetchOwnerAnswered
  split
  · exact h.fetchAnswered _ _
  · exact h

theorem outcomeAnswered (h : s.WriteCheckLaw) (l : Lane) (a : FinalAnswer) : (s.outcomeAnswered l a).WriteCheckLaw := by
  unfold Chip.outcomeAnswered
  split
  · split
    · exact h.hand _ _ _ fun _ hu => hu.endChain l
    · split_ifs
      · exact h.hand _ _ _ fun _ hu => hu.decideChain l
      · exact h.decideChain l
      · exact h.hand _ _ _ fun _ hu => hu.decideChain l
  · exact h

theorem outcomeOwnerAnswered (h : s.WriteCheckLaw) (o : Owner) (a : FinalAnswer) :
    (s.outcomeOwnerAnswered o a).WriteCheckLaw := by
  unfold Chip.outcomeOwnerAnswered
  split
  · exact h.outcomeAnswered _ _
  · exact h

theorem directAnswered (h : s.WriteCheckLaw) (a : FinalAnswer) : (s.directAnswered a).WriteCheckLaw := by
  unfold Chip.directAnswered
  split
  · exact h.hand _ _ _ fun _ hu => hu.nextDirect
  · exact h

theorem refusedOver (h : s.WriteCheckLaw) : s.refusedOver.WriteCheckLaw := presentLane (by exact h.congr rfl rfl rfl)

theorem outcomeWriteAnswer (h : s.WriteCheckLaw) (a : FinalAnswer) : (s.outcomeWriteAnswer a).WriteCheckLaw := by
  unfold Chip.outcomeWriteAnswer
  split_ifs
  · exact h.answered _ fun _ _ hu => (hu.accessOver _).outcomeOwnerAnswered _ _
  · split
    · split_ifs
      · exact (h.refusedOver.accessOver _).outcomeOwnerAnswered _ _
      · exact h
    · exact h.answered _ fun _ _ hu => hu

theorem directWriteAnswer (h : s.WriteCheckLaw) (a : FinalAnswer) : (s.directWriteAnswer a).WriteCheckLaw := by
  unfold Chip.directWriteAnswer
  split_ifs
  · exact h.answered _ fun _ _ hu => (hu.accessOver _).directAnswered _
  · split
    · split_ifs
      · exact (h.refusedOver.accessOver _).directAnswered _
      · exact h
    · exact h.answered _ fun _ _ hu => hu

theorem nullJob (h : s.WriteCheckLaw) (l : Lane) : (s.nullJob l).WriteCheckLaw := by
  unfold Chip.nullJob
  split
  · exact h.finishJob _ _ _
  · exact h

theorem regionJob (h : s.WriteCheckLaw) (l : Lane) (k : JobKind) (j : Descriptor → Region → JobOutcome × Region) :
    (s.regionJob l k j).WriteCheckLaw := by
  unfold Chip.regionJob
  split
  · exact h
  · split_ifs
    · exact finishJob (by exact h.congr rfl rfl rfl) _ _ _
    · exact h.finishJob _ _ _

/-! ## Captures and log jobs -/

theorem captureRequest (h : s.WriteCheckLaw) : s.captureRequest.WriteCheckLaw := by
  unfold Chip.captureRequest
  split_ifs
  · exact h
  · split
    · exact h
    · dsimp only
      split_ifs
      · exact stallRequest (by exact h.congr rfl rfl rfl) _
      · exact takeCapture (by exact h.congr rfl rfl rfl) _

theorem captureAnswered (h : s.WriteCheckLaw) (a : FinalAnswer) : (s.captureAnswered a).WriteCheckLaw := by
  unfold Chip.captureAnswered
  split
  · exact h
  · split
    · exact h.advanceCapture _ _
    · exact h.failCapture _

theorem stallTimerExpiry (h : s.WriteCheckLaw) : s.stallTimerExpiry.WriteCheckLaw := by
  unfold Chip.stallTimerExpiry
  split_ifs
  · exact h.breakLog _
  · exact h

/-- The running log job takes a new stage. -/
theorem setStage (h : s.WriteCheckLaw) (st : LogStage) : (s.setStage st).WriteCheckLaw := h.congr rfl rfl rfl

theorem issueVoid (h : s.WriteCheckLaw) (n : Nat) : (s.issueVoid n).WriteCheckLaw := h.issueWrite _

theorem voidingStart (h : s.WriteCheckLaw) : s.voidingStart.WriteCheckLaw := by
  unfold Chip.voidingStart
  split
  · split_ifs
    · exact (h.setStage _).issueVoid _
    · exact h
  · exact h

theorem voidAnswered (h : s.WriteCheckLaw) (a : FinalAnswer) : (s.voidAnswered a).WriteCheckLaw := by
  unfold Chip.voidAnswered
  split
  · split
    · split
      · exact endLogJob (by exact h.congr rfl rfl rfl) _ _
      · split
        · exact (h.setStage _).issueVoid _
        · exact endLogJob (by exact h.congr rfl rfl rfl) _ _
    · exact h
  · exact h

theorem detachAccept (h : s.WriteCheckLaw) (d : Descriptor) : (detachAccept d s).WriteCheckLaw := by
  have hall := answerAll (s := Chip.disarm { s with log := { s.log with stallTimer := none } }) (h.congr rfl rfl rfl)
  exact endLogJob (by exact hall.congr rfl rfl rfl) _ _

theorem markAppend (h : s.WriteCheckLaw) : s.markAppend.WriteCheckLaw := by
  unfold Chip.markAppend
  split
  · split
    · dsimp only
      split <;> exact endLogJob (by exact h.congr rfl rfl rfl) _ _
    · exact h
  · exact h

theorem endBeside (h : s.WriteCheckLaw) (l : Lane) (o : JobOutcome) (r : Word) : (Chip.endBeside l o r s).WriteCheckLaw :=
  finishJob (by exact h.congr rfl rfl rfl) _ _ _

theorem releaseStep (h : s.WriteCheckLaw) {finish : JobOutcome → Word → Chip → Chip}
    (hf : ∀ o r (u : Chip), u.WriteCheckLaw → (finish o r u).WriteCheckLaw) (d : Descriptor) :
    (Chip.releaseStep finish d s).WriteCheckLaw := by
  unfold Chip.releaseStep
  split_ifs
  · exact hf _ _ _ h
  · split
    · exact hf _ _ _ h
    · exact retake (hf _ _ _ (h.congr rfl rfl rfl))

theorem release (h : s.WriteCheckLaw) : s.release.WriteCheckLaw := by
  unfold Chip.release
  split
  · split
    · split_ifs
      · exact h.releaseStep (fun o r _ hu => hu.endBeside _ o r) _
      · exact h
    · exact h
  · split_ifs
    · split
      · exact h
      · split
        · exact h
        · dsimp only
          split_ifs
          · exact releaseStep (by exact h.congr rfl rfl rfl) (fun o r _ hu => hu.endBeside _ o r) _
          · exact h.congr rfl rfl rfl
    · exact h.grantLog _ _ _ fun _ d _ hu => hu.releaseStep (fun o r _ hv => hv.endLogJob o r) d

theorem issueReport (h : s.WriteCheckLaw) (r : Report) : (s.issueReport r).WriteCheckLaw := (h.setStage _).issueWrite _

theorem reportAnswered (h : s.WriteCheckLaw) (a : FinalAnswer) : (s.reportAnswered a).WriteCheckLaw := by
  unfold Chip.reportAnswered
  split
  · rename_i r _
    split
    · exact h.endLogJob _ _
    · dsimp only
      generalize r.written + _ = n
      split_ifs
      · exact h.issueReport _
      · exact h.endLogJob _ _
  · exact h

/-! ## Rollback -/

theorem trimAndReturn (h : s.WriteCheckLaw) (c : Rollback) (issued : Bool) : (s.trimAndReturn c issued).WriteCheckLaw :=
  endLogJob (endHold (by exact h.congr rfl rfl rfl)) _ _

theorem finishRollback (h : s.WriteCheckLaw) (c : Rollback) : (s.finishRollback c).WriteCheckLaw := by
  have hc := h.setStage (.rolling { c with phase := .finish })
  unfold Chip.finishRollback
  dsimp only
  split
  · exact hc.trimAndReturn _ _
  · split
    · exact hc.trimAndReturn _ _
    · exact hc.issueWrite _

/-- The walk's reads pass no write check. -/
theorem readWalkSlot (h : s.WriteCheckLaw) (c : Rollback) : (s.readWalkSlot c).WriteCheckLaw :=
  (h.setStage _).requestRead rfl

theorem rollbackDrainEnd (h : s.WriteCheckLaw) : s.rollbackDrainEnd.WriteCheckLaw := by
  unfold Chip.rollbackDrainEnd
  split
  · exact h
  · split_ifs
    · dsimp only
      split_ifs
      · exact h.finishRollback _
      · exact h.readWalkSlot _
    · exact h

theorem advanceWalk (h : s.WriteCheckLaw) (c : Rollback) (data : Line) : (s.advanceWalk c data).WriteCheckLaw := by
  unfold Chip.advanceWalk
  dsimp only
  split
  · exact (h.setStage _).requestRead rfl
  · exact (h.setStage _).requestRead rfl
  · split_ifs
    · exact (h.setStage _).issueWrite _
    · exact h.failRollback _ _
  · exact (h.setStage _).issueWrite _
  · split_ifs
    · exact h.finishRollback _
    · exact h.readWalkSlot _

theorem restoreAnswered (h : s.WriteCheckLaw) (a : FinalAnswer) : (s.restoreAnswered a).WriteCheckLaw := by
  unfold Chip.restoreAnswered
  split
  · exact h
  · split_ifs
    · split
      · exact h.advanceWalk _ _
      · exact h.failRollback _ _
    · exact h

theorem markerAnswered (h : s.WriteCheckLaw) (a : FinalAnswer) : (s.markerAnswered a).WriteCheckLaw := by
  unfold Chip.markerAnswered
  split
  · exact h
  · split_ifs
    · split
      · exact h.trimAndReturn _ _
      · exact (h.trimAndReturn _ _).breakLog _
    · exact h

/-! ## Adopting a log -/

theorem readScanSlot (h : s.WriteCheckLaw) (c : Scan) : (s.readScanSlot c).WriteCheckLaw := (h.setStage _).requestRead rfl

theorem selectPassStart (h : s.WriteCheckLaw) : s.selectPassStart.WriteCheckLaw := by
  unfold Chip.selectPassStart
  split
  · split_ifs
    · exact h.readScanSlot _
    · exact h
  · exact h

theorem endScan (h : s.WriteCheckLaw) (o : JobOutcome) (n : Nat) : (s.endScan o n).WriteCheckLaw :=
  endLogJob (by exact h.congr rfl rfl rfl) _ _

theorem finishScan (h : s.WriteCheckLaw) (c : Scan) (n : Newest) : (s.finishScan c n).WriteCheckLaw := by
  unfold Chip.finishScan
  split_ifs
  · exact h.endScan _ _
  · exact endLogJob (by exact h.congr rfl rfl rfl) _ _

theorem walkOn (h : s.WriteCheckLaw) (c : Scan) (n : Newest) : (s.walkOn c n).WriteCheckLaw := by
  unfold Chip.walkOn
  split_ifs
  · exact h.finishScan _ _
  · exact h.readScanSlot _

theorem judgeSlot (h : s.WriteCheckLaw) (c : Scan) (second : Line) : (s.judgeSlot c second).WriteCheckLaw := by
  unfold Chip.judgeSlot
  split
  · dsimp only
    split_ifs
    · exact h.readScanSlot _
    · unfold Chip.endSelect
      split
      · exact h.endScan _ _
      · exact h.walkOn _ _
  · split
    · exact h
    · split_ifs
      · exact h.walkOn _ _
      · exact h.finishScan _ _
      · exact h.finishScan _ _

theorem scanAnswered (h : s.WriteCheckLaw) (a : FinalAnswer) : (s.scanAnswered a).WriteCheckLaw := by
  unfold Chip.scanAnswered
  split
  · split_ifs
    · split
      · exact h.endScan _ _
      · dsimp only
        split
        · exact (h.setStage _).requestRead rfl
        · exact (h.setStage _).requestRead rfl
        · exact h.judgeSlot _ _
    · exact h
  · exact h

/-! ## The Copy Engine -/

/-- A CONSISTENT copy that is accepted has at most 4,096 spans (R98). -/
theorem spans_of_accepted {c : CopyState} {l : Lane} {d : Descriptor} (hd : copyRefused d = false)
    (hm : (c.accepted l d).mode = .consistent) : (c.accepted l d).spans ≤ 4096 := by
  have hmode : (copyModeOf d.d).getD .plain = .consistent := hm
  cases hk : copyModeOf d.d with
  | none => rw [hk] at hmode; cases hmode
  | some m =>
    rw [hk] at hmode
    obtain rfl : m = .consistent := hmode
    simp only [copyRefused, hk, Bool.or_eq_false_iff, decide_eq_false_iff_not, not_lt] at hd
    exact hd.2.1

/-- The writes that wait pass the write check again when a COPY is accepted; those that it keeps back wait no more (R137). -/
theorem recheckWrites (hu : ∀ u, s.path.upstream = some u → u.wait = .orderedRead → u.access.write = false)
    (ha : s.copy.ahead = none) (hf : s.copy.front = none) (hm : s.copy.mode = .consistent → s.copy.spans ≤ 4096) :
    s.recheckWrites.WriteCheckLaw := by
  refine ⟨fun r hr hw => ?_, fun a r h => ?_, hu, hm, fun h => ?_⟩
  · have hpass := (List.mem_filter.1 hr).2
    show s.copy.notCopied r.access.addr = none
    simpa [hw] using hpass
  · rw [show s.recheckWrites.copy.ahead = none from ha] at h
    cases h
  · rw [show s.recheckWrites.copy.front = none from hf] at h
    cases h

theorem copyJob (h : s.WriteCheckLaw) : s.copyJob.WriteCheckLaw := by
  unfold Chip.copyJob
  split_ifs
  · exact h
  · split
    · exact h
    · split
      · exact h
      · unfold Chip.runCopy
        split_ifs with hd
        · exact finishJob (by exact h.besideCheck rfl rfl rfl) _ _ _
        · refine beginSpan (recheckWrites h.2.2.1 rfl rfl ?_) rfl
          exact spans_of_accepted (by simpa using hd)

theorem frontAnswered (h : s.WriteCheckLaw) (a : FinalAnswer) : (s.frontAnswered a).WriteCheckLaw := by
  unfold Chip.frontAnswered
  split
  · exact h
  · rename_i hf
    split
    · exact h.advanceFront hf _
    · exact h.failFront _

theorem windowExpiry (h : s.WriteCheckLaw) : s.windowExpiry.WriteCheckLaw := by
  unfold Chip.windowExpiry
  split
  · dsimp only
    split_ifs with hp
    · have ha : s.copy.active = true := by simp [CopyState.active, hp]
      exact beginSpan (h.front (st := .copying) ha rfl rfl (by decide) rfl) rfl
    · exact h.besideCheck rfl rfl rfl
  · exact h

theorem copyAheadRequest (h : s.WriteCheckLaw) : s.copyAheadRequest.WriteCheckLaw := by
  unfold Chip.copyAheadRequest
  split_ifs
  · exact h
  · split
    · exact h
    · rename_i rest _
      have hq : Chip.WriteCheckLaw { s with copy := { s.copy with queue := rest } } := ⟨h.1, h.2⟩
      dsimp only
      split
      · rename_i hn
        split_ifs
        · exact hq
        · exact hq.request fun _ => hn
      · rename_i hk
        exact hq.startAhead hk _

theorem aheadAnswered (h : s.WriteCheckLaw) (a : FinalAnswer) : (s.aheadAnswered a).WriteCheckLaw := by
  unfold Chip.aheadAnswered
  split
  · exact h
  · rename_i ha
    split
    · exact h.advanceAhead ha _
    · exact h.failAhead _

theorem takeAheads (h : s.WriteCheckLaw) (n : Nat) : (s.takeAheads n).WriteCheckLaw := by
  induction n generalizing s with
  | zero => exact h
  | succ n ih =>
    unfold Chip.takeAheads
    split_ifs
    · exact ih h.copyAheadRequest
    · exact h

theorem cancelActive (h : s.WriteCheckLaw) (l : Lane) : (s.cancelActive l).WriteCheckLaw := by
  have hl : Chip.WriteCheckLaw { s with copy := { s.copy with cancels := s.copy.cancels ++ [l] } } := ⟨h.1, h.2⟩
  unfold Chip.cancelActive
  dsimp only
  split_ifs
  · exact hl.dropFront.besideCheck rfl rfl rfl
  · exact hl.endCopy _

theorem cancelNow (h : s.WriteCheckLaw) (l : Lane) : (s.cancelNow l).WriteCheckLaw := by
  unfold Chip.cancelNow
  split
  · exact h
  · split_ifs
    · exact h
    · exact h.cancelActive l
    · exact h.finishJob _ _ _

theorem cancelCopy (h : s.WriteCheckLaw) (l : Lane) : (s.cancelCopy l).WriteCheckLaw := by
  unfold Chip.cancelCopy
  split
  · exact h
  · split_ifs
    · exact h
    · exact (h.takeAheads _).cancelNow l

/-! ## The Attention Unit -/

theorem issuePosting (h : s.WriteCheckLaw) (p : Posting) : (s.issuePosting p).WriteCheckLaw :=
  issueWrite (by exact h.congr rfl rfl rfl) _

/-- The Attention Unit changes nothing that the law is about. -/
theorem attention (h : s.WriteCheckLaw) (a : AttentionState) : Chip.WriteCheckLaw { s with attention := a } :=
  h.congr rfl rfl rfl

theorem takeConfigure (h : s.WriteCheckLaw) (c : PendingConfigure) : (s.takeConfigure c).WriteCheckLaw := by
  unfold Chip.takeConfigure
  split_ifs
  · exact (h.attention _).dropHandings.finishJob _ _ _
  · refine (issuePosting ?_ _).finishJob _ _ _
    unfold Chip.reportConfigured
    split_ifs <;> exact h.congr rfl rfl rfl

/-- A write that is withdrawn waits no more, and triggers no copy-ahead any more. -/
theorem withdrawAttention (h : s.WriteCheckLaw) : s.withdrawAttention.WriteCheckLaw := by
  have hw := h.withdraw (· == .attention)
  refine hw.copyTo hw.1 rfl rfl rfl rfl rfl rfl (fun a ha r hr => ?_) h.2.2.2.2
  obtain ⟨b, hb, rfl⟩ := Option.map_eq_some_iff.1 ha
  exact h.2.1 b r hb (Option.filter_eq_some_iff.1 hr).1

theorem configureAttention (h : s.WriteCheckLaw) (l : Lane) : (s.configureAttention l).WriteCheckLaw := by
  unfold Chip.configureAttention
  split
  · exact h
  · dsimp only
    split_ifs
    · exact h
    · exact h.attention _
    · exact (h.withdrawAttention.attention _).takeConfigure _
    · exact h.finishJob _ _ _

theorem decidePosting (h : s.WriteCheckLaw) (x : Listed) : (s.decidePosting x).WriteCheckLaw := by
  unfold Chip.decidePosting
  dsimp only
  split_ifs
  · exact issuePosting (by exact h.congr rfl rfl rfl) _
  · exact issuePosting (by exact h.congr rfl rfl rfl) _
  · split
    · exact issuePosting (by exact h.congr rfl rfl rfl) _
    · exact h

theorem attentionPosting (h : s.WriteCheckLaw) : s.attentionPosting.WriteCheckLaw := by
  unfold Chip.attentionPosting
  split_ifs
  · split
    · exact h
    · exact ((h.attention _).decidePosting _).serveHanding _
  · exact h

theorem deconfigure (h : s.WriteCheckLaw) : s.deconfigure.WriteCheckLaw :=
  dropHandings (by exact h.congr rfl rfl rfl)

theorem advancePosting (h : s.WriteCheckLaw) (p : Posting) : (s.advancePosting p).WriteCheckLaw := by
  unfold Chip.advancePosting
  split
  · exact h.issuePosting _
  · unfold Chip.countPosting
    dsimp only
    split
    · exact (h.attention _).issuePosting _
    · exact h.attention _
    all_goals exact (h.attention _).issuePosting _
  · exact h.attention _

theorem attentionAnswered (h : s.WriteCheckLaw) (a : FinalAnswer) : (s.attentionAnswered a).WriteCheckLaw := by
  unfold Chip.attentionAnswered
  split
  · exact h
  · split
    · exact h.deconfigure
    · exact h.deconfigure.takeConfigure _
    · exact h.advancePosting _
    · exact (h.attention _).takeConfigure _

/-! ## The Memory Port -/

/-- An access that has been issued is no ORDERED READ that waits. -/
theorem issueUpstream (h : s.WriteCheckLaw) : s.issueUpstream.WriteCheckLaw := by
  refine ⟨h.1, h.2.1, fun u hu hw => ?_, h.2.2.2⟩
  obtain ⟨v, _, rfl⟩ := Option.map_eq_some_iff.1 hu
  cases hw

theorem reportForwarded (h : s.WriteCheckLaw) : s.reportForwarded.WriteCheckLaw := by
  unfold Chip.reportForwarded
  split
  · split_ifs
    · exact h
    · exact h.congr rfl rfl rfl
  · exact h

theorem grantTo (h : s.WriteCheckLaw) (r : PortRequest) : (s.grantTo r).WriteCheckLaw := by
  have hlane : s.grantLane.WriteCheckLaw := presentLane (by exact h.congr rfl rfl rfl)
  have hbits : ∀ a b, Chip.WriteCheckLaw { s with log := s.log.clearDrainCopies a b } := fun a b => h.congr rfl rfl rfl
  unfold Chip.grantTo
  cases r.owner with
  | forwardRead => exact h.issueUpstream
  | forwardWrite posted =>
    cases posted
    · exact h.issueUpstream.reportForwarded
    · exact h.reportForwarded
  | laneFetch _ => exact hlane
  | laneOutcome _ => exact hlane
  | laneDirect _ => exact hlane
  | frontier =>
    dsimp only
    split_ifs
    · exact hbits _ _
    · exact h
  | copyAhead =>
    dsimp only
    split_ifs
    · exact hbits _ _
    · exact h
  | _ => exact h

theorem grantPort (h : s.WriteCheckLaw) : s.grantPort.WriteCheckLaw := by
  have hfewer : ∀ a : ArbiterState, (∀ r ∈ a.requests, r ∈ s.arbiter.requests) →
      Chip.WriteCheckLaw { s with arbiter := a } := fun _ ha => h.fewer ha rfl rfl
  unfold Chip.grantPort
  split_ifs
  · exact h
  · split
    · exact h
    · dsimp only
      split_ifs
      · exact stopWrite (hfewer _ fun _ => List.mem_of_mem_erase) _
      · exact grantTo (hfewer _ fun _ => List.mem_of_mem_erase) _

theorem retryReissue (h : s.WriteCheckLaw) : s.retryReissue.WriteCheckLaw := by
  unfold Chip.retryReissue
  split
  · exact h
  · split_ifs
    · exact h
    · exact h.congr rfl rfl rfl
    · exact h.congr rfl rfl rfl
    · exact h

theorem ownerFault (h : s.WriteCheckLaw) (r : PortRequest) : (s.ownerFault r).WriteCheckLaw := by
  unfold Chip.ownerFault
  cases r.owner with
  | startUp => exact h.endStartUp
  | status => exact h.congr rfl rfl rfl
  | forwardRead => exact h
  | forwardWrite _ =>
    dsimp only
    split
    · exact h.loseWrite _
    · exact h
  | capture => exact h.captureAnswered _
  | copyAhead => exact h.aheadAnswered _
  | laneFetch l => exact (h.accessOver _).fetchAnswered _ _
  | laneOutcome l => exact (h.accessOver _).outcomeAnswered _ _
  | laneDirect _ => exact (h.accessOver _).directAnswered _
  | attention => exact h.attentionAnswered _
  | void => exact h.voidAnswered _
  | scan => exact h.scanAnswered _
  | restore => exact h.restoreAnswered _
  | marker => exact h.markerAnswered _
  | report => exact h.reportAnswered _
  | frontier => exact h.frontAnswered _

theorem retryExhausted (h : s.WriteCheckLaw) : s.retryExhausted.WriteCheckLaw := by
  unfold Chip.retryExhausted
  split_ifs
  · exact h.answered _ fun r _ hu => hu.ownerFault r
  · exact h

/-! ## Every command -/

theorem after (h : s.WriteCheckLaw) (i : Instr) : (s.after i).WriteCheckLaw := by
  cases i with
  | pinReset page => exact pinReset s page
  | resetPart => exact h.resetPart
  | softResetPortIdle => exact h.softResetPortIdle
  | startUp _ => exact h.answered _ fun _ _ hu => hu.endStartUp
  | statusWordWrite => exact h.statusWordWrite
  | hostAccessArrival a => exact h.hostAccess a
  | holdLimitExpiry => exact h.holdLimitExpiry
  | forwardRead => exact h.forwardRead
  | forwardWrite => exact h.forwardWrite
  | orderedReadAnswer a => exact h.orderedReadAnswer a
  | forwardedWriteAnswer a => exact h.forwardedWriteAnswer a
  | submit => exact h.submit
  | flush => exact h.flush
  | noRequest => exact h.noRequest
  | consumeWord => exact h.consumeWord
  | memoryPortGrant => exact h.grantPort
  | retryReissue => exact h.retryReissue
  | retryLimitExhausted => exact h.retryExhausted
  | configurePath l => exact h.configurePath l
  | defineRegion l => exact h.regionJob l _ _
  | startCapture l => exact h.regionJob l _ _
  | stopCapture l => exact h.regionJob l _ _
  | clearFault l => exact h.regionJob l _ _
  | deleteRegion l => exact h.regionJob l _ _
  | captureRequest => exact h.captureRequest
  | captureTransferAnswer a => exact h.answered _ fun _ _ hu => hu.captureAnswered a
  | stallTimerExpiry => exact h.stallTimerExpiry
  | attachLog => exact h.grantLog _ _ _ (acceptLog fun _ _ hu => hu.congr rfl rfl rfl)
  | voidingStart => exact h.voidingStart
  | voidWriteAnswer a => exact h.answered _ fun _ _ hu => hu.voidAnswered a
  | detachLog => exact h.grantLog _ _ _ (acceptLog fun d _ hu => hu.detachAccept d)
  | mark => exact h.grantLog _ _ _ (acceptLog fun _ _ hu => hu.congr rfl rfl rfl)
  | markAppend => exact h.markAppend
  | release => exact h.release
  | reportLog => exact h.grantLog _ _ _ fun _ _ _ hu => hu.issueReport _
  | reportWriteAnswer a => exact h.answered _ fun _ _ hu => hu.reportAnswered a
  | rollback => exact h.grantLog _ _ _ (acceptLog fun _ _ hu => hu.congr rfl rfl rfl)
  | rollbackDrainEnd => exact h.rollbackDrainEnd
  | restoreAccessAnswer a => exact h.answered _ fun _ _ hu => hu.restoreAnswered a
  | markerWriteAnswer a => exact h.answered _ fun _ _ hu => hu.markerAnswered a
  | adoptLog => exact h.grantLog _ _ _ (acceptLog fun _ _ hu => hu.congr rfl rfl rfl)
  | selectPassStart => exact h.selectPassStart
  | scanReadAnswer a => exact h.answered _ fun _ _ hu => hu.scanAnswered a
  | copy => exact h.copyJob
  | frontierTransferAnswer a => exact h.answered _ fun _ _ hu => hu.frontAnswered a
  | pacingWindowExpiry => exact h.windowExpiry
  | copyAheadRequest => exact h.copyAheadRequest
  | copyAheadTransferAnswer a => exact h.answered _ fun _ _ hu => hu.aheadAnswered a
  | cancelCopy l => exact h.cancelCopy l
  | descriptorFetchAnswer a => exact h.answered _ fun _ _ hu => (hu.accessOver _).fetchOwnerAnswered _ a
  | null l => exact h.nullJob l
  | outcomeWriteAnswer a => exact h.outcomeWriteAnswer a
  | directOutcomeWriteAnswer a => exact h.directWriteAnswer a
  | configureAttention l => exact h.configureAttention l
  | attentionPosting => exact h.attentionPosting
  | attentionWriteAnswer a => exact h.answered _ fun _ _ hu => hu.attentionAnswered a
  | statusWordWriteAnswer _ => exact h.answered _ fun _ _ hu => hu.congr rfl rfl rfl

end Chip.WriteCheckLaw

/-- Settles O58: every command keeps the law, by cases of the command. -/
theorem writeCheckLawKept : Obligations.WriteCheckLawKept :=
  fun _ _ h ht => step_keeps (P := Chip.WriteCheckLaw) (fun i _ hs => hs.after i) h ht

end Sys2Proof.Machine

/-! PROOF. The frontier: the answers to its transfers (O43) and the pacing window (O44), from what Laws/Spans.lean says of spans and
of destination writes. -/

namespace Sys2Proof.Machine

/-! ## A transfer of the frontier is answered DONE (R101, R103, R109) -/

section
variable {s : Chip} {f : Front} {data : Line}

/-- A span that copy-ahead has covered is left (R109). -/
theorem Chip.advanceFront_of_covered (h : f.covered = true) :
    s.advanceFront f data = Chip.nextSpan { s with copy := { s.copy with front := none } } := by
  rw [Chip.advanceFront, if_pos h]

/-- With another source line to read, the line is kept and the next one is requested. -/
theorem Chip.advanceFront_of_reads (h : f.covered = false) (hp : f.phase = .read) {a b : Word} {rest : List Word}
    (hr : f.reads = a :: b :: rest) :
    s.advanceFront f data = Chip.request
      { s with copy := { s.copy with
        spanBuffer := depositLine s.copy.spanBuffer a data, front := some { f with reads := b :: rest } } }
      (frontierRequest (readLine b)) := by
  obtain ⟨start, length, reads, writes, phase, went, covered⟩ := f
  obtain rfl : covered = false := h
  obtain rfl : phase = .read := hp
  obtain rfl : reads = a :: b :: rest := hr
  rfl

/-- With the last source line read, the destination writes begin. -/
theorem Chip.advanceFront_of_lastRead (h : f.covered = false) (hp : f.phase = .read) {a : Word} (hr : f.reads = [a]) :
    s.advanceFront f data = Chip.startFrontWrite
      { s with copy := { s.copy with
        spanBuffer := depositLine s.copy.spanBuffer a data, front := some { f with reads := [], phase := .port } } }
      { f with reads := [] } := by
  obtain ⟨start, length, reads, writes, phase, went, covered⟩ := f
  obtain rfl : covered = false := h
  obtain rfl : phase = .read := hp
  obtain rfl : reads = [a] := hr
  rfl

/-- With another destination write left, its steps follow. -/
theorem Chip.advanceFront_of_writes (h : f.covered = false) (hp : f.phase ≠ .read) {q p : Piece} {ps : List Piece}
    (hw : f.writes = q :: p :: ps) :
    s.advanceFront f data = s.startFrontWrite { f with writes := p :: ps, went := false } := by
  obtain ⟨start, length, reads, writes, phase, went, covered⟩ := f
  obtain rfl : covered = false := h
  obtain rfl : writes = q :: p :: ps := hw
  cases phase with
  | read => exact absurd rfl hp
  | paused => rfl
  | capture => rfl
  | port => rfl

/-- With the last destination write answered, the span is complete. -/
theorem Chip.advanceFront_of_lastWrite (h : f.covered = false) (hp : f.phase ≠ .read) {q : Piece} (hw : f.writes = [q]) :
    s.advanceFront f data = s.completeSpan f := by
  obtain ⟨start, length, reads, writes, phase, went, covered⟩ := f
  obtain rfl : covered = false := h
  obtain rfl : writes = [q] := hw
  cases phase with
  | read => exact absurd rfl hp
  | paused => rfl
  | capture => rfl
  | port => rfl

theorem Chip.completeSpan_of_plain (h : s.copy.mode = .plain) :
    s.completeSpan f = Chip.nextSpan { s with copy := { s.copy with front := none, frontier := f.start + f.length } } := by
  simp only [Chip.completeSpan, h]

theorem Chip.completeSpan_of_consistent (h : s.copy.mode = .consistent) :
    s.completeSpan f = Chip.nextSpan { s with copy := { s.copy with front := none }.markCopied (s.copy.spanAt f.start) } := by
  simp only [Chip.completeSpan, h]
  rfl

theorem Chip.frontAnswered_done (h : s.copy.front = some f) : s.frontAnswered (.done data) = s.advanceFront f data := by
  rw [Chip.frontAnswered, h]

theorem Chip.frontAnswered_fault (h : s.copy.front = some f) :
    s.frontAnswered .fault = s.failFront (if f.phase = .read then .sourceFault else .destFault) := by
  rw [Chip.frontAnswered, h]

end

/-! ## FRONTIER_TRANSFER_ANSWER -/

/-- Settles O43: DONE by what the frontier has in hand, and FAULT. -/
theorem frontierTransferAnswer : Obligations.FrontierTransferAnswer := by
  rintro s f hflight hf hfix _ rfl
  let w := s.chip.endTransaction
  have hdone : ∀ data, w.frontAnswered (.done data) = w.advanceFront f data := fun _ => Chip.frontAnswered_done (by exact hf)
  have next : ∀ c : CopyState, c.fix = none → NextSpan { w with copy := c } (Chip.nextSpan { w with copy := c }) :=
    fun _ hc => Chip.nextSpan_next (by exact hc)
  refine ⟨fun data => ⟨_, onChip_answered hflight (·.frontAnswered (.done data)), fun hcov => ?_, fun hcov =>
    ⟨fun hp => ⟨fun a b rest hr => ?_, fun a p ps hr hw => ?_⟩,
      fun hp => ⟨fun q p ps hw => ?_, fun q hw => ⟨fun hm => ?_, fun hm => ?_⟩⟩⟩⟩,
    _, onChip_answered hflight (·.frontAnswered .fault), fun hp => ?_, fun hp => ?_⟩
  · rw [hdone, Chip.advanceFront_of_covered hcov]
    exact next _ hfix
  · rw [hdone, Chip.advanceFront_of_reads hcov hp hr]
    rfl
  · rw [hdone, Chip.advanceFront_of_lastRead hcov hp hr]
    exact Chip.startFrontWrite_started (ps := ps) hw
  · rw [hdone, Chip.advanceFront_of_writes hcov hp hw]
    exact Chip.startFrontWrite_started (ps := ps) rfl
  · rw [hdone, Chip.advanceFront_of_lastWrite hcov hp hw, Chip.completeSpan_of_plain (by exact hm)]
    exact next _ hfix
  · rw [hdone, Chip.advanceFront_of_lastWrite hcov hp hw, Chip.completeSpan_of_consistent (by exact hm)]
    exact next _ hfix
  · rw [Chip.frontAnswered_fault (by exact hf), if_pos hp]
    exact Chip.failFront_failed _ _
  · rw [Chip.frontAnswered_fault (by exact hf), if_neg hp]
    exact Chip.failFront_failed _ _

/-! ## PACING_WINDOW_EXPIRY (R104) -/

/-- Settles O44: the timer stopped, or running in a pause for the budget and outside one. -/
theorem pacingWindowExpiry : Obligations.PacingWindowExpiry := by
  intro s
  have hexec : exec .pacingWindowExpiry s = .next { s with chip := s.chip.windowExpiry } := rfl
  refine ⟨fun ht => ?_, ?_⟩
  · rw [hexec, Chip.windowExpiry, ht]
    rfl
  · rintro ht _ rfl
    refine ⟨fun hp => ?_, fun hp hfix => ⟨_, hexec, ?_⟩⟩
    · rw [hexec, Chip.windowExpiry, if_pos ht, if_neg hp]
    · rw [Chip.windowExpiry, if_pos ht, if_pos hp]
      exact Chip.beginSpan_begun (by exact hfix)

end Sys2Proof.Machine

/-! PROOF. Copy-ahead: the request that is taken (O45) and the answers to its transfers (O46), from what Laws/Spans.lean says of
destination writes and of the end of a copy. -/

namespace Sys2Proof.Machine

/-! ## COPY_AHEAD_REQUEST (R106 to R108, R110) -/

section
variable {s : Chip} {r : PortRequest} {rest : List PortRequest}

/-- While a copy-ahead is in progress no request is taken. -/
theorem Chip.copyAheadRequest_of_ahead (h : s.copy.ahead ≠ none) : s.copyAheadRequest = s :=
  if_pos (Option.isSome_iff_ne_none.2 h)

/-- A COPIED entry releases the write, but for one that has been withdrawn (R168). -/
theorem Chip.copyAheadRequest_of_copied (h : s.copy.ahead = none) (hq : s.copy.queue = r :: rest)
    (hn : s.copy.notCopied r.access.addr = none) :
    s.copyAheadRequest = if r.withdrawn then { s with copy := { s.copy with queue := rest } }
      else Chip.request { s with copy := { s.copy with queue := rest } } r := by
  simp only [Chip.copyAheadRequest, h, hq, hn, Option.isSome_none, Bool.false_eq_true, if_false]

/-- A NOT COPIED entry starts a copy-ahead. -/
theorem Chip.copyAheadRequest_of_notCopied (h : s.copy.ahead = none) (hq : s.copy.queue = r :: rest) {k : Nat}
    (hk : s.copy.notCopied r.access.addr = some k) :
    s.copyAheadRequest = Chip.startAhead { s with copy := { s.copy with queue := rest } } k r (s.sharedImage r) := by
  simp only [Chip.copyAheadRequest, h, hq, hk, Option.isSome_none, Bool.false_eq_true, if_false]

/-- The copy-ahead of entry `k` that the write `r` triggers, with these source lines to read (R107). -/
def CopyState.aheadFor (c : CopyState) (k : Nat) (r : PortRequest) (reads : List Word) : Ahead :=
  { entry := k, cls := r.cls, reads := reads, waitsCap := false, went := false
    trigger := if r.withdrawn then none else some r, writes := c.pieces (c.spanStart k) (c.spanLength k) }

/-- Without an image the copy-ahead reads its first source line. -/
theorem Chip.startAhead_of_unshared {k : Nat} {image : SharedImage} (hi : image = .absent ∨ image = .unshared)
    {line : Word} {more : List Word}
    (hl : sourceLines (s.copy.source.toNat + s.copy.spanStart k) (s.copy.spanLength k) = line :: more) :
    s.startAhead k r image =
      Chip.request { s with copy := { s.copy with ahead := some (s.copy.aheadFor k r (line :: more)) } }
        (aheadRequest r.cls (readLine line)) := by
  unfold Chip.startAhead CopyState.aheadFor
  rcases hi with rfl | rfl <;> simp only [hl]

/-- From an image its destination writes begin. -/
theorem Chip.startAhead_of_held (k : Nat) (i : Image) :
    s.startAhead k r (.held i) =
      Chip.startAheadWrite
        { s with copy := { s.copy with ahead := some (s.copy.aheadFor k r []), aheadBuffer := i } } (s.copy.aheadFor k r []) :=
  rfl

/-- A FAULT on the read that it would have shared fails it. -/
theorem Chip.startAhead_of_failed (k : Nat) :
    s.startAhead k r .failed =
      Chip.failAhead { s with copy := { s.copy with ahead := some (s.copy.aheadFor k r
        (sourceLines (s.copy.source.toNat + s.copy.spanStart k) (s.copy.spanLength k))) } } .sourceFault :=
  rfl

end

/-- Settles O45: a copy-ahead in progress, a COPIED entry, and a NOT COPIED one by the image at the forward point. -/
theorem copyAheadRequest : Obligations.CopyAheadRequest := by
  intro s r rest hq
  have hexec : exec .copyAheadRequest s = .next { s with chip := s.chip.copyAheadRequest } := rfl
  refine ⟨fun ha => ?_, fun ha => ⟨_, hexec, ?_⟩⟩
  · rw [hexec, Chip.copyAheadRequest_of_ahead ha]
  · rintro _ rfl
    refine ⟨fun hn => ?_, ?_⟩
    · rw [Chip.copyAheadRequest_of_copied ha hq hn]
      refine ⟨fun hw => ?_, fun hw => ?_⟩
      · rw [if_pos hw]
      · rw [if_neg (by simp [hw])]
        rfl
    · rintro k hk _ _ rfl rfl a rfl
      rw [Chip.copyAheadRequest_of_notCopied ha hq hk]
      refine ⟨fun hi line more hl => ?_, fun image hi p ps hp => ?_, fun hi => ?_⟩
      · exact Chip.startAhead_of_unshared (s := { s.chip with copy := { s.chip.copy with queue := rest } }) hi hl
      · rw [hi, Chip.startAhead_of_held]
        exact Chip.startAheadWrite_started (ps := ps) hp
      · rw [hi, Chip.startAhead_of_failed]
        exact Chip.failAhead_failed _ _

/-! ## A transfer of copy-ahead is answered DONE (R107) -/

section
variable {s : Chip} {a : Ahead} {data : Line}

/-- With another source line to read, the line is kept and the next one is requested. -/
theorem Chip.advanceAhead_of_reads {x y : Word} {more : List Word} (h : a.reads = x :: y :: more) :
    s.advanceAhead a data = Chip.request
      { s with copy := { s.copy with
        aheadBuffer := depositLine s.copy.aheadBuffer x data, ahead := some { a with reads := y :: more } } }
      (aheadRequest a.cls (readLine y)) := by
  rw [Chip.advanceAhead, h]

/-- With the last source line read, the destination writes begin. -/
theorem Chip.advanceAhead_of_lastRead {x : Word} (h : a.reads = [x]) :
    s.advanceAhead a data = Chip.startAheadWrite
      { s with copy := { s.copy with
        aheadBuffer := depositLine s.copy.aheadBuffer x data, ahead := some { a with reads := [] } } }
      { a with reads := [] } := by
  rw [Chip.advanceAhead, h]

/-- With another destination write left, its steps follow. -/
theorem Chip.advanceAhead_of_writes (h : a.reads = []) {q p : Piece} {ps : List Piece} (hw : a.writes = q :: p :: ps) :
    s.advanceAhead a data = Chip.startAheadWrite
      { s with copy := { s.copy with ahead := some { a with writes := p :: ps, went := false } } }
      { a with writes := p :: ps, went := false } := by
  rw [Chip.advanceAhead, h, hw]

/-- With the last destination write answered, the copy-ahead is complete. -/
theorem Chip.advanceAhead_of_lastWrite (h : a.reads = []) {q : Piece} (hw : a.writes = [q]) :
    s.advanceAhead a data = s.completeAhead a := by
  rw [Chip.advanceAhead, h, hw]

theorem Chip.aheadAnswered_done (h : s.copy.ahead = some a) : s.aheadAnswered (.done data) = s.advanceAhead a data := by
  rw [Chip.aheadAnswered, h]

theorem Chip.aheadAnswered_fault (h : s.copy.ahead = some a) :
    s.aheadAnswered .fault = s.failAhead (if a.reads = [] then .destFault else .sourceFault) := by
  rw [Chip.aheadAnswered, h]

end

/-! ## A copy-ahead is complete (R103, R107) -/

section
variable {s : Chip} {a : Ahead}

/-- The part once the entry of a copy-ahead is COPIED and its write requests the port (steps 4 and 5 of R107). -/
def Chip.aheadCopied (s : Chip) (a : Ahead) : Chip :=
  { s with
    copy := { s.copy.markCopied a.entry with ahead := none }
    arbiter := { s.arbiter with requests := s.arbiter.requests ++ a.trigger.toList } }

/-- The frontier works on the span of a copy-ahead. -/
def CopyState.onFront (c : CopyState) (a : Ahead) : Bool := c.front.any fun f => c.spanAt f.start == a.entry

theorem CopyState.onFront_of_front {c : CopyState} {f : Front} (hf : c.front = some f) :
    c.onFront a = (c.spanAt f.start == a.entry) := by
  rw [CopyState.onFront, hf]
  rfl

theorem CopyState.onFront_of_elsewhere {c : CopyState} (h : ∀ f, c.front = some f → c.spanAt f.start ≠ a.entry) :
    c.onFront a = false := by
  cases hf : c.front with
  | none => rw [CopyState.onFront, hf]; rfl
  | some f => rw [CopyState.onFront_of_front hf]; exact beq_false_of_ne (h f hf)

theorem Chip.completeAhead_eq (s : Chip) (a : Ahead) : s.completeAhead a = (s.aheadCopied a).afterAhead (s.copy.onFront a) := by
  unfold Chip.completeAhead Chip.aheadCopied CopyState.onFront
  cases s.copy.front <;> cases a.trigger
  case none.none | some.none => rw [Option.toList_none, List.append_nil]; rfl
  case none.some | some.some => rfl

/-- A copy whose outcome a frontier fault has fixed ends with it (R116). -/
theorem Chip.afterAhead_of_fault {o : JobOutcome} (h : s.copy.fix = some (.frontier o)) (b : Bool) :
    s.afterAhead b = s.endCopy o := by
  rw [Chip.afterAhead, h]

/-- A copy that a cancel waits for ends CANCELLED (R117). -/
theorem Chip.afterAhead_of_cancel (h : s.copy.fix = some .cancel) (b : Bool) : s.afterAhead b = s.endCopy .cancelled := by
  rw [Chip.afterAhead, h]

/-- With FRONTIER at LENGTH the copy ends DONE (R103). -/
theorem Chip.afterAhead_of_length (h : s.copy.fix = none) (hl : s.copy.frontier = s.copy.length) (b : Bool) :
    s.afterAhead b = s.leaveFront.endCopy .done := by
  rw [Chip.afterAhead, h]
  exact if_pos hl

/-- A frontier on another span goes on. -/
theorem Chip.afterAhead_of_elsewhere (h : s.copy.fix = none) (hl : s.copy.frontier ≠ s.copy.length) : s.afterAhead false = s := by
  rw [Chip.afterAhead, h]
  exact if_neg hl

/-- A frontier on the same span leaves it (R109). -/
theorem Chip.afterAhead_of_onFront (h : s.copy.fix = none) (hl : s.copy.frontier ≠ s.copy.length) {f : Front}
    (hf : s.copy.front = some f) : s.afterAhead true = s.coverFront f := by
  rw [Chip.afterAhead, h]
  simp only [if_neg hl, if_true, hf]

/-! ### The frontier leaves a covered span (R109) -/

/-- A write whose capture request has been made, or that has been answered go, is left to be issued. -/
theorem Chip.coverFront_of_made {f : Front} (h : f.phase = .capture ∨ f.phase = .port ∧ f.went = true) :
    s.coverFront f = { s with copy := { s.copy with front := some { f with covered := true, writes := f.writes.take 1 } } } := by
  unfold Chip.coverFront
  refine if_pos ?_
  rcases h with hp | ⟨hp, hw⟩
  · simp [hp]
  · simp [hp, hw]

/-- Another transfer that waits is withdrawn, and the next span begins. -/
theorem Chip.coverFront_of_waiting (hi : s.arbiter.inFlight = none) {f : Front}
    (h : f.phase = .read ∨ f.phase = .paused ∨ f.phase = .port ∧ f.went = false) :
    s.coverFront f = Chip.beginSpan { s.dropFront with copy := { s.dropFront.copy with state := .copying } } := by
  unfold Chip.coverFront Chip.issued
  rw [hi]
  refine if_neg ?_
  rcases h with hp | hp | ⟨hp, hw⟩
  · simp [hp]
  · simp [hp]
  · simp [hp, hw]

/-- A write that waits and has not been answered go is withdrawn. -/
theorem ArbiterState.giveUp_of_not_went (b : ArbiterState) (o : Owner) (hi : b.inFlight = none) :
    b.giveUp o false = { b with requests := b.requests.filter fun r => r.owner != o || r.stale } := by
  have hfilter : ∀ l : List PortRequest, (l.filterMap fun r =>
      if r.owner = o ∧ r.stale = false then (if false then some { r with stale := true } else none) else some r) =
        l.filter fun r => r.owner != o || r.stale := fun l => by
    rw [← List.filterMap_eq_filter]
    refine List.filterMap_congr fun r _ => ?_
    by_cases hr : r.owner = o ∧ r.stale = false
    · simp [Option.guard, hr]
    · rw [if_neg hr, Option.guard_eq_some_iff.2 ⟨rfl, ?_⟩]
      by_cases ho : r.owner = o
      · simpa [ho] using hr
      · simp [ho]
  unfold ArbiterState.giveUp
  rw [hfilter, hi]
  rfl

/-! ### The frontier's write is left at the copy's end (R109; log entry 19) -/

theorem Chip.leaveFront_of_capture {f : Front} {p : Piece} {ps : List Piece} (hf : s.copy.front = some f) (hp : f.phase = .capture)
    (hw : f.writes = p :: ps) :
    s.leaveFront.log = { s.log with
      requests := s.log.requests.map (CaptureRequest.leave (s.copy.pieceAccess s.copy.spanBuffer p))
      capture := s.log.capture.map fun c =>
        { c with request := c.request.leave (s.copy.pieceAccess s.copy.spanBuffer p) } } := by
  obtain ⟨start, length, reads, writes, phase, went, covered⟩ := f
  obtain rfl : phase = .capture := hp
  obtain rfl : writes = p :: ps := hw
  rw [Chip.leaveFront, hf]

/-- A request that has been left is not the frontier's. -/
theorem CaptureRequest.leave_requester (acc : Access) (q : CaptureRequest) : (q.leave acc).requester ≠ .frontier := by
  unfold CaptureRequest.leave
  split_ifs with h
  · exact nofun
  · exact h

/-- The end of a copy withdraws no capture of another requester. -/
theorem Chip.endCopy_capture {c : Capture} (hc : s.log.capture = some c) (h₁ : c.request.requester ≠ .frontier)
    (h₂ : c.request.requester ≠ .copyAhead) (o : JobOutcome) : (s.endCopy o).log.capture = some c := by
  have hkept : ∀ (l : LogState) (p : Requester → Bool) (x y : Bool), l.capture = some c → p c.request.requester = false →
      ((l.withdrawCaptures p).clearDrainCopies x y).capture = some c := fun l p x y hl hp => by
    rw [LogState.clearDrainCopies_frame]
    simp [LogState.withdrawCaptures, hl, hp]
  rw [s.endCopy_log o]
  refine hkept _ _ _ _ ?_ (by simpa using h₂)
  rw [LogState.leaveLate_frame]
  exact hkept _ _ _ _ hc (by simpa using h₁)

/-- What a copy that ends DONE leaves of the capture request that its frontier's write has made. -/
theorem Chip.endCopy_leaves {f : Front} {p : Piece} {ps : List Piece} (hf : s.copy.front = some f) (hp : f.phase = .capture)
    (hw : f.writes = p :: ps) {leaves : CaptureRequest → CaptureRequest}
    (hleaves : leaves = CaptureRequest.leave (s.copy.pieceAccess s.copy.spanBuffer p)) :
    (∀ q, q ∈ (s.leaveFront.endCopy .done).log.requests ↔ q ∈ s.log.requests.map leaves ∧ q.requester ≠ .copyAhead) ∧
      (∀ c, s.log.capture = some c → c.request.requester = .frontier →
        (s.leaveFront.endCopy .done).log.capture = some { c with request := leaves c.request }) := by
  subst hleaves
  have hlog := Chip.leaveFront_of_capture hf hp hw
  refine ⟨fun q => ?_, fun c hc hr => ?_⟩
  · rw [Chip.endCopy_requests, hlog, List.mem_filter]
    refine and_congr_right fun hq => ?_
    obtain ⟨q', _, rfl⟩ := List.mem_map.1 hq
    simp [CaptureRequest.leave_requester]
  · refine Chip.endCopy_capture (by rw [hlog, hc]; rfl) (CaptureRequest.leave_requester _ _) ?_ _
    simp [CaptureRequest.leave, hr]

end

/-! ## COPY_AHEAD_TRANSFER_ANSWER -/

/-- Settles O46: DONE by what the copy-ahead has left to do and, once it is complete, by what the copy does then; and FAULT. -/
theorem copyAheadTransferAnswer : Obligations.CopyAheadTransferAnswer := by
  rintro s a hflight ha _ rfl
  let w := s.chip.endTransaction
  have hdone : ∀ data, w.aheadAnswered (.done data) = w.advanceAhead a data := fun _ => Chip.aheadAnswered_done (by exact ha)
  refine ⟨fun data => ⟨_, onChip_answered hflight (·.aheadAnswered (.done data)), fun x y more hr => ?_,
    fun x p ps hr hw => ?_, fun q p ps hr hw => ?_, fun q hr hw => ?_⟩,
    _, onChip_answered hflight (·.aheadAnswered .fault), fun hr => ?_, fun hr => ?_⟩
  · rw [hdone, Chip.advanceAhead_of_reads hr]
    rfl
  · rw [hdone, Chip.advanceAhead_of_lastRead hr]
    exact Chip.startAheadWrite_started (ps := ps) hw
  · rw [hdone, Chip.advanceAhead_of_writes hr hw]
    exact Chip.startAheadWrite_started (ps := ps) rfl
  · rintro u hu
    obtain rfl : u = w.aheadCopied a := hu
    rw [hdone, Chip.advanceAhead_of_lastWrite hr hw, Chip.completeAhead_eq]
    refine ⟨fun o hfix => ?_, fun hfix => ?_, fun hfix hl => ⟨?_, ?_⟩, fun hfix hl => ⟨fun hf => ?_, fun f hf he => ?_⟩⟩
    · rw [Chip.afterAhead_of_fault (by exact hfix)]
      exact Chip.endCopy_ended _ _
    · rw [Chip.afterAhead_of_cancel (by exact hfix)]
      exact Chip.endCopy_ended _ _
    · rw [Chip.afterAhead_of_length (by exact hfix) (by exact hl)]
      exact (Chip.endCopy_ended _ _).of_leaveFront
    · rintro f p ps hf hp hw _ rfl
      rw [Chip.afterAhead_of_length (by exact hfix) (by exact hl)]
      exact Chip.endCopy_leaves (s := w.aheadCopied a) hf hp hw rfl
    · rw [CopyState.onFront_of_elsewhere (by exact hf), Chip.afterAhead_of_elsewhere (by exact hfix) (by exact hl)]
    · have hon : w.copy.onFront a = true := (CopyState.onFront_of_front (by exact hf)).trans (beq_iff_eq.2 he)
      rw [hon, Chip.afterAhead_of_onFront (by exact hfix) (by exact hl) (by exact hf)]
      refine ⟨fun hp => Chip.coverFront_of_made hp, fun hp => ?_⟩
      rw [Chip.coverFront_of_waiting rfl hp]
      refine ⟨_, Chip.beginSpan_begun (by exact hfix), rfl, ?_, LogState.dropped_requests _ _ _ _,
        (Chip.dropFront_frame _).trans (.of_blocks rfl rfl rfl rfl rfl), rfl⟩
      have hwent : (w.aheadCopied a).copy.wentWaits = false := by
        unfold CopyState.wentWaits
        rw [show (w.aheadCopied a).copy.front = some f from hf]
        rcases hp with hp | hp | ⟨_, hw⟩
        · simp [hp]
        · simp [hp]
        · simp [hw]
      show (w.aheadCopied a).arbiter.giveUp .frontier _ = _
      rw [hwent]
      exact ArbiterState.giveUp_of_not_went _ _ rfl
  · rw [Chip.aheadAnswered_fault (by exact ha), if_pos hr]
    exact Chip.failAhead_failed _ _
  · rw [Chip.aheadAnswered_fault (by exact ha), if_neg hr]
    exact Chip.failAhead_failed _ _

end Sys2Proof.Machine

/-! PROOF. COPY is granted (O42): its checks, the context it sets, and the writes that go back to the write check. -/

namespace Sys2Proof.Machine

/-! ## The checks (R98, R176) -/

section
variable {d : Descriptor} {a b c m : Nat}

/-- The mode field of COPY D. -/
theorem copyModeOf_spec (d : Word) :
    (copyModeOf d = some .plain ↔ d.toNat / 256 % 256 = 0) ∧ (copyModeOf d = some .consistent ↔ d.toNat / 256 % 256 = 1) ∧
      (copyModeOf d = none ↔ 1 < d.toNat / 256 % 256) := by
  have hfield : (field d 1 8 : Byte).toNat = d.toNat / 256 % 256 := by
    simp [field, Nat.shiftRight_eq_div_pow]
  unfold copyModeOf
  rw [hfield]
  generalize d.toNat / 256 % 256 = n
  match n with
  | 0 => simp
  | 1 => simp
  | n + 2 => simp

/-- The budget field of COPY D. -/
theorem budgetOf_toNat (d : Word) : (budgetOf d).toNat = d.toNat % 256 := by simp [budgetOf, field]

/-- What the mode adds to the checks: a field that names no mode, and the limits of a CONSISTENT copy. -/
def copyModeRefused (d : Descriptor) : Bool :=
  match copyModeOf d.d with
  | none => true
  | some .plain => false
  | some .consistent =>
    decide (4096 < granulesTouched d.a.toNat d.c.toNat) ||
      decide (d.a.toNat / 64 ≤ (d.b.toNat + d.c.toNat - 1) / 64 ∧ d.b.toNat / 64 ≤ (d.a.toNat + d.c.toNat - 1) / 64)

theorem copyRefused_eq (d : Descriptor) :
    copyRefused d = (decide (d.c.toNat = 0 ∨ 16777216 < d.c.toNat) || passes4GiB d.a.toNat d.c.toNat ||
      passes4GiB d.b.toNat d.c.toNat || overlaps d.a.toNat d.c.toNat d.b.toNat d.c.toNat || copyModeRefused d) := rfl

theorem copyModeRefused_iff (d : Descriptor) :
    copyModeRefused d = true ↔ 1 < d.d.toNat / 256 % 256 ∨ (d.d.toNat / 256 % 256 = 1 ∧
      (4096 < granulesTouched d.a.toNat d.c.toNat ∨
        (d.a.toNat / 64 ≤ (d.b.toNat + d.c.toNat - 1) / 64 ∧ d.b.toNat / 64 ≤ (d.a.toNat + d.c.toNat - 1) / 64))) := by
  obtain ⟨hplain, hconsistent, hnone⟩ := copyModeOf_spec d.d
  unfold copyModeRefused
  cases hm : copyModeOf d.d with
  | none =>
    have := hnone.1 hm
    simp [this]
  | some mode =>
    cases mode with
    | plain =>
      have := hplain.1 hm
      simp [this]
    | consistent =>
      have := hconsistent.1 hm
      simp [this]

/-- The copy is refused for an operand outside R98. -/
theorem copyRefused_iff (ha : a = d.a.toNat) (hb : b = d.b.toNat) (hc : c = d.c.toNat) (hm : m = d.d.toNat / 256 % 256) :
    copyRefused d = true ↔ (c = 0 ∨ 16777216 < c ∨ 0xFFFFFFFF < a + c - 1 ∨ 0xFFFFFFFF < b + c - 1 ∨
      (a ≤ b + c - 1 ∧ b ≤ a + c - 1) ∨ 1 < m ∨
      (m = 1 ∧ (4096 < (a + c - 1) / 64 - a / 64 + 1 ∨ (a / 64 ≤ (b + c - 1) / 64 ∧ b / 64 ≤ (a + c - 1) / 64)))) := by
  rw [copyRefused_eq]
  simp only [Bool.or_eq_true, copyModeRefused_iff, passes4GiB, overlaps, decide_eq_true_eq, granulesTouched, ← ha, ← hb, ← hc,
    ← hm]
  by_cases hz : c = 0
  · simp [hz]
  · have hpasses : ∀ x, 0x100000000 < x + c ↔ 0xFFFFFFFF < x + c - 1 := fun x => by omega
    have hoverlaps : (0 < c ∧ 0 < c ∧ a < b + c ∧ b < a + c) ↔ (a ≤ b + c - 1 ∧ b ≤ a + c - 1) := by omega
    simp only [hpasses, hoverlaps, or_assoc]

end

/-! ## The accepted context (R99) -/

section
variable {s : Chip}

/-- The mode that an accepted copy takes. -/
theorem CopyState.accepted_mode (k : CopyState) (l : Lane) {d : Descriptor} (hm : d.d.toNat / 256 % 256 ≤ 1) :
    d.d.toNat / 256 % 256 = 0 ∧ (k.accepted l d).mode = .plain ∨
      d.d.toNat / 256 % 256 = 1 ∧ (k.accepted l d).mode = .consistent := by
  obtain ⟨hplain, hconsistent, _⟩ := copyModeOf_spec d.d
  have hmode : (k.accepted l d).mode = (copyModeOf d.d).getD .plain := rfl
  rcases Nat.le_one_iff_eq_zero_or_eq_one.1 hm with h | h
  · exact .inl ⟨h, by rw [hmode, hplain.2 h]; rfl⟩
  · exact .inr ⟨h, by rw [hmode, hconsistent.2 h]; rfl⟩

/-- Just after the acceptance of a copy every entry is NOT COPIED, so that each write into its source granules is kept. -/
theorem CopyState.notCopied_accepted (k : CopyState) (l : Lane) {d : Descriptor} (hc : d.c.toNat ≠ 0) (x : Word) :
    ((k.accepted l d).notCopied x).isSome = true ↔ d.d.toNat / 256 % 256 = 1 ∧
      d.a.toNat / 64 ≤ x.toNat / 64 ∧ x.toNat / 64 ≤ (d.a.toNat + d.c.toNat - 1) / 64 := by
  have hmode : ((k.accepted l d).mode == .consistent) = true ↔ d.d.toNat / 256 % 256 = 1 := by
    rw [← (copyModeOf_spec d.d).2.1]
    show ((copyModeOf d.d).getD .plain == .consistent) = true ↔ _
    cases copyModeOf d.d with
    | none => decide
    | some mode => simp
  have hspans : (k.accepted l d).spans = (d.a.toNat + d.c.toNat - 1) / 64 - d.a.toNat / 64 + 1 := rfl
  have hcopied : ∀ n, (k.accepted l d).copied n = false := fun n => by
    show (0#4096).getLsbD n = false
    simp
  have hsource : (k.accepted l d).source = d.a := rfl
  have hactive : (k.accepted l d).active = true := rfl
  unfold CopyState.notCopied
  rw [hactive, Bool.true_and]
  dsimp only
  rw [hspans, hsource, hcopied]
  by_cases hm : d.d.toNat / 256 % 256 = 1
  · rw [if_pos (hmode.2 hm)]
    split_ifs with hin
    · simp only [Bool.not_false, Bool.and_true, Bool.and_eq_true, decide_eq_true_eq] at hin
      simp only [Option.isSome_some, true_iff]
      omega
    · simp only [Bool.not_false, Bool.and_true, Bool.and_eq_true, decide_eq_true_eq] at hin
      simp only [Option.isSome_none, Bool.false_eq_true, false_iff]
      omega
  · rw [if_neg (fun h => hm (hmode.1 h))]
    simp [hm]

/-- The writes that wait and that the write check now keeps back go to the copy-ahead queue, and no other request does (R137). -/
theorem Chip.mem_recheckWrites (hq : s.copy.queue = []) (r : PortRequest) :
    (r ∈ s.recheckWrites.copy.queue ↔
      r ∈ s.arbiter.requests ∧ r.access.write = true ∧ (s.copy.notCopied r.access.addr).isSome = true) ∧
    (r ∈ s.recheckWrites.arbiter.requests ↔ r ∈ s.arbiter.requests ∧ r ∉ s.recheckWrites.copy.queue) := by
  have hqueue : r ∈ s.recheckWrites.copy.queue ↔
      r ∈ s.arbiter.requests ∧ r.access.write = true ∧ (s.copy.notCopied r.access.addr).isSome = true := by
    simp [Chip.recheckWrites, hq, List.mem_filter]
  refine ⟨hqueue, ?_⟩
  rw [hqueue]
  simp only [Chip.recheckWrites, List.mem_filter, Bool.not_eq_true', Bool.and_eq_false_iff]
  cases r.access.write <;> cases (s.copy.notCopied r.access.addr).isSome <;> simp

/-- What an accepted copy makes of the image at the forward point (R108; log entry 30). -/
def Chip.imageForgotten (s : Chip) : SharedImage := if s.log.hostReadBegun then .unshared else .absent

/-- A capture for a host write has its first line and not yet its second. -/
theorem LogState.hostReadBegun_iff (log : LogState) :
    log.hostReadBegun = true ↔ ∃ k, log.capture = some k ∧ k.step = .readSecond ∧ k.request.requester = .host := by
  unfold LogState.hostReadBegun
  cases log.capture with
  | none => simp
  | some k => simp

/-- The part once the job of lane `l` has been granted at the copy-job arbiter. -/
def Chip.copyGranted (s : Chip) (l : Lane) (rest : List Lane) : Chip :=
  Chip.laneRuns { s with copy := { s.copy with waiting := rest } } l

/-- The part once a granted COPY has been accepted, before its first span. -/
def Chip.copyAccepted (s : Chip) (l : Lane) (d : Descriptor) : Chip :=
  Chip.recheckWrites (Chip.forgetImage { s with copy := s.copy.accepted l d })

/-- With the context IDLE the oldest waiting COPY is granted, and refused or accepted. -/
theorem Chip.copyJob_of_grant {l : Lane} {addr : Word} {d : Descriptor} {rest : List Lane} (hi : s.copy.state = .idle)
    (hw : s.copy.waiting = l :: rest) (hj : s.HasJob l .wait addr d) (hd : d.code = 15#8) :
    s.copyJob = if copyRefused d then (s.copyGranted l rest).finishJob l .badOperand 0#32
      else ((s.copyGranted l rest).copyAccepted l d).beginSpan := by
  have hkind : jobKind d.code = some .copy := by
    rw [hd]
    rfl
  rw [Chip.copyJob, if_neg (by simp [CopyState.active, hi]), hw]
  simp only [hj.jobIn hkind]
  rfl

theorem Chip.copyGranted_runs (s : Chip) (l : Lane) (rest : List Lane) : LaneRuns s (s.copyGranted l rest) l :=
  Chip.laneRuns_spec { s with copy := { s.copy with waiting := rest } } l

/-- A granted COPY that is refused hands back BAD OPERAND. -/
theorem Chip.copyGranted_refused {l : Lane} {addr : Word} {d : Descriptor} (rest : List Lane) (hj : s.HasJob l .wait addr d) :
    let t := (s.copyGranted l rest).finishJob l .badOperand 0#32
    HandsBack s t l addr d .badOperand 0#32 ∧ SameBesideHandBack { s with copy := { s.copy with waiting := rest } } t ∧
      t.regions = s.regions ∧ t.log = s.log := by
  obtain ⟨⟨hself, hother⟩, _⟩ := s.copyGranted_runs l rest
  obtain ⟨_, p, q, hcurrent⟩ := hj
  obtain ⟨hback, hsame, hregions, hlog⟩ :=
    (s.copyGranted l rest).finishJob_spec .badOperand 0#32 ⟨p, q, by rw [hself]; exact hcurrent⟩
  refine ⟨hback.of_lane hother ?_ rfl, hsame, hregions, hlog⟩
  rw [hself]

/-- The beginning of a span leaves the Log Unit alone. -/
theorem Chip.beginSpan_log (s : Chip) : s.beginSpan.log = s.log := by
  unfold Chip.beginSpan
  split_ifs
  · rfl
  · rfl
  all_goals
    dsimp only
    split <;> rfl

end

/-! ## COPY -/

/-- Settles O42: the copy is refused or accepted, and the image by the capture that is at work. -/
theorem copyGranted : Obligations.CopyGranted := by
  rintro s l addr d rest hi hw hj hd _ _ _ _ rfl rfl rfl rfl bad hbad begun hbegun
  have hrefused : copyRefused d = true ↔ bad := by
    rw [hbad]
    exact copyRefused_iff rfl rfl rfl rfl
  have hexec : exec .copy s = .next { s with chip := s.chip.copyJob } := rfl
  have hread : s.chip.log.hostReadBegun = true ↔ begun := by
    rw [hbegun]
    exact s.chip.log.hostReadBegun_iff
  have himage : (begun → s.chip.imageForgotten = .unshared) ∧ (¬begun → s.chip.imageForgotten = .absent) :=
    ⟨fun h => if_pos (hread.2 h), fun h => if_neg (mt hread.1 h)⟩
  rw [hexec, Chip.copyJob_of_grant hi hw hj hd]
  by_cases hr : copyRefused d = true
  · rw [if_pos hr]
    obtain ⟨hback, hsame, hregions, hlog⟩ := Chip.copyGranted_refused rest hj
    exact ⟨_, s.chip.imageForgotten, rfl, hregions, hlog, himage.1, himage.2, fun _ => ⟨hback, hsame⟩,
      fun hn => absurd (hrefused.1 hr) hn⟩
  · rw [if_neg hr]
    let v := s.chip.copyGranted l rest
    let u := v.copyAccepted l d
    have hmem := Chip.mem_recheckWrites (s := Chip.forgetImage { v with copy := v.copy.accepted l d }) rfl
    obtain ⟨hlength, hmode⟩ : d.c.toNat ≠ 0 ∧ d.d.toNat / 256 % 256 ≤ 1 := by
      rw [hrefused, hbad] at hr
      omega
    refine ⟨u.beginSpan, s.chip.imageForgotten, rfl, u.beginSpan_frame.1, u.beginSpan_log, himage.1, himage.2,
      fun h => absurd (hrefused.2 h) hr, fun _ => ⟨u, Chip.beginSpan_begun rfl, s.chip.copyGranted_runs l rest,
        fun r => ?_, fun r => (hmem r).2, v.copy.accepted_mode l hmode, budgetOf_toNat d.d, rfl⟩⟩
    rw [← v.copy.notCopied_accepted l hlength]
    exact (hmem r).1

end Sys2Proof.Machine

/-! PROOF. CANCEL COPY (O47): the copy-ahead requests that it takes first, and then the cancel in the context as it stands. -/

namespace Sys2Proof.Machine

section
variable {s : Chip}

/-! ## The requests that are taken first (R118; log entry 27) -/

/-- No request is taken: no copy is active, or a copy-ahead is in progress. -/
def Chip.AheadsTaken (s : Chip) : Prop := s.copy.active = false ∨ s.copy.ahead ≠ none

theorem Chip.takeAheads_of_taken (h : s.AheadsTaken) (n : Nat) : s.takeAheads n = s := by
  cases n with
  | zero => rfl
  | succ n =>
    refine if_neg ?_
    rcases h with h | h
    · simp [h]
    · simp [Option.isNone_iff_eq_none, h]

theorem Chip.takeAheads_succ (h : s.copy.active = true) (ha : s.copy.ahead = none) (n : Nat) :
    s.takeAheads (n + 1) = s.copyAheadRequest.takeAheads n := by
  refine if_pos ?_
  simp [h, ha]

theorem Chip.AheadsTaken.of_ended {u : Chip} {o : JobOutcome} (h : CopyEnded s u o) : u.AheadsTaken := by
  obtain ⟨hi, _⟩ := h
  exact .inl (by simp [CopyState.active, hi])

theorem Chip.AheadsTaken.failAhead (s : Chip) (o : JobOutcome) : (s.failAhead o).AheadsTaken := by
  unfold Chip.failAhead
  split <;> exact .of_ended (s.endCopy_ended _)

/-- The steps before a destination write of a copy-ahead leave it in progress, or end the copy. -/
theorem Chip.AheadsTaken.startAheadWrite (h : s.copy.ahead ≠ none) (a : Ahead) : (s.startAheadWrite a).AheadsTaken := by
  have hissue : (s.issueAhead a false).AheadsTaken := by
    unfold Chip.issueAhead
    split
    · refine .inr ?_
      rw [Chip.issueWrite_copy]
      exact Option.some_ne_none _
    · exact .inr h
  unfold Chip.startAheadWrite
  split
  · exact .inr h
  · split
    · exact .failAhead _ _
    · split
      · split_ifs
        · exact .failAhead _ _
        · exact .inr (Option.some_ne_none _)
        · exact hissue
      · exact hissue

/-- A copy-ahead that starts is in progress, or has ended the copy. -/
theorem Chip.AheadsTaken.startAhead (s : Chip) (k : Nat) (r : PortRequest) (image : SharedImage) :
    (s.startAhead k r image).AheadsTaken := by
  unfold Chip.startAhead
  dsimp only
  split
  · exact .failAhead _ _
  · exact .startAheadWrite (Option.some_ne_none _) _
  all_goals
    split <;> exact .inr (Option.some_ne_none _)

/-- The oldest request is taken: then no further one is, or its write has been released and the rest of the queue is left. -/
theorem Chip.copyAheadRequest_taken (ha : s.copy.ahead = none) {r : PortRequest} {rest : List PortRequest}
    (hq : s.copy.queue = r :: rest) :
    s.copyAheadRequest.AheadsTaken ∨
      (s.copyAheadRequest.copy = { s.copy with queue := rest } ∧ s.copyAheadRequest.lanes = s.lanes) := by
  cases hk : s.copy.notCopied r.access.addr with
  | none =>
    rw [Chip.copyAheadRequest_of_copied ha hq hk]
    split_ifs <;> exact .inr ⟨rfl, rfl⟩
  | some k =>
    rw [Chip.copyAheadRequest_of_notCopied ha hq hk]
    exact .inl (.startAhead _ _ _ _)

/-! ## CANCEL COPY in the context as it stands (R117) -/

/-- A cancel for which there is no request to take meets the context as it stands. -/
theorem Chip.cancelCopy_of_taken (h : s.AheadsTaken) (l : Lane) : s.cancelCopy l = s.cancelNow l := by
  unfold Chip.cancelCopy
  rw [Chip.takeAheads_of_taken h]
  unfold Chip.cancelNow
  split
  · rfl
  · split_ifs <;> rfl

/-- A lane's job depends on the Lane Unit alone. -/
theorem Chip.jobIn_of_lanes {u : Chip} (h : u.lanes = s.lanes) (l : Lane) (st : LaneStatus) (k : JobKind) :
    u.jobIn l st k = s.jobIn l st k := by
  have hlane : u.lane l = s.lane l := Chip.lane_congr (by rw [h]) l
  unfold Chip.jobIn
  rw [hlane]

/-- The cancel of a job that is due, once the requests before it have been taken. -/
theorem Chip.cancelCopy_of_job {l : Lane} {d : Descriptor} (hj : s.jobIn l .run .cancelCopy = some d) (hn : l ∉ s.copy.cancels) :
    s.cancelCopy l = (s.takeAheads s.copy.queue.length).cancelNow l := by
  rw [Chip.cancelCopy, hj]
  exact if_neg (by simpa using hn)

theorem Chip.cancelNow_of_job {l : Lane} {d : Descriptor} (hj : s.jobIn l .run .cancelCopy = some d) (hn : l ∉ s.copy.cancels) :
    s.cancelNow l = if s.copy.active then s.cancelActive l else s.finishJob l .done 0#32 := by
  rw [Chip.cancelNow, hj]
  exact if_neg (by simpa using hn)

/-- Without a copy-ahead the copy ends CANCELLED. -/
theorem Chip.cancelActive_of_none (h : s.copy.ahead = none) (l : Lane) :
    s.cancelActive l = Chip.endCopy { s with copy := { s.copy with cancels := s.copy.cancels ++ [l] } } .cancelled :=
  if_neg (by simp [h])

/-- With a copy-ahead in progress the frontier stops, and the cancel waits. -/
theorem Chip.cancelActive_of_ahead (h : s.copy.ahead ≠ none) (l : Lane) :
    (s.cancelActive l).lanes = s.lanes ∧ (s.cancelActive l).copy = { s.copy with
      cancelPend := true, front := none, cancels := s.copy.cancels ++ [l], fix := some (s.copy.fix.getD .cancel) } := by
  unfold Chip.cancelActive
  dsimp only
  rw [if_pos (Option.isSome_iff_ne_none.2 h)]
  exact ⟨rfl, rfl⟩

/-- A cancel that finds requests takes the oldest one, and then meets what that leaves. -/
theorem Chip.cancelCopy_of_queue {l : Lane} {d : Descriptor} (hj : s.jobIn l .run .cancelCopy = some d)
    (hn : l ∉ s.copy.cancels) (hactive : s.copy.active = true) (ha : s.copy.ahead = none) (hq : s.copy.queue ≠ []) :
    s.cancelCopy l = s.copyAheadRequest.cancelCopy l := by
  obtain ⟨r, rest, hq⟩ := List.exists_cons_of_ne_nil hq
  have htaken := Chip.copyAheadRequest_taken ha hq
  rw [Chip.cancelCopy_of_job hj hn, hq, List.length_cons, Chip.takeAheads_succ hactive ha]
  generalize s.copyAheadRequest = u at htaken
  rcases htaken with ht | ⟨hcopy, hlanes⟩
  · rw [Chip.takeAheads_of_taken ht, Chip.cancelCopy_of_taken ht]
  · have hju : u.jobIn l .run .cancelCopy = some d := (Chip.jobIn_of_lanes hlanes l _ _).trans hj
    rw [Chip.cancelCopy_of_job hju (by rw [hcopy]; exact hn), hcopy]

end

/-! ## CANCEL_COPY -/

/-- Settles O47: no active copy, an active one by its copy-ahead, and one with requests that only wait. -/
theorem cancelCopy : Obligations.CancelCopy := by
  intro s l addr d hjob hd hn
  have hj : s.chip.jobIn l .run .cancelCopy = some d := hjob.jobIn (by rw [hd]; rfl)
  have hactive : s.chip.copy.state ≠ .idle → s.chip.copy.active = true := fun h => by simpa [CopyState.active] using h
  have hnow : s.chip.AheadsTaken ∨ s.chip.copy.queue = [] → s.chip.cancelCopy l =
      if s.chip.copy.active then s.chip.cancelActive l else s.chip.finishJob l .done 0#32 := by
    rintro (h | h)
    · rw [Chip.cancelCopy_of_taken h, Chip.cancelNow_of_job hj hn]
    · rw [Chip.cancelCopy_of_job hj hn, h, ← Chip.cancelNow_of_job hj hn]
      rfl
  refine ⟨s.chip.cancelCopy l, rfl, fun hi => ?_, fun hi ha hq => ?_, fun hi ha => ?_, fun hi ha hq => ?_⟩
  · have hidle : s.chip.copy.active = false := by simp [CopyState.active, hi]
    rw [hnow (.inl (.inl hidle)), if_neg (by simp [hidle])]
    exact s.chip.finishJob_spec .done 0#32 hjob.2
  · rw [hnow (.inr hq), if_pos (hactive hi), Chip.cancelActive_of_none ha]
    exact Chip.endCopy_ended _ _
  · rw [hnow (.inl (.inr ha)), if_pos (hactive hi)]
    exact ⟨s.chip.cancelActive_frame l, Chip.cancelActive_of_ahead ha l⟩
  · refine ⟨s.chip.copyAheadRequest, rfl, ?_⟩
    rw [Chip.cancelCopy_of_queue hj hn (hactive hi) ha hq]
    rfl

end Sys2Proof.Machine

/-! PROOF. The capacities of the post queue, of the logged-granule table and of the lanes' queues are kept by every command (O57). Most
operations leave all of these lists alone, which an equation on `Chip.bounded` says; three lengthen one of them, each only below its
capacity (`acceptAccess`, `queueDescriptor`, `LogState.enterTable`), and the others shorten or empty one. -/

namespace Sys2Proof.Machine
variable {s t : Chip}

/-! ## The bounded lists -/

/-- The lists that have a capacity: the post queue (R126), the logged-granule table (R27) and the lanes' queues (R144). -/
def Chip.bounded (s : Chip) : List PostEntry × List Word × (Lane → List Word) :=
  (s.path.postQueue, s.log.table, fun l => (s.lane l).queue)

theorem Chip.bounded_eq (hp : t.path.postQueue = s.path.postQueue) (ht : t.log.table = s.log.table)
    (hl : ∀ l, (t.lane l).queue = (s.lane l).queue) : t.bounded = s.bounded := by
  unfold Chip.bounded
  rw [hp, ht, funext hl]

theorem Chip.WithinCapacity.congr (h : s.WithinCapacity) (e : t.bounded = s.bounded) : t.WithinCapacity := by
  obtain ⟨hpost, hrest⟩ := Prod.mk.inj e
  obtain ⟨htable, hqueues⟩ := Prod.mk.inj hrest
  obtain ⟨kpost, ktable, kqueues⟩ := h
  refine ⟨by rw [hpost]; exact kpost, by rw [htable]; exact ktable, fun l => ?_⟩
  rw [show (t.lane l).queue = (s.lane l).queue from congrFun hqueues l]
  exact kqueues l

/-- A change of the lanes and of what waits for the port, with every queue as it was. -/
theorem SameBesideHandBack.bounded (h : SameBesideHandBack s t) (hlog : t.log = s.log) (hl : ∀ l, t.lane l = s.lane l) :
    t.bounded = s.bounded := by
  obtain ⟨hpath, _⟩ := h
  exact Chip.bounded_eq (by rw [hpath]) (by rw [hlog]) fun l => by rw [hl]

/-! ## Lanes that keep their queues -/

theorem Chip.setLane_bounded {l : Lane} {r : LaneRec} (h : r.queue = (s.lane l).queue) : (s.setLane l r).bounded = s.bounded := by
  refine Chip.bounded_eq rfl rfl fun m => ?_
  rw [Chip.lane_setLane]
  split_ifs with hm
  · rw [h, hm]
  · rfl

theorem Chip.presentLane_bounded (s : Chip) : s.presentLane.bounded = s.bounded := by
  obtain ⟨h, _, hlog, hlanes, _⟩ := s.presentLane_spec
  exact h.bounded hlog hlanes

theorem Chip.makeLaneAccess_bounded (s : Chip) (o : Owner) (a : Access) : (s.makeLaneAccess o a).bounded = s.bounded := by
  obtain ⟨h, _, hlog, hlanes, _⟩ := s.makeLaneAccess_spec o a
  exact h.bounded hlog hlanes

theorem Chip.accessOver_bounded (s : Chip) (o : Owner) : (s.accessOver o).bounded = s.bounded := by
  unfold Chip.accessOver
  split
  · rfl
  · split_ifs
    · rfl
    · exact Chip.presentLane_bounded _

theorem Chip.enterFetch_bounded (s : Chip) (l : Lane) (a : Word) : (s.enterFetch l a).bounded = s.bounded :=
  (Chip.makeLaneAccess_bounded _ _ _).trans (Chip.setLane_bounded rfl)

theorem Chip.finishJob_bounded (s : Chip) (l : Lane) (o : JobOutcome) (r : Word) : (s.finishJob l o r).bounded = s.bounded := by
  unfold Chip.finishJob
  split
  · exact (Chip.makeLaneAccess_bounded _ _ _).trans (Chip.setLane_bounded rfl)
  · rfl

theorem Chip.endLogJob_bounded (s : Chip) (o : JobOutcome) (r : Word) : (s.endLogJob o r).bounded = s.bounded := by
  unfold Chip.endLogJob
  split
  · exact Chip.finishJob_bounded _ _ _ _
  · rfl

theorem Chip.endCancels_bounded (s : Chip) (r : Word) (ls : List Lane) : (s.endCancels r ls).bounded = s.bounded := by
  induction ls generalizing s with
  | nil => rfl
  | cons l ls ih => exact (ih _).trans (s.finishJob_bounded l .done r)

/-! ## The words of the control page -/

theorem Chip.endOrderedWrite_bounded (s : Chip) (r : Response) : (s.endOrderedWrite r).bounded = s.bounded := by
  unfold Chip.endOrderedWrite
  split <;> rfl

theorem Chip.examineWords_bounded (s : Chip) (f : ForwardPoint) (ws : List PageWord) : (s.examineWords f ws).bounded = s.bounded := by
  induction ws generalizing s with
  | nil => exact s.endOrderedWrite_bounded .done
  | cons w ws ih =>
    unfold Chip.examineWords
    split_ifs
    · rfl
    · exact ih s
    · rfl
    · exact ih _

theorem Chip.endOrdered_bounded (s : Chip) (f : ForwardPoint) (a : Answer) : (s.endOrdered f a).bounded = s.bounded := by
  unfold Chip.endOrdered
  split
  · split_ifs
    · exact s.examineWords_bounded _ _
    · exact s.endOrderedWrite_bounded _
  all_goals exact s.endOrderedWrite_bounded _

theorem Chip.nextWords_bounded (s : Chip) : s.nextWords.bounded = s.bounded := by
  unfold Chip.nextWords
  split
  · exact s.examineWords_bounded _ _
  · rfl

theorem Chip.continueTake_bounded (s : Chip) : s.continueTake.bounded = s.bounded := by
  unfold Chip.continueTake
  split
  · rfl
  · split
    · exact s.makeLaneAccess_bounded _ _
    · refine (Chip.nextWords_bounded _).trans ?_
      split_ifs
      · exact Chip.finishJob_bounded _ _ _ _
      · rfl

theorem Chip.nextDirect_bounded (s : Chip) : s.nextDirect.bounded = s.bounded := by
  unfold Chip.nextDirect
  split
  · rfl
  · exact Chip.continueTake_bounded _

theorem Chip.popWord_bounded (s : Chip) (ws : List PageWord) : (s.popWord ws).bounded = s.bounded := by
  unfold Chip.popWord
  split <;> rfl

/-! ## The Copy Engine -/

theorem Chip.issueWrite_bounded (s : Chip) (r : PortRequest) : (s.issueWrite r).bounded = s.bounded := by
  unfold Chip.issueWrite
  split <;> rfl

/-- What the Copy Engine changes in the Log Unit leaves the table alone. -/
theorem SameBeyondCopy.bounded (h : SameBeyondCopy s t) (hl : t.lanes = s.lanes) : t.bounded = s.bounded := by
  obtain ⟨_, hpath, _, _, hlog, _⟩ := h
  exact Chip.bounded_eq (by rw [hpath]) (by rw [hlog]) fun l => congrArg LaneRec.queue (Chip.lane_congr (by rw [hl]) l)

theorem Chip.dropFront_bounded (s : Chip) : s.dropFront.bounded = s.bounded := s.dropFront_frame.bounded rfl

theorem Chip.dropAhead_bounded (s : Chip) : s.dropAhead.bounded = s.bounded := s.dropAhead_frame.bounded rfl

theorem Chip.endCopy_bounded (s : Chip) (o : JobOutcome) : (s.endCopy o).bounded = s.bounded := by
  have hdrop : s.dropFront.dropAhead.bounded = s.bounded := (Chip.dropAhead_bounded _).trans s.dropFront_bounded
  exact ((Chip.endCancels_bounded _ _ _).trans (Chip.finishJob_bounded _ _ _ _)).trans hdrop

theorem Chip.failAhead_bounded (s : Chip) (o : JobOutcome) : (s.failAhead o).bounded = s.bounded := by
  unfold Chip.failAhead
  split <;> exact s.endCopy_bounded _

theorem Chip.failFront_bounded (s : Chip) (o : JobOutcome) : (s.failFront o).bounded = s.bounded := by
  unfold Chip.failFront
  split_ifs
  · exact s.dropFront_bounded
  · exact s.endCopy_bounded o

theorem Chip.beginSpan_bounded (s : Chip) : s.beginSpan.bounded = s.bounded := by
  refine s.beginSpan_frame.bounded ?_
  unfold Chip.beginSpan
  split_ifs
  · rfl
  · rfl
  all_goals
    dsimp only
    split <;> rfl

theorem Chip.issueFront_bounded (s : Chip) (f : Front) (went : Bool) : (s.issueFront f went).bounded = s.bounded := by
  unfold Chip.issueFront
  split
  · exact Chip.issueWrite_bounded _ _
  · rfl

theorem Chip.startFrontWrite_bounded (s : Chip) (f : Front) : (s.startFrontWrite f).bounded = s.bounded := by
  unfold Chip.startFrontWrite
  split
  · rfl
  · split
    · exact s.failFront_bounded _
    · split
      · split_ifs
        · rfl
        · rfl
        · exact s.issueFront_bounded _ _
      · exact s.issueFront_bounded _ _

theorem Chip.resumeFront_bounded (s : Chip) : s.resumeFront.bounded = s.bounded := by
  unfold Chip.resumeFront
  split_ifs
  · dsimp only
    split
    · split_ifs
      · exact Chip.startFrontWrite_bounded _ _
      · rfl
    · rfl
  · rfl

theorem Chip.nextSpan_bounded (s : Chip) : s.nextSpan.bounded = s.bounded := by
  unfold Chip.nextSpan
  split_ifs
  · exact s.endCopy_bounded _
  · exact s.beginSpan_bounded

theorem Chip.advanceFront_bounded (s : Chip) (f : Front) (data : Line) : (s.advanceFront f data).bounded = s.bounded := by
  unfold Chip.advanceFront
  split
  · exact Chip.nextSpan_bounded _
  · split
    · split
      · dsimp only
        split
        · rfl
        · exact Chip.startFrontWrite_bounded _ _
      · rfl
    · split
      · exact Chip.nextSpan_bounded _
      · exact s.startFrontWrite_bounded _
      · rfl

theorem Chip.frontAnswered_bounded (s : Chip) (a : FinalAnswer) : (s.frontAnswered a).bounded = s.bounded := by
  unfold Chip.frontAnswered
  split
  · rfl
  · split
    · exact s.advanceFront_bounded _ _
    · exact s.failFront_bounded _

theorem Chip.issueAhead_bounded (s : Chip) (a : Ahead) (went : Bool) : (s.issueAhead a went).bounded = s.bounded := by
  unfold Chip.issueAhead
  split
  · exact Chip.issueWrite_bounded _ _
  · rfl

theorem Chip.startAheadWrite_bounded (s : Chip) (a : Ahead) : (s.startAheadWrite a).bounded = s.bounded := by
  unfold Chip.startAheadWrite
  split
  · rfl
  · split
    · exact s.failAhead_bounded _
    · split
      · split_ifs
        · exact s.failAhead_bounded _
        · rfl
        · exact s.issueAhead_bounded _ _
      · exact s.issueAhead_bounded _ _

theorem Chip.coverFront_bounded (s : Chip) (f : Front) : (s.coverFront f).bounded = s.bounded := by
  unfold Chip.coverFront
  dsimp only
  split
  · rfl
  · exact (Chip.beginSpan_bounded _).trans s.dropFront_bounded

theorem Chip.leaveFront_bounded (s : Chip) : s.leaveFront.bounded = s.bounded := by
  unfold Chip.leaveFront
  split <;> rfl

theorem Chip.afterAhead_bounded (s : Chip) (onFront : Bool) : (s.afterAhead onFront).bounded = s.bounded := by
  unfold Chip.afterAhead
  split
  · exact s.endCopy_bounded _
  · exact s.endCopy_bounded _
  · split_ifs
    · exact (Chip.endCopy_bounded _ _).trans s.leaveFront_bounded
    · split
      · exact s.coverFront_bounded _
      · rfl
    · rfl

theorem Chip.completeAhead_bounded (s : Chip) (a : Ahead) : (s.completeAhead a).bounded = s.bounded := by
  unfold Chip.completeAhead
  dsimp only
  split <;> exact Chip.afterAhead_bounded _ _

theorem Chip.advanceAhead_bounded (s : Chip) (a : Ahead) (data : Line) : (s.advanceAhead a data).bounded = s.bounded := by
  unfold Chip.advanceAhead
  split
  · dsimp only
    split
    · rfl
    · exact Chip.startAheadWrite_bounded _ _
  · split
    · exact s.completeAhead_bounded a
    · exact Chip.startAheadWrite_bounded _ _
    · rfl

theorem Chip.aheadAnswered_bounded (s : Chip) (a : FinalAnswer) : (s.aheadAnswered a).bounded = s.bounded := by
  unfold Chip.aheadAnswered
  split
  · rfl
  · split
    · exact s.advanceAhead_bounded _ _
    · exact s.failAhead_bounded _

theorem Chip.startAhead_bounded (s : Chip) (k : Nat) (r : PortRequest) (image : SharedImage) :
    (s.startAhead k r image).bounded = s.bounded := by
  unfold Chip.startAhead
  dsimp only
  split
  · exact Chip.failAhead_bounded _ _
  · exact Chip.startAheadWrite_bounded _ _
  all_goals split <;> rfl

theorem Chip.copyAheadRequest_bounded (s : Chip) : s.copyAheadRequest.bounded = s.bounded := by
  unfold Chip.copyAheadRequest
  split_ifs
  · rfl
  · split
    · rfl
    · dsimp only
      split
      · split_ifs <;> rfl
      · exact Chip.startAhead_bounded _ _ _ _

theorem Chip.takeAheads_bounded (n : Nat) (s : Chip) : (s.takeAheads n).bounded = s.bounded := by
  induction n generalizing s with
  | zero => rfl
  | succ n ih =>
    unfold Chip.takeAheads
    split_ifs
    · exact (ih _).trans s.copyAheadRequest_bounded
    · rfl

theorem Chip.cancelActive_bounded (s : Chip) (l : Lane) : (s.cancelActive l).bounded = s.bounded := by
  unfold Chip.cancelActive
  dsimp only
  split_ifs
  · exact Chip.dropFront_bounded { s with copy := { s.copy with cancels := s.copy.cancels ++ [l] } }
  · exact Chip.endCopy_bounded _ _

theorem Chip.cancelNow_bounded (s : Chip) (l : Lane) : (s.cancelNow l).bounded = s.bounded := by
  unfold Chip.cancelNow
  split
  · rfl
  · split_ifs
    · rfl
    · exact s.cancelActive_bounded l
    · exact s.finishJob_bounded _ _ _

theorem Chip.cancelCopy_bounded (s : Chip) (l : Lane) : (s.cancelCopy l).bounded = s.bounded := by
  unfold Chip.cancelCopy
  split
  · rfl
  · split_ifs
    · rfl
    · exact (Chip.cancelNow_bounded _ _).trans (Chip.takeAheads_bounded _ _)

theorem Chip.laneRuns_bounded (s : Chip) (l : Lane) : (s.laneRuns l).bounded = s.bounded := Chip.setLane_bounded rfl

theorem Chip.runCopy_bounded (s : Chip) (l : Lane) (d : Descriptor) : (s.runCopy l d).bounded = s.bounded := by
  unfold Chip.runCopy
  split_ifs
  · exact s.finishJob_bounded _ _ _
  · exact Chip.beginSpan_bounded _

theorem Chip.copyJob_bounded (s : Chip) : s.copyJob.bounded = s.bounded := by
  unfold Chip.copyJob
  split_ifs
  · rfl
  · split
    · rfl
    · split
      · rfl
      · exact (Chip.runCopy_bounded _ _ _).trans (Chip.laneRuns_bounded _ _)

theorem Chip.windowExpiry_bounded (s : Chip) : s.windowExpiry.bounded = s.bounded := by
  unfold Chip.windowExpiry
  split_ifs
  · exact Chip.beginSpan_bounded _
  · rfl
  · rfl

/-! ## Captures -/

theorem Chip.answerGo_bounded (s : Chip) (q : Requester) : (s.answerGo q).bounded = s.bounded := by
  unfold Chip.answerGo
  split
  · split
    · exact Chip.issueWrite_bounded _ _
    · rfl
  · split
    · exact s.issueFront_bounded _ _
    · rfl
  · split
    · exact s.issueAhead_bounded _ _
    · rfl
  · exact s.issueWrite_bounded _

theorem Chip.answerAll_bounded (s : Chip) : s.answerAll.bounded = s.bounded := by
  have key : ∀ (rs : List CaptureRequest) (u : Chip), (rs.foldl (fun t r => t.answerGo r.requester) u).bounded = u.bounded := by
    intro rs
    induction rs with
    | nil => exact fun _ => rfl
    | cons r rs ih => exact fun u => (ih _).trans (u.answerGo_bounded _)
  exact key _ _

theorem Chip.handLog_bounded (s : Chip) (src : Source) (r : AttnRecord) : (s.handLog src r).bounded = s.bounded := by
  unfold Chip.handLog
  split_ifs <;> rfl

theorem Chip.stallRequest_bounded (s : Chip) (r : CaptureRequest) : (s.stallRequest r).bounded = s.bounded := by
  unfold Chip.stallRequest
  dsimp only
  split_ifs
  · rfl
  all_goals exact Chip.handLog_bounded _ _ _

theorem Chip.issueRecordWrite_bounded (s : Chip) (r : PortRequest) : (s.issueRecordWrite r).bounded = s.bounded := by
  unfold Chip.issueRecordWrite
  split
  · exact s.failAhead_bounded _
  · exact s.issueWrite_bounded r

theorem Chip.failShared_bounded (s : Chip) : s.failShared.bounded = s.bounded := by
  unfold Chip.failShared
  split_ifs
  · split <;> rfl
  · exact s.endCopy_bounded _

theorem Chip.keepImage_bounded (s : Chip) (c : Capture) : (s.keepImage c).bounded = s.bounded := by
  unfold Chip.keepImage
  split <;> rfl

/-! ## Dispatch and the Memory Port -/

theorem Chip.dispatch_bounded (s : Chip) (l : Lane) (d : Descriptor) : (s.dispatch l d).bounded = s.bounded := by
  have hwait : (s.setLane l { s.lane l with state := .wait }).bounded = s.bounded := Chip.setLane_bounded rfl
  unfold Chip.dispatch
  split
  · exact s.finishJob_bounded _ _ _
  · split
    · exact s.laneRuns_bounded l
    · exact hwait
    · exact hwait

theorem Chip.grantTo_bounded (s : Chip) (r : PortRequest) : (s.grantTo r).bounded = s.bounded := by
  have hforward : ∀ u : Chip, u.reportForwarded.bounded = u.bounded := by
    intro u
    unfold Chip.reportForwarded
    split
    · split_ifs <;> rfl
    · rfl
  have hlane : s.grantLane.bounded = s.bounded := Chip.presentLane_bounded _
  have hbits : ∀ a b, Chip.bounded { s with log := s.log.clearDrainCopies a b } = s.bounded := by
    intro a b
    rw [s.log.clearDrainCopies_frame]
    rfl
  unfold Chip.grantTo
  cases r.owner with
  | forwardWrite posted =>
    cases posted
    · exact hforward s.issueUpstream
    · exact hforward s
  | laneFetch _ => exact hlane
  | laneOutcome _ => exact hlane
  | laneDirect _ => exact hlane
  | frontier =>
    dsimp only
    split_ifs
    · exact hbits _ _
    · rfl
  | copyAhead =>
    dsimp only
    split_ifs
    · exact hbits _ _
    · rfl
  | _ => rfl

theorem Chip.stopWrite_bounded (s : Chip) (r : PortRequest) : (s.stopWrite r).bounded = s.bounded := by
  unfold Chip.stopWrite
  cases r.owner with
  | frontier =>
    dsimp only
    split_ifs
    · rfl
    · exact s.failFront_bounded _
  | copyAhead =>
    dsimp only
    split_ifs
    · rfl
    · exact s.failAhead_bounded _
  | _ => rfl

theorem Chip.grantPort_bounded (s : Chip) : s.grantPort.bounded = s.bounded := by
  unfold Chip.grantPort
  split_ifs
  · rfl
  · split
    · rfl
    · dsimp only
      split_ifs
      · exact Chip.stopWrite_bounded _ _
      · exact Chip.grantTo_bounded _ _

theorem Chip.retryReissue_bounded (s : Chip) : s.retryReissue.bounded = s.bounded := by
  unfold Chip.retryReissue
  split
  · rfl
  · split_ifs <;> rfl

/-! ## The logged-granule table (R27, R67) -/

/-- A granule enters the table only while it holds fewer than 1,024 addresses. -/
theorem LogState.enterTable_length {l : LogState} (h : l.table.length ≤ 1024) (g : Word) : (l.enterTable g).length ≤ 1024 := by
  unfold LogState.enterTable
  split_ifs with hroom
  · have hlt : l.table.length < 1024 := hroom.1
    simp only [List.length_append, List.length_singleton]
    omega
  · exact h

/-- The trim leaves an empty table (R67). -/
theorem LogState.trimmed_table (l : LogState) (c : Rollback) (issued : Bool) : (l.trimmed c issued).table = [] := by
  unfold LogState.trimmed
  dsimp only
  split <;> rfl

namespace Chip.WithinCapacity

/-! ## One list at a time -/

theorem path (h : s.WithinCapacity) {p : PathState} (hp : p.postQueue.length ≤ 4) : Chip.WithinCapacity { s with path := p } :=
  ⟨hp, h.2⟩

theorem log (h : s.WithinCapacity) {l : LogState} (hl : l.table.length ≤ 1024) : Chip.WithinCapacity { s with log := l } :=
  ⟨h.1, hl, h.2.2⟩

theorem setLane (h : s.WithinCapacity) {l : Lane} {r : LaneRec} (hr : r.queue.length ≤ 6) : (s.setLane l r).WithinCapacity := by
  obtain ⟨hpost, htable, hlanes⟩ := h
  refine ⟨hpost, htable, fun m => ?_⟩
  rw [Chip.lane_setLane]
  split_ifs
  · exact hr
  · exact hlanes m

theorem postQueue_le (h : s.WithinCapacity) : s.path.postQueue.length ≤ 4 := h.1

theorem table_le (h : s.WithinCapacity) : s.log.table.length ≤ 1024 := h.2.1

theorem queue_le (h : s.WithinCapacity) (l : Lane) : (s.lane l).queue.length ≤ 6 := h.2.2 l

/-- The owner of a transaction acts on a part that is within its capacities. -/
theorem answered (h : s.WithinCapacity) (p : Owner → Bool) {act : PortRequest → Chip → Chip}
    (ha : ∀ r (u : Chip), u.WithinCapacity → (act r u).WithinCapacity) : (s.answered p act).WithinCapacity := by
  unfold Chip.answered
  split
  · split_ifs
    · exact h.congr rfl
    · exact ha _ s.endTransaction (h.congr rfl)
    · exact h
  · exact h

theorem finishJob (h : s.WithinCapacity) (l : Lane) (o : JobOutcome) (r : Word) : (s.finishJob l o r).WithinCapacity :=
  h.congr (s.finishJob_bounded l o r)

theorem endLogJob (h : s.WithinCapacity) (o : JobOutcome) (r : Word) : (s.endLogJob o r).WithinCapacity :=
  h.congr (s.endLogJob_bounded o r)

theorem issueWrite (h : s.WithinCapacity) (r : PortRequest) : (s.issueWrite r).WithinCapacity := h.congr (s.issueWrite_bounded r)

/-! ## The post queue (R125, R126) -/

/-- A write joins the post queue only while it holds fewer than 4 entries. -/
theorem acceptAccess (h : s.WithinCapacity) (a : Access) (toPost : Bool) : (s.acceptAccess a toPost).WithinCapacity := by
  unfold Chip.acceptAccess
  split_ifs with _ _ hroom
  · exact h.congr rfl
  · refine h.path ?_
    have hlt : s.path.postQueue.length < 4 := hroom
    simp only [List.length_append, List.length_singleton]
    omega
  · exact h.congr rfl
  · exact h.congr rfl

theorem classifyHeld (h : s.WithinCapacity) (a : Access) (toPost : Bool) : (s.classifyHeld a toPost).WithinCapacity := by
  unfold Chip.classifyHeld
  split_ifs
  · split <;> exact h.congr rfl
  · exact h.acceptAccess a toPost

theorem classify (h : s.WithinCapacity) (a : Access) (toPost : Bool) : (s.classify a toPost).WithinCapacity := by
  unfold Chip.classify
  split_ifs
  · exact h.congr rfl
  · exact h.acceptAccess a toPost
  · exact h.congr rfl
  · exact h.classifyHeld a toPost

theorem releaseHeld (h : s.WithinCapacity) : s.releaseHeld.WithinCapacity := by
  unfold Chip.releaseHeld
  split
  · split_ifs
    · exact h.classify _ _
    · exact h
  · exact h

theorem serveQueueFull (h : s.WithinCapacity) : s.serveQueueFull.WithinCapacity := by
  unfold Chip.serveQueueFull
  split
  · split_ifs
    · exact h.classify _ _
    · exact h
  · exact h

theorem leaveQueue (h : s.WithinCapacity) (n : Nat) : (s.leaveQueue n).WithinCapacity :=
  (h.path ((List.length_filter_le _ _).trans h.postQueue_le)).serveQueueFull

theorem endHold (h : s.WithinCapacity) : s.endHold.WithinCapacity := (h.congr s.resumeFront_bounded).releaseHeld

/-! ## The lanes' queues (R144, R145, R147) -/

theorem endChain (h : s.WithinCapacity) (l : Lane) : (s.endChain l).WithinCapacity := by
  unfold Chip.endChain
  split
  · exact h.setLane (Nat.zero_le 6)
  · rename_i a rest hq
    refine congr (h.setLane (l := l) (r := { state := .idle, queue := rest, current := none, cutPending := false }) ?_)
      (Chip.enterFetch_bounded _ _ _)
    have hle := h.queue_le l
    rw [hq, List.length_cons] at hle
    exact Nat.le_of_succ_le hle

theorem hand (h : s.WithinCapacity) (src : Source) (r : AttnRecord) (k : AfterHand) {act : Chip → Chip}
    (ha : ∀ u : Chip, u.WithinCapacity → (act u).WithinCapacity) : (s.hand src r k act).WithinCapacity := by
  rcases s.hand_cases src r k act with ⟨_, e⟩ | ⟨_, _, e⟩ | ⟨_, _, e⟩ <;> rw [e]
  · exact ha _ h
  · exact h.congr rfl
  · exact ha _ (h.congr rfl)

/-- A record of a lane that then comes to its end of chain. -/
theorem handEnd (h : s.WithinCapacity) (l : Lane) (r : AttnRecord) :
    (s.hand (.lane l) r (.laneEnd l) (·.endChain l)).WithinCapacity := h.hand _ _ _ fun _ hu => hu.endChain l

theorem decideChain (h : s.WithinCapacity) (l : Lane) : (s.decideChain l).WithinCapacity := by
  unfold Chip.decideChain
  split
  · split_ifs
    · exact h.endChain l
    · exact h.handEnd l _
    · unfold Chip.followNext
      split_ifs
      · exact h.congr (s.enterFetch_bounded _ _)
      · exact h.handEnd l _
    · exact h.handEnd l _
  · exact h.endChain l

theorem afterHand (h : s.WithinCapacity) (k : AfterHand) : (k.run s).WithinCapacity := by
  cases k with
  | laneDecide l => exact h.decideChain l
  | laneEnd l => exact h.endChain l
  | take => exact h.congr s.nextDirect_bounded
  | pathWord => exact h.congr s.nextWords_bounded
  | pathFree => exact h.congr rfl

theorem serveHanding (h : s.WithinCapacity) (src : Source) : (s.serveHanding src).WithinCapacity := by
  unfold Chip.serveHanding
  split_ifs
  · exact h
  · split
    · exact h
    · exact afterHand (by exact h.congr rfl) _

theorem dropHandings (h : s.WithinCapacity) : s.dropHandings.WithinCapacity := by
  have key : ∀ (hs : List Handing) (u : Chip), u.WithinCapacity → (hs.foldl (fun t x => x.after.run t) u).WithinCapacity := by
    intro hs
    induction hs with
    | nil => exact fun _ hu => hu
    | cons x xs ih => exact fun _ hu => ih _ (hu.afterHand _)
  exact key _ _ (h.congr rfl)

/-- A descriptor joins a queue that holds fewer than 6 entries. -/
theorem queueDescriptor (h : s.WithinCapacity) {l : Lane} (hl : (s.lane l).queue.length < 6) (a : Word) :
    (s.queueDescriptor l a).WithinCapacity := by
  have hset : (s.setLane l { s.lane l with queue := (s.lane l).queue ++ [a] }).WithinCapacity := by
    refine h.setLane ?_
    simp only [List.length_append, List.length_singleton]
    omega
  unfold Chip.queueDescriptor
  dsimp only
  split_ifs
  · exact hset.endChain l
  · exact hset

/-! ## The logged-granule table (R27, R28, R34) -/

theorem breakLog (h : s.WithinCapacity) (r : Reason) : (s.breakLog r).WithinCapacity := by
  unfold Chip.breakLog
  split_ifs
  · exact h
  · refine congr (log h (l := { s.log with state := .broken, reason := r, stallTimer := none, table := [] }) (Nat.zero_le 1024)) ?_
    exact (Chip.answerAll_bounded _).trans (Chip.handLog_bounded _ _ _)

theorem failRollback (h : s.WithinCapacity) (r : Reason) (n : Nat) : (s.failRollback r n).WithinCapacity := by
  have hfault : s.faultRequest.WithinCapacity := endHold (s := { s with regions := s.regions.map Region.toFaulted }) (h.congr rfl)
  exact ((hfault.breakLog r).endLogJob _ _).congr rfl

theorem takeCapture (h : s.WithinCapacity) (r : CaptureRequest) : (s.takeCapture r).WithinCapacity := by
  have hgo : ∀ u : Chip, u.WithinCapacity → (u.answerGo r.requester).WithinCapacity := fun u hu => hu.congr (u.answerGo_bounded _)
  unfold Chip.takeCapture
  split_ifs
  · exact hgo _ h
  · exact hgo _ h
  · exact hgo _ (h.failRollback _ _)
  · exact hgo _ (h.breakLog _)
  · exact h.congr (s.stallRequest_bounded r)
  · exact h.congr rfl

theorem retakeStalled (h : s.WithinCapacity) (n : Nat) : (s.retakeStalled n).WithinCapacity := by
  induction n generalizing s with
  | zero => exact h
  | succ n ih =>
    unfold Chip.retakeStalled
    split_ifs
    · exact h
    · split
      · exact h
      · split_ifs
        · exact h
        · exact ih (takeCapture (by exact h.congr rfl) _)

theorem retake (h : s.WithinCapacity) : s.retake.WithinCapacity := by
  unfold Chip.retake Chip.settleStall
  split_ifs
  · exact h.retakeStalled _
  · exact (h.retakeStalled _).congr rfl

theorem endCapture (h : s.WithinCapacity) (c : Capture) : (s.endCapture c).WithinCapacity := by
  unfold Chip.endCapture
  dsimp only
  split_ifs
  · exact h.congr (Chip.answerGo_bounded _ _)
  · exact h.congr rfl

theorem completeCapture (h : s.WithinCapacity) (c : Capture) : (s.completeCapture c).WithinCapacity := by
  unfold Chip.completeCapture
  refine retake (endCapture ?_ c)
  split_ifs
  · exact h.log (LogState.enterTable_length h.table_le _)
  · exact h

theorem captureFault (h : s.WithinCapacity) : s.captureFault.WithinCapacity := by
  unfold Chip.captureFault
  split_ifs
  · exact h.failRollback _ _
  · exact h.breakLog _
  · exact h

theorem failCapture (h : s.WithinCapacity) (c : Capture) : (s.failCapture c).WithinCapacity := by
  have hfault := captureFault (s := { s with log := { s.log with capture := none } }) (h.congr rfl)
  unfold Chip.failCapture
  refine retake ?_
  dsimp only
  split_ifs
  · exact hfault.congr ((Chip.answerGo_bounded _ _).trans (Chip.failShared_bounded _))
  · exact hfault.congr (Chip.answerGo_bounded _ _)
  · exact hfault.congr (Chip.failShared_bounded _)
  · exact hfault

theorem captureAnswered (h : s.WithinCapacity) (a : FinalAnswer) : (s.captureAnswered a).WithinCapacity := by
  unfold Chip.captureAnswered
  split
  · exact h
  · split
    · unfold Chip.advanceCapture
      dsimp only
      split
      · exact h.congr rfl
      · exact h.congr ((Chip.issueRecordWrite_bounded _ _).trans (Chip.keepImage_bounded _ _))
      · exact h.congr (Chip.issueRecordWrite_bounded _ _)
      · exact h.congr (Chip.issueRecordWrite_bounded _ _)
      · exact h.completeCapture _
    · exact h.failCapture _

theorem captureRequest (h : s.WithinCapacity) : s.captureRequest.WithinCapacity := by
  unfold Chip.captureRequest
  split_ifs
  · exact h
  · split
    · exact h
    · dsimp only
      split_ifs
      · exact h.congr (Chip.stallRequest_bounded _ _)
      · exact takeCapture (by exact h.congr rfl) _

theorem stallTimerExpiry (h : s.WithinCapacity) : s.stallTimerExpiry.WithinCapacity := by
  unfold Chip.stallTimerExpiry
  split_ifs
  · exact h.breakLog _
  · exact h

/-! ## Log jobs -/

theorem acceptLog {check : Descriptor → Chip → JobOutcome} {accept : Descriptor → Chip → Chip}
    (ha : ∀ d (u : Chip), u.WithinCapacity → (accept d u).WithinCapacity) (l : Lane) (d : Descriptor) (u : Chip)
    (h : u.WithinCapacity) : (Chip.acceptLog check accept l d u).WithinCapacity := by
  unfold Chip.acceptLog
  split_ifs
  · exact ha d u h
  · exact h.endLogJob _ _

theorem grantLog (h : s.WithinCapacity) (k : JobKind) (check : Descriptor → Chip → JobOutcome) (between : Bool)
    {act : Lane → Descriptor → Chip → Chip} (ha : ∀ l d (u : Chip), u.WithinCapacity → (act l d u).WithinCapacity) :
    (s.grantLog k check between act).WithinCapacity := by
  unfold Chip.grantLog
  split
  · split
    · split_ifs
      · exact ha _ _ _ h
      · exact h
    · exact h
  · exact h
  · split
    · exact h
    · split
      · exact h
      · rename_i l rest _
        split
        · exact h
        · have hgranted : (s.granted l rest).WithinCapacity := h.congr (Chip.laneRuns_bounded _ _)
          dsimp only
          split_ifs
          · exact hgranted.endLogJob _ _
          · exact ha _ _ _ hgranted
          · exact hgranted

/-- The ring is placed by ATTACH LOG with an empty table (R37). -/
theorem attachAccept (h : s.WithinCapacity) (d : Descriptor) : (Machine.attachAccept d s).WithinCapacity :=
  (h.log (l := s.log.withRing d .preparing) (Nat.zero_le 1024)).congr rfl

/-- The ring is placed by ADOPT LOG with an empty table (R80). -/
theorem adoptAccept (h : s.WithinCapacity) (d : Descriptor) : (Machine.adoptAccept d s).WithinCapacity :=
  (h.log (l := s.log.withRing d .scanning) (Nat.zero_le 1024)).congr rfl

/-- A job that ends with a log whose table is empty. -/
theorem endLogJobWith (h : s.WithinCapacity) {l : LogState} (hl : l.table = []) (o : JobOutcome) (r : Word) :
    (Chip.endLogJob { s with log := l } o r).WithinCapacity :=
  (h.log (by rw [hl]; exact Nat.zero_le 1024)).endLogJob o r

theorem detachAccept (h : s.WithinCapacity) (d : Descriptor) : (Machine.detachAccept d s).WithinCapacity := by
  have hall := h.congr (t := (Chip.disarm { s with log := { s.log with stallTimer := none } }).answerAll)
    (Chip.answerAll_bounded _)
  exact hall.endLogJobWith rfl _ _

theorem voidingStart (h : s.WithinCapacity) : s.voidingStart.WithinCapacity := by
  unfold Chip.voidingStart
  split
  · split_ifs
    · exact h.congr (Chip.issueWrite_bounded _ _)
    · exact h
  · exact h

theorem voidAnswered (h : s.WithinCapacity) (a : FinalAnswer) : (s.voidAnswered a).WithinCapacity := by
  unfold Chip.voidAnswered
  split
  · split
    · split
      · exact h.endLogJobWith rfl _ _
      · split
        · exact h.congr (Chip.issueWrite_bounded _ _)
        · exact h.congr (Chip.endLogJob_bounded _ _ _)
    · exact h
  · exact h

theorem markAppend (h : s.WithinCapacity) : s.markAppend.WithinCapacity := by
  unfold Chip.markAppend
  split
  · split_ifs
    · exact endLogJobWith (s := { s with path := { s.path with barrier := none } }) (h.congr rfl) rfl _ _
    · exact h.congr (Chip.endLogJob_bounded _ _ _)
    · exact h
  · exact h

theorem releaseStep (h : s.WithinCapacity) {finish : JobOutcome → Word → Chip → Chip}
    (hf : ∀ o r (u : Chip), u.WithinCapacity → (finish o r u).WithinCapacity) (d : Descriptor) :
    (Chip.releaseStep finish d s).WithinCapacity := by
  unfold Chip.releaseStep
  split_ifs
  · exact hf _ _ _ h
  · split
    · exact hf _ _ _ h
    · exact retake (hf _ _ _ (h.congr rfl))

theorem endBeside (h : s.WithinCapacity) (l : Lane) (o : JobOutcome) (r : Word) : (Chip.endBeside l o r s).WithinCapacity :=
  h.congr (Chip.finishJob_bounded _ _ _ _)

/-- A RELEASE beside a MARK takes its step and ends (R40). -/
theorem releaseBeside (h : s.WithinCapacity) (l : Lane) (d : Descriptor) :
    (Chip.releaseStep (Chip.endBeside l) d s).WithinCapacity :=
  h.releaseStep (fun o r _ hu => hu.endBeside l o r) d

theorem release (h : s.WithinCapacity) : s.release.WithinCapacity := by
  unfold Chip.release
  split
  · split
    · split_ifs
      · exact h.releaseBeside _ _
      · exact h
    · exact h
  · split
    · split
      · exact h
      · rename_i l _
        split
        · exact h
        · have hruns : (Chip.laneRuns { s with log :=
              { s.log with waiting := s.log.waiting.erase l, beside := some l } } l).WithinCapacity :=
            h.congr (Chip.laneRuns_bounded _ _)
          dsimp only
          split
          · exact hruns.releaseBeside _ _
          · exact hruns
    · exact h.grantLog _ _ _ fun _ d _ hu => hu.releaseStep (fun o r _ hv => hv.endLogJob o r) d

theorem issueReport (h : s.WithinCapacity) (r : Report) : (s.issueReport r).WithinCapacity :=
  h.congr (Chip.issueWrite_bounded _ _)

theorem reportAnswered (h : s.WithinCapacity) (a : FinalAnswer) : (s.reportAnswered a).WithinCapacity := by
  unfold Chip.reportAnswered
  split
  · rename_i r _
    split
    · exact h.endLogJob _ _
    · dsimp only
      generalize r.written + _ = n
      split_ifs
      · exact h.issueReport _
      · exact h.endLogJob _ _
  · exact h

/-! ## Rollback -/

theorem trimAndReturn (h : s.WithinCapacity) (c : Rollback) (issued : Bool) : (s.trimAndReturn c issued).WithinCapacity := by
  have hlog := h.log (l := s.log.trimmed c issued) (by rw [LogState.trimmed_table]; exact Nat.zero_le 1024)
  exact endLogJob (endHold (by exact hlog.congr rfl)) _ _

theorem finishRollback (h : s.WithinCapacity) (c : Rollback) : (s.finishRollback c).WithinCapacity := by
  have hstage : (s.setRollback { c with phase := .finish }).WithinCapacity := h.congr rfl
  unfold Chip.finishRollback
  dsimp only
  split
  · exact hstage.trimAndReturn _ _
  · split
    · exact hstage.trimAndReturn _ _
    · exact hstage.issueWrite _

theorem rollbackDrainEnd (h : s.WithinCapacity) : s.rollbackDrainEnd.WithinCapacity := by
  unfold Chip.rollbackDrainEnd
  split
  · exact h
  · split_ifs
    · dsimp only
      split_ifs
      · exact h.finishRollback _
      · exact h.congr rfl
    · exact h

theorem restoreAnswered (h : s.WithinCapacity) (a : FinalAnswer) : (s.restoreAnswered a).WithinCapacity := by
  unfold Chip.restoreAnswered
  split
  · exact h
  · split_ifs
    · split
      · unfold Chip.advanceWalk
        dsimp only
        split
        · exact h.congr rfl
        · exact h.congr rfl
        · split_ifs
          · exact h.congr (Chip.issueWrite_bounded _ _)
          · exact h.failRollback _ _
        · exact h.congr (Chip.issueWrite_bounded _ _)
        · split_ifs
          · exact h.finishRollback _
          · exact h.congr rfl
      · exact h.failRollback _ _
    · exact h

theorem markerAnswered (h : s.WithinCapacity) (a : FinalAnswer) : (s.markerAnswered a).WithinCapacity := by
  unfold Chip.markerAnswered
  split
  · exact h
  · split_ifs
    · split
      · exact h.trimAndReturn _ _
      · exact (h.trimAndReturn _ _).breakLog _
    · exact h

/-! ## Adopting a log -/

theorem endScan (h : s.WithinCapacity) (o : JobOutcome) (n : Nat) : (s.endScan o n).WithinCapacity := h.endLogJobWith rfl _ _

theorem finishScan (h : s.WithinCapacity) (c : Scan) (n : Newest) : (s.finishScan c n).WithinCapacity := by
  unfold Chip.finishScan
  split_ifs
  · exact h.endScan _ _
  all_goals exact endLogJob (by exact (h.log (l := s.log.adopted c n _) (Nat.zero_le 1024)).congr rfl) _ _

theorem walkOn (h : s.WithinCapacity) (c : Scan) (n : Newest) : (s.walkOn c n).WithinCapacity := by
  unfold Chip.walkOn
  split_ifs
  · exact h.finishScan _ _
  · exact h.congr rfl

theorem judgeSlot (h : s.WithinCapacity) (c : Scan) (second : Line) : (s.judgeSlot c second).WithinCapacity := by
  unfold Chip.judgeSlot
  split
  · dsimp only
    split_ifs
    · exact h.congr rfl
    · unfold Chip.endSelect
      split
      · exact h.endScan _ _
      · exact h.walkOn _ _
  · split
    · exact h
    · split_ifs
      · exact h.walkOn _ _
      · exact h.finishScan _ _
      · exact h.finishScan _ _

theorem scanAnswered (h : s.WithinCapacity) (a : FinalAnswer) : (s.scanAnswered a).WithinCapacity := by
  unfold Chip.scanAnswered
  split
  · split_ifs
    · split
      · exact h.endScan _ _
      · dsimp only
        split
        · exact h.congr rfl
        · exact h.congr rfl
        · exact h.judgeSlot _ _
    · exact h
  · exact h

theorem selectPassStart (h : s.WithinCapacity) : s.selectPassStart.WithinCapacity := by
  unfold Chip.selectPassStart
  split
  · split_ifs
    · exact h.congr rfl
    · exact h
  · exact h

/-! ## The Attention Unit -/

theorem issuePosting (h : s.WithinCapacity) (p : Posting) : (s.issuePosting p).WithinCapacity :=
  h.congr (Chip.issueWrite_bounded _ _)

/-- The Attention Unit changes none of the bounded lists. -/
theorem attention (h : s.WithinCapacity) (a : AttentionState) : Chip.WithinCapacity { s with attention := a } := h.congr rfl

theorem reportConfigured (h : s.WithinCapacity) : s.reportConfigured.WithinCapacity := by
  unfold Chip.reportConfigured
  split_ifs
  · exact h.congr rfl
  · exact h

theorem takeConfigure (h : s.WithinCapacity) (c : PendingConfigure) : (s.takeConfigure c).WithinCapacity := by
  unfold Chip.takeConfigure
  split_ifs
  · exact (h.attention _).dropHandings.finishJob _ _ _
  · exact ((h.attention _).reportConfigured.issuePosting _).finishJob _ _ _

theorem configureAttention (h : s.WithinCapacity) (l : Lane) : (s.configureAttention l).WithinCapacity := by
  unfold Chip.configureAttention
  split
  · exact h
  · dsimp only
    split_ifs
    · exact h
    · exact h.attention _
    · exact takeConfigure (by exact h.congr rfl) _
    · exact h.finishJob _ _ _

theorem decidePosting (h : s.WithinCapacity) (x : Listed) : (s.decidePosting x).WithinCapacity := by
  unfold Chip.decidePosting
  dsimp only
  split_ifs
  · exact issuePosting (by exact h.congr rfl) _
  · exact issuePosting (by exact h.congr rfl) _
  · split
    · exact issuePosting (by exact h.congr rfl) _
    · exact h

theorem attentionPosting (h : s.WithinCapacity) : s.attentionPosting.WithinCapacity := by
  unfold Chip.attentionPosting
  split_ifs
  · split
    · exact h
    · exact ((h.attention _).decidePosting _).serveHanding _
  · exact h

theorem deconfigure (h : s.WithinCapacity) : s.deconfigure.WithinCapacity := dropHandings (by exact h.congr rfl)

theorem advancePosting (h : s.WithinCapacity) (p : Posting) : (s.advancePosting p).WithinCapacity := by
  unfold Chip.advancePosting
  split
  · exact h.issuePosting _
  · unfold Chip.countPosting
    dsimp only
    split
    · exact (h.attention _).issuePosting _
    · exact h.attention _
    all_goals exact (h.attention _).issuePosting _
  · exact h.attention _

theorem attentionAnswered (h : s.WithinCapacity) (a : FinalAnswer) : (s.attentionAnswered a).WithinCapacity := by
  unfold Chip.attentionAnswered
  split
  · exact h
  · split
    · exact h.deconfigure
    · exact h.deconfigure.takeConfigure _
    · exact h.advancePosting _
    · exact (h.attention _).takeConfigure _

/-! ## Resets and the Processor Port -/

/-- A part after either reset: empty lists but for the post queue, which a soft reset leaves. -/
theorem of_reset (hp : s.path.postQueue.length ≤ 4) (hl : s.log = LogState.atReset) (hu : s.lanes = LaneUnit.atReset) :
    s.WithinCapacity := by
  refine ⟨hp, by rw [hl]; exact Nat.zero_le 1024, fun l => ?_⟩
  have hlane : s.lane l = LaneRec.atReset := by
    rw [Chip.lane, hu]
    exact Vector.getElem_replicate _
  rw [hlane]
  exact Nat.zero_le 6

theorem resetPart (h : s.WithinCapacity) : s.resetPart.WithinCapacity := by
  unfold Chip.resetPart
  split
  · exact of_reset h.postQueue_le rfl rfl
  · exact h

theorem softResetPortIdle (h : s.WithinCapacity) : s.softResetPortIdle.WithinCapacity := by
  unfold Chip.softResetPortIdle
  split_ifs
  · refine issueWrite ?_ _
    exact ⟨Nat.zero_le 4, h.2⟩
  · exact h

theorem endStartUp (h : s.WithinCapacity) : s.endStartUp.WithinCapacity := by
  unfold Chip.endStartUp
  dsimp only
  split
  · split_ifs
    · exact classify (by exact h.congr rfl) _ _
    · exact h.congr rfl
  · exact h.congr rfl

theorem statusWordWrite (h : s.WithinCapacity) : s.statusWordWrite.WithinCapacity := by
  unfold Chip.statusWordWrite
  split
  · exact h
  · split_ifs
    · exact h
    · exact h.congr (Chip.issueWrite_bounded _ _)

theorem hostAccess (h : s.WithinCapacity) (a : Access) : (s.hostAccess a).WithinCapacity := by
  unfold Chip.hostAccess
  split
  · exact h
  · dsimp only
    split
    · exact h.congr rfl
    · exact h.congr rfl
    all_goals exact classify (by exact h.congr rfl) a false

theorem holdLimitExpiry (h : s.WithinCapacity) : s.holdLimitExpiry.WithinCapacity := by
  unfold Chip.holdLimitExpiry
  split
  · split_ifs
    · split
      · split_ifs <;> exact h.congr rfl
      · exact h.congr rfl
    · exact h.congr rfl
    · exact h
  · exact h

theorem forwardRead (h : s.WithinCapacity) : s.forwardRead.WithinCapacity := by
  unfold Chip.forwardRead
  split
  · split_ifs
    · exact h.classifyHeld _ _
    · exact h.congr rfl
    · exact h
  · exact h

theorem treatWrite (h : s.WithinCapacity) (a : Access) (n : Nat) (posted : Bool) : (s.treatWrite a n posted).WithinCapacity := by
  unfold Chip.treatWrite
  split_ifs
  · exact h
  · dsimp only
    split
    · split_ifs
      · exact h.congr rfl
      · exact h.congr (Chip.issueWrite_bounded _ _)
    · exact h.congr (Chip.issueWrite_bounded _ _)

theorem forwardWrite (h : s.WithinCapacity) : s.forwardWrite.WithinCapacity := by
  unfold Chip.forwardWrite
  split
  · exact h.treatWrite _ _ _
  · split_ifs
    · exact h.treatWrite _ _ _
    · exact h
  · exact h

theorem loseWrite (h : s.WithinCapacity) (f : ForwardPoint) : (s.loseWrite f).WithinCapacity :=
  hand (leaveQueue (by exact h.congr rfl) _) _ _ _ fun _ hu => hu.congr rfl

theorem forwardedWriteAnswer (h : s.WithinCapacity) (a : Answer) : (s.forwardedWriteAnswer a).WithinCapacity := by
  unfold Chip.forwardedWriteAnswer
  split
  · exact h.answered _ fun _ _ hu => hu
  · split_ifs
    · split
      · exact h.answered _ fun _ u hu => leaveQueue (s := u.freeForward) (hu.congr rfl) _
      · exact h.answered _ fun _ _ hu => hu.loseWrite _
      · exact h
    · exact h.answered _ fun _ u hu => hu.congr (u.endOrdered_bounded _ _)

theorem configurePath (h : s.WithinCapacity) (l : Lane) : (s.configurePath l).WithinCapacity := by
  unfold Chip.configurePath
  split
  · exact h
  · split
    · exact finishJob (by exact h.congr rfl) _ _ _
    · exact h.finishJob _ _ _

/-! ## The control page -/

theorem mailboxFault (h : s.WithinCapacity) (l : Lane) : (s.mailboxFault l).WithinCapacity :=
  hand (by exact h.congr rfl) _ _ _ fun _ hu => hu.congr (Chip.nextDirect_bounded _)

theorem submit (h : s.WithinCapacity) : s.submit.WithinCapacity := by
  unfold Chip.submit
  split
  · exact h
  · rename_i l v ws _
    have hpop := h.congr (s.popWord_bounded ws)
    have hlane : ((s.popWord ws).lane l).queue = (s.lane l).queue := by
      unfold Chip.popWord
      split <;> rfl
    dsimp only
    split_ifs with _ hfull
    · exact hpop.mailboxFault l
    · exact hpop.congr (Chip.continueTake_bounded _)
    · exact (hpop.queueDescriptor (by rw [hlane]; exact not_le.1 hfull) _).congr (Chip.nextWords_bounded _)

theorem flush (h : s.WithinCapacity) : s.flush.WithinCapacity := by
  unfold Chip.flush
  split
  · exact h
  · rename_i l _ ws _
    have hset : ∀ r : LaneRec, r.queue = [] → ((s.popWord ws).setLane l r).WithinCapacity := fun r hr =>
      setLane (h.congr (s.popWord_bounded ws)) (by rw [hr]; exact Nat.zero_le 6)
    dsimp only
    refine congr ?_ (Chip.continueTake_bounded _)
    split_ifs
    · exact (hset _ rfl).congr rfl
    · exact (hset _ rfl).congr rfl

theorem noRequest (h : s.WithinCapacity) : s.noRequest.WithinCapacity := by
  unfold Chip.noRequest
  split
  · exact h
  · exact mailboxFault (h.congr (s.popWord_bounded _)) _

theorem consumeWord (h : s.WithinCapacity) : s.consumeWord.WithinCapacity := by
  unfold Chip.consumeWord
  split
  · rename_i ws _
    have hpop := h.congr (s.popWord_bounded ws)
    dsimp only
    split_ifs
    · exact hpop.congr (Chip.nextWords_bounded _)
    · exact hpop.congr (Chip.nextWords_bounded _)
    · split
      · exact hand (by exact hpop.congr rfl) _ _ _ fun u hu => hu.congr u.nextWords_bounded
      · exact h
  · exact h

/-! ## The lanes and the region jobs -/

theorem fetchAnswered (h : s.WithinCapacity) (l : Lane) (a : FinalAnswer) : (s.fetchAnswered l a).WithinCapacity := by
  unfold Chip.fetchAnswered
  split
  · exact h
  · split
    · exact h.handEnd l _
    · dsimp only
      have hset : ∀ c, (s.setLane l { s.lane l with current := c }).WithinCapacity := fun c => h.congr (Chip.setLane_bounded rfl)
      split_ifs
      · exact (hset _).congr (Chip.dispatch_bounded _ _ _)
      · exact (hset _).handEnd l _

theorem fetchOwnerAnswered (h : s.WithinCapacity) (o : Owner) (a : FinalAnswer) : (s.fetchOwnerAnswered o a).WithinCapacity := by
  unfold Chip.fetchOwnerAnswered
  split
  · exact h.fetchAnswered _ _
  · exact h

theorem outcomeAnswered (h : s.WithinCapacity) (l : Lane) (a : FinalAnswer) : (s.outcomeAnswered l a).WithinCapacity := by
  unfold Chip.outcomeAnswered
  split
  · split
    · exact h.handEnd l _
    · split_ifs
      · exact h.hand _ _ _ fun _ hu => hu.decideChain l
      · exact h.decideChain l
      · exact h.hand _ _ _ fun _ hu => hu.decideChain l
  · exact h

theorem outcomeOwnerAnswered (h : s.WithinCapacity) (o : Owner) (a : FinalAnswer) :
    (s.outcomeOwnerAnswered o a).WithinCapacity := by
  unfold Chip.outcomeOwnerAnswered
  split
  · exact h.outcomeAnswered _ _
  · exact h

theorem directAnswered (h : s.WithinCapacity) (a : FinalAnswer) : (s.directAnswered a).WithinCapacity := by
  unfold Chip.directAnswered
  split
  · exact h.hand _ _ _ fun u hu => hu.congr u.nextDirect_bounded
  · exact h

theorem accessOver (h : s.WithinCapacity) (o : Owner) : (s.accessOver o).WithinCapacity := h.congr (s.accessOver_bounded o)

theorem refusedOver (h : s.WithinCapacity) : s.refusedOver.WithinCapacity := h.congr (Chip.presentLane_bounded _)

theorem outcomeWriteAnswer (h : s.WithinCapacity) (a : FinalAnswer) : (s.outcomeWriteAnswer a).WithinCapacity := by
  unfold Chip.outcomeWriteAnswer
  split_ifs
  · exact h.answered _ fun _ _ hu => (hu.accessOver _).outcomeOwnerAnswered _ _
  · split
    · split_ifs
      · exact (h.refusedOver.accessOver _).outcomeOwnerAnswered _ _
      · exact h
    · exact h.answered _ fun _ _ hu => hu

theorem directWriteAnswer (h : s.WithinCapacity) (a : FinalAnswer) : (s.directWriteAnswer a).WithinCapacity := by
  unfold Chip.directWriteAnswer
  split_ifs
  · exact h.answered _ fun _ _ hu => (hu.accessOver _).directAnswered _
  · split
    · split_ifs
      · exact (h.refusedOver.accessOver _).directAnswered _
      · exact h
    · exact h.answered _ fun _ _ hu => hu

theorem nullJob (h : s.WithinCapacity) (l : Lane) : (s.nullJob l).WithinCapacity := by
  unfold Chip.nullJob
  split
  · exact h.finishJob _ _ _
  · exact h

theorem regionJob (h : s.WithinCapacity) (l : Lane) (k : JobKind) (j : Descriptor → Region → JobOutcome × Region) :
    (s.regionJob l k j).WithinCapacity := by
  unfold Chip.regionJob
  split
  · exact h
  · split_ifs
    · exact h.congr (Chip.finishJob_bounded _ _ _ _)
    · exact h.finishJob _ _ _

/-! ## The Memory Port -/

theorem ownerFault (h : s.WithinCapacity) (r : PortRequest) : (s.ownerFault r).WithinCapacity := by
  unfold Chip.ownerFault
  cases r.owner with
  | startUp => exact h.endStartUp
  | status => exact h.congr rfl
  | forwardRead => exact h
  | forwardWrite _ =>
    dsimp only
    split
    · exact h.loseWrite _
    · exact h
  | capture => exact h.captureAnswered _
  | copyAhead => exact h.congr (s.aheadAnswered_bounded _)
  | laneFetch l => exact (h.accessOver _).fetchAnswered _ _
  | laneOutcome l => exact (h.accessOver _).outcomeAnswered _ _
  | laneDirect _ => exact (h.accessOver _).directAnswered _
  | attention => exact h.attentionAnswered _
  | void => exact h.voidAnswered _
  | scan => exact h.scanAnswered _
  | restore => exact h.restoreAnswered _
  | marker => exact h.markerAnswered _
  | report => exact h.reportAnswered _
  | frontier => exact h.congr (s.frontAnswered_bounded _)

theorem retryExhausted (h : s.WithinCapacity) : s.retryExhausted.WithinCapacity := by
  unfold Chip.retryExhausted
  split_ifs
  · exact h.answered _ fun r _ hu => hu.ownerFault r
  · exact h

/-! ## Every command -/

theorem after (h : s.WithinCapacity) (i : Instr) : (s.after i).WithinCapacity := by
  cases i with
  | pinReset _ => exact of_reset (Nat.zero_le 4) rfl rfl
  | resetPart => exact h.resetPart
  | softResetPortIdle => exact h.softResetPortIdle
  | startUp _ => exact h.answered _ fun _ _ hu => hu.endStartUp
  | statusWordWrite => exact h.statusWordWrite
  | hostAccessArrival a => exact h.hostAccess a
  | holdLimitExpiry => exact h.holdLimitExpiry
  | forwardRead => exact h.forwardRead
  | forwardWrite => exact h.forwardWrite
  | orderedReadAnswer _ => exact h.answered _ fun _ _ hu => hu.congr rfl
  | forwardedWriteAnswer a => exact h.forwardedWriteAnswer a
  | submit => exact h.submit
  | flush => exact h.flush
  | noRequest => exact h.noRequest
  | consumeWord => exact h.consumeWord
  | memoryPortGrant => exact h.congr s.grantPort_bounded
  | retryReissue => exact h.congr s.retryReissue_bounded
  | retryLimitExhausted => exact h.retryExhausted
  | configurePath l => exact h.configurePath l
  | defineRegion l => exact h.regionJob l _ _
  | startCapture l => exact h.regionJob l _ _
  | stopCapture l => exact h.regionJob l _ _
  | clearFault l => exact h.regionJob l _ _
  | deleteRegion l => exact h.regionJob l _ _
  | captureRequest => exact h.captureRequest
  | captureTransferAnswer a => exact h.answered _ fun _ _ hu => hu.captureAnswered a
  | stallTimerExpiry => exact h.stallTimerExpiry
  | attachLog => exact h.grantLog _ _ _ (acceptLog fun d _ hu => hu.attachAccept d)
  | voidingStart => exact h.voidingStart
  | voidWriteAnswer a => exact h.answered _ fun _ _ hu => hu.voidAnswered a
  | detachLog => exact h.grantLog _ _ _ (acceptLog fun d _ hu => hu.detachAccept d)
  | mark => exact h.grantLog _ _ _ (acceptLog fun _ _ hu => hu.congr rfl)
  | markAppend => exact h.markAppend
  | release => exact h.release
  | reportLog => exact h.grantLog _ _ _ fun _ _ _ hu => hu.issueReport _
  | reportWriteAnswer a => exact h.answered _ fun _ _ hu => hu.reportAnswered a
  | rollback => exact h.grantLog _ _ _ (acceptLog fun _ _ hu => hu.congr rfl)
  | rollbackDrainEnd => exact h.rollbackDrainEnd
  | restoreAccessAnswer a => exact h.answered _ fun _ _ hu => hu.restoreAnswered a
  | markerWriteAnswer a => exact h.answered _ fun _ _ hu => hu.markerAnswered a
  | adoptLog => exact h.grantLog _ _ _ (acceptLog fun d _ hu => hu.adoptAccept d)
  | selectPassStart => exact h.selectPassStart
  | scanReadAnswer a => exact h.answered _ fun _ _ hu => hu.scanAnswered a
  | copy => exact h.congr s.copyJob_bounded
  | frontierTransferAnswer a => exact h.answered _ fun _ u hu => hu.congr (u.frontAnswered_bounded a)
  | pacingWindowExpiry => exact h.congr s.windowExpiry_bounded
  | copyAheadRequest => exact h.congr s.copyAheadRequest_bounded
  | copyAheadTransferAnswer a => exact h.answered _ fun _ u hu => hu.congr (u.aheadAnswered_bounded a)
  | cancelCopy l => exact h.congr (s.cancelCopy_bounded l)
  | descriptorFetchAnswer a => exact h.answered _ fun _ _ hu => (hu.accessOver _).fetchOwnerAnswered _ a
  | null l => exact h.nullJob l
  | outcomeWriteAnswer a => exact h.outcomeWriteAnswer a
  | directOutcomeWriteAnswer a => exact h.directWriteAnswer a
  | configureAttention l => exact h.configureAttention l
  | attentionPosting => exact h.attentionPosting
  | attentionWriteAnswer a => exact h.answered _ fun _ _ hu => hu.attentionAnswered a
  | statusWordWriteAnswer _ => exact h.answered _ fun _ _ hu => hu.congr rfl

end Chip.WithinCapacity

/-- Settles O57: every command keeps the capacities, by cases of the command. -/
theorem withinCapacityKept : Obligations.WithinCapacityKept :=
  fun _ _ h ht => step_keeps (P := Chip.WithinCapacity) (fun i _ hs => hs.after i) h ht

end Sys2Proof.Machine

/-! PROOF. The values after a pin reset (O1, O3), the end of start-up (O5), and the status word of a report (O6). -/

namespace Sys2Proof.Machine
variable {s t : Chip}

/-! ## The blocks at their reset values -/

/-- The blocks that hold their reset values, as the statements list those. -/
theorem Chip.BlocksAtReset.of_atReset (hr : s.regions = Vector.replicate 16 Region.atReset) (hl : s.log = LogState.atReset)
    (hc : s.copy = CopyState.atReset) (hu : s.lanes = LaneUnit.atReset) (ha : s.attention = AttentionState.atReset) :
    s.BlocksAtReset := by
  have hregions : ∀ n : Fin 16, s.regions[n] = Region.atReset := fun n => by
    rw [hr]
    exact Vector.getElem_replicate _
  have hlanes : ∀ l, s.lane l = LaneRec.atReset := fun l => by
    rw [Chip.lane, hu]
    exact Vector.getElem_replicate _
  have hmap : ∀ k, s.copy.copied k = false := fun k => by
    rw [hc]
    exact BitVec.getLsbD_zero
  have hline : s.attnLine = false := by
    rw [Chip.attnLine, ha]
    rfl
  unfold Chip.BlocksAtReset
  rw [hl, hc, hu, ha]
  rw [hc] at hmap
  exact ⟨hregions, by simp [LogState.atReset], ⟨rfl, rfl, rfl, rfl, rfl, rfl, rfl, rfl, rfl, rfl, hmap, rfl, rfl⟩,
    ⟨hlanes, rfl, rfl, rfl, rfl⟩, rfl, rfl, rfl, rfl, rfl, rfl, rfl, rfl, rfl, rfl, hline⟩

/-- PAGE × 65,536 (R139). -/
theorem pageBase_eq (page : Half) : page.setWidth 32 <<< 16 = BitVec.ofNat 32 (page.toNat * 65536) := by
  apply BitVec.eq_of_toNat_eq
  rw [BitVec.toNat_shiftLeft, BitVec.toNat_setWidth, Nat.shiftLeft_eq, BitVec.toNat_ofNat]
  omega

theorem PathState.atPinReset_atReset (page : Half) :
    (PathState.atPinReset page).AtReset .pin (BitVec.ofNat 32 (page.toNat * 65536)) :=
  ⟨pageBase_eq page, rfl, rfl, rfl, rfl, rfl, rfl, rfl, rfl, rfl, rfl⟩

/-- A request for a status word's write, whatever its owner (R140, R141). -/
theorem isStatusWrite (o : Owner) (pageBase : Word) (st : PartStatus) (cause : ResetCause) :
    IsStatusWrite { owner := o, cls := .path, access := statusAccess pageBase (statusWord st cause), stale := false } o pageBase
      st.code cause.code :=
  ⟨rfl, rfl, rfl, rfl, rfl, rfl, rfl, rfl⟩

theorem Chip.pinReset_blocksAtReset (s : Chip) (page : Half) : (s.pinReset page).BlocksAtReset :=
  .of_atReset rfl rfl rfl rfl rfl

/-- Settles O3: the part after the command, block by block. -/
theorem pinReset : Obligations.PinReset := by
  intro page s
  refine ⟨s.chip.pinReset page, startUpRequest (BitVec.ofNat 32 (page.toNat * 65536)) .pin, rfl, s.chip.pinReset_blocksAtReset page,
    PathState.atPinReset_atReset page, rfl, rfl, ?_, isStatusWrite _ _ _ _⟩
  rw [← pageBase_eq]
  rfl

/-- Settles O1: the reset state is the part after a pin reset with the straps at 0. -/
theorem resetValues : Obligations.ResetValues :=
  ⟨rfl, .of_atReset rfl rfl rfl rfl rfl, PathState.atPinReset_atReset 0#16, rfl, startUpRequest 0#32 .pin, rfl, isStatusWrite _ _ _ _⟩

/-! ## START_UP (R140) -/

theorem Chip.endStartUp_of_starting {u : Upstream} (hu : s.path.upstream = some u) (hw : u.wait = .starting) :
    s.endStartUp = Chip.classify { s with path := { s.path with status := .ready } } u.access u.toPost := by
  unfold Chip.endStartUp
  rw [hu]
  exact if_pos hw

theorem Chip.endStartUp_of_none (h : ∀ u, s.path.upstream = some u → u.wait ≠ .starting) :
    s.endStartUp = { s with path := { s.path with status := .ready } } := by
  unfold Chip.endStartUp
  cases hu : s.path.upstream with
  | none => rfl
  | some u => exact if_neg (h u hu)

/-- Settles O5: the answer ends start-up, with an access that waits in STARTING and without one. -/
theorem startUpEnds : Obligations.StartUpEnds := by
  intro a s hflight
  refine ⟨s.chip.endTransaction.endStartUp, onChip_answered hflight (·.endStartUp), fun hno => ?_, fun u hu hw => ?_⟩
  · exact Chip.endStartUp_of_none (s := s.chip.endTransaction) hno
  · rw [Chip.endStartUp_of_starting (s := s.chip.endTransaction) hu hw]
    exact Chip.classify_classified _ _ _

/-! ## The status word of a report (R141) -/

theorem Chip.statusWordWrite_of_owed {st : PartStatus} {rest : List PartStatus} (h : s.path.statusOwed = st :: rest)
    (hb : s.path.statusBusy = false) :
    s.statusWordWrite = Chip.issueWrite { s with path := { s.path with statusOwed := rest, statusBusy := true } }
      { owner := .status, cls := .path, access := statusAccess s.path.pageBase (statusWord st s.path.cause), stale := false } := by
  unfold Chip.statusWordWrite
  rw [h]
  exact if_neg (by rw [hb]; exact Bool.false_ne_true)

/-- Settles O6: the write of the oldest report's word, and the end of that write. -/
theorem statusWord_written : Obligations.StatusWord := by
  refine ⟨fun s st rest b howed hbusy hst => ?_, fun a s hflight => onChip_answered hflight (·.endStatusWrite)⟩
  have hb : st.code = b := by rcases hst with ⟨rfl, rfl⟩ | ⟨rfl, rfl⟩ <;> rfl
  have hword : ∀ c, s.chip.path.cause = c → IsStatusWrite
      { owner := .status, cls := .path, access := statusAccess s.chip.path.pageBase (statusWord st s.chip.path.cause), stale := false }
      .status s.chip.path.pageBase b c.code := by
    rintro _ rfl
    rw [← hb]
    exact isStatusWrite _ _ _ _
  refine ⟨s.chip.statusWordWrite, _, rfl, hword .pin, hword .soft, ?_⟩
  rw [Chip.statusWordWrite_of_owed howed hbusy]
  exact ⟨Chip.issueWrite_issued_of (s := s.chip) (by exact rfl) (by exact rfl) _, Chip.issueWrite_rest _ _⟩

end Sys2Proof.Machine

/-! PROOF. The upstream accesses and the forward point: classification on arrival, the hold limit, the two ways to the forward point,
and memory's answers there (O7 to O12). -/

namespace Sys2Proof.Machine
variable {s : Chip} {u : Upstream} {f : ForwardPoint}

/-- A command that is one operation on the part goes to where the operation goes. -/
theorem onChip_eq {op : Chip → Chip} {c : State} {t : Chip} (h : op c.chip = t) : onChip op c = .next { c with chip := t } := by
  rw [onChip, h]

/-- Memory's answer ends the transaction, and the owner that awaits it acts. -/
theorem Chip.answered_owner {o : Owner} (h : s.InFlight o) (act : Chip → Chip) :
    s.answered (· == o) (fun _ t => act t) = act s.endTransaction := by
  obtain ⟨_, _, _, hanswered⟩ := Chip.answered_of_inFlight h (· == o) (beq_self_eq_true o) fun _ t => act t
  exact hanswered

/-! ## HOST_ACCESS_ARRIVAL (R123, R132) -/

/-- The part once an access has arrived: the hold-limit timer runs and no access is answered. -/
def Chip.holdTimed (s : Chip) : Chip :=
  { s with path := { s.path with
    holdTimer := if s.path.holdLimit = 0#16 then none else some s.path.holdLimit, response := none } }

/-- What an access meets in each part status, with the hold-limit timer running. -/
def Chip.meetStatus (s : Chip) (a : Access) : PartStatus → Chip
  | .starting => s.waitsIn a .starting false
  | .resetting => s.answeredWith .retry
  | .ready | .attentionFault => s.classify a false

theorem Chip.hostAccess_of_free (h : s.path.upstream = none) (a : Access) :
    s.hostAccess a = s.holdTimed.meetStatus a s.path.status := by
  unfold Chip.hostAccess
  rw [if_neg (by rw [h]; exact Bool.false_ne_true)]
  rfl

/-- Settles O7: by the part status that the access meets, and the stop for an access of neither shape. -/
theorem arrivalClassified : Obligations.ArrivalClassified := by
  refine ⟨fun a s hwf hfree => ⟨s.chip.hostAccess a, if_pos hwf, ?_⟩, fun a s hwf => if_neg (by rw [hwf]; exact Bool.false_ne_true)⟩
  have harrives := Chip.hostAccess_of_free hfree a
  rintro _ rfl
  refine ⟨fun hstarting => ?_, fun hresetting => ?_, fun hrunning => ?_⟩
  · rw [harrives, hstarting]
    rfl
  · rw [harrives, hresetting]
    rfl
  · have hclassify : s.chip.hostAccess a = s.chip.holdTimed.classify a false := by
      rcases hrunning with h | h <;> rw [harrives, h] <;> rfl
    rw [hclassify]
    exact Chip.classify_classified _ _ _

/-! ## HOLD_LIMIT_EXPIRY (R132) -/

theorem WaitState.limited_iff (w : WaitState) : w.limited = true ↔ w = .held ∨ w = .queueFull ∨ w = .orderedRead := by
  cases w <;> simp [WaitState.limited]

theorem Chip.holdLimitExpiry_of_forwarded {limit : Half} (ht : s.path.holdTimer = some limit) (hu : s.path.upstream = some u)
    (hw : u.wait = .orderedRead) (hf : s.path.forward = some f) (hread : f.access.write = false) :
    s.holdLimitExpiry = ((s.withdraw (· == .forwardRead)).freeForward).answeredWith .retry := by
  simp only [Chip.holdLimitExpiry, ht, hu, hw, hf, hread, WaitState.limited, if_true, Bool.false_eq_true, if_false]
  rfl

/-- An ORDERED READ that is not at the forward point, and a write that waits, only lose their place upstream. -/
theorem Chip.holdLimitExpiry_of_waiting {limit : Half} (ht : s.path.holdTimer = some limit) (hu : s.path.upstream = some u)
    (hlimited : u.wait.limited = true) (hf : u.wait = .orderedRead → ∀ f, s.path.forward = some f → f.access.write = true) :
    s.holdLimitExpiry = s.answeredWith .retry := by
  simp only [Chip.holdLimitExpiry, ht, hu, hlimited, if_true]
  split_ifs with hread
  · split
    · rw [if_pos (hf hread _ ‹_›)]
      rfl
    · rfl
  · rfl

/-- Settles O8: the read at the forward point, and every other access that the limit applies to. -/
theorem holdLimitExpiry : Obligations.HoldLimitExpiry := by
  refine fun s u limit ht hu hw => ⟨fun f hread hf hr => ?_, fun hf => ?_⟩
  · rintro _ rfl
    exact onChip_eq (Chip.holdLimitExpiry_of_forwarded ht hu hread hf hr)
  · exact onChip_eq (Chip.holdLimitExpiry_of_waiting ht hu ((WaitState.limited_iff _).mpr hw) hf)

/-! ## FORWARD_READ (R127) -/

theorem Chip.forwardRead_of_first (hf : s.path.forward = none) (hq : s.path.postQueue = []) (hu : s.path.upstream = some u)
    (hw : u.wait = .orderedRead) :
    s.forwardRead = if s.holdApplies u.access.addr then s.classifyHeld u.access false
      else Chip.request
        { s with path := { s.path with
          forward := some { access := u.access, accepted := u.accepted, posted := false, stage := .port, image := .absent, words := [] } } }
        { owner := .forwardRead, cls := .path, access := u.access, stale := false } := by
  unfold Chip.forwardRead
  split
  · rename_i u' _ _ hu'
    obtain rfl : u' = u := Option.some.inj (hu'.symm.trans hu)
    exact if_pos hw
  · rename_i hno
    exact absurd hu (hno u hf hq)

theorem Chip.classifyHeld_of_hold {a : Access} (h : s.holdApplies a.addr = true) (hr : s.path.restoreResponse = .hold) (b : Bool) :
    s.classifyHeld a b = s.waitsIn a .held b := by
  simp only [Chip.classifyHeld, h, hr, if_true]
  rfl

theorem Chip.classifyHeld_of_retry {a : Access} (h : s.holdApplies a.addr = true) (hr : s.path.restoreResponse = .retry) (b : Bool) :
    s.classifyHeld a b = s.answeredWith .retry := by
  simp only [Chip.classifyHeld, h, hr, if_true]
  rfl

/-- Settles O9: the lookup of the read's granule decides. -/
theorem forwardRead : Obligations.ForwardRead := by
  intro s u hf hq hu hw
  have hread := Chip.forwardRead_of_first hf hq hu hw
  refine ⟨fun hfree => ?_, fun hheld => ⟨fun hr => ?_, fun hr => ?_⟩⟩
  · exact onChip_eq (hread.trans (if_neg (by rw [hfree]; exact Bool.false_ne_true)))
  · exact onChip_eq ((hread.trans (if_pos hheld)).trans (Chip.classifyHeld_of_hold hheld hr false))
  · exact onChip_eq ((hread.trans (if_pos hheld)).trans (Chip.classifyHeld_of_retry hheld hr false))

/-! ## FORWARD_WRITE (R126, R128) -/

variable {a : Access} {n : Nat} {posted : Bool}

theorem Chip.forwardWrite_of_oldest (hf : s.path.forward = none) (h : s.OldestWrite a n posted) :
    s.forwardWrite = s.treatWrite a n posted := by
  rcases h with ⟨rfl, e, es, hq, rfl, rfl⟩ | ⟨rfl, hq, u, hu, hw, rfl, rfl⟩
  · simp only [Chip.forwardWrite, hf, hq]
  · simp only [Chip.forwardWrite, hf, hq, hu, hw, if_true]

theorem Chip.barred_iff : s.barred n = true ↔ ∃ b, s.path.barrier = some b ∧ b ≤ n := by
  unfold Chip.barred
  split
  · rename_i b hb
    simp [hb]
  · rename_i hb
    simp [hb]

/-- The part with the write at the forward point. -/
def Chip.writeAt (s : Chip) (a : Access) (n : Nat) (posted : Bool) (st : ForwardStage) : Chip :=
  { s with path := { s.path with
    forward := some { access := a, accepted := n, posted := posted, stage := st, image := .absent, words := [] } } }

theorem Chip.treatWrite_of_barred (h : s.barred n = true) : s.treatWrite a n posted = s := if_pos h

theorem Chip.treatWrite_of_captured (h : s.barred n = false) {k : Nat} {r : Region} (hl : s.lookup a.addr = some (k, r))
    (hc : s.captureApplies r = true) :
    s.treatWrite a n posted = (s.writeAt a n posted .capture).requestCapture .host (granuleOf a.addr) k .path := by
  simp only [Chip.treatWrite, h, hl, hc, if_true, Bool.false_eq_true, if_false]
  rfl

theorem Chip.treatWrite_of_plain (h : s.barred n = false)
    (hl : ∀ k r, s.lookup a.addr = some (k, r) → s.captureApplies r = false) :
    s.treatWrite a n posted = (s.writeAt a n posted .port).issueWrite
      { owner := .forwardWrite posted, cls := .path, access := a, stale := false } := by
  simp only [Chip.treatWrite, h, Bool.false_eq_true, if_false]
  split
  · rename_i k r hk
    rw [if_neg (by rw [hl k r hk]; exact Bool.false_ne_true)]
    rfl
  · rfl

/-- Settles O10: the barrier, then the lookup of the write's granule. -/
theorem forwardWrite : Obligations.ForwardWrite := by
  intro s a n posted hf hold
  have htreat := Chip.forwardWrite_of_oldest hf hold
  refine ⟨fun hbar => ?_, fun hpass => ⟨s.chip.forwardWrite, rfl, ?_⟩⟩
  · exact onChip_eq (htreat.trans (Chip.treatWrite_of_barred (Chip.barred_iff.mpr hbar)))
  · have hbar : s.chip.barred n = false := by
      rw [Bool.eq_false_iff, Ne, Chip.barred_iff]
      rintro ⟨b, hb, hle⟩
      exact absurd hle (Nat.not_le.mpr (hpass b hb))
    rintro _ rfl
    refine ⟨fun k r hl hc => ?_, fun hl => ?_⟩
    · rw [htreat, Chip.treatWrite_of_captured hbar hl hc]
      rfl
    · rw [htreat, Chip.treatWrite_of_plain hbar hl]
      exact ⟨Chip.issueWrite_rest _ _, Chip.issueWrite_issued _ _⟩

/-! ## FORWARDED_WRITE_ANSWER for a posted write (R129) -/

theorem Chip.forwardedWriteAnswer_of_done (hf : s.path.forward = some f) (hp : f.posted = true) (d : Line) :
    s.forwardedWriteAnswer (.done d) = s.answered (· == .forwardWrite true) fun _ t => t.freeForward.leaveQueue f.accepted := by
  simp only [Chip.forwardedWriteAnswer, hf, hp, if_true]

theorem Chip.forwardedWriteAnswer_of_fault (hf : s.path.forward = some f) (hp : f.posted = true) :
    s.forwardedWriteAnswer .fault = s.answered (· == .forwardWrite true) fun _ t => t.loseWrite f := by
  simp only [Chip.forwardedWriteAnswer, hf, hp, if_true]

theorem Chip.forwardedWriteAnswer_of_ordered (hf : s.path.forward = some f) (hp : f.posted = false) (a : Answer) :
    s.forwardedWriteAnswer a = s.answered (· == .forwardWrite false) fun _ t => t.endOrdered f a := by
  simp only [Chip.forwardedWriteAnswer, hf, hp, Bool.false_eq_true, if_false]

/-- The record handed for a posted write whose answer is FAULT (Table 9-2). -/
def writeLostRecord (f : ForwardPoint) : AttnRecord :=
  { kind := .writeLost, lane := 0xFF#8, outcome := 0#16, tag := 0#32, subject := f.access.addr }

/-- The part when a posted write's FAULT has taken its entry out of the post queue, before the record is handed. -/
def Chip.writeLosing (s : Chip) (f : ForwardPoint) : Chip :=
  Chip.leaveQueue { s with path := { s.path with forward := some { f with stage := .handing } } } f.accepted

theorem Chip.loseWrite_eq (s : Chip) (f : ForwardPoint) :
    s.loseWrite f = (s.writeLosing f).hand .path (writeLostRecord f) .pathFree Chip.freeForward := rfl

theorem Chip.writeLosing_attention (s : Chip) (f : ForwardPoint) : (s.writeLosing f).attention = s.attention := by
  unfold Chip.writeLosing Chip.leaveQueue
  rw [Chip.serveQueueFull_rest]

/-- Settles O11: DONE frees the forward point, and FAULT hands WRITE LOST over. -/
theorem postedWriteAnswer : Obligations.PostedWriteAnswer := by
  intro s f hflight hf hp
  rintro _ rfl
  refine ⟨fun d => ⟨s.chip.endTransaction.freeForward.leaveQueue f.accepted, ?_, Chip.serveQueueFull_served _⟩,
    s.chip.endTransaction.writeLosing f, s.chip.endTransaction.loseWrite f, ?_, Chip.serveQueueFull_served _, ?_⟩
  · exact onChip_eq (op := (·.forwardedWriteAnswer (.done d))) ((Chip.forwardedWriteAnswer_of_done hf hp d).trans
      (Chip.answered_owner hflight fun t => t.freeForward.leaveQueue f.accepted))
  · exact onChip_eq (op := (·.forwardedWriteAnswer .fault)) ((Chip.forwardedWriteAnswer_of_fault hf hp).trans
      (Chip.answered_owner hflight fun t => t.loseWrite f))
  · have hattn := s.chip.endTransaction.writeLosing_attention f
    rintro _ rfl
    rw [Chip.loseWrite_eq]
    refine ⟨fun hc => ?_, fun hc => ⟨fun hr => ?_, fun hr => ?_⟩⟩
    · exact Chip.hand_of_unconfigured (by rw [hattn]; exact hc) _ _ _ _
    · exact Chip.hand_of_room (by rw [hattn]; exact hc) (by rw [hattn]; exact hr) _ _ _
    · exact Chip.hand_of_taken (by rw [hattn]; exact hc) (by rw [hattn]; exact hr) _ _ _

/-! ## The answers to the ORDERED accesses (R127, R129, R130) -/

theorem Chip.endOrdered_of_page (h : s.onPage f.access.addr = true) (d : Line) :
    s.endOrdered f (.done d) = s.examineWords f (pageWords s.path.pageBase f.access) := if_pos h

theorem Chip.endOrdered_of_memory (h : s.onPage f.access.addr = false) (d : Line) :
    s.endOrdered f (.done d) = s.endOrderedWrite .done := if_neg (by rw [h]; exact Bool.false_ne_true)

/-- Settles O12: the read's three answers, and the write's, on the control page and off it. -/
theorem orderedAnswers : Obligations.OrderedAnswers := by
  constructor
  · intro s hflight
    rintro _ rfl
    have hread : ∀ a, exec (.orderedReadAnswer a) s =
        .next { s with chip := s.chip.endTransaction.freeForward.answerUpstream (readResponse a) } := fun a =>
      onChip_eq (op := (·.orderedReadAnswer a)) (Chip.answered_owner hflight fun t => t.freeForward.answerUpstream (readResponse a))
    exact ⟨fun d => hread (.done d), hread .fault, hread .retry⟩
  · intro s f hflight hf hp
    rintro _ rfl ended hended
    have hwrite : ∀ a, exec (.forwardedWriteAnswer a) s = .next { s with chip := s.chip.endTransaction.endOrdered f a } := fun a =>
      onChip_eq (op := (·.forwardedWriteAnswer a)) ((Chip.forwardedWriteAnswer_of_ordered hf hp a).trans
        (Chip.answered_owner hflight fun t => t.endOrdered f a))
    have hends : ∀ a r, s.chip.endTransaction.endOrdered f a = s.chip.endTransaction.endOrderedWrite r →
        exec (.forwardedWriteAnswer a) s = .next { s with chip := ended r } := by
      intro a r hend
      rw [hwrite, hend, hended, Chip.endOrderedWrite_eq (s := s.chip.endTransaction) (f := f) hf rfl]
      rfl
    refine ⟨hends .fault .fault rfl, hends .retry .retry rfl, fun d hmemory => hends (.done d) .done ?_,
      fun d hpage => ⟨_, hwrite (.done d), ?_⟩⟩
    · exact Chip.endOrdered_of_memory (s := s.chip.endTransaction) hmemory d
    · rw [Chip.endOrdered_of_page (s := s.chip.endTransaction) hpage]
      exact Chip.examineWords_examined (s := s.chip.endTransaction) hf rfl _

end Sys2Proof.Machine

/-! PROOF. The path settings (O13). -/

namespace Sys2Proof.Machine
variable {s : Chip}

/-- The words below 4 are those whose bits 31 to 2 are 0 (R176). -/
theorem upperBits_eq_zero_iff (a : Word) : a &&& 0xFFFFFFFC#32 = 0#32 ↔ a.toNat < 4 := by
  have hlow : (a &&& 3#32).toNat = a.toNat % 4 := by
    rw [BitVec.toNat_and]
    exact Nat.and_two_pow_sub_one_eq_mod a.toNat 2
  have hsplit : a = (a &&& 0xFFFFFFFC#32) ||| (a &&& 3#32) := by
    rw [← BitVec.and_or_distrib_left]
    exact (BitVec.and_allOnes (x := a)).symm
  constructor
  · intro h
    rw [h, BitVec.zero_or] at hsplit
    rw [hsplit, hlow]
    exact Nat.mod_lt _ (by decide)
  · intro h
    have hsmall : a &&& 3#32 = a := BitVec.eq_of_toNat_eq (hlow.trans (Nat.mod_eq_of_lt h))
    rw [← hsmall, BitVec.and_assoc]
    exact BitVec.and_zero

theorem pathSettings_of_lt {a : Word} (h : a.toNat < 4) :
    pathSettings a = some (a.getLsbD 0, if a.getLsbD 1 then .retry else .hold) := if_pos ((upperBits_eq_zero_iff a).mpr h)

theorem pathSettings_of_le {a : Word} (h : 4 ≤ a.toNat) : pathSettings a = none :=
  if_neg ((upperBits_eq_zero_iff a).not.mpr (Nat.not_lt.mpr h))

theorem holdLimitOf_of_le {b : Word} (h : b.toNat ≤ 65535) : holdLimitOf b = some (BitVec.ofNat 16 b.toNat) := by
  unfold holdLimitOf
  rw [if_pos h, BitVec.ofNat_toNat]

theorem holdLimitOf_of_lt {b : Word} (h : 65535 < b.toNat) : holdLimitOf b = none := if_neg (Nat.not_le.mpr h)

/-- The part with the path settings of a CONFIGURE PATH (R138). -/
def Chip.pathSet (s : Chip) (d : Descriptor) : Chip :=
  { s with path := { s.path with
    post := d.a.getLsbD 0, restoreResponse := if d.a.getLsbD 1 then .retry else .hold, holdLimit := BitVec.ofNat 16 d.b.toNat } }

section
variable {l : Lane} {addr : Word} {d : Descriptor}

theorem Chip.configurePath_of_accepted (h : s.HasJob l .run addr d) (hk : d.code = 1#8) (ha : d.a.toNat < 4)
    (hb : d.b.toNat ≤ 65535) : s.configurePath l = (s.pathSet d).finishJob l .done 0#32 := by
  unfold Chip.configurePath
  rw [h.jobIn (k := .configurePath) (by rw [hk]; rfl)]
  dsimp only
  rw [pathSettings_of_lt ha, holdLimitOf_of_le hb]
  rfl

theorem Chip.configurePath_of_refused (h : s.HasJob l .run addr d) (hk : d.code = 1#8)
    (hbad : 4 ≤ d.a.toNat ∨ 65535 < d.b.toNat) : s.configurePath l = s.finishJob l .badOperand 0#32 := by
  unfold Chip.configurePath
  rw [h.jobIn (k := .configurePath) (by rw [hk]; rfl)]
  dsimp only
  rcases hbad with ha | hb
  · rw [pathSettings_of_le ha]
  · rw [holdLimitOf_of_lt hb]
    cases pathSettings d.a <;> rfl

end

/-- Settles O13: the two operands accepted, and one of them refused. -/
theorem configurePath : Obligations.ConfigurePath := by
  intro s l addr d hjob hcode
  obtain ⟨_, hcurrent⟩ := id hjob
  obtain ⟨hends, hbeside, hregions, hlog⟩ := (s.chip.pathSet d).finishJob_spec .done 0#32 hcurrent
  obtain ⟨hends', hbeside', hregions', hlog'⟩ := s.chip.finishJob_spec .badOperand 0#32 hcurrent
  refine ⟨s.chip.configurePath l, rfl, fun ha hb => ?_, fun hbad => ?_, ?_⟩
  · rw [Chip.configurePath_of_accepted hjob hcode ha hb]
    exact ⟨hends, hbeside⟩
  · rw [Chip.configurePath_of_refused hjob hcode hbad]
    exact ⟨hends', hbeside'⟩
  · by_cases hok : d.a.toNat < 4 ∧ d.b.toNat ≤ 65535
    · obtain ⟨ha, hb⟩ := hok
      rw [Chip.configurePath_of_accepted hjob hcode ha hb]
      exact ⟨hregions, hlog⟩
    · rw [Chip.configurePath_of_refused hjob hcode (by omega)]
      exact ⟨hregions', hlog'⟩

end Sys2Proof.Machine

/-! PROOF. The retry rule of the Memory Port (O19). A RETRY at the limit is the FAULT that the owner's own answer command brings
(`Owner.exec_finalAnswer_fault`), so the two commands are compared owner by owner. -/

namespace Sys2Proof.Machine
variable {s : Chip} {r : PortRequest}

/-! ## Answers by the transaction in flight -/

section
variable {p : Owner → Bool} {act : PortRequest → Chip → Chip}

theorem Chip.answered_awaited (hi : s.arbiter.inFlight = some r) (hst : r.stale = false) (hp : p r.owner = true) :
    s.answered p act = act r s.endTransaction := by
  simp only [Chip.answered, hi, hp, hst, if_true, Bool.false_eq_true, if_false]

theorem Chip.answered_stale (hi : s.arbiter.inFlight = some r) (hst : r.stale = true) (hp : p r.owner = true) :
    s.answered p act = s.endTransaction := by
  simp only [Chip.answered, hi, hp, hst, if_true]

theorem Chip.answered_other (hi : s.arbiter.inFlight = some r) (hp : p r.owner = false) : s.answered p act = s := by
  simp only [Chip.answered, hi, hp, Bool.false_eq_true, if_false]

theorem Chip.issued_awaited (hi : s.arbiter.inFlight = some r) (hst : r.stale = false) (hp : p r.owner = true) :
    s.issued p = true := by
  simp only [Chip.issued, hi, hp, hst, Bool.not_false, Bool.and_self]

end

/-! ## The owners (R133) -/

/-- The arbiter re-issues the accesses of just the owners that have a command for memory's final answer. -/
theorem Owner.retried_eq (o : Owner) : o.retried = (o.finalAnswer .fault).isSome := by
  cases o with
  | forwardWrite posted => cases posted <;> rfl
  | _ => rfl

theorem Chip.outcomeWriteAnswer_awaited (hi : s.arbiter.inFlight = some r) (hst : r.stale = false) {l : Lane}
    (ho : r.owner = .laneOutcome l) (a : FinalAnswer) :
    s.outcomeWriteAnswer a = (s.endTransaction.accessOver r.owner).outcomeAnswered l a := by
  have hp : r.owner.isOutcome = true := by rw [ho]; rfl
  unfold Chip.outcomeWriteAnswer
  rw [if_pos (Chip.issued_awaited hi hst hp), Chip.answered_awaited hi hst hp, ho]
  rfl

theorem Chip.directWriteAnswer_awaited (hi : s.arbiter.inFlight = some r) (hst : r.stale = false) {l : Lane}
    (ho : r.owner = .laneDirect l) (a : FinalAnswer) :
    s.directWriteAnswer a = (s.endTransaction.accessOver r.owner).directAnswered a := by
  have hp : r.owner.isDirect = true := by rw [ho]; rfl
  unfold Chip.directWriteAnswer
  rw [if_pos (Chip.issued_awaited hi hst hp), Chip.answered_awaited hi hst hp]

/-- A posted write's FAULT (R129); with no access at the forward point the transaction only ends. -/
theorem Chip.forwardedWriteAnswer_awaited (hi : s.arbiter.inFlight = some r) (hst : r.stale = false) (ho : r.owner = .forwardWrite true)
    (hf : ∀ f, s.path.forward = some f → f.posted = true) : s.forwardedWriteAnswer .fault = s.endTransaction.ownerFault r := by
  have hp : (r.owner == .forwardWrite true) = true := by rw [ho]; rfl
  unfold Chip.ownerFault
  rw [ho]
  dsimp only
  cases hforward : s.path.forward with
  | none =>
    have hend : s.endTransaction.path.forward = none := hforward
    rw [hend]
    simp only [Chip.forwardedWriteAnswer, hforward]
    exact Chip.answered_awaited hi hst (by rw [hp]; rfl)
  | some f =>
    have hend : s.endTransaction.path.forward = some f := hforward
    rw [hend, Chip.forwardedWriteAnswer_of_fault hforward (hf f hforward)]
    exact Chip.answered_awaited hi hst hp

/-- The command that brings an owner memory's FAULT does what the owner does at the retry limit. -/
theorem Owner.exec_finalAnswer_fault {c : State} {i : Instr} (hi : c.chip.arbiter.inFlight = some r) (hst : r.stale = false)
    (hc : r.owner.finalAnswer .fault = some i)
    (hf : ∀ f, r.owner = .forwardWrite true → c.chip.path.forward = some f → f.posted = true) :
    exec i c = .next { c with chip := c.chip.endTransaction.ownerFault r } := by
  obtain ⟨o, cls, access, stale⟩ := r
  cases o with
  | forwardRead => cases hc
  | forwardWrite posted =>
    cases posted with
    | false => cases hc
    | true =>
      cases hc
      exact onChip_eq (op := (·.forwardedWriteAnswer .fault)) (Chip.forwardedWriteAnswer_awaited hi hst rfl fun f => hf f rfl)
  | laneOutcome l =>
    cases hc
    exact onChip_eq (op := (·.outcomeWriteAnswer .fault)) (Chip.outcomeWriteAnswer_awaited hi hst rfl _)
  | laneDirect l =>
    cases hc
    exact onChip_eq (op := (·.directWriteAnswer .fault)) (Chip.directWriteAnswer_awaited hi hst rfl _)
  | _ =>
    cases hc
    refine onChip_eq (op := fun t => t.answered _ _) ?_
    exact Chip.answered_awaited hi hst rfl

/-! ## The two commands of the arbiter -/

theorem Chip.retryReissue_of_retried (hi : s.arbiter.inFlight = some r) (ho : r.owner.retried = true) :
    s.retryReissue = if s.path.status = .resetting then s.endTransaction
      else if s.arbiter.retryCount < 16 then { s with arbiter := { s.arbiter with retryCount := s.arbiter.retryCount + 1 } }
      else s := by
  unfold Chip.retryReissue
  split
  · rename_i hnone
    cases hnone.symm.trans hi
  · rename_i r' hr'
    obtain rfl : r' = r := Option.some.inj (hr'.symm.trans hi)
    rw [if_neg (by rw [ho]; exact Bool.false_ne_true)]
    rfl

theorem Chip.retryReissue_of_other (hi : s.arbiter.inFlight = some r) (ho : r.owner.retried = false) : s.retryReissue = s := by
  unfold Chip.retryReissue
  split
  · rfl
  · rename_i r' hr'
    obtain rfl : r' = r := Option.some.inj (hr'.symm.trans hi)
    exact if_pos (by rw [ho]; rfl)

theorem Chip.retryExhausted_of_limit (h : s.arbiter.retryCount = 16) :
    s.retryExhausted = s.answered Owner.retried fun r t => t.ownerFault r := if_pos h

theorem Chip.retryExhausted_of_other (hi : s.arbiter.inFlight = some r) (ho : r.owner.retried = false) : s.retryExhausted = s := by
  unfold Chip.retryExhausted
  rw [Chip.answered_other hi ho, ite_self]

/-- Settles O19: the RETRY that is re-issued, the one at the limit, and the one that is not the arbiter's. -/
theorem retryRule : Obligations.RetryRule := by
  intro s r hi
  refine ⟨fun c hc => ?_, fun hnone => ?_⟩
  · have ho : r.owner.retried = true := by rw [Owner.retried_eq, hc]; rfl
    have hreissue := Chip.retryReissue_of_retried hi ho
    refine ⟨fun hreset => ?_, fun hrunning hcount => ?_, fun hlimit => ⟨fun hst => ?_, fun hst hf => ?_⟩⟩
    · exact onChip_eq (hreissue.trans (if_pos hreset))
    · exact onChip_eq (hreissue.trans ((if_neg hrunning).trans (if_pos hcount)))
    · exact onChip_eq ((Chip.retryExhausted_of_limit hlimit).trans (Chip.answered_stale hi hst ho))
    · exact ⟨_, onChip_eq ((Chip.retryExhausted_of_limit hlimit).trans (Chip.answered_awaited hi hst ho)),
        Owner.exec_finalAnswer_fault hi hst hc hf⟩
  · have ho : r.owner.retried = false := by rw [Owner.retried_eq, hnone]; rfl
    exact ⟨onChip_eq (Chip.retryReissue_of_other hi ho), onChip_eq (Chip.retryExhausted_of_other hi ho)⟩

end Sys2Proof.Machine

/-! PROOF. What the lanes' commands share (O14 to O16, O48 to O51): a lane's new value, a handing with what follows it, the chain
(R156), and the take of a submit word (R148, R159). -/

namespace Sys2Proof.Machine
variable {s t : Chip} {l : Lane} {r q : LaneRec}

/-! ## A lane's new value -/

theorem Chip.setLane_laneSet (s : Chip) (l : Lane) (r : LaneRec) : LaneSet s (s.setLane l r) l r :=
  ⟨s.lane_setLane_self l r, fun _ hm => s.lane_setLane_of_ne r hm⟩

/-- The last of two values that a lane takes stays. -/
theorem LaneSet.trans {u : Chip} (h : LaneSet s t l q) (k : LaneSet t u l r) : LaneSet s u l r :=
  ⟨k.1, fun m hm => (k.2 m hm).trans (h.2 m hm)⟩

/-- A lane that takes a value and whose further change leaves the lanes alone. -/
theorem LaneSet.of_setLane (h : ∀ m, t.lane m = (s.setLane l r).lane m) : LaneSet s t l r :=
  ⟨(h l).trans (s.lane_setLane_self l r), fun m hm => (h m).trans (s.lane_setLane_of_ne r hm)⟩

/-! ## Handings (R169) -/

/-- A handing leaves what its source does next to do, from the part as it is or with the record listed. -/
theorem Chip.hand_handed {src : Source} {record : AttnRecord} {k : AfterHand} {act : Chip → Chip} {next : Chip → Chip → Prop}
    (hdropped : next s (act s)) (hlisted : next (s.withPost src record) (act (s.withPost src record))) :
    Handed s (s.hand src record k act) src record k next := by
  refine ⟨fun hc => ?_, fun hc hr => ?_, fun hc hr => Chip.hand_of_taken hc hr _ _ _⟩
  · rw [Chip.hand_of_unconfigured hc]
    exact hdropped
  · rw [Chip.hand_of_room hc hr]
    exact hlisted

/-! ## The chain (R145, R156) -/

theorem Chip.endChain_ends (s : Chip) (l : Lane) : ChainEnds l s (s.endChain l) := by
  obtain ⟨hbeside, hregions, hlog⟩ := s.endChain_beside l
  refine ⟨hbeside, hregions, hlog, fun hempty => ?_, fun a rest hentry => Chip.endChain_of_entry hentry⟩
  rw [Chip.endChain_of_empty hempty]
  exact ⟨s.setLane_laneSet l _, s.setLane_waiting l _⟩

theorem Chip.hand_endChain_handed (s : Chip) (l : Lane) (record : AttnRecord) :
    Handed s (s.hand (.lane l) record (.laneEnd l) (·.endChain l)) (.lane l) record (.laneEnd l) (ChainEnds l) :=
  Chip.hand_handed (s.endChain_ends l) (Chip.endChain_ends _ l)

/-- A NEXT may be followed when it is a multiple of 32 (R156, R179). -/
theorem nextAligned_iff (next : Word) : nextAligned next = true ↔ next.toNat % 32 = 0 := by
  have hlow : (next &&& 31#32).toNat = next.toNat % 32 := by
    rw [BitVec.toNat_and]
    exact Nat.and_two_pow_sub_one_eq_mod next.toNat 5
  rw [nextAligned, beq_iff_eq, ← BitVec.toNat_inj, hlow]
  rfl

theorem Chip.followNext_of_aligned {next : Word} (h : next.toNat % 32 = 0) (s : Chip) (l : Lane) :
    s.followNext l next = s.enterFetch l next := if_pos ((nextAligned_iff next).mpr h)

theorem Chip.followNext_of_unaligned {next : Word} (h : next.toNat % 32 ≠ 0) (s : Chip) (l : Lane) :
    s.followNext l next = s.hand (.lane l) (recordOf .descriptorFault l 0#16 0#32 next) (.laneEnd l) (·.endChain l) :=
  if_neg ((nextAligned_iff next).not.mpr h)

section
variable {addr : Word} {d : Descriptor} {o : JobOutcome} {result : Word}

/-- The four ways of the chain decision, with the two that cut the chain as one. -/
theorem Chip.decideChain_of_job
    (hc : (s.lane l).current = some { addr := addr, desc := some d, outcome := some o, result := result }) :
    (d.next = 0#32 → s.decideChain l = s.endChain l) ∧
    (d.next ≠ 0#32 → (s.lane l).cutPending = true ∨ (o ≠ .done ∧ d.flags.getLsbD 1 = false) →
      s.decideChain l = s.cutChain l o d) ∧
    (d.next ≠ 0#32 → ¬((s.lane l).cutPending = true ∨ (o ≠ .done ∧ d.flags.getLsbD 1 = false)) →
      s.decideChain l = s.followNext l d.next) := by
  have hdecide : s.decideChain l = if d.next = 0#32 then s.endChain l
      else if (s.lane l).cutPending then s.cutChain l o d
      else if o = .done ∨ d.continues = true then s.followNext l d.next else s.cutChain l o d := by
    unfold Chip.decideChain
    rw [hc]
  have hcontinues : d.continues = d.flags.getLsbD 1 := rfl
  rw [hdecide, hcontinues]
  refine ⟨fun hz => if_pos hz, fun hn hcut => ?_, fun hn hcut => ?_⟩
  · rw [if_neg hn]
    rcases hcut with hpending | ⟨hfailed, hstops⟩
    · exact if_pos hpending
    · rw [if_neg (not_or.mpr ⟨hfailed, hstops ▸ Bool.false_ne_true⟩), ite_self]
  · obtain ⟨hpending, hgoes⟩ := not_or.mp hcut
    rw [if_neg hn, if_neg hpending]
    refine if_pos ?_
    by_cases hdone : o = .done
    · exact .inl hdone
    · exact .inr (Bool.eq_true_of_not_eq_false fun hstops => hgoes ⟨hdone, hstops⟩)

theorem Chip.decideChain_decided
    (hc : (s.lane l).current = some { addr := addr, desc := some d, outcome := some o, result := result }) :
    ChainDecided l d o s (s.decideChain l) := by
  obtain ⟨hends, hcuts, hfollows⟩ := Chip.decideChain_of_job hc
  rintro _ rfl
  refine ⟨fun hz => ?_, fun hn hcut => ?_, fun hn hcut => ⟨fun haligned => ?_, fun hunaligned => ?_⟩⟩
  · rw [hends hz]
    exact s.endChain_ends l
  · rw [hcuts hn hcut]
    exact s.hand_endChain_handed l _
  · rw [hfollows hn hcut, Chip.followNext_of_aligned haligned]
    exact s.enterFetch_spec l d.next
  · rw [hfollows hn hcut, Chip.followNext_of_unaligned hunaligned]
    exact s.hand_endChain_handed l _

end

/-! ## The take of a submit word (R148, R159) -/

/-- The part with no take in progress. -/
def Chip.takeDone (s : Chip) : Chip := { s with lanes := { s.lanes with take := none } }

/-- The part at the end of a take, before the words that follow: a withdrawn job of lane `l` has entered FINISH (R159). -/
def Chip.takeEnded (s : Chip) (l : Lane) (finish : Bool) : Chip :=
  if finish then s.takeDone.finishJob l .cancelled 0#32 else s.takeDone

theorem Chip.takeEnded_beside (s : Chip) (l : Lane) (finish : Bool) :
    SameBesideHandBack s.takeDone (s.takeEnded l finish) ∧ (s.takeEnded l finish).regions = s.regions ∧
      (s.takeEnded l finish).log = s.log := by
  cases finish with
  | false => exact ⟨.refl _, rfl, rfl⟩
  | true => exact s.takeDone.finishJob_beside l .cancelled 0#32

theorem Chip.takeEnded_handsBack {addr : Word} {d : Descriptor} {st : LaneStatus} (h : s.HasJob l st addr d) :
    HandsBack s (s.takeEnded l true) l addr d .cancelled 0#32 := (s.takeDone.finishJob_spec .cancelled 0#32 h.2).1

section
variable {o : JobOutcome} {a : Word} {rest : List Word} {finish : Bool}

theorem Chip.continueTake_of_ended
    (h : s.lanes.take = some { lane := l, outcome := o, owed := [], finishAfter := finish }) :
    s.continueTake = (s.takeEnded l finish).nextWords := by
  unfold Chip.continueTake
  rw [h]
  rfl

/-- The next owed write joins the accesses that wait, and the take goes on. -/
theorem Chip.continueTake_of_owed
    (h : s.lanes.take = some { lane := l, outcome := o, owed := a :: rest, finishAfter := finish }) :
    let t := s.continueTake
    t.lanes.take = s.lanes.take ∧ (∀ m, t.lane m = s.lane m) ∧ SameBeyondLanes s t ∧ t.path = s.path ∧
      t.attention = s.attention ∧
      AccessMade s t { owner := .laneDirect l, cls := .lane, access := directAccess a o, stale := false } := by
  have hwrite : s.continueTake = s.makeLaneAccess (.laneDirect l) (directAccess a o) := by
    unfold Chip.continueTake
    rw [h]
  rw [hwrite]
  obtain ⟨hbeside, hregions, hlog, hlanes, hmade⟩ := s.makeLaneAccess_spec (.laneDirect l) (directAccess a o)
  have hbeyond := hbeside.beyond hregions hlog
  obtain ⟨hpath, hattention, _, htake, _⟩ := hbeside
  exact ⟨htake, hlanes, hbeyond, hpath, hattention, hmade⟩

/-- The record of the write in hand has been handed. -/
theorem Chip.nextDirect_goesOn
    (h : s.lanes.take = some { lane := l, outcome := o, owed := a :: rest, finishAfter := finish }) :
    TakeGoesOn l o rest finish s s.nextDirect := by
  have hnext : s.nextDirect = (s.beginTake l o rest finish).continueTake := by
    unfold Chip.nextDirect
    rw [h]
    rfl
  rw [hnext]
  constructor
  · rintro b more rfl
    exact Chip.continueTake_of_owed (s := s.beginTake l o (b :: more) finish) rfl
  · rintro rfl f hf
    rw [Chip.continueTake_of_ended rfl]
    obtain ⟨hbeside, hregions, hlog⟩ := s.takeEnded_beside l finish
    have hbeyond := hbeside.beyond hregions hlog
    obtain ⟨hpath, hattention, _, hended, _⟩ := hbeside
    refine ⟨s.takeEnded l finish, Chip.nextWords_examined (hpath ▸ hf), hended, hbeyond, hpath, hattention, ?_, ?_⟩
    · rintro rfl
      exact ⟨fun _ => rfl, rfl⟩
    · rintro rfl st addr d hjob
      exact Chip.takeEnded_handsBack hjob

end

end Sys2Proof.Machine

/-! PROOF. The soft reset (O4). -/

namespace Sys2Proof.Machine
variable {s : Chip} {f : ForwardPoint} {l : Lane} {v : Word} {ws : List PageWord}

theorem Chip.resetPart_of_next (h : s.WordNext f (.submit l) v ws) (hv : v.toNat % 32 = 2) : s.resetPart = s.beginSoftReset := by
  unfold Chip.resetPart
  rw [h.nextSubmit (r := .resetPart) (by simp [requestOf_eq, hv])]

theorem Chip.beginSoftReset_blocksAtReset (s : Chip) : s.beginSoftReset.BlocksAtReset := .of_atReset rfl rfl rfl rfl rfl

/-- The part with its port idle and the soft-reset values of the Path Controller, the page base kept (R143). -/
def Chip.softResetPath (s : Chip) : Chip :=
  { s with
    path := { PathState.atPinReset 0#16 with pageBase := s.path.pageBase, cause := .soft, response := s.path.response }
    arbiter := { requests := [], inFlight := none, retryCount := 0 } }

theorem Chip.softResetPortIdle_of_idle (hs : s.path.status = .resetting) (hi : s.arbiter.inFlight = none) :
    s.softResetPortIdle = s.softResetPath.issueWrite (startUpRequest s.path.pageBase .soft) := if_pos ⟨hs, hi⟩

/-- Settles O4: the word that begins the soft reset, and the idle port that ends it. -/
theorem softReset : Obligations.SoftReset := by
  refine ⟨fun s f l v ws hnext hv => ?_, fun s hs hi => ?_⟩
  · exact ⟨_, onChip_eq (Chip.resetPart_of_next hnext hv), s.chip.beginSoftReset_blocksAtReset, rfl, rfl, rfl⟩
  · refine ⟨_, startUpRequest _ .soft, onChip_eq (Chip.softResetPortIdle_of_idle hs hi), isStatusWrite _ _ _ _,
      Chip.issueWrite_issued_of (by exact rfl) (by exact rfl) _, ?_⟩
    rw [Chip.issueWrite_path]
    exact ⟨⟨rfl, rfl, rfl, rfl, rfl, rfl, rfl, rfl, rfl, rfl, rfl⟩, Chip.issueWrite_rest _ _⟩

end Sys2Proof.Machine

/-! PROOF. The submit words of the control page (O14 to O16). -/

namespace Sys2Proof.Machine
variable {s : Chip} {f : ForwardPoint} {l : Lane} {v : Word} {ws : List PageWord}

/-! ## NO_REQUEST (R146) -/

theorem Chip.noRequest_of_next (h : s.WordNext f (.submit l) v ws) (hv : 3 ≤ v.toNat % 32) :
    s.noRequest = (s.withWords f ws).mailboxFault l := by
  have hrequest : requestOf v = .none := by
    rw [requestOf_eq, if_neg (by omega), if_neg (by omega), if_neg (by omega)]
  unfold Chip.noRequest
  rw [h.nextSubmit hrequest]
  dsimp only
  rw [h.popWord]

/-- The words that are still to be examined leave the lanes alone. -/
theorem Chip.examineWords_lane (s : Chip) (f : ForwardPoint) (ws : List PageWord) (m : Lane) :
    (s.examineWords f ws).lane m = s.lane m := by
  induction ws generalizing s with
  | nil =>
    unfold Chip.examineWords Chip.endOrderedWrite
    split <;> rfl
  | cons w ws ih =>
    unfold Chip.examineWords
    split_ifs
    · rfl
    · exact ih s
    · rfl
    · exact ih _

theorem Chip.nextWords_lane (s : Chip) (m : Lane) : s.nextWords.lane m = s.lane m := by
  unfold Chip.nextWords
  split
  · exact s.examineWords_lane _ _ m
  · rfl

theorem Chip.mailboxFault_lane (s : Chip) (l m : Lane) : (s.mailboxFault l).lane m = s.lane m := by
  rcases Chip.hand_cases (s.beginTake l .queueFull [] false) (.lane l)
    (laneRecord .mailboxFault l 0#16 0#32 (s.submitWordAddress l)) .take Chip.nextDirect with ⟨_, e⟩ | ⟨_, _, e⟩ | ⟨_, _, e⟩
  · rw [Chip.mailboxFault, e]
    exact Chip.nextWords_lane _ m
  · rw [Chip.mailboxFault, e]
    rfl
  · rw [Chip.mailboxFault, e]
    exact Chip.nextWords_lane _ m

/-- Settles O16: the word is handed on, and its take posts the record. -/
theorem noRequest : Obligations.NoRequest := fun _ _ l _ _ hnext hv =>
  ⟨_, onChip_eq (Chip.noRequest_of_next hnext hv), Chip.mailboxFault_faulted hnext.1, fun m => Chip.mailboxFault_lane _ l m⟩

/-! ## SUBMIT (R147) -/

theorem Chip.submit_of_next (h : s.WordNext f (.submit l) v ws) (hv : v.toNat % 32 = 0) :
    s.submit = if v = 0#32 then (s.withWords f ws).mailboxFault l
      else if 6 ≤ (s.lane l).queue.length then ((s.withWords f ws).beginTake l .queueFull [v] false).continueTake
      else ((s.withWords f ws).queueDescriptor l v).nextWords := by
  unfold Chip.submit
  rw [h.nextSubmit (r := .submit) (by rw [requestOf_eq, if_pos hv])]
  dsimp only
  rw [h.popWord, submitAddress_of_aligned hv]
  rfl

/-- A descriptor joins the queue, and an IDLE lane takes its oldest entry (R147). -/
theorem Chip.queueDescriptor_spec (s : Chip) (l : Lane) (a : Word) :
    let t := s.queueDescriptor l a
    SameBesideHandBack s t ∧ t.regions = s.regions ∧ t.log = s.log ∧
    ((s.lane l).state ≠ .idle → t.waitingAccesses = s.waitingAccesses ∧
      LaneSet s t l { s.lane l with queue := (s.lane l).queue ++ [a] }) ∧
    ((s.lane l).state = .idle → ∀ b rest, (s.lane l).queue ++ [a] = b :: rest →
      AccessMade s t { owner := .laneFetch l, cls := .lane, access := readLine b, stale := false } ∧
      LaneSet s t l { state := .fetch, queue := rest, cutPending := false
                      current := some { addr := b, desc := none, outcome := none, result := 0#32 } }) := by
  have hqueued := s.setLane_laneSet l { s.lane l with queue := (s.lane l).queue ++ [a] }
  unfold Chip.queueDescriptor
  dsimp only
  split_ifs with hidle
  · obtain ⟨hbeside, hregions, hlog⟩ := (s.setLane l { s.lane l with queue := (s.lane l).queue ++ [a] }).endChain_beside l
    refine ⟨(s.setLane_beside l _).trans hbeside, hregions, hlog, absurd hidle, fun _ b rest hentry => ?_⟩
    obtain ⟨hset, hmade⟩ := Chip.endChain_of_entry ((congrArg LaneRec.queue hqueued.1).trans hentry)
    exact ⟨hmade, hqueued.trans hset⟩
  · exact ⟨s.setLane_beside l _, rfl, rfl, fun _ => ⟨rfl, hqueued⟩, fun h => absurd h hidle⟩

/-- Settles O14: address 0, a full queue, and an entry that joins the queue. -/
theorem submit : Obligations.Submit := by
  intro s f l v ws hnext hv
  refine ⟨s.chip.submit, rfl, ?_⟩
  rw [Chip.submit_of_next hnext hv]
  refine ⟨fun hz => ?_, fun hn hfull => ?_, fun hn hroom => ?_⟩
  · rw [if_pos hz]
    exact Chip.mailboxFault_faulted hnext.1
  · rw [if_neg hn, if_pos hfull]
    obtain ⟨htake, hlanes, hbeyond, hpath, hattention, hmade⟩ :=
      Chip.continueTake_of_owed (s := (s.chip.withWords f ws).beginTake l .queueFull [v] false) rfl
    obtain ⟨hregions, hlog, hfree, hflight, hretry, hcopy, -, hposts⟩ := hbeyond
    refine ⟨htake, hmade, hlanes, ⟨hregions, hlog, hfree, hflight, hretry, hcopy, ?_, hposts⟩, hpath, hattention⟩
    rw [hpath]
    rfl
  · rw [if_neg hn, if_neg (Nat.not_le.mpr hroom)]
    obtain ⟨hbeside, hregions, hlog, hbusy, hidle⟩ := (s.chip.withWords f ws).queueDescriptor_spec l v
    refine ⟨_, Chip.nextWords_examined ?_, hbeside, hregions, hlog, hbusy, hidle⟩
    rw [hbeside.1]
    rfl

/-! ## FLUSH (R159) -/

/-- The part once FLUSH has taken its word and, when lane `l` waits at an arbiter, has withdrawn its job. -/
def Chip.flushTaken (s : Chip) (f : ForwardPoint) (ws : List PageWord) (l : Lane) (waits : Bool) : Chip :=
  { s.withWords f ws with
    log := { s.log with waiting := if waits then s.log.waiting.filter (· != l) else s.log.waiting }
    copy := { s.copy with waiting := if waits then s.copy.waiting.filter (· != l) else s.copy.waiting } }

/-- A lane that FLUSH has emptied, with CUT PENDING for its current job. -/
def LaneRec.flushed (r : LaneRec) : LaneRec := { r with queue := [], cutPending := r.cutPending || r.state != .idle }

/-- The part with the take that answers the entries which FLUSH removes. -/
def Chip.flushBegun (s : Chip) (f : ForwardPoint) (ws : List PageWord) (l : Lane) (waits : Bool) : Chip :=
  ((s.flushTaken f ws l waits).setLane l (s.lane l).flushed).beginTake l .cancelled (s.lane l).queue waits

theorem Chip.flush_of_next (h : s.WordNext f (.submit l) v ws) (hv : v.toNat % 32 = 1) {waits : Bool}
    (hw : waits = ((s.lane l).state == .wait)) : s.flush = (s.flushBegun f ws l waits).continueTake := by
  unfold Chip.flush
  rw [h.nextSubmit (r := .flush) (by simp [requestOf_eq, hv])]
  dsimp only
  rw [h.popWord, ← hw]
  cases waits <;> rfl

section
variable {waits : Bool}

theorem Chip.flushBegun_laneSet : LaneSet s (s.flushBegun f ws l waits) l (s.lane l).flushed :=
  s.setLane_laneSet l (s.lane l).flushed

/-- Without the take only the lane has changed since FLUSH took its word. -/
theorem Chip.flushBegun_takeDone (h : s.lanes.take = none) :
    SameBesideHandBack (s.flushTaken f ws l waits) (s.flushBegun f ws l waits).takeDone :=
  ⟨rfl, rfl, rfl, h.symm, rfl, rfl, rfl⟩

/-- With no entry removed the words that follow are examined once the take has ended. -/
theorem Chip.flushBegun_of_empty (h : (s.lane l).queue = []) :
    WordsExamined ((s.flushBegun f ws l waits).takeEnded l waits) (s.flushBegun f ws l waits).continueTake f ws := by
  obtain ⟨⟨hpath, _⟩, _⟩ := (s.flushBegun f ws l waits).takeEnded_beside l waits
  have htake : (s.flushBegun f ws l waits).lanes.take =
      some { lane := l, outcome := .cancelled, owed := [], finishAfter := waits } := by
    rw [← h]
    rfl
  rw [Chip.continueTake_of_ended htake]
  refine Chip.nextWords_examined ?_
  rw [hpath]
  rfl

/-- The job withdrawn is handed back CANCELLED. -/
theorem Chip.flushBegun_handsBack {addr : Word} {d : Descriptor} (h : s.HasJob l .wait addr d) :
    let u := (s.flushBegun f ws l true).takeEnded l true
    LaneSet s u l { (s.lane l).flushed with
      state := .finish, current := some { addr := addr, desc := some d, outcome := some .cancelled, result := 0#32 } } ∧
    AccessMade s u
      { owner := .laneOutcome l, cls := .lane, access := outcomeAccess addr d .cancelled 0#32, stale := false } := by
  have hset := s.flushBegun_laneSet (f := f) (ws := ws) (l := l) (waits := true)
  have hjob : (s.flushBegun f ws l true).HasJob l .wait addr d := by
    unfold Chip.HasJob
    rw [hset.1]
    exact h
  obtain ⟨hended, hmade⟩ := Chip.takeEnded_handsBack hjob
  rw [hset.1] at hended
  exact ⟨hset.trans hended, hmade⟩

end

/-- Settles O15: entries that are owed CANCELLED, none with the job left alone, and none with the job withdrawn. -/
theorem flush : Obligations.Flush := by
  intro s f l v ws hnext hv
  refine ⟨s.chip.flush, rfl, fun waits hwaits => ?_⟩
  rw [Chip.flush_of_next hnext hv hwaits]
  rintro _ rfl _ rfl
  have hset := s.chip.flushBegun_laneSet (f := f) (ws := ws) (l := l) (waits := waits)
  have hdone := Chip.flushBegun_takeDone (s := s.chip) (f := f) (ws := ws) (l := l) (waits := waits) hnext.1
  obtain ⟨hbeside, hregions, hlog⟩ := (s.chip.flushBegun f ws l waits).takeEnded_beside l waits
  refine ⟨fun a rest howed => ?_, fun hempty hstays => ?_, fun hempty hwithdrawn addr d hjob => ?_⟩
  · have hbegun : (s.chip.flushBegun f ws l waits).lanes.take =
        some { lane := l, outcome := .cancelled, owed := a :: rest, finishAfter := waits } := by
      rw [← howed]
      rfl
    obtain ⟨htake, hlanes, hbeyond, hpath, hattention, hmade⟩ := Chip.continueTake_of_owed hbegun
    exact ⟨htake.trans hbegun, .of_setLane hlanes, hbeyond, hpath, hattention, hmade⟩
  · subst hstays
    exact ⟨_, Chip.flushBegun_of_empty hempty, hdone, rfl, rfl, rfl, hset⟩
  · subst hwithdrawn
    obtain ⟨hfinished, hmade⟩ := Chip.flushBegun_handsBack (f := f) (ws := ws) hjob
    exact ⟨_, Chip.flushBegun_of_empty hempty, hdone.trans hbeside, hregions, hlog, hfinished, hmade⟩

end Sys2Proof.Machine

/-! PROOF. The answers to the lanes' own accesses (O48, O50, O51) and NULL (O49). -/

namespace Sys2Proof.Machine
variable {s : Chip} {l : Lane} {addr : Word} {d : Descriptor}

/-! ## NULL (R152) -/

theorem Chip.nullJob_of_job (h : s.HasJob l .run addr d) (hd : d.code = 0#8) : s.nullJob l = s.finishJob l .done 0#32 := by
  unfold Chip.nullJob
  rw [h.jobIn (k := .null) (by rw [hd]; rfl)]

/-- Settles O49: the job is handed back as it is. -/
theorem nullJob : Obligations.NullJob := by
  intro s l addr d hjob hd
  obtain ⟨_, hcurrent⟩ := id hjob
  exact ⟨_, onChip_eq (op := (·.nullJob l)) (Chip.nullJob_of_job hjob hd), s.chip.finishJob_spec .done 0#32 hcurrent⟩

/-! ## DESCRIPTOR_FETCH_ANSWER (R149 to R151) -/

/-- The codes of the instant jobs (Tables 8-1 and 10-3). -/
theorem jobKind_instant {code : Byte} (h : code.toNat ≤ 7 ∨ code.toNat = 16) :
    ∃ k, jobKind code = some k ∧ k.group = .instant := by
  unfold jobKind
  rcases h with h | h
  · generalize code.toNat = n at h
    interval_cases n <;> exact ⟨_, rfl, rfl⟩
  · rw [h]
    exact ⟨_, rfl, rfl⟩

/-- The codes of the log jobs. -/
theorem jobKind_log {code : Byte} (h₁ : 8 ≤ code.toNat) (h₂ : code.toNat ≤ 14) :
    ∃ k, jobKind code = some k ∧ k.group = .log := by
  unfold jobKind
  generalize code.toNat = n at h₁ h₂
  interval_cases n <;> exact ⟨_, rfl, rfl⟩

theorem jobKind_copy {code : Byte} (h : code.toNat = 15) : jobKind code = some .copy := by
  unfold jobKind
  rw [h]
  rfl

/-- The codes that name no job. -/
theorem jobKind_unknown {code : Byte} (h : 16 < code.toNat) : jobKind code = none := by
  unfold jobKind
  split
  on_goal 18 => rfl
  all_goals omega

/-- A lane whose job waits at an arbiter (R151). -/
def Chip.laneWaits (s : Chip) (l : Lane) : Chip := s.setLane l { s.lane l with state := .wait }

theorem Chip.dispatch_of_unknown (h : 16 < d.code.toNat) : s.dispatch l d = s.finishJob l .badCode 0#32 := by
  unfold Chip.dispatch
  rw [jobKind_unknown h]

theorem Chip.dispatch_of_instant (h : d.code.toNat ≤ 7 ∨ d.code.toNat = 16) : s.dispatch l d = s.laneRuns l := by
  obtain ⟨k, hk, hgroup⟩ := jobKind_instant h
  unfold Chip.dispatch
  rw [hk]
  dsimp only
  rw [hgroup]

theorem Chip.dispatch_of_log (h₁ : 8 ≤ d.code.toNat) (h₂ : d.code.toNat ≤ 14) :
    s.dispatch l d = { s.laneWaits l with log := { s.log with waiting := s.log.waiting ++ [l] } } := by
  obtain ⟨k, hk, hgroup⟩ := jobKind_log h₁ h₂
  unfold Chip.dispatch
  rw [hk]
  dsimp only
  rw [hgroup]
  rfl

theorem Chip.dispatch_of_copy (h : d.code.toNat = 15) :
    s.dispatch l d = { s.laneWaits l with copy := { s.copy with waiting := s.copy.waiting ++ [l] } } := by
  unfold Chip.dispatch
  rw [jobKind_copy h]
  rfl

/-- The part with the fetched descriptor kept in CURRENT (R149). -/
def Chip.keepDescriptor (s : Chip) (l : Lane) (c : CurrentJob) (d : Descriptor) : Chip :=
  s.setLane l { s.lane l with current := some { c with desc := some d } }

theorem Chip.keepDescriptor_laneSet (s : Chip) (l : Lane) (c : CurrentJob) (d : Descriptor) :
    LaneSet s (s.keepDescriptor l c d) l { s.lane l with current := some { c with desc := some d } } := s.setLane_laneSet l _

section
variable {c : CurrentJob} {data : Line}

theorem Chip.fetchAnswered_of_fault (hc : (s.lane l).current = some c) :
    s.fetchAnswered l .fault = s.hand (.lane l) (recordOf .descriptorFault l 0#16 0#32 c.addr) (.laneEnd l) (·.endChain l) := by
  unfold Chip.fetchAnswered
  rw [hc]
  rfl

theorem Chip.fetchAnswered_of_stale (hc : (s.lane l).current = some c) (ho : field data 2 16 ≠ 0#16) :
    s.fetchAnswered l (.done data) = (s.keepDescriptor l c (descriptorOf data)).hand (.lane l)
      (recordOf .descriptorStale l (field data 2 16) (descriptorOf data).tag c.addr) (.laneEnd l) (·.endChain l) := by
  unfold Chip.fetchAnswered
  rw [hc]
  exact if_neg ho

theorem Chip.fetchAnswered_of_fresh (hc : (s.lane l).current = some c) (ho : field data 2 16 = 0#16) :
    s.fetchAnswered l (.done data) = (s.keepDescriptor l c (descriptorOf data)).dispatch l (descriptorOf data) := by
  unfold Chip.fetchAnswered
  rw [hc]
  exact if_pos ho

end

/-- Memory's answer to a fetch reaches its lane once the lane has made its next access (R149, R157). -/
theorem exec_descriptorFetchAnswer {c : State} (h : c.chip.InFlight (.laneFetch l)) (a : FinalAnswer) :
    exec (.descriptorFetchAnswer a) c =
      .next { c with chip := (c.chip.endTransaction.accessOver (.laneFetch l)).fetchAnswered l a } := by
  obtain ⟨_, _, howner, hanswered⟩ := Chip.answered_of_inFlight h Owner.isFetch rfl
    fun r t => (t.accessOver r.owner).fetchOwnerAnswered r.owner a
  rw [howner] at hanswered
  exact onChip_eq (op := fun t => t.answered Owner.isFetch _) hanswered

/-- Settles O48: the FAULT, the stale descriptor, and the ways of its CODE. -/
theorem descriptorFetchAnswer : Obligations.DescriptorFetchAnswer := by
  intro s l c hflight hcurrent
  rintro _ rfl
  have hnext := s.chip.endTransaction.accessOver_spec (o := .laneFetch l) rfl
  obtain ⟨_, hregions, hlog, hlanes, _⟩ := id hnext
  have hkept := (congrArg LaneRec.current (hlanes l)).trans hcurrent
  refine ⟨⟨_, _, exec_descriptorFetchAnswer hflight .fault, hnext, ?_⟩, ?_⟩
  · rw [Chip.fetchAnswered_of_fault hkept]
    exact Chip.hand_endChain_handed _ l _
  · rintro data _ rfl
    have hset := Chip.keepDescriptor_laneSet (s.chip.endTransaction.accessOver (.laneFetch l)) l c (descriptorOf data)
    rw [hlanes l] at hset
    refine ⟨_, _, _, exec_descriptorFetchAnswer hflight (.done data), hnext, hset, rfl, ?_⟩
    rintro _ rfl
    refine ⟨fun hstale => ?_, fun hfresh => ?_⟩
    · rw [Chip.fetchAnswered_of_stale hkept hstale]
      exact Chip.hand_endChain_handed _ l _
    · rw [Chip.fetchAnswered_of_fresh hkept hfresh]
      refine ⟨fun hcode => ?_, fun hcode => ?_, fun hlow hhigh => ?_, fun hcode => ?_⟩
      · rw [Chip.dispatch_of_unknown (d := descriptorOf data) hcode]
        obtain ⟨hends, hbeside, hregions', hlog'⟩ :=
          Chip.finishJob_spec _ .badCode 0#32 ⟨_, _, congrArg LaneRec.current hset.1⟩
        exact ⟨hends, hbeside, hregions'.trans hregions, hlog'.trans hlog⟩
      · rw [Chip.dispatch_of_instant (d := descriptorOf data) hcode]
        exact ⟨⟨Chip.setLane_laneSet _ l _, rfl⟩, rfl, rfl⟩
      · rw [Chip.dispatch_of_log (d := descriptorOf data) hlow hhigh]
        exact ⟨⟨Chip.setLane_laneSet _ l _, rfl⟩, rfl, rfl⟩
      · rw [Chip.dispatch_of_copy (d := descriptorOf data) hcode]
        exact ⟨⟨Chip.setLane_laneSet _ l _, rfl⟩, rfl, rfl⟩

/-! ## Writes that the ring guard keeps from being issued (R148, R154) -/

theorem Chip.issued_eq_false {p : Owner → Bool} (h : ∀ o, p o = true → ¬s.InFlight o) : s.issued p = false := by
  unfold Chip.issued
  split
  · rename_i r hr
    by_contra hissued
    simp only [Bool.not_eq_false, Bool.and_eq_true, Bool.not_eq_true'] at hissued
    exact h r.owner hissued.1 ⟨r, hr, rfl, hissued.2⟩
  · rfl

/-- The write that was kept back leaves, and the Lane Unit presents its next access. -/
theorem Chip.refusedOver_spec {r : PortRequest} (h : s.lanes.refused = some r) :
    let t := s.refusedOver
    SameBesideHandBack s t ∧ (∀ m, t.lane m = s.lane m) ∧ t.regions = s.regions ∧ t.log = s.log ∧
      (r :: t.waitingAccesses).Perm s.waitingAccesses := by
  obtain ⟨hbeside, hregions, hlog, hlanes, hwaiting⟩ :=
    Chip.presentLane_spec { s with lanes := { s.lanes with refused := none } }
  refine ⟨hbeside, hlanes, hregions, hlog, (hwaiting.cons r).trans ?_⟩
  have hmiddle := (List.perm_middle (a := r) (l₁ := s.lanes.later ++ s.lanes.accesses) (l₂ := s.arbiter.requests ++ s.copy.queue)).symm
  simpa [Chip.waitingAccesses, h] using hmiddle

/-! ## OUTCOME_WRITE_ANSWER (R155, R156) -/

section
variable {o : JobOutcome} {result : Word} {data : Line}

/-- What the answer to an outcome write posts, and the chain's decision. -/
theorem Chip.outcomeAnswered_of_job
    (hc : (s.lane l).current = some { addr := addr, desc := some d, outcome := some o, result := result }) :
    s.outcomeAnswered l .fault =
      s.hand (.lane l) (recordOf .outcomeFault l o.code d.tag addr) (.laneEnd l) (·.endChain l) ∧
    (o = .done → d.flags.getLsbD 0 = false → s.outcomeAnswered l (.done data) = s.decideChain l) ∧
    (o = .done → d.flags.getLsbD 0 = true → s.outcomeAnswered l (.done data) =
      s.hand (.lane l) (recordOf .jobDone l o.code d.tag addr) (.laneDecide l) (·.decideChain l)) ∧
    (o ≠ .done → s.outcomeAnswered l (.done data) =
      s.hand (.lane l) (recordOf .jobFailed l o.code d.tag addr) (.laneDecide l) (·.decideChain l)) := by
  unfold Chip.outcomeAnswered
  rw [hc]
  refine ⟨rfl, fun hdone hsilent => ?_, fun hdone hnotify => ?_, fun hfailed => if_neg hfailed⟩
  · exact (if_pos hdone).trans (if_neg (c := d.flags.getLsbD 0 = true) (hsilent ▸ Bool.false_ne_true))
  · exact (if_pos hdone).trans (if_pos (c := d.flags.getLsbD 0 = true) hnotify)

theorem Chip.hand_decideChain_handed
    (hc : (s.lane l).current = some { addr := addr, desc := some d, outcome := some o, result := result }) (record : AttnRecord) :
    Handed s (s.hand (.lane l) record (.laneDecide l) (·.decideChain l)) (.lane l) record (.laneDecide l) (ChainDecided l d o) :=
  Chip.hand_handed (Chip.decideChain_decided hc) (Chip.decideChain_decided (s := s.withPost (.lane l) record) hc)

end

theorem exec_outcomeWriteAnswer {c : State} (h : c.chip.InFlight (.laneOutcome l)) (a : FinalAnswer) :
    exec (.outcomeWriteAnswer a) c =
      .next { c with chip := (c.chip.endTransaction.accessOver (.laneOutcome l)).outcomeAnswered l a } := by
  obtain ⟨r, hi, howner, hst⟩ := h
  rw [← howner]
  exact onChip_eq (op := (·.outcomeWriteAnswer a)) (Chip.outcomeWriteAnswer_awaited hi hst howner a)

/-- The outcome write that the guard kept back counts as answered FAULT. -/
theorem exec_outcomeWriteAnswer_refused {c : State} {r : PortRequest} (h : ∀ m, ¬c.chip.InFlight (.laneOutcome m))
    (hr : c.chip.lanes.refused = some r) (ho : r.owner = .laneOutcome l) (a : FinalAnswer) :
    exec (.outcomeWriteAnswer a) c =
      .next { c with chip := (c.chip.refusedOver.accessOver (.laneOutcome l)).outcomeAnswered l .fault } := by
  have hissued : c.chip.issued Owner.isOutcome = false := Chip.issued_eq_false fun o ho => by
    cases o with
    | laneOutcome m => exact h m
    | _ => cases ho
  refine onChip_eq (op := (·.outcomeWriteAnswer a)) ?_
  unfold Chip.outcomeWriteAnswer
  rw [hissued, hr]
  dsimp only
  rw [ho]
  rfl

/-- Settles O50: memory's two answers, and the write that the guard kept back. -/
theorem outcomeWriteAnswer : Obligations.OutcomeWriteAnswer := by
  intro s l addr d o result hcurrent
  rintro _ rfl
  have hkept : ∀ u : Chip, u.lane l = s.chip.lane l →
      (u.lane l).current = some { addr := addr, desc := some d, outcome := some o, result := result } :=
    fun u hu => (congrArg LaneRec.current hu).trans hcurrent
  refine ⟨fun hflight => ?_, fun r a hnone hr ho => ?_⟩
  · rintro _ rfl
    have hnext := s.chip.endTransaction.accessOver_spec (o := .laneOutcome l) rfl
    obtain ⟨_, _, _, hlanes, _⟩ := id hnext
    have hjob := hkept _ (hlanes l)
    refine ⟨⟨_, _, exec_outcomeWriteAnswer hflight .fault, hnext, ?_⟩,
      fun data => ⟨_, _, exec_outcomeWriteAnswer hflight (.done data), hnext, ?_⟩⟩
    · rw [(Chip.outcomeAnswered_of_job (data := 0) hjob).1]
      exact Chip.hand_endChain_handed _ l _
    · obtain ⟨_, hsilent, hnotify, hfailed⟩ := Chip.outcomeAnswered_of_job (data := data) hjob
      refine ⟨fun hdone hflag => ?_, fun hdone hflag => ?_, fun hdone => ?_⟩
      · rw [hsilent hdone hflag]
        exact Chip.decideChain_decided hjob
      · rw [hnotify hdone hflag]
        exact Chip.hand_decideChain_handed hjob _
      · rw [hfailed hdone]
        exact Chip.hand_decideChain_handed hjob _
  · obtain ⟨hbeside, hlanes, hregions, hlog, hwaiting⟩ := Chip.refusedOver_spec hr
    have hnext := s.chip.refusedOver.accessOver_spec (o := .laneOutcome l) rfl
    obtain ⟨_, _, _, hlanes', _⟩ := id hnext
    refine ⟨_, _, _, exec_outcomeWriteAnswer_refused hnone hr ho a, hbeside, hlanes, hregions, hlog, hwaiting, hnext, ?_⟩
    rw [(Chip.outcomeAnswered_of_job (data := 0) (hkept _ ((hlanes' l).trans (hlanes l)))).1]
    exact Chip.hand_endChain_handed _ l _

/-! ## DIRECT_OUTCOME_WRITE_ANSWER (R148) -/

/-- The kind of the record that answers a direct outcome write. -/
def directKind : FinalAnswer → AttnKind
  | .done _ => .jobFailed
  | .fault => .outcomeFault

section
variable {o : JobOutcome} {rest : List Word} {finish : Bool}

theorem Chip.directAnswered_handed
    (h : s.lanes.take = some { lane := l, outcome := o, owed := addr :: rest, finishAfter := finish }) (a : FinalAnswer) :
    Handed s (s.directAnswered a) (.lane l) (recordOf (directKind a) l o.code 0#32 addr) .take (TakeGoesOn l o rest finish) := by
  have hhands : s.directAnswered a =
      s.hand (.lane l) (recordOf (directKind a) l o.code 0#32 addr) .take Chip.nextDirect := by
    unfold Chip.directAnswered
    rw [h]
    cases a <;> rfl
  rw [hhands]
  exact Chip.hand_handed (Chip.nextDirect_goesOn h) (Chip.nextDirect_goesOn (s := s.withPost (.lane l) _) h)

end

theorem exec_directOutcomeWriteAnswer {c : State} (h : c.chip.InFlight (.laneDirect l)) (a : FinalAnswer) :
    exec (.directOutcomeWriteAnswer a) c =
      .next { c with chip := (c.chip.endTransaction.accessOver (.laneDirect l)).directAnswered a } := by
  obtain ⟨r, hi, howner, hst⟩ := h
  rw [← howner]
  exact onChip_eq (op := (·.directWriteAnswer a)) (Chip.directWriteAnswer_awaited hi hst howner a)

/-- The direct outcome write that the guard kept back counts as answered FAULT. -/
theorem exec_directOutcomeWriteAnswer_refused {c : State} {r : PortRequest} (h : ∀ m, ¬c.chip.InFlight (.laneDirect m))
    (hr : c.chip.lanes.refused = some r) (ho : r.owner = .laneDirect l) (a : FinalAnswer) :
    exec (.directOutcomeWriteAnswer a) c =
      .next { c with chip := (c.chip.refusedOver.accessOver (.laneDirect l)).directAnswered .fault } := by
  have hissued : c.chip.issued Owner.isDirect = false := Chip.issued_eq_false fun o ho => by
    cases o with
    | laneDirect m => exact h m
    | _ => cases ho
  refine onChip_eq (op := (·.directWriteAnswer a)) ?_
  unfold Chip.directWriteAnswer
  rw [hissued, hr]
  dsimp only
  rw [ho]
  rfl

/-- Settles O51: memory's two answers, and the write that the guard kept back. -/
theorem directOutcomeAnswer : Obligations.DirectOutcomeAnswer := by
  intro s l o addr rest finish htake
  rintro _ rfl
  refine ⟨fun hflight => ?_, fun r a hnone hr ho => ?_⟩
  · rintro _ rfl
    have hnext := s.chip.endTransaction.accessOver_spec (o := .laneDirect l) rfl
    obtain ⟨⟨_, _, _, hkeeps, _⟩, _⟩ := id hnext
    have hanswered := Chip.directAnswered_handed (hkeeps.trans htake)
    exact ⟨⟨_, _, exec_directOutcomeWriteAnswer hflight .fault, hnext, hanswered .fault⟩,
      fun data => ⟨_, _, exec_directOutcomeWriteAnswer hflight (.done data), hnext, hanswered (.done data)⟩⟩
  · obtain ⟨hbeside, hlanes, hregions, hlog, hwaiting⟩ := Chip.refusedOver_spec hr
    have hnext := s.chip.refusedOver.accessOver_spec (o := .laneDirect l) rfl
    obtain ⟨_, _, _, htaken, _⟩ := id hbeside
    obtain ⟨⟨_, _, _, hkeeps, _⟩, _⟩ := id hnext
    exact ⟨_, _, _, exec_directOutcomeWriteAnswer_refused hnone hr ho a, hbeside, hlanes, hregions, hlog, hwaiting, hnext,
      Chip.directAnswered_handed (hkeeps.trans (htaken.trans htake)) .fault⟩

end Sys2Proof.Machine

/-! PROOF. The consume word (O17). -/

namespace Sys2Proof.Machine
variable {s : Chip} {f : ForwardPoint} {v : Word} {ws : List PageWord}

/-- The low 16 bits of a consume word (R172). -/
theorem consumeIndex_eq (v : Word) : consumeIndex v = BitVec.ofNat 16 (v.toNat % 65536) := by
  refine BitVec.eq_of_toNat_eq ?_
  simp [consumeIndex]

theorem AttentionState.validConsume_iff (a : AttentionState) (c : Half) :
    a.validConsume c = true ↔ (a.produce - c).toNat ≤ a.occupancy := decide_eq_true_iff

theorem Chip.consumeWord_of_unconfigured (h : s.WordNext f .consume v ws) (hc : s.attention.configured = false) :
    s.consumeWord = (s.withWords f ws).nextWords := by
  unfold Chip.consumeWord
  rw [h.nextWord]
  dsimp only
  rw [h.popWord, if_pos (by rw [hc]; rfl)]

/-- A valid index is taken, and the words that follow are examined. -/
theorem Chip.consumeWord_of_valid (h : s.WordNext f .consume v ws) (hc : s.attention.configured = true)
    (hv : s.attention.validConsume (consumeIndex v) = true) :
    s.consumeWord = Chip.nextWords { s.withWords f ws with attention := s.attention.consumeTo (consumeIndex v) } := by
  unfold Chip.consumeWord
  rw [h.nextWord]
  dsimp only
  rw [h.popWord, if_neg (by rw [hc]; exact Bool.false_ne_true), if_pos hv]
  rfl

/-- An invalid index is reported by the Attention Unit, and the control-page write goes on once its record is handed. -/
theorem Chip.consumeWord_of_invalid (h : s.WordNext f .consume v ws) (hc : s.attention.configured = true)
    (hv : s.attention.validConsume (consumeIndex v) = false) :
    s.consumeWord = (s.withWords { f with stage := .handing } ws).hand .attention
      (mailboxRecord 0xFF#8 (s.path.pageBase + 0x18#32)) .pathWord Chip.nextWords := by
  unfold Chip.consumeWord
  rw [h.nextWord]
  dsimp only
  rw [h.popWord, if_neg (by rw [hc]; exact Bool.false_ne_true), if_neg (by rw [hv]; exact Bool.false_ne_true)]
  rfl

/-- Settles O17: the ring unconfigured, a valid index, and an invalid one with the room taken and free. -/
theorem consumeWord : Obligations.ConsumeWord := by
  intro s f v ws hnext
  refine ⟨s.chip.consumeWord, rfl, ?_⟩
  rintro _ rfl _ rfl _ rfl
  rw [← consumeIndex_eq, ← AttentionState.validConsume_iff]
  refine ⟨fun hc => ?_, fun hc => ⟨fun hvalid => ?_, fun hinvalid => ⟨fun htaken => ?_, fun hroom => ?_⟩⟩⟩
  · rw [Chip.consumeWord_of_unconfigured hnext hc]
    exact Chip.nextWords_examined rfl
  · rw [Chip.consumeWord_of_valid hnext hc hvalid]
    exact Chip.nextWords_examined rfl
  · rw [Chip.consumeWord_of_invalid hnext hc (Bool.eq_false_of_not_eq_true hinvalid)]
    exact Chip.hand_of_taken (by exact hc) (by exact htaken) _ _ _
  · rw [Chip.consumeWord_of_invalid hnext hc (Bool.eq_false_of_not_eq_true hinvalid), Chip.hand_of_room (by exact hc) (by exact hroom)]
    exact Chip.nextWords_examined rfl

end Sys2Proof.Machine

/-! PROOF. What the writes of a posting and a configure do (O52 to O54), and CONFIGURE_ATTENTION (O52). -/

namespace Sys2Proof.Machine
variable {s : Chip} {l : Lane} {addr : Word} {d : Descriptor} {c : PendingConfigure}

/-! ## The writes of a posting (R170) -/

/-- A posting issues the write that it has reached. -/
theorem Chip.issuePosting_issued (s : Chip) (p : Posting) : PostingIssued s (s.issuePosting p) p (s.postingAccess p) :=
  ⟨Chip.issueWrite_issued _ _, Chip.issueWrite_rest _ _⟩

/-- The same, with the write written out. -/
theorem Chip.issuePosting_issued_of {p : Posting} {a : Access} (h : s.postingAccess p = a) :
    PostingIssued s (s.issuePosting p) p a := h ▸ s.issuePosting_issued p

/-! ## An unconfigured ring (R168, R174) -/

theorem Chip.dropHandings_of_none (h : s.attention.handings = []) : s.dropHandings = s := by
  have hempty : ({ s with attention := { s.attention with handings := [] } } : Chip) = s := by rw [← h]
  unfold Chip.dropHandings
  rw [hempty, h]
  rfl

/-- The sources that go on leave an unconfigured ring unconfigured, with every item but the lists of records as it was. -/
theorem Chip.dropHandings_attention (s : Chip) :
    s.dropHandings.attention = { s.attention with
      posts := s.dropHandings.attention.posts, handings := s.dropHandings.attention.handings } := by
  obtain ⟨-, -, -, -, -, -, -, hattention⟩ := s.dropHandings_beyond
  exact hattention

/-! ## A configure takes effect (R168) -/

/-- The part with its ring unconfigured by a job (R168), the handings that wait still to be dropped. -/
def Chip.ringRemoved (s : Chip) : Chip := { s with attention := { s.attention.ringGone with configure := none } }

/-- The part with its ring configured by a job and reported (R168), the produce word still to be written. -/
def Chip.ringPlaced (s : Chip) (c : PendingConfigure) : Chip :=
  { s with
    attention := s.attention.configuredTo c
    path := if s.path.status = .attentionFault
      then { s.path with status := .ready, statusOwed := s.path.statusOwed ++ [.ready] } else s.path }

/-- The produce word that a configure writes. -/
def configurePosting : Posting := { kind := .configure, sequence := 0#32, slot := 0, step := .produce }

theorem Chip.ringPlaced_eq (s : Chip) (c : PendingConfigure) :
    Chip.reportConfigured { s with attention := s.attention.configuredTo c } = s.ringPlaced c := by
  unfold Chip.reportConfigured Chip.ringPlaced
  split_ifs <;> rfl

theorem Chip.ringPlaced_pageBase (s : Chip) (c : PendingConfigure) : (s.ringPlaced c).path.pageBase = s.path.pageBase := by
  unfold Chip.ringPlaced
  split_ifs <;> rfl

theorem Chip.takeConfigure_of_removal (h : c.base = 0#32) :
    s.takeConfigure c = s.ringRemoved.dropHandings.finishJob c.lane .done 0#32 := if_pos h

theorem Chip.takeConfigure_of_placement (h : c.base ≠ 0#32) :
    s.takeConfigure c =
      ((s.ringPlaced c).issuePosting configurePosting).finishJob c.lane .done (BitVec.ofNat 32 c.capacity) := by
  rw [← Chip.ringPlaced_eq]
  exact if_neg h

/-- A configure that takes effect does what R168 says, for the job of its lane. -/
theorem Chip.takeConfigure_taken (h : s.HasJob c.lane .run addr d) : ConfigureTaken s (s.takeConfigure c) c addr d := by
  refine ⟨fun hzero => ?_, fun hbase => ?_⟩
  · rw [Chip.takeConfigure_of_removal hzero]
    obtain ⟨⟨hpath, hattention, -⟩, -⟩ := s.ringRemoved.dropHandings.finishJob_beside c.lane .done 0#32
    obtain ⟨-, -, -, -, -, -, hstatus, -⟩ := s.ringRemoved.dropHandings_beyond
    rw [hattention, hpath, hstatus, Chip.dropHandings_attention]
    refine ⟨rfl, rfl, rfl, rfl, rfl, rfl, rfl, rfl, rfl, rfl, rfl, fun hnone => ?_⟩
    rw [Chip.dropHandings_of_none (s := s.ringRemoved) hnone]
    obtain ⟨hends, hbeside, hregions, hlog⟩ := s.ringRemoved.finishJob_spec .done 0#32 h.2
    exact ⟨hends, hregions, hlog, hbeside⟩
  · rw [Chip.takeConfigure_of_placement hbase]
    have hword : (s.ringPlaced c).postingAccess configurePosting = produceAccess s.path.pageBase 0#16 :=
      congrArg (produceAccess · 0#16) (s.ringPlaced_pageBase c)
    obtain ⟨hissued, hrest⟩ := Chip.issuePosting_issued_of hword
    have hlane : ((s.ringPlaced c).issuePosting configurePosting).lane c.lane = s.lane c.lane := by rw [hrest]; rfl
    obtain ⟨hends, hbeside, hregions, hlog⟩ := Chip.finishJob_spec _ .done (BitVec.ofNat 32 c.capacity) (hlane ▸ h.2)
    refine ⟨(s.ringPlaced c).issuePosting configurePosting, ?_⟩
    rintro _ rfl _ rfl
    exact ⟨hissued, hrest, hends, hbeside, hregions.trans (by rw [hrest]; rfl), hlog.trans (by rw [hrest]; rfl)⟩

end Sys2Proof.Machine

/-! PROOF. CONFIGURE_ATTENTION (O52). -/

namespace Sys2Proof.Machine
variable {s : Chip} {l : Lane} {addr : Word} {d : Descriptor}

/-! ## The checks (R167) -/

/-- The operands that step 2 of R167 refuses. -/
def attnOperandsBad (d : Descriptor) : Prop :=
  d.b.toNat < 8 ∨ 1024 < d.b.toNat ∨ 0xFFFFFFFF < d.a.toNat + 16 * d.b.toNat - 1 ∨ 1 < d.c.toNat

/-- The ring that the operands name meets a region, the control page or the log ring (step 3 of R167). -/
def Chip.AttnRingMeets (s : Chip) (d : Descriptor) : Prop :=
  s.regionOverlaps d.a.toNat (16 * d.b.toNat) = true ∨ s.pageOverlaps d.a.toNat (16 * d.b.toNat) = true ∨
    s.logRingOverlaps d.a.toNat (16 * d.b.toNat) = true

/-- Line enable is neither off nor on (R176). -/
theorem lineEnableOf_eq_none (c : Word) : lineEnableOf c = none ↔ 1 < c.toNat := by
  unfold lineEnableOf
  split_ifs with hoff hon
  · simp [hoff]
  · simp [hon]
  · have hne₀ : c.toNat ≠ 0 := fun h => hoff (BitVec.eq_of_toNat_eq h)
    have hne₁ : c.toNat ≠ 1 := fun h => hon (BitVec.eq_of_toNat_eq h)
    simp only [true_iff]
    omega

theorem lineEnableOf_on (c : Word) : (lineEnableOf c).getD false = true ↔ c = 1#32 := by
  unfold lineEnableOf
  split_ifs with hoff hon
  · simp [hoff]
  · simp [hon]
  · simp [hon]

theorem attnOperandsBad_iff (d : Descriptor) :
    ¬(8 ≤ d.b.toNat ∧ d.b.toNat ≤ 1024) ∨ passes4GiB d.a.toNat (16 * d.b.toNat) = true ∨ lineEnableOf d.c = none ↔
      attnOperandsBad d := by
  rw [lineEnableOf_eq_none, passes4GiB, decide_eq_true_iff, attnOperandsBad]
  omega

theorem Chip.attnRingMeets_iff (s : Chip) (d : Descriptor) :
    (s.regionOverlaps d.a.toNat (16 * d.b.toNat) || s.pageOverlaps d.a.toNat (16 * d.b.toNat) ||
      s.logRingOverlaps d.a.toNat (16 * d.b.toNat)) = true ↔ s.AttnRingMeets d := by
  rw [Bool.or_eq_true, Bool.or_eq_true, or_assoc, Chip.AttnRingMeets]

/-- The outcomes of the checks, in their order. -/
theorem Chip.configureCheck_outcomes (s : Chip) (d : Descriptor) :
    (d.a.toNat ≠ 0 → d.a.toNat % 16 ≠ 0 → s.configureCheck d = .alignment) ∧
    (d.a.toNat ≠ 0 → d.a.toNat % 16 = 0 → attnOperandsBad d → s.configureCheck d = .badOperand) ∧
    (d.a.toNat ≠ 0 → d.a.toNat % 16 = 0 → ¬attnOperandsBad d → s.AttnRingMeets d → s.configureCheck d = .overlap) ∧
    (d.a.toNat = 0 ∨ (d.a.toNat % 16 = 0 ∧ ¬attnOperandsBad d ∧ ¬s.AttnRingMeets d) → s.configureCheck d = .done) := by
  have hzero : d.a = 0#32 ↔ d.a.toNat = 0 := BitVec.toNat_inj.symm
  have hbad := attnOperandsBad_iff d
  have hmeet := s.attnRingMeets_iff d
  unfold Chip.configureCheck
  dsimp only
  refine ⟨fun hn ha => ?_, fun hn ha hrefused => ?_, fun hn ha hok hmeets => ?_, ?_⟩
  · rw [if_neg (hzero.not.mpr hn), if_pos ha]
  · rw [if_neg (hzero.not.mpr hn), if_neg (not_not.mpr ha), if_pos (hbad.mpr hrefused)]
  · rw [if_neg (hzero.not.mpr hn), if_neg (not_not.mpr ha), if_neg (hbad.not.mpr hok), if_pos (hmeet.mpr hmeets)]
  · rintro (h₀ | ⟨ha, hok, hclear⟩)
    · rw [if_pos (hzero.mpr h₀)]
    · rw [if_neg (not_not.mpr ha), if_neg (hbad.not.mpr hok), if_neg (hmeet.not.mpr hclear), ite_self]

/-! ## The posting that a configure settles (R168) -/

section
variable {a : AttentionState} {kept : Posting → Bool} {p : Posting}

theorem AttentionState.stopPosting_of_record {x : Listed} (hp : a.posting = some p) (hk : p.kind = .record x) :
    a.stopPosting kept = { a with posting := none, posts := if kept p then a.posts else x :: a.posts } := by
  unfold AttentionState.stopPosting
  rw [hp]
  dsimp only
  rw [hk]

theorem AttentionState.stopPosting_of_other (hp : a.posting = some p) (hk : ∀ x, p.kind ≠ .record x) :
    a.stopPosting kept = { a with posting := none } := by
  unfold AttentionState.stopPosting
  rw [hp]
  dsimp only
  split
  · rename_i x hx
    exact absurd hx (hk x)
  · rfl

/-- With no record to go back the post list stays. -/
theorem AttentionState.stopPosting_posts_of_kept (h : ∀ p x, a.posting = some p → p.kind = .record x → kept p = true) :
    (a.stopPosting kept).posts = a.posts := by
  unfold AttentionState.stopPosting
  split
  · rename_i p hp
    split
    · rename_i x hx
      exact if_pos (h p x hp hx)
    · rfl
  · rfl

/-- Nothing but the posting and the post list changes. -/
theorem AttentionState.stopPosting_rest (a : AttentionState) (kept : Posting → Bool) :
    a.stopPosting kept = { a with posting := none, posts := (a.stopPosting kept).posts } := by
  cases hp : a.posting with
  | none =>
    have hnone : a.stopPosting kept = a := by rw [AttentionState.stopPosting, hp]
    rw [hnone, ← hp]
  | some p =>
    by_cases hk : ∃ x, p.kind = .record x
    · obtain ⟨x, hx⟩ := hk
      rw [AttentionState.stopPosting_of_record hp hx]
    · rw [AttentionState.stopPosting_of_other hp fun x hx => hk ⟨x, hx⟩]

end

/-- The part with the posting in progress settled at once: its write is withdrawn, and its record goes back to the head of the post
list unless it has been written (R168). -/
def Chip.postingSettled (s : Chip) : Chip :=
  { s.withdrawAttention with attention := s.attention.stopPosting fun p => p.step == .produce }

/-- What the withdrawal of the waiting write leaves (log entry 28). -/
theorem Chip.postingSettled_eq (s : Chip) : s.postingSettled = { s with
    arbiter := { s.arbiter with requests := s.arbiter.requests.filter fun r => r.owner != .attention }
    copy := { s.copy with
      queue := s.copy.queue.map fun r => if r.owner = .attention then { r with stale := true } else r
      ahead := s.copy.ahead.map fun h => { h with trigger := h.trigger.filter fun r => r.owner != .attention } }
    attention := { s.attention with posting := none, posts := s.postingSettled.attention.posts } } := by
  have hrest := s.attention.stopPosting_rest fun p => p.step == .produce
  have hmark : (fun r : PortRequest => if (r.owner == Owner.attention) = true then { r with stale := true } else r) =
      fun r => if r.owner = .attention then { r with stale := true } else r := by
    funext r
    simp only [beq_iff_eq]
  unfold Chip.postingSettled Chip.withdrawAttention
  dsimp only
  rw [hmark, ← hrest]
  rfl

/-! ## CONFIGURE_ATTENTION (R167, R168) -/

/-- The configure that the operands name. -/
def configureOf (l : Lane) (d : Descriptor) : PendingConfigure :=
  { lane := l, base := d.a, capacity := d.b.toNat, lineEnable := (lineEnableOf d.c).getD false }

theorem Chip.issued_attention_iff (s : Chip) : s.issued (· == .attention) = true ↔ s.InFlight .attention := by
  constructor
  · intro h
    by_contra hnone
    rw [Chip.issued_eq_false fun o ho => by rw [eq_of_beq ho]; exact hnone] at h
    cases h
  · rintro ⟨r, hr, ho, hst⟩
    exact Chip.issued_awaited hr hst (by rw [ho]; rfl)

/-- A job that is due: refused by its checks, left to wait for the write in flight, or taken at once. -/
theorem Chip.configureAttention_of_job (h : s.HasJob l .run addr d) (hd : d.code = 2#8) (hnone : s.attention.configure = none) :
    (s.configureCheck d ≠ .done → s.configureAttention l = s.finishJob l (s.configureCheck d) 0#32) ∧
    (s.configureCheck d = .done → s.InFlight .attention →
      s.configureAttention l = { s with attention := { s.attention with configure := some (configureOf l d) } }) ∧
    (s.configureCheck d = .done → ¬s.InFlight .attention →
      s.configureAttention l = s.postingSettled.takeConfigure (configureOf l d)) := by
  have hjob : s.configureAttention l = if s.configureCheck d = .done then
      if s.issued (· == .attention) then { s with attention := { s.attention with configure := some (configureOf l d) } }
      else s.postingSettled.takeConfigure (configureOf l d)
      else s.finishJob l (s.configureCheck d) 0#32 := by
    unfold Chip.configureAttention
    rw [h.jobIn (k := .configureAttention) (by rw [hd]; rfl)]
    dsimp only
    rw [if_neg (by rw [hnone]; exact Bool.false_ne_true)]
    rfl
  have hissued := s.issued_attention_iff
  rw [hjob]
  refine ⟨fun hrefused => if_neg hrefused, fun hdone hflight => ?_, fun hdone hidle => ?_⟩
  · rw [if_pos hdone, if_pos (hissued.mpr hflight)]
  · rw [if_pos hdone, if_neg (hissued.not.mpr hidle)]

/-- Settles O52: the three refusals, and an accepted job that waits or takes effect. -/
theorem configureAttention : Obligations.ConfigureAttention := by
  intro s l addr d hjob hcode hnone
  rintro _ _ rfl rfl bad hbad meets hmeets
  obtain rfl : bad = attnOperandsBad d := hbad
  obtain rfl : meets = s.chip.AttnRingMeets d := hmeets
  obtain ⟨hrefused, hwaits, htaken⟩ := Chip.configureAttention_of_job hjob hcode hnone
  obtain ⟨halignment, hoperand, hoverlap, haccepted⟩ := s.chip.configureCheck_outcomes d
  refine ⟨s.chip.configureAttention l, rfl, ?_⟩
  rintro _ rfl
  have hends : ∀ o, s.chip.configureCheck d = o → o ≠ .done →
      HandsBack s.chip (s.chip.configureAttention l) l addr d o 0#32 ∧
        SameBesideHandBack s.chip (s.chip.configureAttention l) ∧
        (s.chip.configureAttention l).regions = s.chip.regions ∧ (s.chip.configureAttention l).log = s.chip.log := by
    rintro _ rfl hne
    rw [hrefused hne]
    exact s.chip.finishJob_spec _ 0#32 hjob.2
  refine ⟨fun hn ha => hends _ (halignment hn ha) nofun, fun hn ha hbad => hends _ (hoperand hn ha hbad) nofun,
    fun hn ha hok hmeets => hends _ (hoverlap hn ha hok hmeets) nofun, fun hok => ?_⟩
  have hdone := haccepted hok
  refine ⟨configureOf l d, rfl, rfl, fun _ => rfl, fun _ => lineEnableOf_on d.c, hwaits hdone, fun hidle => ?_⟩
  rw [htaken hdone hidle]
  refine ⟨s.chip.postingSettled, Chip.takeConfigure_taken (by exact hjob), s.chip.postingSettled_eq, fun hwritten => ?_,
    fun p x hp hk hstep => ?_⟩
  · exact AttentionState.stopPosting_posts_of_kept fun p x hp hk => by rw [hwritten p x hp hk]; rfl
  · refine (congrArg AttentionState.posts (AttentionState.stopPosting_of_record hp hk)).trans (if_neg ?_)
    exact fun h => hstep (eq_of_beq h)

end Sys2Proof.Machine

/-! PROOF. ATTENTION_POSTING (O53). -/

namespace Sys2Proof.Machine
variable {s : Chip} {x : Listed}

/-! ## The posting that begins (R170, R171) -/

/-- The part as a record that takes the next SEQUENCE begins to be written, with no overrun in force. -/
def Chip.sequenced (s : Chip) : Chip :=
  { s with attention := { s.attention with sequence := s.attention.sequence + 1#32, overrun := none } }

/-- The posting of a record that takes the next SEQUENCE, in the slot of the produce index. -/
def AttentionState.newPosting (a : AttentionState) (k : PostingKind) : Posting :=
  { kind := k, sequence := a.sequence + 1#32, slot := a.produce.toNat % a.capacity, step := .low }

/-- The part as the OVERRUN record in force is rewritten with a count one higher. -/
def Chip.recounted (s : Chip) (o : Overrun) : Chip :=
  { s with attention := { s.attention with overrun := some { o with dropped := countDropped o.dropped } } }

theorem Chip.decidePosting_of_room (h : s.attention.occupancy + 1 < s.attention.capacity) :
    s.decidePosting x = s.sequenced.issuePosting (s.attention.newPosting (.record x)) := by
  unfold Chip.decidePosting
  dsimp only
  rw [if_pos (by omega), if_pos h]
  rfl

theorem Chip.decidePosting_of_last (h : s.attention.occupancy + 1 = s.attention.capacity) :
    s.decidePosting x = s.sequenced.issuePosting (s.attention.newPosting .overrun) := by
  unfold Chip.decidePosting
  dsimp only
  rw [if_pos (by omega), if_neg (by omega)]
  rfl

theorem Chip.decidePosting_of_full {o : Overrun} (h : s.attention.occupancy = s.attention.capacity)
    (ho : s.attention.overrun = some o) :
    s.decidePosting x = (s.recounted o).issuePosting
      { kind := .rewrite (countDropped o.dropped), sequence := o.sequence, slot := o.slot, step := .low } := by
  unfold Chip.decidePosting
  dsimp only
  rw [if_neg (by omega), ho]
  rfl

/-- A posting that begins leaves the lists of records alone. -/
theorem Chip.decidePosting_lists (s : Chip) (x : Listed) :
    (s.decidePosting x).attention.posts = s.attention.posts ∧ (s.decidePosting x).attention.handings = s.attention.handings := by
  have hissue : ∀ (u : Chip) p, (u.issuePosting p).attention.posts = u.attention.posts ∧
      (u.issuePosting p).attention.handings = u.attention.handings := fun u p => by
    rw [Chip.issuePosting, Chip.issueWrite_attention]
    exact ⟨rfl, rfl⟩
  unfold Chip.decidePosting
  dsimp only
  split_ifs
  · exact hissue _ _
  · exact hissue _ _
  · split
    · exact hissue _ _
    · exact ⟨rfl, rfl⟩

/-! ## The source whose room frees (R169) -/

section
variable {src : Source}

theorem AttentionState.roomTaken_iff (a : AttentionState) : a.roomTaken src = true ↔ ∃ y ∈ a.posts, y.source = src := by
  simp only [AttentionState.roomTaken, List.any_eq_true, beq_iff_eq]

theorem Chip.serveHanding_of_taken (h : ∃ y ∈ s.attention.posts, y.source = src) : s.serveHanding src = s :=
  if_pos (s.attention.roomTaken_iff.mpr h)

theorem Chip.serveHanding_of_none (h : ∀ k ∈ s.attention.handings, k.listed.source ≠ src) : s.serveHanding src = s := by
  unfold Chip.serveHanding
  rw [List.find?_eq_none.mpr fun k hk hsame => h k hk (eq_of_beq hsame), ite_self]

/-- The first handing that waits for the room is listed, and its source goes on. -/
theorem Chip.serveHanding_of_split {older newer : List Handing} {k : Handing}
    (hfree : ∀ y ∈ s.attention.posts, y.source ≠ src) (hsplit : s.attention.handings = older ++ k :: newer)
    (holder : ∀ g ∈ older, g.listed.source ≠ src) (hk : k.listed.source = src) :
    s.serveHanding src = k.after.run (Chip.withPost
      { s with attention := { s.attention with handings := older ++ newer } } src k.listed.record) := by
  have hroom : ¬s.attention.roomTaken src = true := fun h => by
    obtain ⟨y, hy, hsame⟩ := s.attention.roomTaken_iff.mp h
    exact hfree y hy hsame
  have hfind : s.attention.handings.find? (·.listed.source == src) = some k := by
    rw [hsplit, List.find?_append, List.find?_eq_none.mpr fun g hg hsame => holder g hg (eq_of_beq hsame)]
    exact List.find?_cons_of_pos (p := fun g : Handing => g.listed.source == src) (beq_iff_eq.mpr hk)
  have herase : s.attention.handings.erase k = older ++ newer := by
    rw [hsplit, List.erase_append_right _ fun hmem => holder k hmem hk, List.erase_cons_head]
  unfold Chip.serveHanding
  rw [if_neg hroom, hfind]
  dsimp only
  rw [herase]
  rfl

end

/-! ## ATTENTION_POSTING (R169 to R171) -/

/-- The part as its oldest listed record leaves the post list. -/
def Chip.unlisted (s : Chip) (rest : List Listed) : Chip := { s with attention := { s.attention with posts := rest } }

theorem Chip.attentionPosting_of_listed {rest : List Listed} (hc : s.attention.configured = true)
    (hp : s.attention.posting = none) (hx : s.attention.posts = x :: rest) :
    s.attentionPosting = ((s.unlisted rest).decidePosting x).serveHanding x.source := by
  unfold Chip.attentionPosting
  rw [if_pos (by rw [hc, hp]; rfl), hx]
  rfl

/-- Settles O53: what is written by the occupancy, and the source whose room is free. -/
theorem attentionPosting : Obligations.AttentionPosting := by
  intro s x rest hc hp hx
  rintro n cap hn hcap _ rfl _ rfl _ rfl _ rfl
  have hoccupancy : (s.chip.unlisted rest).attention.occupancy = n := hn.symm
  have hcapacity : (s.chip.unlisted rest).attention.capacity = cap := hcap.symm
  obtain ⟨hposts, hhandings⟩ := (s.chip.unlisted rest).decidePosting_lists x
  have hbegun := Chip.attentionPosting_of_listed (rest := rest) hc hp hx
  refine ⟨(s.chip.unlisted rest).decidePosting x, _, onChip_eq hbegun,
    fun hroom => ?_, fun hlast => ?_, fun hfull o ho => ?_, fun hnone => ?_, fun htaken => ?_,
    fun older h newer hfree hsplit holder hsource => ?_⟩
  · rw [Chip.decidePosting_of_room (by omega), hcap]
    exact Chip.issuePosting_issued _ _
  · rw [Chip.decidePosting_of_last (by omega), hcap]
    exact Chip.issuePosting_issued _ _
  · rintro _ rfl
    rw [Chip.decidePosting_of_full (s := s.chip.unlisted rest) (by omega) ho]
    exact Chip.issuePosting_issued _ _
  · exact Chip.serveHanding_of_none (by rw [hhandings]; exact hnone)
  · exact Chip.serveHanding_of_taken (by rw [hposts]; exact htaken)
  · exact Chip.serveHanding_of_split (by rw [hposts]; exact hfree) hsplit holder hsource

end Sys2Proof.Machine

/-! PROOF. ATTENTION_WRITE_ANSWER (O54). -/

namespace Sys2Proof.Machine
variable {s : Chip} {p : Posting} {c : PendingConfigure}

/-! ## The write that follows (R170, R171) -/

/-- The part once a record counts in occupancy, with this overrun. -/
def Chip.counted (s : Chip) (o : Option Overrun) : Chip :=
  { s with attention := { s.attention with produce := s.attention.produce + 1#16, overrun := o } }

/-- The part once a posting has ended. -/
def Chip.postingEnded (s : Chip) : Chip := { s with attention := { s.attention with posting := none } }

/-- After the first half of a record its second half follows. -/
theorem Chip.advancePosting_of_low {r : AttnRecord} (hstep : p.step = .low) (hr : p.kind.contents = some r) :
    PostingIssued s (s.advancePosting p) { p with step := .high }
      (writeSingle (s.attention.slotAddress p.slot + 8#32) 8 (attentionHigh r p.sequence)) := by
  have hwrite : s.postingAccess { p with step := .high } =
      writeSingle (s.attention.slotAddress p.slot + 8#32) 8 (attentionHigh r p.sequence) := by
    unfold Chip.postingAccess
    dsimp only
    rw [hr]
  have hnext : s.advancePosting p = s.issuePosting { p with step := .high } := by
    unfold Chip.advancePosting
    rw [hstep]
  rw [hnext]
  exact Chip.issuePosting_issued_of hwrite

/-- After the second half of a listed record the produce word follows. -/
theorem Chip.advancePosting_of_record {x : Listed} (hstep : p.step = .high) (hk : p.kind = .record x) :
    PostingIssued (s.counted s.attention.overrun) (s.advancePosting p) { p with step := .produce }
      (produceAccess s.path.pageBase (s.attention.produce + 1#16)) := by
  have hnext : s.advancePosting p = (s.counted s.attention.overrun).issuePosting { p with step := .produce } := by
    unfold Chip.advancePosting Chip.countPosting
    rw [hstep, hk]
    rfl
  rw [hnext]
  exact Chip.issuePosting_issued _ _

/-- After the second half of an OVERRUN record overrun is in force. -/
theorem Chip.advancePosting_of_overrun (hstep : p.step = .high) (hk : p.kind = .overrun) :
    PostingIssued (s.counted (some { slot := p.slot, dropped := 1#32, sequence := p.sequence })) (s.advancePosting p)
      { p with step := .produce } (produceAccess s.path.pageBase (s.attention.produce + 1#16)) := by
  have hnext : s.advancePosting p = (s.counted (some { slot := p.slot, dropped := 1#32, sequence := p.sequence })).issuePosting
      { p with step := .produce } := by
    unfold Chip.advancePosting Chip.countPosting
    rw [hstep, hk]
    rfl
  rw [hnext]
  exact Chip.issuePosting_issued _ _

theorem Chip.advancePosting_of_rewrite {n : Word} (hstep : p.step = .high) (hk : p.kind = .rewrite n) :
    s.advancePosting p = s.postingEnded := by
  unfold Chip.advancePosting Chip.countPosting
  rw [hstep, hk]
  rfl

theorem Chip.advancePosting_of_produce (hstep : p.step = .produce) : s.advancePosting p = s.postingEnded := by
  unfold Chip.advancePosting
  rw [hstep]
  rfl

/-! ## A FAULT (R174) -/

theorem Chip.deconfigure_deconfigured (s : Chip) : Deconfigured s s.deconfigure := by
  obtain ⟨hregions, hlog, -, -, -, -, hpath, hattention⟩ :=
    (Chip.reportDeconfigured { s with attention := s.attention.unconfigured }).dropHandings_beyond
  unfold Deconfigured Chip.attnLine Chip.deconfigure
  rw [hattention, hpath]
  exact ⟨rfl, rfl, rfl, rfl, rfl, rfl, rfl, rfl, rfl, rfl, rfl, rfl, hregions, hlog, fun hnone => Chip.dropHandings_of_none hnone⟩

/-! ## The answers (R168, R170, R174) -/

section
variable {data : Line}

theorem Chip.attentionAnswered_of_posting (hp : s.attention.posting = some p) (hc : s.attention.configure = none) :
    s.attentionAnswered (.done data) = s.advancePosting p ∧ s.attentionAnswered .fault = s.deconfigure := by
  unfold Chip.attentionAnswered
  rw [hp, hc]
  exact ⟨rfl, rfl⟩

/-- A configure that has waited takes effect after the answer. -/
theorem Chip.attentionAnswered_of_configure (hp : s.attention.posting = some p) (hc : s.attention.configure = some c) :
    s.attentionAnswered (.done data) =
      Chip.takeConfigure { s with attention := s.attention.stopPosting fun q => q.step != .low } c ∧
    s.attentionAnswered .fault = s.deconfigure.takeConfigure c := by
  unfold Chip.attentionAnswered
  rw [hp, hc]
  exact ⟨rfl, rfl⟩

end

theorem exec_attentionWriteAnswer {s : State} (h : s.chip.InFlight .attention) (a : FinalAnswer) :
    exec (.attentionWriteAnswer a) s = .next { s with chip := s.chip.endTransaction.attentionAnswered a } :=
  onChip_answered h fun t => t.attentionAnswered a

/-- Settles O54: each write of a posting answered DONE, a configure that has waited, and a FAULT. -/
theorem attentionWriteAnswer : Obligations.AttentionWriteAnswer := by
  intro s p hflight hp
  rintro _ rfl _ rfl _ rfl _ rfl _ rfl
  have hp' : s.chip.endTransaction.attention.posting = some p := hp
  refine ⟨fun data => ⟨_, exec_attentionWriteAnswer hflight _, fun hnone => ?_, fun c addr d hc hjob => ?_⟩,
    s.chip.endTransaction.deconfigure, _, exec_attentionWriteAnswer hflight _, Chip.deconfigure_deconfigured _,
    fun hnone => ?_, fun c addr d hc hquiet hjob => ?_⟩
  · rw [(Chip.attentionAnswered_of_posting hp' hnone).1]
    refine ⟨fun x hk => ⟨fun hstep => ?_, fun hstep => ?_⟩, fun hk => ⟨fun hstep => ?_, fun hstep => ?_⟩,
      fun k hk => ⟨fun hstep => ?_, fun hstep => ?_⟩, Chip.advancePosting_of_produce⟩
    · exact Chip.advancePosting_of_low hstep (by rw [hk]; rfl)
    · exact Chip.advancePosting_of_record hstep hk
    · exact Chip.advancePosting_of_low hstep (by rw [hk]; rfl)
    · exact Chip.advancePosting_of_overrun hstep hk
    · exact Chip.advancePosting_of_low hstep (by rw [hk]; rfl)
    · exact Chip.advancePosting_of_rewrite hstep hk
  · rw [(Chip.attentionAnswered_of_configure hp' hc).1]
    refine ⟨fun x hk hstep => ?_, fun hwritten => ?_⟩
    · rw [AttentionState.stopPosting_of_record hp' hk, if_neg (by rw [hstep]; exact Bool.false_ne_true)]
      exact Chip.takeConfigure_taken hjob
    · rw [AttentionState.stopPosting_rest, AttentionState.stopPosting_posts_of_kept]
      · exact Chip.takeConfigure_taken hjob
      · intro q x hq hk
        obtain rfl : q = p := Option.some.inj (hq.symm.trans hp')
        exact bne_iff_ne.mpr (hwritten x hk)
  · rw [(Chip.attentionAnswered_of_posting (data := 0) hp' hnone).2]
  · rw [(Chip.attentionAnswered_of_configure (data := 0) hp' hc).2]
    obtain ⟨-, -, -, -, -, -, -, -, -, -, -, -, -, -, hquietly⟩ := s.chip.endTransaction.deconfigure_deconfigured
    exact Chip.takeConfigure_taken (by rw [hquietly hquiet]; exact hjob)

end Sys2Proof.Machine

/-! PROOF. What the ATTN line depends on, and the commands that leave it alone (O55). -/

namespace Sys2Proof.Machine
variable {s t : Chip}

/-! ## What the line depends on (R173) -/

/-- The items of the Attention Unit that the ATTN line is a function of. -/
def AttentionState.lineInputs (a : AttentionState) : Bool × Bool × Half × Half :=
  (a.configured, a.lineEnable, a.produce, a.consume)

/-- The same of the part. -/
def Chip.lineInputs (s : Chip) : Bool × Bool × Half × Half := s.attention.lineInputs

theorem Chip.lineInputs_of_attention (h : t.attention = s.attention) : t.lineInputs = s.lineInputs :=
  congrArg AttentionState.lineInputs h

/-- The line is asserted while the ring is configured with line enable on and holds a record that is not consumed. -/
theorem Chip.attnLine_iff (s : Chip) : s.attnLine = true ↔
    s.attention.configured = true ∧ s.attention.lineEnable = true ∧ s.attention.produce ≠ s.attention.consume := by
  have hdiffer : 0 < s.attention.occupancy ↔ s.attention.produce ≠ s.attention.consume := by
    unfold AttentionState.occupancy
    bv_omega
  rw [Chip.attnLine, AttentionState.attn, Bool.and_eq_true, Bool.and_eq_true, decide_eq_true_iff, hdiffer, and_assoc]

theorem Chip.attnLine_congr (h : t.lineInputs = s.lineInputs) : t.attnLine = s.attnLine := by
  obtain ⟨hconfigured, hrest⟩ := Prod.mk.inj h
  obtain ⟨henable, hindices⟩ := Prod.mk.inj hrest
  obtain ⟨hproduce, hconsume⟩ := Prod.mk.inj hindices
  rw [Bool.eq_iff_iff, Chip.attnLine_iff, Chip.attnLine_iff, hconfigured, henable, hproduce, hconsume]

/-! ## The frames that leave it alone -/

theorem SameBeyondLanes.lineInputs (h : SameBeyondLanes s t) : t.lineInputs = s.lineInputs := by
  obtain ⟨-, -, -, -, -, -, -, hattention⟩ := h
  rw [Chip.lineInputs, hattention]
  rfl

theorem SameBesideHandBack.lineInputs (h : SameBesideHandBack s t) : t.lineInputs = s.lineInputs := by
  obtain ⟨-, hattention, -⟩ := h
  exact Chip.lineInputs_of_attention hattention

theorem SameBeyondCopy.lineInputs (h : SameBeyondCopy s t) : t.lineInputs = s.lineInputs := by
  obtain ⟨-, -, hattention, -⟩ := h
  exact Chip.lineInputs_of_attention hattention

namespace Chip

/-! ## The operations that the blocks share -/

theorem issueWrite_lineInputs (s : Chip) (r : PortRequest) : (s.issueWrite r).lineInputs = s.lineInputs :=
  lineInputs_of_attention (s.issueWrite_attention r)

theorem presentLane_lineInputs (s : Chip) : s.presentLane.lineInputs = s.lineInputs := s.presentLane_spec.1.lineInputs

theorem accessOver_lineInputs (s : Chip) (o : Owner) : (s.accessOver o).lineInputs = s.lineInputs := by
  unfold Chip.accessOver
  split
  · rfl
  · split_ifs
    · rfl
    · exact presentLane_lineInputs _

theorem finishJob_lineInputs (s : Chip) (l : Lane) (o : JobOutcome) (r : Word) : (s.finishJob l o r).lineInputs = s.lineInputs :=
  (s.finishJob_beside l o r).1.lineInputs

theorem endChain_lineInputs (s : Chip) (l : Lane) : (s.endChain l).lineInputs = s.lineInputs :=
  (s.endChain_beyond l).lineInputs

theorem decideChain_lineInputs (s : Chip) (l : Lane) : (s.decideChain l).lineInputs = s.lineInputs :=
  (s.decideChain_beyond l).lineInputs

theorem nextWords_lineInputs (s : Chip) : s.nextWords.lineInputs = s.lineInputs := s.nextWords_beyond.lineInputs

theorem nextDirect_lineInputs (s : Chip) : s.nextDirect.lineInputs = s.lineInputs := s.nextDirect_beyond.lineInputs

theorem continueTake_lineInputs (s : Chip) : s.continueTake.lineInputs = s.lineInputs := s.continueTake_beyond.lineInputs

/-- An owner that keeps the line's inputs keeps them when it is answered. -/
theorem answered_lineInputs (s : Chip) (p : Owner → Bool) {act : PortRequest → Chip → Chip}
    (h : ∀ r u, (act r u).lineInputs = u.lineInputs) : (s.answered p act).lineInputs = s.lineInputs := by
  unfold Chip.answered
  split
  · split_ifs
    · rfl
    · exact h _ _
    · rfl
  · rfl

/-- So does a source that goes on once its record is handed. -/
theorem hand_lineInputs (s : Chip) (src : Source) (r : AttnRecord) (k : AfterHand) {act : Chip → Chip}
    (h : ∀ u, (act u).lineInputs = u.lineInputs) : (s.hand src r k act).lineInputs = s.lineInputs := by
  rcases s.hand_cases src r k act with ⟨_, e⟩ | ⟨_, _, e⟩ | ⟨_, _, e⟩ <;> rw [e]
  · exact h s
  · rfl
  · exact h _

theorem handLog_lineInputs (s : Chip) (src : Source) (r : AttnRecord) : (s.handLog src r).lineInputs = s.lineInputs := by
  unfold Chip.handLog
  split_ifs <;> rfl

/-! ## The Path Controller -/

theorem classify_lineInputs (s : Chip) (a : Access) (toPost : Bool) : (s.classify a toPost).lineInputs = s.lineInputs := by
  rw [s.classify_rest]
  rfl

theorem classifyHeld_lineInputs (s : Chip) (a : Access) (toPost : Bool) : (s.classifyHeld a toPost).lineInputs = s.lineInputs := by
  unfold Chip.classifyHeld Chip.acceptAccess
  split_ifs
  · split <;> rfl
  all_goals rfl

theorem endStartUp_lineInputs (s : Chip) : s.endStartUp.lineInputs = s.lineInputs := by
  unfold Chip.endStartUp
  dsimp only
  split
  · split_ifs
    · exact classify_lineInputs _ _ _
    · rfl
  · rfl

theorem softResetPortIdle_lineInputs (s : Chip) : s.softResetPortIdle.lineInputs = s.lineInputs := by
  unfold Chip.softResetPortIdle
  split_ifs
  · exact issueWrite_lineInputs _ _
  · rfl

theorem statusWordWrite_lineInputs (s : Chip) : s.statusWordWrite.lineInputs = s.lineInputs := by
  unfold Chip.statusWordWrite
  split
  · rfl
  · split_ifs
    · rfl
    · exact issueWrite_lineInputs _ _

theorem hostAccess_lineInputs (s : Chip) (a : Access) : (s.hostAccess a).lineInputs = s.lineInputs := by
  unfold Chip.hostAccess
  split_ifs
  · rfl
  all_goals
    dsimp only
    split
    · rfl
    · rfl
    all_goals exact classify_lineInputs _ _ _

theorem holdLimitExpiry_lineInputs (s : Chip) : s.holdLimitExpiry.lineInputs = s.lineInputs := by
  unfold Chip.holdLimitExpiry
  split
  · split_ifs
    · split
      · split_ifs <;> rfl
      · rfl
    all_goals rfl
  · rfl

theorem forwardRead_lineInputs (s : Chip) : s.forwardRead.lineInputs = s.lineInputs := by
  unfold Chip.forwardRead
  split
  · split_ifs
    · exact s.classifyHeld_lineInputs _ _
    all_goals rfl
  · rfl

theorem treatWrite_lineInputs (s : Chip) (a : Access) (n : Nat) (posted : Bool) :
    (s.treatWrite a n posted).lineInputs = s.lineInputs := by
  unfold Chip.treatWrite
  split_ifs
  · rfl
  · dsimp only
    split
    · split_ifs
      · rfl
      · exact issueWrite_lineInputs _ _
    · exact issueWrite_lineInputs _ _

theorem forwardWrite_lineInputs (s : Chip) : s.forwardWrite.lineInputs = s.lineInputs := by
  unfold Chip.forwardWrite
  split
  · exact s.treatWrite_lineInputs _ _ _
  · split_ifs
    · exact s.treatWrite_lineInputs _ _ _
    · rfl
  · rfl

theorem leaveQueue_lineInputs (s : Chip) (n : Nat) : (s.leaveQueue n).lineInputs = s.lineInputs := by
  unfold Chip.leaveQueue
  rw [Chip.serveQueueFull_rest]
  rfl

theorem loseWrite_lineInputs (s : Chip) (f : ForwardPoint) : (s.loseWrite f).lineInputs = s.lineInputs :=
  (hand_lineInputs _ _ _ _ (act := Chip.freeForward) fun _ => rfl).trans (leaveQueue_lineInputs _ _)

theorem endOrdered_lineInputs (s : Chip) (f : ForwardPoint) (a : Answer) : (s.endOrdered f a).lineInputs = s.lineInputs := by
  unfold Chip.endOrdered
  split
  · split_ifs
    · exact (s.examineWords_beyond _ _).lineInputs
    · exact (s.endOrderedWrite_beyond _).lineInputs
  all_goals exact (s.endOrderedWrite_beyond _).lineInputs

theorem forwardedWriteAnswer_lineInputs (s : Chip) (a : Answer) : (s.forwardedWriteAnswer a).lineInputs = s.lineInputs := by
  unfold Chip.forwardedWriteAnswer
  split
  · exact s.answered_lineInputs _ fun _ _ => rfl
  · split_ifs
    · split
      · exact s.answered_lineInputs _ fun _ _ => leaveQueue_lineInputs _ _
      · exact s.answered_lineInputs _ fun _ u => u.loseWrite_lineInputs _
      · rfl
    · exact s.answered_lineInputs _ fun _ u => u.endOrdered_lineInputs _ _

theorem configurePath_lineInputs (s : Chip) (l : Lane) : (s.configurePath l).lineInputs = s.lineInputs := by
  unfold Chip.configurePath
  split
  · rfl
  · split <;> exact finishJob_lineInputs _ _ _ _

/-! ## The submit words -/

theorem popWord_lineInputs (s : Chip) (ws : List PageWord) : (s.popWord ws).lineInputs = s.lineInputs := by
  unfold Chip.popWord
  split <;> rfl

theorem mailboxFault_lineInputs (s : Chip) (l : Lane) : (s.mailboxFault l).lineInputs = s.lineInputs :=
  hand_lineInputs _ _ _ _ nextDirect_lineInputs

theorem queueDescriptor_lineInputs (s : Chip) (l : Lane) (a : Word) : (s.queueDescriptor l a).lineInputs = s.lineInputs := by
  unfold Chip.queueDescriptor
  dsimp only
  split_ifs
  · exact endChain_lineInputs _ _
  · rfl

theorem submit_lineInputs (s : Chip) : s.submit.lineInputs = s.lineInputs := by
  unfold Chip.submit
  split
  · rfl
  · rename_i l v ws _
    refine Eq.trans ?_ (s.popWord_lineInputs ws)
    dsimp only
    split_ifs
    · exact mailboxFault_lineInputs _ _
    · exact continueTake_lineInputs _
    · exact (nextWords_lineInputs _).trans (queueDescriptor_lineInputs _ _ _)

theorem flush_lineInputs (s : Chip) : s.flush.lineInputs = s.lineInputs := by
  unfold Chip.flush
  split
  · rfl
  · rename_i l _ ws _
    refine Eq.trans ?_ (s.popWord_lineInputs ws)
    refine (continueTake_lineInputs _).trans ?_
    split_ifs <;> rfl

theorem noRequest_lineInputs (s : Chip) : s.noRequest.lineInputs = s.lineInputs := by
  unfold Chip.noRequest
  split
  · rfl
  · exact (mailboxFault_lineInputs _ _).trans (s.popWord_lineInputs _)

/-! ## The lanes and the region jobs -/

theorem dispatch_lineInputs (s : Chip) (l : Lane) (d : Descriptor) : (s.dispatch l d).lineInputs = s.lineInputs := by
  unfold Chip.dispatch
  split
  · exact s.finishJob_lineInputs _ _ _
  · split <;> rfl

theorem fetchAnswered_lineInputs (s : Chip) (l : Lane) (a : FinalAnswer) : (s.fetchAnswered l a).lineInputs = s.lineInputs := by
  unfold Chip.fetchAnswered
  split
  · rfl
  · split
    · exact s.hand_lineInputs _ _ _ fun u => u.endChain_lineInputs l
    · dsimp only
      split_ifs
      · exact dispatch_lineInputs _ _ _
      · exact hand_lineInputs _ _ _ _ fun u => u.endChain_lineInputs l

theorem fetchOwnerAnswered_lineInputs (s : Chip) (o : Owner) (a : FinalAnswer) :
    (s.fetchOwnerAnswered o a).lineInputs = s.lineInputs := by
  unfold Chip.fetchOwnerAnswered
  split
  · exact s.fetchAnswered_lineInputs _ _
  · rfl

theorem nullJob_lineInputs (s : Chip) (l : Lane) : (s.nullJob l).lineInputs = s.lineInputs := by
  unfold Chip.nullJob
  split
  · exact s.finishJob_lineInputs _ _ _
  · rfl

theorem outcomeAnswered_lineInputs (s : Chip) (l : Lane) (a : FinalAnswer) : (s.outcomeAnswered l a).lineInputs = s.lineInputs := by
  unfold Chip.outcomeAnswered
  split
  · split
    · exact s.hand_lineInputs _ _ _ fun u => u.endChain_lineInputs l
    · split_ifs
      · exact s.hand_lineInputs _ _ _ fun u => u.decideChain_lineInputs l
      · exact s.decideChain_lineInputs l
      · exact s.hand_lineInputs _ _ _ fun u => u.decideChain_lineInputs l
  · rfl

theorem outcomeOwnerAnswered_lineInputs (s : Chip) (o : Owner) (a : FinalAnswer) :
    (s.outcomeOwnerAnswered o a).lineInputs = s.lineInputs := by
  unfold Chip.outcomeOwnerAnswered
  split
  · exact s.outcomeAnswered_lineInputs _ _
  · rfl

theorem directAnswered_lineInputs (s : Chip) (a : FinalAnswer) : (s.directAnswered a).lineInputs = s.lineInputs := by
  unfold Chip.directAnswered
  split
  · exact s.hand_lineInputs _ _ _ nextDirect_lineInputs
  · rfl

/-- The write that the guard kept back is over, and its lane makes its next access. -/
theorem refusedOver_lineInputs (s : Chip) (o : Owner) : (s.refusedOver.accessOver o).lineInputs = s.lineInputs :=
  (accessOver_lineInputs _ _).trans (presentLane_lineInputs _)

theorem outcomeWriteAnswer_lineInputs (s : Chip) (a : FinalAnswer) : (s.outcomeWriteAnswer a).lineInputs = s.lineInputs := by
  unfold Chip.outcomeWriteAnswer
  split_ifs
  · exact s.answered_lineInputs _ fun _ u => (outcomeOwnerAnswered_lineInputs _ _ _).trans (u.accessOver_lineInputs _)
  · split
    · split_ifs
      · exact (outcomeOwnerAnswered_lineInputs _ _ _).trans (s.refusedOver_lineInputs _)
      · rfl
    · exact s.answered_lineInputs _ fun _ _ => rfl

theorem directWriteAnswer_lineInputs (s : Chip) (a : FinalAnswer) : (s.directWriteAnswer a).lineInputs = s.lineInputs := by
  unfold Chip.directWriteAnswer
  split_ifs
  · exact s.answered_lineInputs _ fun _ u => (directAnswered_lineInputs _ _).trans (u.accessOver_lineInputs _)
  · split
    · split_ifs
      · exact (directAnswered_lineInputs _ _).trans (s.refusedOver_lineInputs _)
      · rfl
    · exact s.answered_lineInputs _ fun _ _ => rfl

theorem regionJob_lineInputs (s : Chip) (l : Lane) (k : JobKind) (j : Descriptor → Region → JobOutcome × Region) :
    (s.regionJob l k j).lineInputs = s.lineInputs := by
  unfold Chip.regionJob
  split
  · rfl
  · split_ifs <;> exact finishJob_lineInputs _ _ _ _

/-! ## The Memory Port and the Copy Engine -/

theorem grantPort_lineInputs (s : Chip) : s.grantPort.lineInputs = s.lineInputs := by
  have hstop : ∀ (u : Chip) r, (u.stopWrite r).lineInputs = u.lineInputs := fun u r => by
    unfold Chip.stopWrite
    split
    · split_ifs
      · rfl
      · exact (u.failFront_frame _).lineInputs
    · split_ifs
      · rfl
      · exact (u.failAhead_frame _).lineInputs
    all_goals rfl
  unfold Chip.grantPort
  split_ifs
  · rfl
  · split
    · rfl
    · dsimp only
      split_ifs
      · exact hstop _ _
      · exact lineInputs_of_attention (grantTo_frame _ _).1.attention

theorem retryReissue_lineInputs (s : Chip) : s.retryReissue.lineInputs = s.lineInputs := by
  unfold Chip.retryReissue
  split
  · rfl
  · split_ifs <;> rfl

theorem copyJob_lineInputs (s : Chip) : s.copyJob.lineInputs = s.lineInputs := by
  unfold Chip.copyJob Chip.runCopy
  split_ifs
  · rfl
  · split
    · rfl
    · split
      · rfl
      · split_ifs
        · exact finishJob_lineInputs _ _ _ _
        · exact (beginSpan_frame _).lineInputs

/-! ## Captures -/

theorem answerGo_lineInputs (s : Chip) (q : Requester) : (s.answerGo q).lineInputs = s.lineInputs := by
  obtain ⟨-, -, -, hattention, -⟩ := s.answerGo_frame q
  exact lineInputs_of_attention hattention

theorem answerAll_lineInputs (s : Chip) : s.answerAll.lineInputs = s.lineInputs := by
  obtain ⟨-, -, -, hattention, -⟩ := s.answerAll_frame
  exact lineInputs_of_attention hattention

theorem breakLog_lineInputs (s : Chip) (r : Reason) : (s.breakLog r).lineInputs = s.lineInputs := by
  unfold Chip.breakLog
  split_ifs
  · rfl
  · exact (answerAll_lineInputs _).trans (handLog_lineInputs _ _ _)

theorem endHold_lineInputs (s : Chip) : s.endHold.lineInputs = s.lineInputs := by
  obtain ⟨-, hattention, -⟩ := s.endHold_frame
  exact lineInputs_of_attention hattention

theorem endLogJob_lineInputs (s : Chip) (o : JobOutcome) (r : Word) : (s.endLogJob o r).lineInputs = s.lineInputs :=
  (s.endLogJob_frame o r).1.lineInputs

theorem failRollback_lineInputs (s : Chip) (r : Reason) (n : Nat) : (s.failRollback r n).lineInputs = s.lineInputs :=
  ((endLogJob_lineInputs _ _ _).trans (breakLog_lineInputs _ _)).trans (endHold_lineInputs _)

theorem stallRequest_lineInputs (s : Chip) (r : CaptureRequest) : (s.stallRequest r).lineInputs = s.lineInputs := by
  unfold Chip.stallRequest
  dsimp only
  split_ifs
  · rfl
  all_goals exact handLog_lineInputs _ _ _

theorem takeCapture_lineInputs (s : Chip) (r : CaptureRequest) : (s.takeCapture r).lineInputs = s.lineInputs := by
  unfold Chip.takeCapture
  split_ifs
  · exact s.answerGo_lineInputs _
  · exact s.answerGo_lineInputs _
  · exact (answerGo_lineInputs _ _).trans (s.failRollback_lineInputs _ _)
  · exact (answerGo_lineInputs _ _).trans (s.breakLog_lineInputs _)
  · exact s.stallRequest_lineInputs r
  · rfl

theorem retakeStalled_lineInputs (s : Chip) (n : Nat) : (s.retakeStalled n).lineInputs = s.lineInputs := by
  induction n generalizing s with
  | zero => rfl
  | succ n ih =>
    unfold Chip.retakeStalled
    split_ifs
    · rfl
    · split
      · rfl
      · split_ifs
        · rfl
        · exact (ih _).trans (takeCapture_lineInputs _ _)

theorem retake_lineInputs (s : Chip) : s.retake.lineInputs = s.lineInputs := by
  refine Eq.trans ?_ (s.retakeStalled_lineInputs s.log.requests.length)
  unfold Chip.retake Chip.settleStall
  split_ifs <;> rfl

theorem issueRecordWrite_lineInputs (s : Chip) (r : PortRequest) : (s.issueRecordWrite r).lineInputs = s.lineInputs := by
  unfold Chip.issueRecordWrite
  split
  · exact (s.failAhead_frame _).lineInputs
  · exact s.issueWrite_lineInputs r

theorem completeCapture_lineInputs (s : Chip) (c : Capture) : (s.completeCapture c).lineInputs = s.lineInputs := by
  have hend : ∀ u : Chip, (u.endCapture c).lineInputs = u.lineInputs := fun u => by
    unfold Chip.endCapture
    dsimp only
    split_ifs
    · exact answerGo_lineInputs _ _
    · rfl
  refine ((retake_lineInputs _).trans (hend _)).trans ?_
  split_ifs <;> rfl

theorem captureFault_lineInputs (s : Chip) : s.captureFault.lineInputs = s.lineInputs := by
  unfold Chip.captureFault
  split_ifs
  · exact s.failRollback_lineInputs _ _
  · exact s.breakLog_lineInputs _
  · rfl

theorem failShared_lineInputs (s : Chip) : s.failShared.lineInputs = s.lineInputs := by
  unfold Chip.failShared
  split_ifs
  · split <;> rfl
  · exact (s.endCopy_frame _).lineInputs

theorem failCapture_lineInputs (s : Chip) (c : Capture) : (s.failCapture c).lineInputs = s.lineInputs := by
  have hshared : ∀ u : Chip, (if u.sharesRead c then u.failShared else u).lineInputs = u.lineInputs := fun u => by
    split_ifs
    · exact u.failShared_lineInputs
    · rfl
  have hgo : ∀ u : Chip, (if c.answer then u.answerGo c.request.requester else u).lineInputs = u.lineInputs := fun u => by
    split_ifs
    · exact u.answerGo_lineInputs _
    · rfl
  exact (((retake_lineInputs _).trans (hgo _)).trans (hshared _)).trans (captureFault_lineInputs _)

theorem captureAnswered_lineInputs (s : Chip) (a : FinalAnswer) : (s.captureAnswered a).lineInputs = s.lineInputs := by
  have hkeep : ∀ (u : Chip) c, (u.keepImage c).lineInputs = u.lineInputs := fun u c => by
    unfold Chip.keepImage
    split <;> rfl
  unfold Chip.captureAnswered
  split
  · rfl
  · split
    · unfold Chip.advanceCapture
      dsimp only
      split
      · rfl
      · exact (issueRecordWrite_lineInputs _ _).trans (hkeep _ _)
      · exact issueRecordWrite_lineInputs _ _
      · exact issueRecordWrite_lineInputs _ _
      · exact s.completeCapture_lineInputs _
    · exact s.failCapture_lineInputs _

theorem captureRequest_lineInputs (s : Chip) : s.captureRequest.lineInputs = s.lineInputs := by
  unfold Chip.captureRequest
  split_ifs
  · rfl
  · split
    · rfl
    · dsimp only
      split_ifs
      · exact stallRequest_lineInputs _ _
      · exact takeCapture_lineInputs _ _

theorem stallTimerExpiry_lineInputs (s : Chip) : s.stallTimerExpiry.lineInputs = s.lineInputs := by
  unfold Chip.stallTimerExpiry
  split_ifs
  · exact s.breakLog_lineInputs _
  · rfl

/-! ## Log jobs -/

theorem acceptLog_lineInputs {check : Descriptor → Chip → JobOutcome} {accept : Descriptor → Chip → Chip}
    (h : ∀ d u, (accept d u).lineInputs = u.lineInputs) (l : Lane) (d : Descriptor) (s : Chip) :
    (Chip.acceptLog check accept l d s).lineInputs = s.lineInputs := by
  unfold Chip.acceptLog
  split_ifs
  · exact h d s
  · exact s.endLogJob_lineInputs _ _

theorem grantLog_lineInputs (s : Chip) (k : JobKind) (check : Descriptor → Chip → JobOutcome) (between : Bool)
    {act : Lane → Descriptor → Chip → Chip} (h : ∀ l d u, (act l d u).lineInputs = u.lineInputs) :
    (s.grantLog k check between act).lineInputs = s.lineInputs := by
  unfold Chip.grantLog
  split
  · split
    · split_ifs
      · exact h _ _ _
      · rfl
    · rfl
  · rfl
  · split
    · rfl
    · split
      · rfl
      · split
        · rfl
        · dsimp only
          split_ifs
          · exact endLogJob_lineInputs _ _ _
          · exact h _ _ _
          · rfl

theorem detachAccept_lineInputs (d : Descriptor) (s : Chip) : (detachAccept d s).lineInputs = s.lineInputs :=
  (endLogJob_lineInputs _ _ _).trans (answerAll_lineInputs _)

theorem voidingStart_lineInputs (s : Chip) : s.voidingStart.lineInputs = s.lineInputs := by
  unfold Chip.voidingStart
  split
  · split_ifs
    · exact issueWrite_lineInputs _ _
    · rfl
  · rfl

theorem voidAnswered_lineInputs (s : Chip) (a : FinalAnswer) : (s.voidAnswered a).lineInputs = s.lineInputs := by
  unfold Chip.voidAnswered
  split
  · split
    · split
      · exact endLogJob_lineInputs _ _ _
      · split_ifs
        · exact issueWrite_lineInputs _ _
        · exact endLogJob_lineInputs _ _ _
    · rfl
  · rfl

theorem markAppend_lineInputs (s : Chip) : s.markAppend.lineInputs = s.lineInputs := by
  unfold Chip.markAppend
  split
  · split_ifs
    · exact endLogJob_lineInputs _ _ _
    · exact endLogJob_lineInputs _ _ _
    · rfl
  · rfl

theorem releaseStep_lineInputs {finish : JobOutcome → Word → Chip → Chip}
    (h : ∀ o r u, (finish o r u).lineInputs = u.lineInputs) (d : Descriptor) (s : Chip) :
    (Chip.releaseStep finish d s).lineInputs = s.lineInputs := by
  unfold Chip.releaseStep
  split_ifs
  · exact h _ _ _
  · split
    · exact h _ _ _
    · exact (retake_lineInputs _).trans (h _ _ _)

theorem release_lineInputs (s : Chip) : s.release.lineInputs = s.lineInputs := by
  have hbeside : ∀ l d (u : Chip), (Chip.releaseStep (Chip.endBeside l) d u).lineInputs = u.lineInputs := fun l =>
    releaseStep_lineInputs fun _ _ _ => finishJob_lineInputs _ _ _ _
  unfold Chip.release
  split
  · split
    · split_ifs
      · exact hbeside _ _ _
      · rfl
    · rfl
  · split_ifs
    · split
      · rfl
      · split
        · rfl
        · dsimp only
          split_ifs
          · exact hbeside _ _ _
          · rfl
    · exact s.grantLog_lineInputs _ _ _ fun _ => releaseStep_lineInputs fun _ _ u => u.endLogJob_lineInputs _ _

theorem reportAnswered_lineInputs (s : Chip) (a : FinalAnswer) : (s.reportAnswered a).lineInputs = s.lineInputs := by
  unfold Chip.reportAnswered
  split
  · rename_i r _
    split
    · exact s.endLogJob_lineInputs _ _
    · dsimp only
      generalize r.written + _ = n
      split_ifs
      · exact issueWrite_lineInputs _ _
      · exact s.endLogJob_lineInputs _ _
  · rfl

/-! ## Rollback -/

theorem trimAndReturn_lineInputs (s : Chip) (c : Rollback) (issued : Bool) : (s.trimAndReturn c issued).lineInputs = s.lineInputs :=
  (endLogJob_lineInputs _ _ _).trans (endHold_lineInputs _)

theorem finishRollback_lineInputs (s : Chip) (c : Rollback) : (s.finishRollback c).lineInputs = s.lineInputs := by
  unfold Chip.finishRollback
  dsimp only
  split
  · exact trimAndReturn_lineInputs _ _ _
  · split
    · exact trimAndReturn_lineInputs _ _ _
    · exact issueWrite_lineInputs _ _

theorem rollbackDrainEnd_lineInputs (s : Chip) : s.rollbackDrainEnd.lineInputs = s.lineInputs := by
  unfold Chip.rollbackDrainEnd
  split
  · rfl
  · dsimp only
    split_ifs
    · exact s.finishRollback_lineInputs _
    all_goals rfl

theorem restoreAnswered_lineInputs (s : Chip) (a : FinalAnswer) : (s.restoreAnswered a).lineInputs = s.lineInputs := by
  unfold Chip.restoreAnswered
  split
  · rfl
  · split_ifs
    · split
      · unfold Chip.advanceWalk
        dsimp only
        split
        · rfl
        · rfl
        · split_ifs
          · exact issueWrite_lineInputs _ _
          · exact s.failRollback_lineInputs _ _
        · exact issueWrite_lineInputs _ _
        · split_ifs
          · exact s.finishRollback_lineInputs _
          · rfl
      · exact s.failRollback_lineInputs _ _
    · rfl

theorem markerAnswered_lineInputs (s : Chip) (a : FinalAnswer) : (s.markerAnswered a).lineInputs = s.lineInputs := by
  unfold Chip.markerAnswered
  split
  · rfl
  · split_ifs
    · split
      · exact s.trimAndReturn_lineInputs _ _
      · exact (breakLog_lineInputs _ _).trans (s.trimAndReturn_lineInputs _ _)
    · rfl

/-! ## Adopting a log -/

theorem finishScan_lineInputs (s : Chip) (c : Scan) (n : Newest) : (s.finishScan c n).lineInputs = s.lineInputs := by
  unfold Chip.finishScan
  split_ifs <;> exact endLogJob_lineInputs _ _ _

theorem walkOn_lineInputs (s : Chip) (c : Scan) (n : Newest) : (s.walkOn c n).lineInputs = s.lineInputs := by
  unfold Chip.walkOn
  split_ifs
  · exact s.finishScan_lineInputs _ _
  · rfl

theorem judgeSlot_lineInputs (s : Chip) (c : Scan) (second : Line) : (s.judgeSlot c second).lineInputs = s.lineInputs := by
  unfold Chip.judgeSlot
  split
  · dsimp only
    split_ifs
    · rfl
    · unfold Chip.endSelect
      split
      · exact endLogJob_lineInputs _ _ _
      · exact s.walkOn_lineInputs _ _
  · split
    · rfl
    · split_ifs
      · exact s.walkOn_lineInputs _ _
      · exact s.finishScan_lineInputs _ _
      · exact s.finishScan_lineInputs _ _

theorem scanAnswered_lineInputs (s : Chip) (a : FinalAnswer) : (s.scanAnswered a).lineInputs = s.lineInputs := by
  unfold Chip.scanAnswered
  split
  · split_ifs
    · split
      · exact endLogJob_lineInputs _ _ _
      · dsimp only
        split
        · rfl
        · rfl
        · exact s.judgeSlot_lineInputs _ _
    · rfl
  · rfl

theorem selectPassStart_lineInputs (s : Chip) : s.selectPassStart.lineInputs = s.lineInputs := by
  unfold Chip.selectPassStart
  split
  · split_ifs <;> rfl
  · rfl

/-! ## The posting of a record -/

theorem issuePosting_lineInputs (s : Chip) (p : Posting) : (s.issuePosting p).lineInputs = s.lineInputs :=
  issueWrite_lineInputs _ _

theorem attentionPosting_lineInputs (s : Chip) : s.attentionPosting.lineInputs = s.lineInputs := by
  have hdecide : ∀ (u : Chip) x, (u.decidePosting x).lineInputs = u.lineInputs := fun u x => by
    unfold Chip.decidePosting
    dsimp only
    split_ifs
    · exact issuePosting_lineInputs _ _
    · exact issuePosting_lineInputs _ _
    · split
      · exact issuePosting_lineInputs _ _
      · rfl
  unfold Chip.attentionPosting
  split_ifs
  · split
    · rfl
    · exact (serveHanding_beyond _ _).lineInputs.trans (hdecide _ _)
  · rfl

end Chip

end Sys2Proof.Machine

/-! PROOF. The ATTN line (O55). -/

namespace Sys2Proof.Machine
variable {s t : Chip} {p : Posting} {c : PendingConfigure}

theorem Chip.attnLine_of_lineInputs {configured enable : Bool} {produce consume : Half}
    (h : t.lineInputs = (configured, enable, produce, consume)) :
    t.attnLine = true ↔ configured = true ∧ enable = true ∧ produce ≠ consume := by
  obtain ⟨rfl, hrest⟩ := Prod.mk.inj h
  obtain ⟨rfl, hindices⟩ := Prod.mk.inj hrest
  obtain ⟨rfl, rfl⟩ := Prod.mk.inj hindices
  exact t.attnLine_iff

/-! ## A configure and a FAULT: the line is not asserted (R168, R174) -/

/-- A ring that has just been configured is empty, and one that has been unconfigured is none. -/
theorem Chip.takeConfigure_attnLine (s : Chip) (c : PendingConfigure) : (s.takeConfigure c).attnLine = false := by
  refine Bool.eq_false_of_not_eq_true fun hline => ?_
  by_cases hbase : c.base = 0#32
  · rw [Chip.takeConfigure_of_removal hbase] at hline
    have hgone := (Chip.finishJob_lineInputs _ c.lane .done 0#32).trans s.ringRemoved.dropHandings_beyond.lineInputs
    exact Bool.false_ne_true ((Chip.attnLine_of_lineInputs hgone).mp hline).1
  · rw [Chip.takeConfigure_of_placement hbase] at hline
    have hempty := (Chip.finishJob_lineInputs _ c.lane .done (BitVec.ofNat 32 c.capacity)).trans
      ((s.ringPlaced c).issuePosting_lineInputs configurePosting)
    obtain ⟨-, -, hdiffer⟩ := (Chip.attnLine_of_lineInputs hempty).mp hline
    exact hdiffer rfl

theorem Chip.deconfigure_attnLine (s : Chip) : s.deconfigure.attnLine = false := by
  obtain ⟨-, -, -, -, -, -, -, -, -, hline, -⟩ := s.deconfigure_deconfigured
  exact hline

/-- The configure of a job that is due either takes effect or leaves the line alone. -/
theorem Chip.configureAttention_line (s : Chip) (l : Lane) :
    (s.configureAttention l).attnLine = false ∨ (s.configureAttention l).lineInputs = s.lineInputs := by
  unfold Chip.configureAttention
  split
  · exact .inr rfl
  · dsimp only
    split_ifs
    · exact .inr rfl
    · exact .inr rfl
    · exact .inl (Chip.takeConfigure_attnLine _ _)
    · exact .inr (s.finishJob_lineInputs _ _ _)

/-! ## The answer to a write of a posting (R170, R173) -/

/-- The answer that makes a record count: the second half of a record, and not of a rewrite. -/
def Posting.Counts (p : Posting) : Prop := p.step = .high ∧ ∀ n, p.kind ≠ .rewrite n

theorem Chip.advancePosting_of_counts (h : p.Counts) : (s.advancePosting p).lineInputs =
    (s.attention.configured, s.attention.lineEnable, s.attention.produce + 1#16, s.attention.consume) := by
  obtain ⟨hstep, hkind⟩ := h
  unfold Chip.advancePosting Chip.countPosting
  rw [hstep]
  dsimp only
  split
  · exact Chip.issuePosting_lineInputs _ _
  · rename_i n hk
    exact absurd hk (hkind n)
  all_goals exact Chip.issuePosting_lineInputs _ _

theorem Chip.advancePosting_of_not_counts (h : ¬p.Counts) : (s.advancePosting p).lineInputs = s.lineInputs := by
  cases hstep : p.step with
  | low =>
    unfold Chip.advancePosting
    rw [hstep]
    exact s.issuePosting_lineInputs _
  | high =>
    have hrewrite : ∃ n, p.kind = .rewrite n := by
      by_contra hnone
      exact h ⟨hstep, fun n hn => hnone ⟨n, hn⟩⟩
    obtain ⟨n, hk⟩ := hrewrite
    rw [Chip.advancePosting_of_rewrite hstep hk]
    rfl
  | produce =>
    rw [Chip.advancePosting_of_produce hstep]
    rfl

/-- After a FAULT, and after a configure that has waited, the line is not asserted. -/
theorem Chip.attentionAnswered_of_ends {a : FinalAnswer} (hp : s.attention.posting = some p)
    (h : a = .fault ∨ s.attention.configure ≠ none) : (s.attentionAnswered a).attnLine = false := by
  cases hc : s.attention.configure with
  | none =>
    obtain rfl : a = .fault := h.resolve_right fun hne => hne hc
    rw [(Chip.attentionAnswered_of_posting (data := 0) hp hc).2]
    exact s.deconfigure_attnLine
  | some c =>
    cases a with
    | done data =>
      rw [(Chip.attentionAnswered_of_configure hp hc).1]
      exact Chip.takeConfigure_attnLine _ _
    | fault =>
      rw [(Chip.attentionAnswered_of_configure (data := 0) hp hc).2]
      exact Chip.takeConfigure_attnLine _ _

/-- Only a record that comes to count raises the line. -/
theorem Chip.attentionAnswered_raises {a : FinalAnswer} (hlow : s.attnLine = false) (hline : (s.attentionAnswered a).attnLine = true) :
    ∃ data p, a = .done data ∧ s.attention.posting = some p ∧ p.step = .high := by
  cases hp : s.attention.posting with
  | none =>
    have hsame : s.attentionAnswered a = s := by
      unfold Chip.attentionAnswered
      rw [hp]
    rw [hsame, hlow] at hline
    cases hline
  | some p =>
    by_cases hends : a = .fault ∨ s.attention.configure ≠ none
    · rw [Chip.attentionAnswered_of_ends hp hends] at hline
      cases hline
    · obtain ⟨hdone, hnone⟩ := not_or.mp hends
      cases a with
      | fault => exact absurd rfl hdone
      | done data =>
        rw [(Chip.attentionAnswered_of_posting hp (not_not.mp hnone)).1] at hline
        by_cases hcounts : p.Counts
        · exact ⟨data, p, rfl, rfl, hcounts.1⟩
        · rw [Chip.attnLine_congr (Chip.advancePosting_of_not_counts hcounts), hlow] at hline
          cases hline

/-! ## The consume word (R172) -/

/-- The command takes a valid index, or leaves the line's inputs alone. -/
theorem Chip.consumeWord_line (s : Chip) :
    s.consumeWord.lineInputs = s.lineInputs ∨
    ∃ c, s.attention.validConsume c = true ∧
      s.consumeWord.lineInputs = (s.attention.configured, s.attention.lineEnable, s.attention.produce, c) := by
  unfold Chip.consumeWord
  split
  · rename_i v _ ws _
    have hpop : (s.popWord ws).attention = s.attention := by
      unfold Chip.popWord
      split <;> rfl
    dsimp only
    split_ifs with hnone hvalid
    · exact .inl ((Chip.nextWords_lineInputs _).trans (s.popWord_lineInputs ws))
    · refine .inr ⟨_, hvalid, (Chip.nextWords_lineInputs _).trans ?_⟩
      rw [hpop]
      rfl
    · split
      · exact .inl ((Chip.hand_lineInputs _ _ _ _ Chip.nextWords_lineInputs).trans (s.popWord_lineInputs ws))
      · exact .inl rfl
  · exact .inl rfl

/-- A valid index leaves records only where there were some. -/
theorem AttentionState.ne_consume_of_valid {a : AttentionState} {c : Half} (h : a.validConsume c = true) (hne : a.produce ≠ c) :
    a.produce ≠ a.consume := by
  rw [AttentionState.validConsume_iff, AttentionState.occupancy] at h
  bv_omega

/-! ## Which commands can move the line -/

/-- The commands that can change the line: the two resets, a consume word, a configure, the answer to an attention write, and the
FAULT that a last RETRY counts as. -/
def movesAttnLine : Instr → Bool
  | .pinReset _ | .resetPart | .consumeWord | .retryLimitExhausted | .configureAttention _ | .attentionWriteAnswer _ => true
  | _ => false

/-- Every other command leaves what the line depends on. -/
theorem Chip.after_lineInputs {i : Instr} (h : movesAttnLine i = false) (s : Chip) : (s.after i).lineInputs = s.lineInputs := by
  cases i with
  | pinReset _ | resetPart | consumeWord | retryLimitExhausted | configureAttention _ | attentionWriteAnswer _ => cases h
  | softResetPortIdle => exact s.softResetPortIdle_lineInputs
  | startUp _ => exact s.answered_lineInputs _ fun _ u => u.endStartUp_lineInputs
  | statusWordWrite => exact s.statusWordWrite_lineInputs
  | hostAccessArrival a => exact s.hostAccess_lineInputs a
  | holdLimitExpiry => exact s.holdLimitExpiry_lineInputs
  | forwardRead => exact s.forwardRead_lineInputs
  | forwardWrite => exact s.forwardWrite_lineInputs
  | orderedReadAnswer _ => exact s.answered_lineInputs _ fun _ _ => rfl
  | forwardedWriteAnswer a => exact s.forwardedWriteAnswer_lineInputs a
  | submit => exact s.submit_lineInputs
  | flush => exact s.flush_lineInputs
  | noRequest => exact s.noRequest_lineInputs
  | memoryPortGrant => exact s.grantPort_lineInputs
  | retryReissue => exact s.retryReissue_lineInputs
  | configurePath l => exact s.configurePath_lineInputs l
  | defineRegion l | startCapture l | stopCapture l | clearFault l | deleteRegion l => exact s.regionJob_lineInputs l _ _
  | captureRequest => exact s.captureRequest_lineInputs
  | captureTransferAnswer a => exact s.answered_lineInputs _ fun _ u => u.captureAnswered_lineInputs a
  | stallTimerExpiry => exact s.stallTimerExpiry_lineInputs
  | attachLog => exact s.grantLog_lineInputs _ _ _ (Chip.acceptLog_lineInputs fun _ _ => rfl)
  | voidingStart => exact s.voidingStart_lineInputs
  | voidWriteAnswer a => exact s.answered_lineInputs _ fun _ u => u.voidAnswered_lineInputs a
  | detachLog => exact s.grantLog_lineInputs _ _ _ (Chip.acceptLog_lineInputs Chip.detachAccept_lineInputs)
  | mark => exact s.grantLog_lineInputs _ _ _ (Chip.acceptLog_lineInputs fun _ _ => rfl)
  | markAppend => exact s.markAppend_lineInputs
  | release => exact s.release_lineInputs
  | reportLog => exact s.grantLog_lineInputs _ _ _ fun _ _ _ => Chip.issueWrite_lineInputs _ _
  | reportWriteAnswer a => exact s.answered_lineInputs _ fun _ u => u.reportAnswered_lineInputs a
  | rollback => exact s.grantLog_lineInputs _ _ _ (Chip.acceptLog_lineInputs fun _ _ => rfl)
  | rollbackDrainEnd => exact s.rollbackDrainEnd_lineInputs
  | restoreAccessAnswer a => exact s.answered_lineInputs _ fun _ u => u.restoreAnswered_lineInputs a
  | markerWriteAnswer a => exact s.answered_lineInputs _ fun _ u => u.markerAnswered_lineInputs a
  | adoptLog => exact s.grantLog_lineInputs _ _ _ (Chip.acceptLog_lineInputs fun _ _ => rfl)
  | selectPassStart => exact s.selectPassStart_lineInputs
  | scanReadAnswer a => exact s.answered_lineInputs _ fun _ u => u.scanAnswered_lineInputs a
  | copy => exact s.copyJob_lineInputs
  | frontierTransferAnswer a => exact s.answered_lineInputs _ fun _ u => (u.frontAnswered_frame a).lineInputs
  | pacingWindowExpiry => exact s.windowExpiry_frame.lineInputs
  | copyAheadRequest => exact s.copyAheadRequest_frame.lineInputs
  | copyAheadTransferAnswer a => exact s.answered_lineInputs _ fun _ u => (u.aheadAnswered_frame a).lineInputs
  | cancelCopy l => exact (s.cancelCopy_frame l).lineInputs
  | descriptorFetchAnswer a =>
    exact s.answered_lineInputs _ fun _ u => (Chip.fetchOwnerAnswered_lineInputs _ _ a).trans (u.accessOver_lineInputs _)
  | null l => exact s.nullJob_lineInputs l
  | outcomeWriteAnswer a => exact s.outcomeWriteAnswer_lineInputs a
  | directOutcomeWriteAnswer a => exact s.directWriteAnswer_lineInputs a
  | attentionPosting => exact s.attentionPosting_lineInputs
  | statusWordWriteAnswer _ => exact s.answered_lineInputs _ fun _ _ => rfl

/-- Of the owners that a last RETRY faults only the Attention Unit changes the line's inputs. -/
theorem Chip.ownerFault_lineInputs {r : PortRequest} (h : r.owner ≠ .attention) (s : Chip) :
    (s.ownerFault r).lineInputs = s.lineInputs := by
  unfold Chip.ownerFault
  cases ho : r.owner with
  | attention => exact absurd ho h
  | startUp => exact s.endStartUp_lineInputs
  | status | forwardRead => rfl
  | forwardWrite _ =>
    dsimp only
    split
    · exact s.loseWrite_lineInputs _
    · rfl
  | capture => exact s.captureAnswered_lineInputs _
  | copyAhead => exact (s.aheadAnswered_frame _).lineInputs
  | laneFetch _ => exact (Chip.fetchAnswered_lineInputs _ _ _).trans (s.accessOver_lineInputs _)
  | laneOutcome _ => exact (Chip.outcomeAnswered_lineInputs _ _ _).trans (s.accessOver_lineInputs _)
  | laneDirect _ => exact (Chip.directAnswered_lineInputs _ _).trans (s.accessOver_lineInputs _)
  | void => exact s.voidAnswered_lineInputs _
  | scan => exact s.scanAnswered_lineInputs _
  | restore => exact s.restoreAnswered_lineInputs _
  | marker => exact s.markerAnswered_lineInputs _
  | report => exact s.reportAnswered_lineInputs _
  | frontier => exact (s.frontAnswered_frame _).lineInputs

/-! ## The commands that never raise the line -/

/-- Where the answer to a transaction raises the line, the owner's own step does. -/
theorem Chip.answered_raises {q : Owner → Bool} {act : PortRequest → Chip → Chip} (hlow : s.attnLine = false)
    (hline : (s.answered q act).attnLine = true) : ∃ r, (act r s.endTransaction).attnLine = true := by
  have hquiet : ¬s.attnLine = true := by
    rw [hlow]
    exact Bool.false_ne_true
  unfold Chip.answered at hline
  split at hline
  · rename_i r _
    split_ifs at hline
    · exact absurd hline hquiet
    · exact ⟨r, hline⟩
    · exact absurd hline hquiet
  · exact absurd hline hquiet

/-- A FAULT never raises the line, whatever owner takes it. -/
theorem Chip.ownerFault_low (hlow : s.attnLine = false) (r : PortRequest) : (s.ownerFault r).attnLine = false := by
  by_cases ho : r.owner = .attention
  · have hfault : s.ownerFault r = s.attentionAnswered .fault := by
      unfold Chip.ownerFault
      rw [ho]
    rw [hfault]
    refine Bool.eq_false_of_not_eq_true fun hline => ?_
    obtain ⟨_, _, hdone, -⟩ := Chip.attentionAnswered_raises hlow hline
    cases hdone
  · rw [Chip.attnLine_congr (Chip.ownerFault_lineInputs ho s), hlow]

theorem Chip.retryExhausted_low (hlow : s.attnLine = false) : s.retryExhausted.attnLine = false := by
  refine Bool.eq_false_of_not_eq_true fun hline => ?_
  unfold Chip.retryExhausted at hline
  split_ifs at hline
  · obtain ⟨r, hraised⟩ := Chip.answered_raises hlow hline
    rw [Chip.ownerFault_low (by exact hlow) r] at hraised
    cases hraised
  · rw [hlow] at hline
    cases hline

theorem Chip.resetPart_low (hlow : s.attnLine = false) : s.resetPart.attnLine = false := by
  unfold Chip.resetPart
  split
  · rfl
  · exact hlow

theorem Chip.configureAttention_low (hlow : s.attnLine = false) (l : Lane) : (s.configureAttention l).attnLine = false := by
  rcases s.configureAttention_line l with hfalse | hsame
  · exact hfalse
  · rw [Chip.attnLine_congr hsame, hlow]

theorem Chip.consumeWord_low (hlow : s.attnLine = false) : s.consumeWord.attnLine = false := by
  rcases s.consumeWord_line with hsame | ⟨c, hvalid, htaken⟩
  · rw [Chip.attnLine_congr hsame, hlow]
  · refine Bool.eq_false_of_not_eq_true fun hline => ?_
    obtain ⟨hconfigured, henable, hdiffer⟩ := (Chip.attnLine_of_lineInputs htaken).mp hline
    have hearlier := s.attnLine_iff.mpr ⟨hconfigured, henable, AttentionState.ne_consume_of_valid hvalid hdiffer⟩
    rw [hlow] at hearlier
    cases hearlier

/-! ## When the line rises and falls (R173) -/

/-- The line rises only at the second half of a record. -/
theorem Chip.after_raises {i : Instr} (hlow : s.attnLine = false) (hline : (s.after i).attnLine = true) :
    ∃ data p, i = .attentionWriteAnswer (.done data) ∧ s.attention.posting = some p ∧ p.step = .high := by
  cases hmoves : movesAttnLine i with
  | false =>
    rw [Chip.attnLine_congr (Chip.after_lineInputs hmoves s), hlow] at hline
    cases hline
  | true =>
    cases i with
    | attentionWriteAnswer a =>
      obtain ⟨_, hraised⟩ := Chip.answered_raises hlow hline
      obtain ⟨data, p, rfl, hp, hstep⟩ := Chip.attentionAnswered_raises (s := s.endTransaction) hlow hraised
      exact ⟨data, p, rfl, hp, hstep⟩
    | pinReset _ => cases hline
    | resetPart => exact absurd hline (Bool.eq_false_iff.mp (Chip.resetPart_low hlow))
    | consumeWord => exact absurd hline (Bool.eq_false_iff.mp (Chip.consumeWord_low hlow))
    | retryLimitExhausted => exact absurd hline (Bool.eq_false_iff.mp (Chip.retryExhausted_low hlow))
    | configureAttention l => exact absurd hline (Bool.eq_false_iff.mp (Chip.configureAttention_low hlow l))
    | _ => cases hmoves

/-- A command at which the line falls is one of those that can move it. -/
theorem Chip.after_falls {i : Instr} (hhigh : s.attnLine = true) (hline : (s.after i).attnLine = false) :
    (∃ page, i = .pinReset page) ∨ i = .resetPart ∨ i = .consumeWord ∨ (∃ l, i = .configureAttention l) ∨
      (∃ a, i = .attentionWriteAnswer a) ∨ i = .retryLimitExhausted := by
  cases hmoves : movesAttnLine i with
  | false =>
    rw [Chip.attnLine_congr (Chip.after_lineInputs hmoves s), hhigh] at hline
    cases hline
  | true =>
    cases i with
    | pinReset page => exact .inl ⟨page, rfl⟩
    | resetPart => exact .inr (.inl rfl)
    | consumeWord => exact .inr (.inr (.inl rfl))
    | configureAttention l => exact .inr (.inr (.inr (.inl ⟨l, rfl⟩)))
    | attentionWriteAnswer a => exact .inr (.inr (.inr (.inr (.inl ⟨a, rfl⟩))))
    | retryLimitExhausted => exact .inr (.inr (.inr (.inr (.inr rfl))))
    | _ => cases hmoves

/-! ## The line as the commands leave it -/

/-- An answer DONE with no configure that has waited: the line follows the index it leaves. -/
theorem Chip.attentionAnswered_attnLine {data : Line} (hp : s.attention.posting = some p) (hc : s.attention.configure = none) :
    (p.Counts → ((s.attentionAnswered (.done data)).attnLine = true ↔ s.attention.configured = true ∧
      s.attention.lineEnable = true ∧ s.attention.produce + 1#16 ≠ s.attention.consume)) ∧
    (¬p.Counts → (s.attentionAnswered (.done data)).attnLine = s.attnLine) := by
  rw [(Chip.attentionAnswered_of_posting hp hc).1]
  exact ⟨fun hcounts => Chip.attnLine_of_lineInputs (Chip.advancePosting_of_counts hcounts),
    fun hnot => Chip.attnLine_congr (Chip.advancePosting_of_not_counts hnot)⟩

/-- A consume word that is not valid leaves the line alone. -/
theorem Chip.consumeWord_attnLine_of_ignored {f : ForwardPoint} {v : Word} {ws : List PageWord} (h : s.WordNext f .consume v ws)
    (hinvalid : ¬(s.attention.configured = true ∧ s.attention.validConsume (consumeIndex v) = true)) :
    s.consumeWord.attnLine = s.attnLine := by
  refine Chip.attnLine_congr ?_
  cases hc : s.attention.configured with
  | false =>
    rw [Chip.consumeWord_of_unconfigured h hc]
    exact Chip.nextWords_lineInputs _
  | true =>
    rw [Chip.consumeWord_of_invalid h hc (Bool.eq_false_of_not_eq_true fun hv => hinvalid ⟨hc, hv⟩)]
    exact Chip.hand_lineInputs _ _ _ _ Chip.nextWords_lineInputs

theorem Chip.consumeWord_attnLine_of_valid {f : ForwardPoint} {v : Word} {ws : List PageWord} (h : s.WordNext f .consume v ws)
    (hc : s.attention.configured = true) (hv : s.attention.validConsume (consumeIndex v) = true) :
    s.consumeWord.attnLine = true ↔ s.attention.lineEnable = true ∧ s.attention.produce ≠ consumeIndex v := by
  have htaken : s.consumeWord.lineInputs =
      (true, s.attention.lineEnable, s.attention.produce, consumeIndex v) := by
    rw [Chip.consumeWord_of_valid h hc hv, Chip.nextWords_lineInputs, ← hc]
    rfl
  rw [Chip.attnLine_of_lineInputs htaken, eq_self_iff_true, true_and]

/-- A configure job that is refused or left to wait leaves the line alone. -/
theorem Chip.configureAttention_attnLine_of_not_taken {l : Lane} {addr : Word} {d : Descriptor} (h : s.HasJob l .run addr d)
    (hd : d.code = 2#8) (hnone : s.attention.configure = none) (htakes : ¬(s.configureCheck d = .done ∧ ¬s.InFlight .attention)) :
    (s.configureAttention l).attnLine = s.attnLine := by
  obtain ⟨hrefused, hwaits, -⟩ := Chip.configureAttention_of_job h hd hnone
  by_cases hdone : s.configureCheck d = .done
  · rw [hwaits hdone (not_not.mp fun hn => htakes ⟨hdone, hn⟩)]
    rfl
  · rw [hrefused hdone]
    exact Chip.attnLine_congr (s.finishJob_lineInputs _ _ _)

/-- Settles O55: the value of the line, when it can rise and fall, and what the answers, a consume word and a configure leave. -/
theorem attnLine : Obligations.AttnLine := by
  refine ⟨Chip.attnLine_iff, fun c s t hexec => ?_, fun s p hflight hp a => ⟨_, exec_attentionWriteAnswer hflight a, ?_⟩,
    fun s f v ws hnext => ⟨s.chip.consumeWord, rfl, ?_⟩,
    fun s l addr d hjob hd hnone => ⟨s.chip.configureAttention l, rfl, ?_⟩⟩
  · rw [exec_next hexec]
    exact ⟨Chip.after_raises, Chip.after_falls⟩
  · rintro _ rfl
    refine ⟨Chip.attentionAnswered_of_ends (s := s.chip.endTransaction) hp, fun hdone hnone => ?_⟩
    cases a with
    | fault => exact absurd rfl hdone
    | done data => exact Chip.attentionAnswered_attnLine (s := s.chip.endTransaction) hp hnone
  · rintro _ rfl _ rfl
    rw [← consumeIndex_eq]
    change ((_ ∧ _ ≤ s.chip.attention.occupancy) → _) ∧ (¬(_ ∧ _ ≤ s.chip.attention.occupancy) → _)
    rw [← AttentionState.validConsume_iff]
    exact ⟨fun ⟨hc, hv⟩ => Chip.consumeWord_attnLine_of_valid hnext hc hv, Chip.consumeWord_attnLine_of_ignored hnext⟩
  · rintro _ rfl
    refine ⟨fun ⟨hdone, hidle⟩ => ?_, Chip.configureAttention_attnLine_of_not_taken hjob hd hnone⟩
    obtain ⟨-, -, htaken⟩ := Chip.configureAttention_of_job hjob hd hnone
    rw [htaken hdone hidle]
    exact Chip.takeConfigure_attnLine _ _

end Sys2Proof.Machine

/-! PROOF. A step and the queue of commands (O2). -/

namespace Sys2Proof.Machine

/-- Settles O2: a queue that holds a command takes the second branch of the step. -/
theorem stepRunsFront : Obligations.StepRunsFront := by
  intro c rest s hqueue
  unfold step
  rw [hqueue]

end Sys2Proof.Machine
